-- ==== Sys2Proof/Word.lean ====
section
/-! DEFINITION. The words of the block: a data byte, a descriptor word, a flash address (00_scope R8 `ADDR_W`, R10). -/

namespace Sys2Proof

/-- A byte is 8 bits (R10). -/
abbrev Byte := BitVec 8

/-- A descriptor word W0, W1 or W2 (R83). -/
abbrev Word := BitVec 32

/-- A flash byte address or an identity: 24 bits (R8 `ADDR_W`, R25). -/
abbrev Addr24 := BitVec 24

/-- The flash address space has 2^24 bytes (R50). -/
def flashSize : Nat := 16777216

end Sys2Proof
end

