-- ==== Sys2Proof/Config.lean ====
section
/-! DEFINITION. The configuration `CFG` (00_scope R7, R8), its well-formedness (20_memory R54), the example
configurations of the spec, and the free values of the model. `CFG` is plain data and a field of State, so that a
statement about every state is a statement about every configuration (log 1). -/

namespace Sys2Proof

/-- The three roles of a partition (R8, R51). -/
inductive Role where
  | kernelFs
  | config
  | boot
deriving DecidableEq, Repr

/-- An `AddressPartition` `[start, stop)` with its erase granularity (R51; `stop` is the spec's `end`). -/
structure Partition where
  role : Role
  start : Nat
  stop : Nat
  gran : Nat
deriving DecidableEq, Repr

/-- The table `CFG.PT` has exactly three entries (R51), numbered 0, 1, 2. -/
structure PartTable where
  p0 : Partition
  p1 : Partition
  p2 : Partition
deriving DecidableEq, Repr

/-- `CFG.PT[i]`. -/
def PartTable.get (t : PartTable) : Fin 3 → Partition
  | 0 => t.p0
  | 1 => t.p1
  | 2 => t.p2

/-- `CFG`, field by field as R8 lists it. `opcErase` and `opcEraseElse` together are the function `OPC_ERASE` (log 2). -/
structure Config where
  pt : PartTable
  useFastRead : Bool
  opcIdent : Byte
  /-- `OPC_ERASE(g)` for the granularities listed. -/
  opcErase : List (Nat × Byte)
  /-- `OPC_ERASE(g)` for every other granularity. -/
  opcEraseElse : Byte
  opcProgram : Byte
  opcFastRead : Byte
  opcReadSlow : Byte
  expectedIds : List Addr24
  maxLen : Nat
  nport : Nat
  /-- "OPEN, no rule reads it" (R8). -/
  retryDelay : Nat
  /-- "OPEN, inside the transport" (R8), as are the next two. -/
  boundWb : Nat
  boundRb : Nat
  boundWi : Nat
deriving DecidableEq, Repr

/-- `OPC_ERASE(g)` (R8, R166). -/
def Config.opcEraseOf (c : Config) (g : Nat) : Byte :=
  (c.opcErase.lookup g).getD c.opcEraseElse

/-- The granularities used in `CFG.PT` (R70). -/
def Config.grans (c : Config) : List Nat := [c.pt.p0.gran, c.pt.p1.gran, c.pt.p2.gran]

/-- R54 (a), (c), (d), (e) for one partition. -/
abbrev Partition.wf (p : Partition) : Prop :=
  p.start < p.stop ∧ p.stop ≤ flashSize ∧ 0 < p.gran ∧ p.gran % 256 = 0 ∧
    p.start % p.gran = 0 ∧ p.stop % p.gran = 0

/-- Three partitions listed in ascending order and contiguous (R54 b). -/
abbrev Partition.chain (a b c : Partition) : Prop := a.stop = b.start ∧ b.stop = c.start

/-- R54 (b): in ascending order of `start` the three ranges are contiguous. The table itself may be in any order. -/
abbrev PartTable.contiguous (t : PartTable) : Prop :=
  Partition.chain t.p0 t.p1 t.p2 ∨ Partition.chain t.p0 t.p2 t.p1 ∨ Partition.chain t.p1 t.p0 t.p2 ∨
    Partition.chain t.p1 t.p2 t.p0 ∨ Partition.chain t.p2 t.p0 t.p1 ∨ Partition.chain t.p2 t.p1 t.p0

/-- Well-formedness of a configuration: R54 (a) to (g), and `NPORT >= 1` (R8). -/
abbrev Config.wf (c : Config) : Prop :=
  c.pt.p0.wf ∧ c.pt.p1.wf ∧ c.pt.p2.wf ∧ c.pt.contiguous ∧
    (c.pt.p0.role ≠ c.pt.p1.role ∧ c.pt.p0.role ≠ c.pt.p2.role ∧ c.pt.p1.role ≠ c.pt.p2.role) ∧
    1 ≤ c.maxLen ∧ 1 ≤ c.nport

/-- "The five opcodes are assumed pairwise distinct and distinct from every `OPC_ERASE(g)`" (R70, D23), and erase
opcodes of different granularities differ. It is no part of `Config.wf`: the block's own rules do not need it (log 27). -/
abbrev Config.opcodesDistinct (c : Config) : Prop :=
  [c.opcIdent, c.opcProgram, c.opcFastRead, c.opcReadSlow].Nodup ∧
    (∀ g ∈ c.grans, c.opcEraseOf g ∉ [c.opcIdent, c.opcProgram, c.opcFastRead, c.opcReadSlow]) ∧
    (∀ g ∈ c.grans, ∀ h ∈ c.grans, c.opcEraseOf g = c.opcEraseOf h → g = h)

/-- The example configuration `CFG_S1` of R9. R9 gives the table, `MAX_LEN`, `useFastRead` and `NPORT`; the opcodes are
the "plausible values" of 93 G1 (PRESUMED, log 1), but for the erase opcode of every granularity other than 0x10000 and
0x1000: R8 leaves it OPEN, G1 has none, and 0x52 is the model's (DESIGN CHOICE, log 2); the identity is that of the spec's test vectors (PRESUMED, log 1);
`RETRY_DELAY`, `BOUND_WB`, `BOUND_RB` and `BOUND_WI` are OPEN in R8 and R9 gives no value: 0 in each is the model's
(DESIGN CHOICE, log 18), and no rule reads them. -/
def Config.cfgS1 : Config where
  pt :=
    { p0 := { role := .kernelFs, start := 0, stop := 0xFC0000, gran := 0x10000 }
      p1 := { role := .config, start := 0xFC0000, stop := 0xFE0000, gran := 0x10000 }
      p2 := { role := .boot, start := 0xFE0000, stop := 0x1000000, gran := 0x10000 } }
  useFastRead := true
  opcIdent := 0x9F#8
  opcErase := [(0x10000, 0xD8#8), (0x1000, 0x20#8)]
  opcEraseElse := 0x52#8
  opcProgram := 0x02#8
  opcFastRead := 0x0B#8
  opcReadSlow := 0x03#8
  expectedIds := [0x123456#24]
  maxLen := 0x10000
  nport := 2
  retryDelay := 0
  boundWb := 0
  boundRb := 0
  boundWi := 0

/-- The second configuration of 95_test_vectors.md, `CFG_S2`: a smaller granularity in Config, slow reads. -/
def Config.cfgS2 : Config :=
  { Config.cfgS1 with
    pt := { Config.cfgS1.pt with p1 := { role := .config, start := 0xFC0000, stop := 0xFE0000, gran := 0x1000 } }
    useFastRead := false }

/-! Free values: constants with no body, so that nothing in Lean can evaluate them. Each is applied to a counter of
State, so that every use is a fresh value. -/

/-- "unspecified" identity after a timed-out identification (R129, 93 U5; log 4). -/
opaque Config.freeIdentity : Nat → Addr24

/-- The contents of a scratch buffer that has been released (93 U10; log 5). -/
opaque Config.freeBuffer : Nat → List Byte

/-- "any byte" a read may return (R70, R71, 93 U8; log 12). -/
opaque Config.freeByte : Nat → Byte

/-- Whether an unconstrained environment lets a call time out (R71; log 8). -/
opaque Config.freeTimeout : Nat → Bool

/-- The draw `allocOk` of an unconstrained environment (R33, R41; log 9). -/
opaque Config.freeAlloc : Nat → Bool

/-- Which of several enabled steps is taken next (R142, 93 U2; log 6). -/
opaque Config.freeChoice : Nat → Nat

end Sys2Proof
end

