-- ==== Sys2Proof/Syntax.lean ====
section
/-! DEFINITION. The instructions: the nine rows of spec/opcode_table.json (00_scope R2, 30_encoding R99): four host
commands and five chip frames. An instruction's operands are the fields its encoding carries (and, for WRITE, the
payload that accompanies the descriptor); what a frame reads besides (the byte count of a read) the block "knows from
`LEN`" (R97). -/

namespace Sys2Proof

inductive Instr where
  /-- READ, R191: absolute address and signed byte count. -/
  | read (addr len : Word)
  /-- WRITE, R156: absolute address, signed byte count, payload. -/
  | write (addr len : Word) (payload : List Byte)
  /-- STATUS, R215. -/
  | status
  /-- RESET_STATUS, R216. -/
  | resetStatus
  /-- IDENT frame, R126. -/
  | ident
  /-- ERASE frame, R161: the granularity its opcode stands for, and the erase unit's address. -/
  | erase (gran : Nat) (addr : Addr24)
  /-- PROGRAM frame, R176: the address of the first data byte, and the data bytes. -/
  | program (addr : Addr24) (data : List Byte)
  /-- FAST_READ frame, R192. -/
  | fastRead (addr : Addr24)
  /-- READ_SLOW frame, R192, R195. -/
  | readSlow (addr : Addr24)
deriving DecidableEq, Repr

end Sys2Proof
end

