-- ==== Sys2Proof/Decode.lean ====
section
/-! DEFINITION. The encodings of 30_encoding: the command descriptor of three words (R83 to R85, R95), the frame bytes
(R90, R91), the byte-order helpers, a total decoder that rejects by name, and the encoder written from the same rules. -/

namespace Sys2Proof

/-- The three address bytes of a frame, most significant first (R57, R91). -/
def addrBytes (a : Addr24) : List Byte :=
  [a.extractLsb' 16 8, a.extractLsb' 8 8, a.extractLsb' 0 8]

/-- The address or identity that three bytes stand for, most significant first (R91, R92). -/
def addrOfBytes (b2 b1 b0 : Byte) : Addr24 := b2 ++ b1 ++ b0

/-- The two encoded interfaces of R80: a descriptor (with the payload that accompanies a WRITE), and the bytes a frame
writes between select and deselect. -/
inductive Encoded where
  | descriptor (w0 w1 w2 : Word) (payload : List Byte)
  | frame (bytes : List Byte)
deriving DecidableEq, Repr

/-- Why an encoding is no instruction. -/
inductive DecodeError where
  /-- `W0` is none of 1 to 4 (R95). -/
  | reservedOp (w0 : Word)
  /-- A frame of no bytes. -/
  | emptyFrame
  /-- The first byte is no opcode of `CFG` for a frame of this length (R90). -/
  | unknownOpcode (op : Byte)
  /-- No frame of R90 has this many bytes. -/
  | frameLength (n : Nat)
deriving DecidableEq, Repr

/-- The command of a descriptor (R83, R84). STATUS and RESET_STATUS ignore W1, W2 and the payload, READ ignores the
payload (R85). -/
def decodeDescriptor (w0 w1 w2 : Word) (payload : List Byte) : Except DecodeError Instr :=
  if w0 = 1 then .ok (.read w1 w2)
  else if w0 = 2 then .ok (.write w1 w2 payload)
  else if w0 = 3 then .ok .status
  else if w0 = 4 then .ok .resetStatus
  else .error (.reservedOp w0)

/-- The granularity of `CFG.PT` whose erase opcode is `op` (R70, R166). -/
def eraseGran (c : Config) (op : Byte) : Option Nat :=
  c.grans.find? (fun g => c.opcEraseOf g = op)

/-- The frame of four bytes whose opcode is `op` (R90). -/
def decodeAddressed (c : Config) (op : Byte) (a : Addr24) : Except DecodeError Instr :=
  if op = c.opcFastRead then .ok (.fastRead a)
  else if op = c.opcReadSlow then .ok (.readSlow a)
  else
    match eraseGran c op with
    | some g => .ok (.erase g a)
    | none => .error (.unknownOpcode op)

/-- The frame of the bytes written between select and deselect (R90): IDENT has one byte, ERASE, FAST_READ and
READ_SLOW four, PROGRAM four and 1 or 256 data bytes. -/
def decodeFrame (c : Config) : List Byte → Except DecodeError Instr
  | [] => .error .emptyFrame
  | [op] => if op = c.opcIdent then .ok .ident else .error (.unknownOpcode op)
  | [op, a2, a1, a0] => decodeAddressed c op (addrOfBytes a2 a1 a0)
  | op :: a2 :: a1 :: a0 :: data =>
    if data.length = 1 ∨ data.length = 256 then
      if op = c.opcProgram then .ok (.program (addrOfBytes a2 a1 a0) data) else .error (.unknownOpcode op)
    else .error (.frameLength (data.length + 4))
  | bytes => .error (.frameLength bytes.length)

/-- The decoder, total on every encoding. -/
def decode (c : Config) : Encoded → Except DecodeError Instr
  | .descriptor w0 w1 w2 payload => decodeDescriptor w0 w1 w2 payload
  | .frame bytes => decodeFrame c bytes

/-- The encoder, from R83, R98 (STATUS and RESET_STATUS carry zero words) and R90. -/
def encode (c : Config) : Instr → Encoded
  | .read addr len => .descriptor 1 addr len []
  | .write addr len payload => .descriptor 2 addr len payload
  | .status => .descriptor 3 0 0 []
  | .resetStatus => .descriptor 4 0 0 []
  | .ident => .frame [c.opcIdent]
  | .erase gran addr => .frame (c.opcEraseOf gran :: addrBytes addr)
  | .program addr data => .frame (c.opcProgram :: (addrBytes addr ++ data))
  | .fastRead addr => .frame (c.opcFastRead :: addrBytes addr)
  | .readSlow addr => .frame (c.opcReadSlow :: addrBytes addr)

/-! The call syntax and the pseudo-commands of R98. -/

/-- `read(address, length)`. -/
def callRead (address length : Word) : Encoded := .descriptor 1 address length []

/-- `write(address, data, length)`. -/
def callWrite (address : Word) (data : List Byte) (length : Word) : Encoded := .descriptor 2 address length data

/-- `status()`. -/
def callStatus : Encoded := .descriptor 3 0 0 []

/-- `resetStatus()`. -/
def callResetStatus : Encoded := .descriptor 4 0 0 []

/-- `P.start + offset`, "computed without wrap-around" (R98). DESIGN CHOICE: the spec gives `offset` no type; it is any
integer here, so that it may land in the lower neighbour as well as in the upper (log 22). DEDUCED: no descriptor where
the sum is negative or needs more than 32 bits (log 22). -/
def partAddress (p : Partition) (offset : Int) : Option Word :=
  if 0 ≤ (p.start : Int) + offset ∧ (p.start : Int) + offset < 4294967296 then
    some (BitVec.ofNat 32 ((p.start : Int) + offset).toNat)
  else none

/-- `P.read(offset, length)`. -/
def partRead (p : Partition) (offset : Int) (length : Word) : Option Encoded :=
  (partAddress p offset).map (fun a => callRead a length)

/-- `P.write(offset, bytes)`: no descriptor where the number of bytes is no positive signed word. -/
def partWrite (p : Partition) (offset : Int) (bytes : List Byte) : Option Encoded :=
  if bytes.length < 2147483648 then
    (partAddress p offset).map (fun a => callWrite a bytes (BitVec.ofNat 32 bytes.length))
  else none

/-- The first `n` bytes of a number, least significant first: the first byte of a frame is bits 7..0 of a table word. -/
def bytesOf : Nat → Nat → List Byte
  | 0, _ => []
  | n + 1, w => BitVec.ofNat 8 w :: bytesOf n (w / 256)

/-- How a table word is laid out on its interface (log 20): a descriptor's W0 is bits 31..0, W1 and W2 the bits above
(zero where the table gives no operand words); a frame's bytes are the word's bytes, first byte lowest. A word of 32
bits whose value is a command number is a descriptor. -/
def tableEncoded (nbits w : Nat) : Encoded :=
  if nbits = 96 ∨ (nbits = 32 ∧ 1 ≤ w ∧ w ≤ 4) then
    .descriptor (BitVec.ofNat 32 w) (BitVec.ofNat 32 (w / 4294967296)) (BitVec.ofNat 32 (w / 18446744073709551616)) []
  else .frame (bytesOf (nbits / 8) w)

/-- What the decoder reads from a word numbered as spec/opcode_table.json numbers it, under the reset configuration. -/
def decodeTableWord (nbits w : Nat) : Option Instr :=
  (decode Config.cfgS1 (tableEncoded nbits w)).toOption

end Sys2Proof
end

