-- ==== Sys2Proof/Machine/State.lean ====
section
/-! DEFINITION. State: everything the spec gives the machine (10_state R20 to R42, 20_memory R70), as plain data, the
ways a step can stop, and the state after reset. INVENTORY.md lists every field with its rule and its reset value. -/

namespace Sys2Proof.Machine

/-- `FlashState` (R22). Its 3-bit code is `FlashState.code` (Flags.lean). -/
inductive FlashState where
  | unknown
  | ready
  | reading
  | writing
  | erasing
deriving DecidableEq, Repr

/-- An agent that may hold the token (R20, R23): the identification sequencer or a port engine. -/
inductive Agent where
  | init
  | port (p : Nat)
deriving DecidableEq, Repr

/-- Where a port engine stands (R31). -/
inductive Phase where
  | pIdle
  | pSubmitted
  | pWaitErase
  | pErase
  | pWaitProg
  | pProg
  | pWaitRead
  | pRead
  | pDone
deriving DecidableEq, Repr

/-- Result codes 0 to 5 (R226); codes 6 and 7 are never produced. The 3-bit code is `ResultCode.code` (Flags.lean). -/
inductive ResultCode where
  | ok
  | invalidArgument
  | alignmentError
  | boundaryError
  | transportTimeout
  | allocationFailure
deriving DecidableEq, Repr

/-- The label of `T.wi` (R115). -/
inductive WaitKind where
  | busy
  | fifo
deriving DecidableEq, Repr

/-- A transport event (R118). -/
inductive Event where
  | sel
  | desel
  | wb (b : Byte)
  | rb
  | wi (kind : WaitKind)
deriving DecidableEq, Repr

/-- What a primitive answers (R111 to R117). -/
inductive Answer where
  | ok
  | byte (b : Byte)
  | timeout
deriving DecidableEq, Repr

/-- One answer the environment will give (R41): as the environment in force answers, a timeout, or a given byte. `byte`
at a call that returns no byte is the answer `ok`. -/
inductive Draw where
  | normal
  | timeout
  | byte (b : Byte)
deriving DecidableEq, Repr

/-- The two environments: `ENV_REF` (R70) and `ENV_ANY` (R71). -/
inductive EnvKind where
  | ref
  | any
deriving DecidableEq, Repr

/-- A flash array in one canonical form (`Mem.wf`): addresses strictly rising, no entry equal to the erased byte. -/
abbrev Mem := List Host.Cell

/-- The reference chip of R70: the flash array `FL`, `CHIP_ID`, the bytes since the last `T.sel()`, and how many
`T.rb()` of the frame it has answered. -/
structure Chip where
  fl : Mem
  chipId : Addr24
  frame : List Byte
  reads : Nat
deriving DecidableEq, Repr

/-- The environment (R6, R41, R70, R71): which one it is, the answers and allocation draws it will give first, and the
reference chip. -/
structure Env where
  kind : EnvKind
  draws : List Draw
  allocs : List Bool
  chip : Chip
deriving DecidableEq, Repr

/-- The context `ctx[p]` of a port (R30). -/
structure Ctx where
  op : Word
  addr : Word
  len : Word
  payload : List Byte
  part : Option (Fin 3)
  phase : Phase
  k : Nat
  ev : Nat
  buf : List Byte
  bufHeld : Bool
  result : ResultCode
  count : Word
  rdata : List Byte
deriving DecidableEq, Repr

/-- A completion record `CPL` (R88), with the port it came from. -/
structure Completion where
  port : Nat
  result : ResultCode
  count : Word
  rdata : List Byte
deriving DecidableEq, Repr

/-- One transport call that was made: by whom, in which hold (numbered from 1; identification is 0), and its answer. -/
structure Call where
  agent : Agent
  hold : Nat
  event : Event
  answer : Answer
deriving DecidableEq, Repr

/-- One turn of the schedule: a step of R36, or `run a`, which runs the whole instruction at which agent `a` stands
(R40; log 13). A turn whose step is not enabled passes and changes nothing (log 7). -/
inductive Turn where
  | submit (p : Nat) (w0 w1 w2 : Word) (payload : List Byte)
  | collect (p : Nat)
  | initEvent
  | decode (p : Nat)
  | acquire (p : Nat)
  | event (p : Nat)
  | run (a : Agent)
deriving DecidableEq, Repr, Inhabited

/-- What comes when the laid-down turns are used up (R41, R142). DESIGN CHOICE: three kinds of schedule (log 6). -/
inductive Later where
  /-- A step of the block that is enabled, if there is one. This is an assumption of progress: a claim that needs it says
  so. -/
  | enabled
  /-- These turns, again and again for ever: the host goes on, and a waiting port may be passed over for ever (R142). -/
  | again (turns : List Turn)
  /-- Any turn at all, a free value: of the schedule and of the host nothing is known. -/
  | any
deriving DecidableEq, Repr

end Sys2Proof.Machine

namespace Sys2Proof

/-- Which turn comes next where nothing is known of the schedule (R142, 93 U2): a free value, with no body, beside those of
Config.lean (log 6). -/
opaque Config.freeTurn : Nat → Machine.Turn

end Sys2Proof

namespace Sys2Proof.Machine

structure State where
  /-- `CFG`, constant from reset on (R7). -/
  cfg : Config
  /-- `csr.FSTATE` (R22). -/
  fstate : FlashState
  /-- `OWNER` (R23). -/
  owner : Option Agent
  /-- `SEL` (R24). -/
  sel : Bool
  /-- `csr.IDENTITY` (R25). -/
  identity : Addr24
  /-- `csr.DIAG` (R21, R25). -/
  diag : BitVec 3
  /-- `csr.XFER_COUNT` (R26). -/
  xferCount : Word
  /-- The position of the `INIT` sequencer (R127). -/
  initEv : Nat
  /-- The identity accumulator `acc` (R127). -/
  initAcc : Addr24
  /-- `ctx[0 .. NPORT-1]` (R30, R243). -/
  ctx : List Ctx
  /-- The environment (R70, R71). -/
  env : Env
  /-- The model's own: the turns to come (log 6). -/
  sched : List Turn
  /-- The model's own: the turns after those (log 6). -/
  later : Later
  /-- The model's own: the agent whose instruction `exec` runs (log 13). -/
  active : Agent
  /-- The model's own: the counter free values are applied to (log 4). -/
  freeIx : Nat
  /-- The model's own: how many holds have begun (log 21). -/
  holdNo : Nat
  /-- Observation: every transport call so far, oldest first (R6 a). -/
  trace : List Call
  /-- Observation: every completion record the host has collected, oldest first (R6 b). -/
  host : List Completion
deriving DecidableEq, Repr

/-- A stop of the machine. -/
inductive Fault where
  /-- Raised by the reference chip alone, when a frame makes it read, erase or program a byte at or above 2^24, which
  does not exist (R50, R70). No frame that validation lets through does so (R16). Safe: the machine stops (log 16). -/
  | flashAbsent
deriving DecidableEq, Repr

/-- No meaning is given. -/
inductive Refusal where
  /-- Raised by an arm of `exec` whose instruction has no meaning yet (none is left). Safe. -/
  | notModelled (mnemonic : String)
  /-- Raised by `step` when `CFG` breaks R54: "the block's behaviour under a configuration that breaks it is not
  specified" (93 U6, "refuse"). Safe (log 15). -/
  | configIllFormed
  /-- Raised by a WRITE that passed validation and allocation with a payload shorter than `LEN` (93 U11, "refuse": the
  host owes at least `LEN` bytes, R37). Safe (log 14). -/
  | payloadShort
deriving DecidableEq, Repr

/-- A port context at reset (R42; the values R42 leaves unspecified are named in log 3). -/
def Ctx.reset : Ctx where
  op := 0
  addr := 0
  len := 0
  payload := []
  part := none
  phase := .pIdle
  k := 0
  ev := 0
  buf := []
  bufHeld := false
  result := .ok
  count := 0
  rdata := []

/-- The reference chip at reset: nothing listed in `FL`, so every byte is erased (log 10). -/
def Chip.reset : Chip where
  fl := []
  chipId := 0x123456
  frame := []
  reads := 0

/-- The environment at reset: `ENV_REF`, no answer replaced (log 8, log 9). -/
def Env.reset : Env where
  kind := .ref
  draws := []
  allocs := []
  chip := Chip.reset

/-- The machine right after reset under a configuration (R42, R255). -/
def State.resetWith (c : Config) : State where
  cfg := c
  fstate := .unknown
  owner := some .init
  sel := false
  identity := 0
  diag := 0
  xferCount := 0
  initEv := 0
  initAcc := 0
  ctx := List.replicate c.nport Ctx.reset
  env := Env.reset
  sched := []
  later := .enabled
  active := .init
  freeIx := 0
  holdNo := 0
  trace := []
  host := []

/-- The machine right after reset, under the example configuration `CFG_S1` (R9; log 1). -/
def State.reset : State := State.resetWith Config.cfgS1

end Sys2Proof.Machine
end

