-- ==== Sys2Proof/Machine/Memory.lean ====
section
/-! DEFINITION. The flash array `FL` (20 R50, R59, R70): byte reads and writes on a list in canonical form. Every access
is one byte wide. What an unlisted address reads as is the erased byte (log 10). -/

namespace Sys2Proof.Machine

/-- An erased byte reads 0xFF (R70, 93 G2), and so does an address that is not listed. -/
def erasedByte : Byte := 0xFF

/-- The canonical form: addresses strictly rising and below 2^24, no entry equal to what an unlisted address reads as. -/
abbrev Mem.wf (m : Mem) : Prop :=
  List.Pairwise (fun x y : Host.Cell => x.1 < y.1) m ∧ ∀ x ∈ m, x.2 ≠ erasedByte ∧ x.1 < flashSize

/-- `MemRead(addr, 1)`. -/
def Mem.read : Mem → Nat → Byte
  | [], _ => erasedByte
  | (k, v) :: m, a => if k = a then v else Mem.read m a

/-- `MemWrite(addr, 1, v)`. -/
def Mem.write : Mem → Nat → Byte → Mem
  | [], a, v => if v = erasedByte then [] else [(a, v)]
  | (k, w) :: m, a, v =>
    if k < a then (k, w) :: Mem.write m a v
    else if k = a then (if v = erasedByte then m else (a, v) :: m)
    else (if v = erasedByte then (k, w) :: m else (a, v) :: (k, w) :: m)

/-- `MemWrite(base + i, 1, 0xFF)` for `i` in `0 .. n-1` (R70). -/
def Mem.erase (m : Mem) (base n : Nat) : Mem :=
  m.filter (fun x => decide (x.1 < base ∨ base + n ≤ x.1))

/-- `MemWrite(A + j, 1, MemRead(A + j, 1) AND D[j])` for every `j` (R70). -/
def Mem.program : Mem → Nat → List Byte → Mem
  | m, _, [] => m
  | m, a, d :: ds => Mem.program (Mem.write m a (Mem.read m a &&& d)) (a + 1) ds

end Sys2Proof.Machine
end

