-- ==== Sys2Proof/Machine/Environment.lean ====
section
/-! DEFINITION. The environment: the reference chip of `ENV_REF` (20 R70), the unconstrained environment `ENV_ANY` (R71),
and the draws a step takes from them (10_state R41). -/

namespace Sys2Proof.Machine

/-- What the reference chip returns for one `T.rb()`. -/
inductive ChipRead where
  | byte (b : Byte)
  /-- "any byte". -/
  | anyByte
  /-- A byte of `FL` at or above 2^24, which does not exist (log 16). -/
  | absent
deriving DecidableEq, Repr

/-- `MemRead(a, 1)` by the chip. -/
def Chip.flash (c : Chip) (a : Nat) : ChipRead :=
  if a < flashSize then .byte (c.fl.read a) else .absent

/-- `T.sel()` empties the frame (R70). -/
def Chip.sel (c : Chip) : Chip := { c with frame := [], reads := 0 }

/-- `T.wb(b)` appends the byte (R70). -/
def Chip.accept (c : Chip) (b : Byte) : Chip := { c with frame := c.frame ++ [b] }

/-- `T.rb()` has been answered. -/
def Chip.countRead (c : Chip) : Chip := { c with reads := c.reads + 1 }

/-- What `T.rb()` returns, by the frame so far and the number of reads before (R70). -/
def Chip.answer (cfg : Config) (c : Chip) : ChipRead :=
  match c.frame with
  | [op] =>
    if op = cfg.opcIdent then
      match (addrBytes c.chipId)[c.reads]? with
      | some b => .byte b
      | none => .anyByte
    else .anyByte
  | [op, a2, a1, a0] =>
    let a := (addrOfBytes a2 a1 a0).toNat
    if op = cfg.opcFastRead then
      (if c.reads = 0 then .anyByte else c.flash (a + c.reads - 1))
    else if op = cfg.opcReadSlow then c.flash (a + c.reads)
    else .anyByte
  | _ => .anyByte

/-- `T.desel()` carries the frame out (R70): an ERASE frame of four bytes erases its unit, a PROGRAM frame of five bytes
or more ANDs its data in, any other has no effect. None where a byte at or above 2^24 would be written (log 16). -/
def Chip.desel (cfg : Config) (c : Chip) : Option Chip :=
  match c.frame with
  | [op, a2, a1, a0] =>
    match eraseGran cfg op with
    | some g =>
      let a := (addrOfBytes a2 a1 a0).toNat
      if a - a % g + g ≤ flashSize then some { c with fl := c.fl.erase (a - a % g) g } else none
    | none => some c
  | op :: a2 :: a1 :: a0 :: d :: ds =>
    if op = cfg.opcProgram then
      let a := (addrOfBytes a2 a1 a0).toNat
      if a + (d :: ds).length ≤ flashSize then some { c with fl := c.fl.program a (d :: ds) } else none
    else some c
  | _ => some c

/-- The reference chip sees a call only where the environment is `ENV_REF`: of `ENV_ANY` nothing is known (log 11). -/
def Env.onChip (e : Env) (f : Chip → Chip) : Env :=
  match e.kind with
  | .ref => { e with chip := f e.chip }
  | .any => e

/-- The chip's part of `T.desel()`. -/
def Env.desel (cfg : Config) (e : Env) : Option Env :=
  match e.kind with
  | .ref => (e.chip.desel cfg).map (fun c => { e with chip := c })
  | .any => some e

/-- Take the next free-value number. -/
def State.fresh (s : State) : Nat × State := (s.freeIx, { s with freeIx := s.freeIx + 1 })

/-- The environment's next answer: the first of the answers laid down, or else the environment's own: `ENV_REF` never
times out (R70), `ENV_ANY` may at any call (R71). -/
def State.draw (s : State) : Draw × State :=
  match s.env.draws with
  | d :: ds => (d, { s with env := { s.env with draws := ds } })
  | [] =>
    match s.env.kind with
    | .ref => (.normal, s)
    | .any => (if Config.freeTimeout s.freeIx then .timeout else .normal, { s with freeIx := s.freeIx + 1 })

/-- The draw `allocOk` (R33): the first of the draws laid down, or else true in `ENV_REF` and free in `ENV_ANY` (log 9). -/
def State.drawAlloc (s : State) : Bool × State :=
  match s.env.allocs with
  | b :: bs => (b, { s with env := { s.env with allocs := bs } })
  | [] =>
    match s.env.kind with
    | .ref => (true, s)
    | .any => (Config.freeAlloc s.freeIx, { s with freeIx := s.freeIx + 1 })

/-- The byte a `T.rb()` that does not time out returns when no byte was laid down: the chip's in `ENV_REF`, any byte in
`ENV_ANY` and where R70 says "any byte" (log 12). None where the byte does not exist. -/
def State.readByte (s : State) : Option (Byte × State) :=
  match s.env.kind with
  | .ref =>
    match s.env.chip.answer s.cfg with
    | .byte b => some (b, s)
    | .anyByte => some (Config.freeByte s.freeIx, { s with freeIx := s.freeIx + 1 })
    | .absent => none
  | .any => some (Config.freeByte s.freeIx, { s with freeIx := s.freeIx + 1 })

end Sys2Proof.Machine
end

