-- ==== Sys2Proof/Machine/Flags.lean ====
section
/-! DEFINITION. The codes and status bits: `FSTATE` and `RESULT` codes, the `DIAG` bits, the identity accumulator and
the counter's arithmetic (10_state R21 to R27, 41 R127, R128, 46 R217, 60 R226). -/

namespace Sys2Proof.Machine

/-- The 3-bit code of `csr.FSTATE` (R22); 5, 6, 7 are unreachable. -/
def FlashState.code : FlashState → BitVec 3
  | .unknown => 0
  | .ready => 1
  | .reading => 2
  | .writing => 3
  | .erasing => 4

/-- The 3-bit code of `ctx[p].RESULT` (R226); 6, 7 are never produced. -/
def ResultCode.code : ResultCode → BitVec 3
  | .ok => 0
  | .invalidArgument => 1
  | .alignmentError => 2
  | .boundaryError => 3
  | .transportTimeout => 4
  | .allocationFailure => 5

/-- A state in which a port holds the token (R14 "Hold"). -/
def FlashState.busy : FlashState → Bool
  | .reading => true
  | .writing => true
  | .erasing => true
  | .unknown => false
  | .ready => false

/-- `csr.DIAG` from its bits: bit 0 `ID_VALID`, bit 1 `ID_MISMATCH`, bit 2 `ID_TIMEOUT` (R21). -/
def diagOf (valid mismatch timeout : Bool) : BitVec 3 :=
  BitVec.ofBool timeout ++ BitVec.ofBool mismatch ++ BitVec.ofBool valid

/-- `csr.DIAG.ID_VALID`. -/
def State.idValid (s : State) : Bool := s.diag.getLsbD 0
/-- `csr.DIAG.ID_MISMATCH`. -/
def State.idMismatch (s : State) : Bool := s.diag.getLsbD 1
/-- `csr.DIAG.ID_TIMEOUT`. -/
def State.idTimeout (s : State) : Bool := s.diag.getLsbD 2

/-- `csr.DIAG` at the end of identification: valid, and a mismatch when the identity is not expected (R128). -/
def diagIdentified (c : Config) (id : Addr24) : BitVec 3 :=
  diagOf true (!c.expectedIds.contains id) false

/-- `csr.DIAG` after a timeout in identification (R129). -/
def diagTimedOut : BitVec 3 := diagOf false false true

/-- `acc <- (acc << 8 | b)[23:0]` (R127). -/
def accumulate (acc : Addr24) (b : Byte) : Addr24 := (acc <<< 8) ||| b.zeroExtend 24

/-- `(csr.XFER_COUNT + LEN) mod 2^32` (R217). -/
def countAdd (count len : Word) : Word := count + len

/-- The three diagnostic outputs as the host sees them (R21, R272): the `FSTATE` code, `IDENTITY`, `DIAG`. -/
structure Observation where
  fstate : BitVec 3
  identity : Addr24
  diag : BitVec 3
deriving DecidableEq, Repr

/-- What the host may observe at any time, read-only (R21, R272). -/
def State.observe (s : State) : Observation := ⟨s.fstate.code, s.identity, s.diag⟩

end Sys2Proof.Machine
end

