-- ==== Sys2Proof/Machine/Operands.lean ====
section
/-! DEFINITION. The operand forms: lengths and addresses the engines compute (00_scope R16), and the event lists of the
frames and holds (41 R126, 43 R161, 44 R176, R177, 45 R192). -/

namespace Sys2Proof.Machine

/-- `ceil(a / b)` for positive integers (R10). -/
def ceilDiv (a b : Nat) : Nat := (a + b - 1) / b

/-- `LEN` of a context as the engines use it, after validation has shown it positive (R16). -/
def Ctx.lenNat (c : Ctx) : Nat := c.len.toInt.toNat

/-- The owning partition of a context, latched in `PART` (R30). -/
def Ctx.partition (cfg : Config) (c : Ctx) : Option Partition := c.part.map cfg.pt.get

/-- `G`, the granularity of the owning partition (R156); no granularity where no partition is latched. -/
def Ctx.gran (cfg : Config) (c : Ctx) : Nat := ((c.partition cfg).map Partition.gran).getD 0

/-- Whether the owning partition has role Config (R180, R193). -/
def Ctx.inConfig (cfg : Config) (c : Ctx) : Bool := (c.partition cfg).map Partition.role == some Role.config

/-- `N = ceil(LEN / G)`, the number of erase units of a WRITE (R160). -/
def Ctx.eraseUnits (cfg : Config) (c : Ctx) : Nat := ceilDiv c.lenNat (c.gran cfg)

/-- A flash address the engines compute, as the 24 bits a frame carries (R16 (2): it fits exactly). -/
def flashAddr (base : Word) (offset : Nat) : Addr24 := BitVec.ofNat 24 (base.toNat + offset)

/-- Opcode and address, the opening of every addressed frame (R90). -/
def frameHead (op : Byte) (a : Addr24) : List Event :=
  .sel :: .wb op :: (addrBytes a).map Event.wb

/-- `identFrame` (R126). -/
def identFrame (cfg : Config) : List Event := [.sel, .wb cfg.opcIdent, .rb, .rb, .rb, .desel]

/-- `eraseFrame(g, A)` (R161). -/
def eraseFrame (cfg : Config) (g : Nat) (a : Addr24) : List Event :=
  frameHead (cfg.opcEraseOf g) a ++ [.desel, .wi .busy]

/-- The data bytes of a program cycle, numbered from `j`, with `Wi(fifo)` after each number `j mod 16 = 15` (R176). -/
def dataEvents : Nat → List Byte → List Event
  | _, [] => []
  | j, b :: bs => .wb b :: ((if j % 16 = 15 then [.wi .fifo] else []) ++ dataEvents (j + 1) bs)

/-- `progCycle(A, d, n)` with `n` the number of data bytes (R176). -/
def progCycle (cfg : Config) (a : Addr24) (d : List Byte) : List Event :=
  frameHead cfg.opcProgram a ++ dataEvents 0 d ++ [.desel, .wi .busy]

/-- The operands of the program cycles of a WRITE in order: the full cycles, then the tail cycles (R177). -/
def progOperands (addr : Word) (buf : List Byte) (len : Nat) : List (Addr24 × List Byte) :=
  (List.range (len / 256)).map (fun c => (flashAddr addr (256 * c), (buf.drop (256 * c)).take 256)) ++
    (List.range (len % 256)).map (fun t =>
      (flashAddr addr (256 * (len / 256) + t), (buf.drop (256 * (len / 256) + t)).take 1))

/-- `progList(ADDR, BUF, LEN)` (R177). -/
def progList (cfg : Config) (addr : Word) (buf : List Byte) (len : Nat) : List Event :=
  (progOperands addr buf len).flatMap (fun o => progCycle cfg o.1 o.2)

/-- `readFrame(A, n)` with the opcode and the dummy byte of the frame kind (R192, R195). -/
def readFrame (op : Byte) (dummy : Bool) (a : Addr24) (n : Nat) : List Event :=
  frameHead op a ++ (if dummy then [.rb] else []) ++ List.replicate n .rb ++ [.desel]

/-- The address of erase unit `K` of a context (R160). -/
def Ctx.eraseAddr (cfg : Config) (c : Ctx) : Addr24 := flashAddr c.addr (c.k * c.gran cfg)

/-- The event list of the hold a context is in (R118): by its phase; no list outside a hold or without a partition. -/
def Ctx.holdList (cfg : Config) (c : Ctx) : List Event :=
  if c.part = none then []
  else
    match c.phase with
    | .pErase => eraseFrame cfg (c.gran cfg) (c.eraseAddr cfg)
    | .pProg => progList cfg c.addr c.buf c.lenNat
    | .pRead =>
      if cfg.useFastRead then readFrame cfg.opcFastRead true (flashAddr c.addr 0) c.lenNat
      else readFrame cfg.opcReadSlow false (flashAddr c.addr 0) c.lenNat
    | _ => []

/-- The program cycle that begins at event `ev` of a program hold, if one does. -/
def cycleAt : List (Addr24 × List Byte) → Nat → Option (Addr24 × List Byte)
  | [], _ => none
  | o :: os, ev =>
    if ev = 0 then some o
    else
      let n := 7 + (dataEvents 0 o.2).length
      if ev < n then none else cycleAt os (ev - n)

end Sys2Proof.Machine
end

