-- ==== Sys2Proof/Machine/Ops.lean ====
section
/-! DEFINITION. The named operations every engine uses: port registers, host steps (10_state R37), `finish` (R38), the
token (42 R139, R141), the transport primitives (40 R111 to R117), the failure path (60 R232, the block's "trap entry";
there is no return from it, R238), and the event runner (40 R118). -/

namespace Sys2Proof.Machine

/-- The three outcomes of a step. -/
abbrev Result := Host.Outcome State Fault Refusal

/-- Go on from a next state. -/
def andThen (r : Result) (f : State → Result) : Result :=
  match r with
  | .next s => f s
  | .fault e => .fault e
  | .refused e => .refused e

/-! ## Port registers -/

/-- `ctx[p]` (R30). A port number that does not exist (`p ≥ NPORT`) reads as an idle port and cannot be written. -/
def State.port (s : State) (p : Nat) : Ctx := (s.ctx[p]?).getD Ctx.reset

/-- Write registers of `ctx[p]`. -/
def State.setPort (s : State) (p : Nat) (f : Ctx → Ctx) : State := { s with ctx := s.ctx.modify p f }

/-! ## The end of a command -/

/-- The buffer is "released on every exit path" (R33, R38); what it holds afterwards is a free value (log 5). -/
def State.releaseBuffer (s : State) (p : Nat) : State :=
  if (s.port p).bufHeld then
    { s.setPort p (fun c => { c with bufHeld := false, buf := Config.freeBuffer s.freeIx }) with
      freeIx := s.freeIx + 1 }
  else s

/-- The command number of READ (R83). -/
def opRead : Word := 1

/-- `finish(p, code, count)` (R38). -/
def State.finish (s : State) (p : Nat) (code : ResultCode) (count : Word) : State :=
  (s.releaseBuffer p).setPort p (fun c =>
    { c with
      result := code
      count := count
      rdata := if code ≠ .ok ∨ c.op ≠ opRead then [] else c.rdata
      phase := .pDone })

/-! ## Host steps -/

/-- `submit(p, W0, W1, W2, payload)`, enabled when the port is idle (R36, R37). -/
def State.submit (s : State) (p : Nat) (w0 w1 w2 : Word) (payload : List Byte) : State :=
  if (s.port p).phase = .pIdle then
    s.setPort p (fun c =>
      { c with
        op := w0
        addr := w1
        len := w2
        payload := payload
        part := none
        k := 0
        ev := 0
        rdata := []
        phase := .pSubmitted })
  else s

/-- `collect(p)`, enabled when the port is done: the host gets the record and the port is idle (R36, R37). -/
def State.collect (s : State) (p : Nat) : State :=
  if (s.port p).phase = .pDone then
    { s.setPort p (fun c => { c with phase := .pIdle }) with
      host := s.host ++ [⟨p, (s.port p).result, (s.port p).count, (s.port p).rdata⟩] }
  else s

/-! ## The token -/

/-- The busy state and the phase a waiting port acquires (R139, R140). -/
def acquireTarget : Phase → Option (FlashState × Phase)
  | .pWaitErase => some (.erasing, .pErase)
  | .pWaitProg => some (.writing, .pProg)
  | .pWaitRead => some (.reading, .pRead)
  | .pIdle => none
  | .pSubmitted => none
  | .pErase => none
  | .pProg => none
  | .pRead => none
  | .pDone => none

/-- Whether `acquire` is enabled for the port (R36, R139). -/
def State.canAcquire (s : State) (p : Nat) : Bool :=
  (acquireTarget (s.port p).phase).isSome && decide (s.fstate = .ready)

/-- `acquire(p, s)`: test Ready and set the busy state in one step (R139). Not enabled, it is the cooperative wait: the
port stays where it is (R138). The number of the hold is the model's own (log 21). -/
def State.acquire (s : State) (p : Nat) : State :=
  if s.fstate = .ready then
    match acquireTarget (s.port p).phase with
    | some (busy, phase) =>
      { s.setPort p (fun c => { c with ev := 0, phase := phase }) with
        fstate := busy
        owner := some (.port p)
        holdNo := s.holdNo + 1 }
    | none => s
  else s

/-- `release(p)` (R141), and the token's part of the failure path (R232). -/
def State.release (s : State) : State := { s with fstate := .ready, owner := none }

/-! ## The transport -/

/-- Note a call in the trace. -/
def State.logCall (s : State) (a : Agent) (e : Event) (r : Answer) : State :=
  { s with trace := s.trace ++ [⟨a, s.holdNo, e, r⟩] }

/-- `T.sel()` (R111): it cannot time out. -/
def selCall (a : Agent) (s : State) : State :=
  State.logCall { s with sel := true, env := s.env.onChip Chip.sel } a .sel .ok

/-- `T.desel()` (R112): it cannot time out (R117). -/
def deselCall (a : Agent) (s : State) : Except Fault State :=
  match s.env.desel s.cfg with
  | some env => .ok (State.logCall { s with sel := false, env := env } a .desel .ok)
  | none => .error .flashAbsent

/-- `T.wb(b)` (R113). A byte whose write timed out is not taken to have reached the chip (R70). -/
def wbCall (a : Agent) (b : Byte) (s : State) : Answer × State :=
  match s.draw with
  | (.timeout, s1) => (.timeout, s1.logCall a (.wb b) .timeout)
  | (_, s1) => (.ok, State.logCall { s1 with env := s1.env.onChip (fun c => c.accept b) } a (.wb b) .ok)

/-- `T.wi(kind)` (R115). -/
def wiCall (a : Agent) (k : WaitKind) (s : State) : Answer × State :=
  match s.draw with
  | (.timeout, s1) => (.timeout, s1.logCall a (.wi k) .timeout)
  | (_, s1) => (.ok, s1.logCall a (.wi k) .ok)

/-- `T.rb()` has returned a byte. -/
def rbAnswer (a : Agent) (b : Byte) (s : State) : Answer × State :=
  (.byte b, State.logCall { s with env := s.env.onChip Chip.countRead } a .rb (.byte b))

/-- `T.rb()` (R114). -/
def rbCall (a : Agent) (s : State) : Except Fault (Answer × State) :=
  match s.draw with
  | (.timeout, s1) => .ok (.timeout, s1.logCall a .rb .timeout)
  | (.byte b, s1) => .ok (rbAnswer a b s1)
  | (.normal, s1) =>
    match s1.readByte with
    | some (b, s2) => .ok (rbAnswer a b s2)
    | none => .error .flashAbsent

/-- Perform one transport event (R118). -/
def transport (a : Agent) (e : Event) (s : State) : Except Fault (Answer × State) :=
  match e with
  | .sel => .ok (.ok, selCall a s)
  | .desel => (deselCall a s).map (fun s1 => (.ok, s1))
  | .wb b => .ok (wbCall a b s)
  | .rb => rbCall a s
  | .wi k => .ok (wiCall a k s)

/-- `if SEL = 1 then T.desel()` (R129, R232). -/
def deselIfSelected (a : Agent) (s : State) : Except Fault State :=
  if s.sel then deselCall a s else .ok s

/-! ## Holds -/

/-- The failure path inside a hold, "trap entry": deselect if owed, token to Ready, finish (R232). -/
def failHold (p : Nat) (s : State) : Result :=
  match deselIfSelected (.port p) s with
  | .error f => .fault f
  | .ok s1 => .next (s1.release.finish p .transportTimeout 0)

/-- The counter update at the successful end of a READ or WRITE on the Config partition (R26, R180, R191). -/
def State.creditTransfer (s : State) (p : Nat) : State :=
  if (s.port p).inConfig s.cfg then { s with xferCount := countAdd s.xferCount (s.port p).len } else s

/-- The end of a READ or WRITE hold that completes the command: release, count, finish (R180, R193). -/
def State.completeTransfer (s : State) (p : Nat) : State :=
  (s.release.creditTransfer p).finish p .ok (s.port p).len

/-- The end of an erase hold: release, next unit or the program phase (R162). -/
def State.endErase (s : State) (p : Nat) : State :=
  s.release.setPort p (fun c =>
    { c with k := c.k + 1, phase := if c.k + 1 < c.eraseUnits s.cfg then .pWaitErase else .pWaitProg })

/-- The hold's end action by its phase (R118). -/
def State.endHold (s : State) (p : Nat) : State :=
  match (s.port p).phase with
  | .pErase => s.endErase p
  | .pProg => s.completeTransfer p
  | .pRead => s.completeTransfer p
  | .pIdle => s
  | .pSubmitted => s
  | .pWaitErase => s
  | .pWaitProg => s
  | .pWaitRead => s
  | .pDone => s

/-- The index of the dummy byte's event in a fast-read frame (R192). -/
def dummyEvent : Nat := 5

/-- Deliver an answer to the hold's consumer (R118): a READ appends the byte to `RDATA`, but for the dummy byte. -/
def State.deliver (s : State) (p : Nat) : Answer → State
  | .byte b =>
    if (s.port p).phase = .pRead ∧ ¬ (s.cfg.useFastRead = true ∧ (s.port p).ev = dummyEvent) then
      s.setPort p (fun c => { c with rdata := c.rdata ++ [b] })
    else s
  | .ok => s
  | .timeout => s

/-- `EV <- EV + 1`, and the end action after the last event (R118). -/
def State.advanceEv (s : State) (p : Nat) (total : Nat) : State :=
  if (s.port p).ev + 1 = total then (s.setPort p (fun c => { c with ev := c.ev + 1 })).endHold p
  else s.setPort p (fun c => { c with ev := c.ev + 1 })

/-- `event(p)` for an event `e` of a hold of `total` events (R118). -/
def eventStep (p total : Nat) (e : Event) (s : State) : Result :=
  match transport (.port p) e s with
  | .error f => .fault f
  | .ok (.timeout, s1) => failHold p s1
  | .ok (ans, s1) => .next ((s1.deliver p ans).advanceEv p total)

/-- The events of a list, one after another, for as long as the port holds the token (R118). -/
def runEvents (p total : Nat) : List Event → State → Result
  | [], s => .next s
  | e :: es, s =>
    if s.owner = some (.port p) then andThen (eventStep p total e s) (runEvents p total es) else .next s

/-- A frame of the port's current hold. -/
def runFrame (p : Nat) (frame : List Event) (s : State) : Result :=
  runEvents p ((s.port p).holdList s.cfg).length frame s

/-- The whole of the port's current hold (R40). -/
def runHold (p : Nat) (s : State) : Result := runFrame p ((s.port p).holdList s.cfg) s

/-- Up to `n` holds of the port, each taken as soon as it can acquire, with no other agent in between (R156, R191). -/
def runHolds (p : Nat) : Nat → State → Result
  | 0, s => .next s
  | n + 1, s =>
    if s.canAcquire p then andThen (runHold p (s.acquire p)) (runHolds p n) else .next s

end Sys2Proof.Machine
end

