-- ==== Sys2Proof/Machine/Validator.lean ====
section
/-! DEFINITION. The sub-block `address_partition_validator` (46 R200 to R211) and the partition lookup (20 R52).
Validation is a pure function of `CFG`, `ADDR` and `LEN` (R201), on mathematical integers (R10, R16): `ADDR` is the
unsigned value of its word and `LEN` the signed value of its word (R84). -/

namespace Sys2Proof.Machine

/-- `[start, end)` contains the address. -/
def contains (p : Partition) (a : Nat) : Bool := decide (p.start ≤ a ∧ a < p.stop)

/-- `owner(addr)`: the partition that contains the address (R52). -/
def owner (c : Config) (a : Nat) : Option (Fin 3) :=
  if contains c.pt.p0 a then some 0
  else if contains c.pt.p1 a then some 1
  else if contains c.pt.p2 a then some 2
  else none

/-- `validate_write(ADDR, LEN)`, the checks in the order of R203. -/
def validateWrite (c : Config) (addr len : Word) : ResultCode :=
  if len.toInt ≤ 0 then .invalidArgument
  else
    match owner c addr.toNat with
    | none => .invalidArgument
    | some i =>
      if (c.pt.get i).role = .boot then .boundaryError
      else if ((c.pt.get i).stop : Int) < addr.toNat + len.toInt then .boundaryError
      else if addr.toNat % (c.pt.get i).gran ≠ 0 then .alignmentError
      else if (c.maxLen : Int) < len.toInt then .invalidArgument
      else .ok

/-- `validate_read(ADDR, LEN)`, the checks in the order of R210. -/
def validateRead (c : Config) (addr len : Word) : ResultCode :=
  if len.toInt ≤ 0 then .invalidArgument
  else
    match owner c addr.toNat with
    | none => .invalidArgument
    | some i =>
      if ((c.pt.get i).stop : Int) < addr.toNat + len.toInt then .boundaryError
      else if (c.maxLen : Int) < len.toInt then .invalidArgument
      else .ok

end Sys2Proof.Machine
end

