-- ==== Sys2Proof/Machine/Fetch.lean ====
section
/-! DEFINITION. Where an agent stands: the instruction whose first step is the agent's next one (10_state R31: `PHASE`
and `EV` with `FSTATE` play the part of a program counter), and how a table word is placed there (log 19). -/

namespace Sys2Proof.Machine

/-- Whether a port is inside a hold of its own (R36 `event`). -/
def State.holds (s : State) (p : Nat) : Bool := decide (s.owner = some (.port p)) && (s.port p).part.isSome

/-- The instruction at which a port stands: the command of its submitted descriptor (R36 `decode`), or the frame of its
hold that begins at event `EV` (R118, R161, R177, R192). -/
def State.fetchPort (s : State) (p : Nat) : Option Instr :=
  let c := s.port p
  match c.phase with
  | .pSubmitted => (decodeDescriptor c.op c.addr c.len c.payload).toOption
  | .pErase => if s.holds p && c.ev == 0 then some (.erase (c.gran s.cfg) (c.eraseAddr s.cfg)) else none
  | .pProg =>
    if s.holds p then
      (cycleAt (progOperands c.addr c.buf c.lenNat) c.ev).map (fun o => Instr.program o.1 o.2)
    else none
  | .pRead =>
    if s.holds p && c.ev == 0 then
      (if s.cfg.useFastRead then some (.fastRead (flashAddr c.addr 0)) else some (.readSlow (flashAddr c.addr 0)))
    else none
  | .pIdle => none
  | .pWaitErase => none
  | .pWaitProg => none
  | .pWaitRead => none
  | .pDone => none

/-- Whether the `INIT` sequencer has a step (R127). -/
def State.initEnabled (s : State) : Bool := decide (s.fstate = .unknown ∧ s.owner = some .init)

/-- The instruction at which the active agent stands. -/
def State.fetch (s : State) : Option Instr :=
  match s.active with
  | .init => if s.initEnabled && s.initEv == 0 then some .ident else none
  | .port p => s.fetchPort p

/-- Run a meaning for the active port, if it stands at the instruction. An instruction at which it does not stand is
"not enabled": there is no such step and nothing happens (R136; log 7). -/
def whenAt (i : Instr) (s : State) (meaning : Nat → Result) : Result :=
  match s.active with
  | .port p => if s.fetch = some i then meaning p else .next s
  | .init => .next s

/-- Lay a submitted descriptor in port 0 (R37). -/
def State.placeCommand (s : State) (w0 w1 w2 : Word) (payload : List Byte) : State :=
  { s.setPort 0 (fun c =>
      { c with
        op := w0
        addr := w1
        len := w2
        payload := payload
        part := none
        k := 0
        ev := 0
        rdata := []
        phase := .pSubmitted }) with
    sched := .run (.port 0) :: s.sched }

/-- Put port 0 at the start of a hold of its own for one frame (R139). -/
def State.placeHold (s : State) (busy : FlashState) (phase : Phase) (op : Word) (a : Addr24) (part : Option (Fin 3))
    (len : Nat) (buf : List Byte) (held : Bool) : State :=
  { s.setPort 0 (fun c =>
      { c with
        op := op
        addr := a.zeroExtend 32
        len := BitVec.ofNat 32 len
        payload := buf
        part := part
        k := 0
        ev := 0
        buf := buf
        bufHeld := held
        rdata := []
        phase := phase }) with
    fstate := busy
    owner := some (.port 0)
    sel := false
    sched := .run (.port 0) :: s.sched }

/-- A partition with a granularity: the owner of the address if it has it, or else the first of the table that has. -/
def partWithGran (c : Config) (g : Nat) (a : Addr24) : Option (Fin 3) :=
  ((owner c a.toNat).toList ++ [0, 1, 2]).find? (fun i => (c.pt.get i).gran = g)

/-- The partition of an address, or else the first of the table: a frame placed at an address in no partition. -/
def partAt (c : Config) (a : Addr24) : Option (Fin 3) := some ((owner c a.toNat).getD 0)

/-- Make the very next step run the instruction (log 19). -/
def State.placeInstr (s : State) : Instr → State
  | .read addr len => s.placeCommand 1 addr len []
  | .write addr len payload => s.placeCommand 2 addr len payload
  | .status => s.placeCommand 3 0 0 []
  | .resetStatus => s.placeCommand 4 0 0 []
  | .ident =>
    { s with
      fstate := .unknown
      owner := some .init
      sel := false
      initEv := 0
      initAcc := 0
      sched := .run .init :: s.sched }
  | .erase g a => s.placeHold .erasing .pErase 2 a (partWithGran s.cfg g a) 1 [0] true
  | .program a d => s.placeHold .writing .pProg 2 a (partAt s.cfg a) d.length d true
  | .fastRead a =>
    { s with cfg := { s.cfg with useFastRead := true } }.placeHold .reading .pRead 1 a (partAt s.cfg a) 1 [] false
  | .readSlow a =>
    { s with cfg := { s.cfg with useFastRead := false } }.placeHold .reading .pRead 1 a (partAt s.cfg a) 1 [] false

/-- Make the very next step run what a table encoding stands for: the decoded instruction, or for a descriptor that
decodes to none (R95) the descriptor itself. A frame that decodes to none leaves the state as it is. -/
def State.placeEncoded (s : State) (e : Encoded) : State :=
  match decode s.cfg e with
  | .ok i => s.placeInstr i
  | .error _ =>
    match e with
    | .descriptor w0 w1 w2 payload => s.placeCommand w0 w1 w2 payload
    | .frame _ => s

end Sys2Proof.Machine
end

