-- ==== Sys2Proof/Machine/Commands.lean ====
section
/-! DEFINITION. READ (45 R191 to R196) and WRITE (43 R155 to R167, 44 R180): the `decode` step of each, and the whole
command as the sequential procedure of R191 and R156, run by its port with no other agent in between. Where the token is
not Ready the procedure waits there (R138) and the step relation goes on with the port's own small steps (log 13). -/

namespace Sys2Proof.Machine

/-- The `decode` step of a READ (R191): validate, latch `PART`, wait for Ready. -/
def decodeRead (p : Nat) (addr len : Word) (s : State) : State :=
  match validateRead s.cfg addr len with
  | .ok => s.setPort p (fun c => { c with part := owner s.cfg addr.toNat, rdata := [], phase := .pWaitRead })
  | .invalidArgument => s.finish p .invalidArgument 0
  | .alignmentError => s.finish p .alignmentError 0
  | .boundaryError => s.finish p .boundaryError 0
  | .transportTimeout => s.finish p .transportTimeout 0
  | .allocationFailure => s.finish p .allocationFailure 0

/-- The scratch buffer is acquired and the payload copied in (R33, R157, R66). -/
def copyIn (p : Nat) (addr len : Word) (payload : List Byte) (s : State) : State :=
  s.setPort p (fun c =>
    { c with
      buf := payload.take len.toInt.toNat
      bufHeld := true
      part := owner s.cfg addr.toNat
      k := 0
      phase := .pWaitErase })

/-- Allocation after validation (R157, R158): the draw, then the copy-in. A payload shorter than `LEN` is refused
(93 U11, log 14). -/
def allocate (p : Nat) (addr len : Word) (payload : List Byte) (s : State) : Result :=
  match s.drawAlloc with
  | (false, s1) => .next (s1.finish p .allocationFailure 0)
  | (true, s1) =>
    if (payload.length : Int) < len.toInt then .refused .payloadShort else .next (copyIn p addr len payload s1)

/-- The `decode` step of a WRITE (R157): validate, allocate, copy in, wait for Ready. -/
def decodeWrite (p : Nat) (addr len : Word) (payload : List Byte) (s : State) : Result :=
  match validateWrite s.cfg addr len with
  | .ok => allocate p addr len payload s
  | .invalidArgument => .next (s.finish p .invalidArgument 0)
  | .alignmentError => .next (s.finish p .alignmentError 0)
  | .boundaryError => .next (s.finish p .boundaryError 0)
  | .transportTimeout => .next (s.finish p .transportTimeout 0)
  | .allocationFailure => .next (s.finish p .allocationFailure 0)

/-- READ, the whole command (R191): its decode step, then its one hold. -/
def execRead (addr len : Word) (s : State) : Result :=
  whenAt (.read addr len) s (fun p => runHolds p 1 (decodeRead p addr len s))

/-- WRITE, the whole command (R156): its decode step, then `N` erase holds and the program hold. -/
def execWrite (addr len : Word) (payload : List Byte) (s : State) : Result :=
  whenAt (.write addr len payload) s (fun p =>
    andThen (decodeWrite p addr len payload s) (fun s1 => runHolds p ((s1.port p).eraseUnits s1.cfg + 1) s1))

end Sys2Proof.Machine
end

