-- ==== Sys2Proof/Machine/Counter.lean ====
section
/-! DEFINITION. STATUS and RESET_STATUS (46 R214 to R217): the status channel of the transferred-bytes counter. Each is
its `decode` step alone; neither takes the token, touches the transport or waits. -/

namespace Sys2Proof.Machine

/-- `finish(p, OK, csr.XFER_COUNT)` (R215). -/
def readCounter (p : Nat) (s : State) : State := s.finish p .ok s.xferCount

/-- `csr.XFER_COUNT <- 0; finish(p, OK, 0)` (R216). -/
def clearCounter (p : Nat) (s : State) : State := State.finish { s with xferCount := 0 } p .ok 0

/-- STATUS (R215). -/
def execStatus (s : State) : Result := whenAt .status s (fun p => .next (readCounter p s))

/-- RESET_STATUS (R216). -/
def execResetStatus (s : State) : Result := whenAt .resetStatus s (fun p => .next (clearCounter p s))

end Sys2Proof.Machine
end

