-- ==== Sys2Proof/Machine/Frames.lean ====
section
/-! DEFINITION. The frames a port emits in a hold: ERASE (43 R161, R162), PROGRAM (44 R176, R180), FAST_READ and
READ_SLOW (45 R192, R193). Each runs the frame's events to the end, or to the first timeout and the failure path (60
R232); the last frame of a hold is followed by the hold's end action. -/

namespace Sys2Proof.Machine

/-- ERASE (R161). -/
def execErase (gran : Nat) (addr : Addr24) (s : State) : Result :=
  whenAt (.erase gran addr) s (fun p => runFrame p (eraseFrame s.cfg gran addr) s)

/-- PROGRAM, one program cycle (R176). -/
def execProgram (addr : Addr24) (data : List Byte) (s : State) : Result :=
  whenAt (.program addr data) s (fun p => runFrame p (progCycle s.cfg addr data) s)

/-- FAST_READ: one dummy byte, then `LEN` bytes (R192). -/
def execFastRead (addr : Addr24) (s : State) : Result :=
  whenAt (.fastRead addr) s (fun p => runFrame p (readFrame s.cfg.opcFastRead true addr (s.port p).lenNat) s)

/-- READ_SLOW: `LEN` bytes and no dummy (R192, R195). -/
def execReadSlow (addr : Addr24) (s : State) : Result :=
  whenAt (.readSlow addr) s (fun p => runFrame p (readFrame s.cfg.opcReadSlow false addr (s.port p).lenNat) s)

end Sys2Proof.Machine
end

