-- ==== Sys2Proof/Machine/Identification.lean ====
section
/-! DEFINITION. Identification (41 R125 to R129): the IDENT frame that the `INIT` sequencer runs once after reset, and
that takes the token from Unknown to Ready whatever its outcome. -/

namespace Sys2Proof.Machine

/-- End action of identification (R128). -/
def initEnd (s : State) : State :=
  { s with
    identity := s.initAcc
    diag := diagIdentified s.cfg s.initAcc
    fstate := .ready
    owner := none }

/-- Timeout during identification (R129): the identity is unspecified, a free value (log 4). -/
def initFail (s : State) : Result :=
  match deselIfSelected .init s with
  | .error f => .fault f
  | .ok s1 =>
    .next { s1 with
      identity := Config.freeIdentity s1.freeIx
      freeIx := s1.freeIx + 1
      diag := diagTimedOut
      fstate := .ready
      owner := none }

/-- The accumulator is the consumer of the bytes read (R127). -/
def initDeliver (s : State) : Answer → State
  | .byte b => { s with initAcc := accumulate s.initAcc b }
  | .ok => s
  | .timeout => s

/-- The sequencer's position goes on, and after the last event comes the end action (R127, R128). -/
def initAdvance (s : State) : State :=
  if s.initEv + 1 = (identFrame s.cfg).length then initEnd { s with initEv := s.initEv + 1 }
  else { s with initEv := s.initEv + 1 }

/-- One event of the IDENT frame (R127). -/
def initStep (e : Event) (s : State) : Result :=
  match transport .init e s with
  | .error f => .fault f
  | .ok (.timeout, s1) => initFail s1
  | .ok (ans, s1) => .next (initAdvance (initDeliver s1 ans))

/-- The events of a list, for as long as the sequencer holds the token. -/
def runInit : List Event → State → Result
  | [], s => .next s
  | e :: es, s => if s.owner = some .init then andThen (initStep e s) (runInit es) else .next s

/-- IDENT, the whole frame (R126). -/
def execIdent (s : State) : Result :=
  if s.fetch = some .ident then runInit (identFrame s.cfg) s else .next s

end Sys2Proof.Machine
end

