-- ==== Sys2Proof/Machine/Schedule.lean ====
section
/-! DEFINITION. The small steps of 10_state R36, each enabled only under its condition (not enabled, it changes nothing,
log 7), and the schedule: which step is taken next (R41, R142, log 6). -/

namespace Sys2Proof.Machine

/-- `decode(p)`: validation and dispatch of a submitted descriptor (R36, R157, R191, R215, R216); a reserved operation
finishes with InvalidArgument (R95). -/
def decodeStep (p : Nat) (s : State) : Result :=
  if (s.port p).phase = .pSubmitted then
    match decodeDescriptor (s.port p).op (s.port p).addr (s.port p).len (s.port p).payload with
    | .ok (.read addr len) => .next (decodeRead p addr len s)
    | .ok (.write addr len payload) => decodeWrite p addr len payload s
    | .ok .status => .next (readCounter p s)
    | .ok .resetStatus => .next (clearCounter p s)
    | .ok _ => .next (s.finish p .invalidArgument 0)
    | .error _ => .next (s.finish p .invalidArgument 0)
  else .next s

/-- The event a port would perform next (R118). -/
def State.nextEvent (s : State) (p : Nat) : Option Event :=
  if s.holds p then ((s.port p).holdList s.cfg)[(s.port p).ev]? else none

/-- `event(p)`: the next event of the hold's list (R36, R118). -/
def portEvent (p : Nat) (s : State) : Result :=
  match s.nextEvent p with
  | some e => eventStep p ((s.port p).holdList s.cfg).length e s
  | none => .next s

/-- `init_event`: the next event of the IDENT frame (R36, R127). -/
def initEvent (s : State) : Result :=
  if s.initEnabled then
    match (identFrame s.cfg)[s.initEv]? with
    | some e => initStep e s
    | none => .next s
  else .next s

/-- The one small step an agent may have (R31, R36). -/
def agentStep (a : Agent) (s : State) : Result :=
  match a with
  | .init => initEvent s
  | .port p =>
    match (s.port p).phase with
    | .pSubmitted => decodeStep p s
    | .pWaitErase => .next (s.acquire p)
    | .pWaitProg => .next (s.acquire p)
    | .pWaitRead => .next (s.acquire p)
    | .pErase => portEvent p s
    | .pProg => portEvent p s
    | .pRead => portEvent p s
    | .pIdle => .next s
    | .pDone => .next s

/-- A turn that is one small step of R36; a `run` turn is the agent's small step here (`step` runs the instruction at
which the agent stands, if there is one). -/
def takeTurn (t : Turn) (s : State) : Result :=
  match t with
  | .submit p w0 w1 w2 payload => .next (s.submit p w0 w1 w2 payload)
  | .collect p => .next (s.collect p)
  | .initEvent => initEvent s
  | .decode p => decodeStep p s
  | .acquire p => .next (s.acquire p)
  | .event p => portEvent p s
  | .run a => agentStep a s

/-- The steps of a port that are enabled (R36). -/
def State.portTurns (s : State) (p : Nat) : List Turn :=
  (if (s.port p).phase = .pSubmitted then [Turn.decode p] else []) ++
    (if s.canAcquire p then [Turn.acquire p] else []) ++
      (if (s.nextEvent p).isSome then [Turn.event p] else [])

/-- The steps of `INIT` and the ports that are enabled; the host's own steps are its own choice (R37). -/
def State.enabledTurns (s : State) : List Turn :=
  (if s.initEnabled then [Turn.initEvent] else []) ++ (List.range s.ctx.length).flatMap s.portTurns

/-- A step of the block that is enabled; of several any one, by a free choice (R142). None where nothing is enabled: the
block is quiescent or waits for its host (R271). -/
def State.enabledTurn (s : State) : Option Turn × State :=
  match s.enabledTurns with
  | [] => (none, s)
  | [t] => (some t, s)
  | t :: ts => ((t :: ts)[Config.freeChoice s.freeIx % (t :: ts).length]?, { s with freeIx := s.freeIx + 1 })

/-- The next turn: the first of the schedule, or else as `later` says. No fairness is assumed (R142): a schedule may pass
an agent over for ever. -/
def State.nextTurn (s : State) : Option Turn × State :=
  match s.sched with
  | t :: ts => (some t, { s with sched := ts })
  | [] =>
    match s.later with
    | .enabled => s.enabledTurn
    | .again [] => (none, s)
    | .again (t :: ts) => (some t, { s with sched := ts })
    | .any => (some (Config.freeTurn s.freeIx), { s with freeIx := s.freeIx + 1 })

end Sys2Proof.Machine
end

