-- ==== Sys2Proof/Machine/Dispatch.lean ====
section
/-! DEFINITION. One arm per instruction. -/

namespace Sys2Proof.Machine

def exec (i : Instr) (s : State) : Host.Outcome State Fault Refusal :=
  match i with
  | .read addr len => Sys2Proof.Machine.execRead addr len s
  | .write addr len payload => Sys2Proof.Machine.execWrite addr len payload s
  | .status => Sys2Proof.Machine.execStatus s
  | .resetStatus => Sys2Proof.Machine.execResetStatus s
  | .ident => Sys2Proof.Machine.execIdent s
  | .erase gran addr => Sys2Proof.Machine.execErase gran addr s
  | .program addr data => Sys2Proof.Machine.execProgram addr data s
  | .fastRead addr => Sys2Proof.Machine.execFastRead addr s
  | .readSlow addr => Sys2Proof.Machine.execReadSlow addr s

end Sys2Proof.Machine
end

