-- ==== Sys2Proof/Machine/Step.lean ====
section
/-! DEFINITION. One step of the machine: the schedule's next turn. A `run` turn executes the instruction at which its
agent stands; every other turn is one small step of 10_state R36. -/

namespace Sys2Proof.Machine

/-- A `run` turn: the agent becomes the active one, and the instruction at which it stands is executed; where it stands
at none (in the middle of a frame, at a wait, at a reserved descriptor), its small step is taken. -/
def runTurn (a : Agent) (s : State) : Result :=
  match ({ s with active := a } : State).fetch with
  | some i => exec i { s with active := a }
  | none => agentStep a { s with active := a }

/-- A turn of the schedule. -/
def doTurn (t : Turn) (s : State) : Result :=
  match t with
  | .run a => runTurn a s
  | t => takeTurn t s

/-- The step relation of R36 under the schedule. A configuration that breaks R54 has no meaning (93 U6). Where the
schedule has no turn the machine stays as it is (R271). -/
def step (s : State) : Host.Outcome State Fault Refusal :=
  if s.cfg.wf then
    match s.nextTurn with
    | (some t, s1) => doTurn t s1
    | (none, s1) => .next s1
  else .refused .configIllFormed

/-- The state whose very next step runs the instruction of a table word, laid out as `tableEncoded` says (log 19). -/
def State.withFetchWord (s : State) (nbits w : Nat) : State := s.placeEncoded (tableEncoded nbits w)

end Sys2Proof.Machine
end

