-- ==== Sys2Proof/Safety.lean ====
section
/-! DEFINITION. What counts as a safe run, in the terms the statements use: the invariants of 10_state R39 with what makes
them inductive, the completion record of R34, what the chip has seen of an open frame, the order of transport calls (20
R62), and the words in which frames are stated (what an instruction leaves unchanged). -/

namespace Sys2Proof.Machine

/-! ## What an event list does on the wire -/

/-- The wire after some events: chip select, the bytes written since the last select, the bytes read since. -/
structure Wire where
  sel : Bool
  frame : List Byte
  reads : Nat
deriving DecidableEq, Repr

/-- One more event on the wire. -/
def Wire.after (w : Wire) : Event → Wire
  | .sel => ⟨true, [], 0⟩
  | .desel => { w with sel := false }
  | .wb b => { w with frame := w.frame ++ [b] }
  | .rb => { w with reads := w.reads + 1 }
  | .wi _ => w

/-- The wire after an event list that starts with the chip not selected. -/
def wireOf (l : List Event) : Wire := l.foldl Wire.after ⟨false, [], 0⟩

/-- The bytes an event list writes. -/
def bytesWritten (l : List Event) : List Byte :=
  l.filterMap (fun e => match e with
    | .wb b => some b
    | .sel => none
    | .desel => none
    | .rb => none
    | .wi _ => none)

/-- The frame of an instruction as an event list; a command has none. `n` is the byte count of a read (R97). -/
def frameOf (c : Config) (n : Nat) : Instr → List Event
  | .ident => identFrame c
  | .erase gran addr => eraseFrame c gran addr
  | .program addr data => progCycle c addr data
  | .fastRead addr => readFrame c.opcFastRead true addr n
  | .readSlow addr => readFrame c.opcReadSlow false addr n
  | .read _ _ => []
  | .write _ _ _ => []
  | .status => []
  | .resetStatus => []

/-! ## Ports -/

/-- The busy state of a hold's phase (R39 d). -/
def holdState : Phase → Option FlashState
  | .pErase => some .erasing
  | .pProg => some .writing
  | .pRead => some .reading
  | .pIdle => none
  | .pSubmitted => none
  | .pWaitErase => none
  | .pWaitProg => none
  | .pWaitRead => none
  | .pDone => none

/-- The phases in which the scratch buffer is held (R39 e). -/
def Phase.buffered : Phase → Bool
  | .pWaitErase => true
  | .pErase => true
  | .pWaitProg => true
  | .pProg => true
  | .pIdle => false
  | .pSubmitted => false
  | .pWaitRead => false
  | .pRead => false
  | .pDone => false

/-- A WRITE in progress: it was validated, its partition latched, its payload copied in (R157). -/
structure Ctx.Writes (cfg : Config) (c : Ctx) : Prop where
  op : c.op = 2
  valid : validateWrite cfg c.addr c.len = .ok
  part : c.part = owner cfg c.addr.toNat
  buf : c.buf.length = c.lenNat

/-- A READ in progress: it was validated and its partition latched (R191). -/
structure Ctx.Reads (cfg : Config) (c : Ctx) : Prop where
  op : c.op = 1
  valid : validateRead cfg c.addr c.len = .ok
  part : c.part = owner cfg c.addr.toNat

/-- The completion record (R34, R226): `COUNT` and `RDATA` by the command and its result. -/
structure Ctx.Record (c : Ctx) : Prop where
  failed : c.result ≠ .ok → c.count = 0 ∧ c.rdata = []
  read : c.result = .ok → c.op = 1 → c.count = c.len ∧ c.rdata.length = c.lenNat
  write : c.result = .ok → c.op = 2 → c.count = c.len ∧ c.rdata = []
  status : c.op = 3 → c.result = .ok ∧ c.rdata = []
  resetStatus : c.op = 4 → c.result = .ok ∧ c.count = 0 ∧ c.rdata = []
  reserved : c.op ≠ 1 → c.op ≠ 2 → c.op ≠ 3 → c.op ≠ 4 → c.result = .invalidArgument

/-- What holds of a port in each phase (R31, R34, R39 e). -/
def Ctx.Good (cfg : Config) (c : Ctx) : Prop :=
  c.bufHeld = c.phase.buffered ∧
    match c.phase with
    | .pIdle => True
    | .pSubmitted => c.rdata = []
    | .pWaitErase => c.Writes cfg ∧ c.k < c.eraseUnits cfg
    | .pErase => c.Writes cfg ∧ c.k < c.eraseUnits cfg
    | .pWaitProg => c.Writes cfg ∧ c.k = c.eraseUnits cfg
    | .pProg => c.Writes cfg ∧ c.k = c.eraseUnits cfg
    | .pWaitRead => c.Reads cfg ∧ c.rdata = []
    | .pRead =>
      c.Reads cfg ∧
        c.rdata.length = (wireOf ((c.holdList cfg).take c.ev)).reads - (if cfg.useFastRead then 1 else 0)
    | .pDone => c.Record

/-- The chip select within a hold or an identification: as the events done so far leave it (R24). -/
abbrev selMatches (s : State) (l : List Event) (ev : Nat) : Prop := s.sel = (wireOf (l.take ev)).sel

/-- The invariant of the machine: R39 (a) to (e), and what makes it inductive. -/
structure State.Inv (s : State) : Prop where
  cfgWf : s.cfg.wf
  ports : s.ctx.length = s.cfg.nport
  /-- R39 (b). -/
  unknownInit : s.fstate = .unknown ↔ s.owner = some .init
  /-- R39 (c). -/
  readyNone : s.fstate = .ready ↔ s.owner = none
  /-- R39 (c), R24. -/
  readySel : s.fstate = .ready → s.sel = false
  initPos : s.owner = some .init → s.initEv < (identFrame s.cfg).length ∧ selMatches s (identFrame s.cfg) s.initEv
  /-- R39 (a), (d): the owner is a port in the phase of the busy state, at an event of its hold. -/
  hold : ∀ p, s.owner = some (.port p) →
    p < s.ctx.length ∧ holdState (s.port p).phase = some s.fstate ∧
      (s.port p).ev < ((s.port p).holdList s.cfg).length ∧
      selMatches s ((s.port p).holdList s.cfg) (s.port p).ev
  /-- R39 (d): a port in a hold's phase is the owner. -/
  inHold : ∀ p, (holdState (s.port p).phase).isSome → s.owner = some (.port p)
  /-- R39 (e), R34. -/
  good : ∀ p, (s.port p).Good s.cfg

/-- What the reference chip has seen of an open frame, and the canonical form of the flash array. -/
structure State.ChipInv (s : State) : Prop where
  flash : s.env.chip.fl.wf
  portFrame : s.env.kind = .ref → ∀ p, s.owner = some (.port p) → (s.port p).ev ≠ 0 →
    s.env.chip.frame = (wireOf (((s.port p).holdList s.cfg).take (s.port p).ev)).frame ∧
      s.env.chip.reads = (wireOf (((s.port p).holdList s.cfg).take (s.port p).ev)).reads
  initFrame : s.env.kind = .ref → s.owner = some .init → s.initEv ≠ 0 →
    s.env.chip.frame = (wireOf ((identFrame s.cfg).take s.initEv)).frame ∧
      s.env.chip.reads = (wireOf ((identFrame s.cfg).take s.initEv)).reads

/-- "The calls of one hold are contiguous" in the total order of transport calls, and all made by one agent (R62). -/
def serial (t : List Call) : Prop :=
  List.Pairwise (fun x y : Call => x.hold ≤ y.hold ∧ (x.hold = y.hold → x.agent = y.agent)) t

/-- The trace is serial, and the calls of the current hold were made by the owner of the token (R39 f). -/
structure State.TraceInv (s : State) : Prop where
  serial : serial s.trace
  begun : ∀ c ∈ s.trace, c.hold ≤ s.holdNo
  owned : ∀ a, s.owner = some a → ∀ c ∈ s.trace, c.hold = s.holdNo → c.agent = a

/-! ## The environment's answers -/

/-- None of the next `n` answers is a timeout: those laid down are not, and no other is asked of `ENV_ANY`. -/
def Env.answers (e : Env) (n : Nat) : Prop :=
  (∀ d ∈ e.draws.take n, d ≠ .timeout) ∧ (e.kind = .ref ∨ n ≤ e.draws.length)

/-- The pure reference environment of R70: no answer is replaced. -/
def Env.reference (e : Env) : Prop := e.kind = .ref ∧ e.draws = []

/-- How many answers an event list asks for: one for each `Wb`, `Rb` and `Wi` (R117). -/
def asked (l : List Event) : Nat := (l.filter (fun e => decide (e ≠ .sel) && decide (e ≠ .desel))).length

/-- Between two states an agent performed exactly these events, one after another, and none timed out. -/
def performs (s t : State) (a : Agent) (l : List Event) : Prop :=
  ∃ calls, t.trace = s.trace ++ calls ∧ calls.map Call.event = l ∧
    ∀ c ∈ calls, c.agent = a ∧ c.answer ≠ .timeout

/-! ## What the commands come to -/

/-- The granularity of the owning partition of an address (R160); 0 where there is none. -/
def granAt (c : Config) (addr : Word) : Nat := ((owner c addr.toNat).map (fun i => (c.pt.get i).gran)).getD 0

/-- The end of the erased region of a WRITE, `ADDR + N*G` (R160). -/
def eraseEnd (c : Config) (addr len : Word) : Nat :=
  addr.toNat + ceilDiv len.toInt.toNat (granAt c addr) * granAt c addr

/-- Every event of a WRITE in order: its erase frames in ascending `k`, then its program cycles (R156, R160). -/
def writeEvents (c : Config) (addr len : Word) (payload : List Byte) : List Event :=
  (List.range (ceilDiv len.toInt.toNat (granAt c addr))).flatMap
      (fun k => eraseFrame c (granAt c addr) (flashAddr addr (k * granAt c addr))) ++
    progList c addr (payload.take len.toInt.toNat) len.toInt.toNat

/-- The frame of a READ of `n` bytes under the configuration's choice of opcode and dummy byte (R192, R195). -/
def readEvents (c : Config) (addr : Word) (n : Nat) : List Event :=
  readFrame (if c.useFastRead then c.opcFastRead else c.opcReadSlow) c.useFastRead (flashAddr addr 0) n

/-- The counter after a command on an address has succeeded: increased by `LEN` modulo 2^32 where the owning partition
has role Config, and otherwise as it was (R26, R217). -/
def credited (c : Config) (addr : Word) (n : Nat) (before after : Word) : Prop :=
  after.toNat =
    if (owner c addr.toNat).map (fun i => (c.pt.get i).role) = some .config then (before.toNat + n) % 4294967296
    else before.toNat

/-- A port context when its command has finished (R38): the record is written, the buffer released, the rest as it was. -/
def Ctx.done (c : Ctx) (code : ResultCode) (count : Word) (rdata buf : List Byte) : Ctx :=
  { c with result := code, count := count, rdata := rdata, buf := buf, bufHeld := false, phase := .pDone }

/-! ## Frames: what is left unchanged -/

/-- Everything the spec gives the machine but `ctx[p]` is unchanged: no token, no transport call, no counter change, no
flash change, no other port (R233). -/
structure sameOutside (p : Nat) (s t : State) : Prop where
  cfg : t.cfg = s.cfg
  fstate : t.fstate = s.fstate
  owner : t.owner = s.owner
  sel : t.sel = s.sel
  identity : t.identity = s.identity
  diag : t.diag = s.diag
  xferCount : t.xferCount = s.xferCount
  initEv : t.initEv = s.initEv
  initAcc : t.initAcc = s.initAcc
  ports : t.ctx.length = s.ctx.length
  others : ∀ q, q ≠ p → t.port q = s.port q
  kind : t.env.kind = s.env.kind
  chip : t.env.chip = s.env.chip
  trace : t.trace = s.trace
  host : t.host = s.host

/-- What no hold of a port touches: the configuration, the identification registers, the other ports, the records the
host has collected, which chip and which environment it is. -/
structure sameBeyondHold (p : Nat) (s t : State) : Prop where
  cfg : t.cfg = s.cfg
  identity : t.identity = s.identity
  diag : t.diag = s.diag
  initEv : t.initEv = s.initEv
  initAcc : t.initAcc = s.initAcc
  ports : t.ctx.length = s.ctx.length
  others : ∀ q, q ≠ p → t.port q = s.port q
  kind : t.env.kind = s.env.kind
  chipId : t.env.chip.chipId = s.env.chip.chipId
  host : t.host = s.host

/-- What identification does not touch: the configuration, the counter, every port, the flash. -/
structure sameBeyondIdent (s t : State) : Prop where
  cfg : t.cfg = s.cfg
  xferCount : t.xferCount = s.xferCount
  ctx : t.ctx = s.ctx
  kind : t.env.kind = s.env.kind
  chipId : t.env.chip.chipId = s.env.chip.chipId
  flash : ∀ a, t.env.chip.fl.read a = s.env.chip.fl.read a
  host : t.host = s.host

/-- The port's latched request is unchanged: `OP`, `ADDR`, `LEN`, `PAYLOAD` (R37). -/
structure sameRequest (c d : Ctx) : Prop where
  op : d.op = c.op
  addr : d.addr = c.addr
  len : d.len = c.len
  payload : d.payload = c.payload

/-- No byte of the flash reads differently outside `[lo, hi)`. -/
def sameFlashOutside (lo hi : Nat) (s t : State) : Prop :=
  ∀ a, (a < lo ∨ hi ≤ a) → t.env.chip.fl.read a = s.env.chip.fl.read a

/-- The bytes an instruction may change, from its operands: the erased region of a WRITE, the unit of an ERASE, the
data bytes of a PROGRAM (R160, R161, R176). Of the rest, none. -/
def storedRange (c : Config) : Instr → Nat × Nat
  | .read _ _ => (0, 0)
  | .write addr len _ => (addr.toNat, eraseEnd c addr len)
  | .status => (0, 0)
  | .resetStatus => (0, 0)
  | .ident => (0, 0)
  | .erase gran addr => (addr.toNat, addr.toNat + gran)
  | .program addr data => (addr.toNat, addr.toNat + data.length)
  | .fastRead _ => (0, 0)
  | .readSlow _ => (0, 0)

/-- The token is free and the chip not selected. -/
structure State.idleToken (s : State) : Prop where
  fstate : s.fstate = .ready
  owner : s.owner = none
  sel : s.sel = false

/-- The identification outputs replaced by others. -/
def State.withIdentity (s : State) (identity : Addr24) (diag : BitVec 3) : State :=
  { s with identity := identity, diag := diag }

/-! ## Repeated steps -/

/-- `n` steps of one kind, stopping at the first fault or refusal. -/
def repeatStep (f : State → Result) : Nat → State → Result
  | 0, s => .next s
  | n + 1, s => andThen (f s) (repeatStep f n)

/-- Turns taken one after another as small steps, stopping at the first fault or refusal. -/
def takeTurns : List Turn → State → Result
  | [], s => .next s
  | u :: us, s => andThen (takeTurn u s) (takeTurns us)

/-- The turns of one port that are small steps of its own (R36). -/
def Turn.smallOf (p : Nat) : Turn → Bool
  | .decode q => decide (q = p)
  | .acquire q => decide (q = p)
  | .event q => decide (q = p)
  | .submit _ _ _ _ _ => false
  | .collect _ => false
  | .initEvent => false
  | .run _ => false

/-- A quiescent state: no step but `submit` is enabled (R271). -/
structure State.quiescent (s : State) : Prop where
  fstate : s.fstate = .ready
  owner : s.owner = none
  sel : s.sel = false
  idle : ∀ p, (s.port p).phase = .pIdle ∧ (s.port p).bufHeld = false

end Sys2Proof.Machine
end

