-- ==== Sys2Proof/WellFormed.lean ====
section
/-! DEFINITION. Which instructions are well formed under a configuration: the operand values the block can form. -/

namespace Sys2Proof

/-- The payload of a WRITE that passes validation has at least `LEN` bytes (10_state R37, 93 U11). -/
abbrev Instr.payloadWf (c : Config) (addr len : Word) (payload : List Byte) : Prop :=
  Machine.validateWrite c addr len = .ok → len.toInt ≤ payload.length

/-- An ERASE frame names a granularity of the table and an erase unit of a partition that has it (R161, R166). -/
abbrev Instr.eraseWf (c : Config) (gran : Nat) (addr : Addr24) : Prop :=
  gran ∈ c.grans ∧ addr.toNat % gran = 0 ∧
    (Machine.owner c addr.toNat).map (fun i => (c.pt.get i).gran) = some gran

/-- A PROGRAM frame has one data byte, or 256 at a multiple of 256 (R176), inside a partition. -/
abbrev Instr.programWf (c : Config) (addr : Addr24) (data : List Byte) : Prop :=
  (data.length = 1 ∨ (data.length = 256 ∧ addr.toNat % 256 = 0)) ∧ Machine.owner c addr.toNat ≠ none

/-- The well-formedness check of an instruction. Any operand words are a legal READ, STATUS or RESET_STATUS (R85);
which read frame exists is the configuration's choice (R97). -/
def Instr.wf (c : Config) : Instr → Bool
  | .read _ _ => true
  | .write addr len payload => decide (Instr.payloadWf c addr len payload)
  | .status => true
  | .resetStatus => true
  | .ident => true
  | .erase gran addr => decide (Instr.eraseWf c gran addr)
  | .program addr data => decide (Instr.programWf c addr data)
  | .fastRead addr => decide (c.useFastRead = true ∧ Machine.owner c addr.toNat ≠ none)
  | .readSlow addr => decide (c.useFastRead = false ∧ Machine.owner c addr.toNat ≠ none)

end Sys2Proof
end

