-- ==== Sys2Proof/Certificates/Slice0/Obligations.lean ====
section
/-! DEFINITION. The statements for the provers. Each is about every state and every configuration that meets its
hypotheses; a statement about a next state has as its conclusion that the instruction answers one. -/

open Sys2Proof Sys2Proof.Machine

/-! ## Reset and the invariants (10_state R39, R42) -/

/-- R42, R127, R255: every register that has a reset value is at it. The values R42 leaves unspecified are the model's choice
(log 3) and are not stated. -/
def Obligations.ResetState : Prop :=
  ∀ c : Config,
    (State.resetWith c).cfg = c ∧ (State.resetWith c).fstate = .unknown ∧ (State.resetWith c).owner = some .init ∧
      (State.resetWith c).sel = false ∧ (State.resetWith c).diag = 0 ∧ (State.resetWith c).xferCount = 0 ∧
      (State.resetWith c).initEv = 0 ∧ (State.resetWith c).initAcc = 0 ∧ (State.resetWith c).ctx.length = c.nport ∧
      ∀ p, ((State.resetWith c).port p).phase = .pIdle ∧ ((State.resetWith c).port p).bufHeld = false

/-- R39 holds "after reset", under every well-formed configuration, the example configuration among them. -/
def Obligations.ResetMeetsInvariants : Prop :=
  Config.cfgS1.wf ∧ State.reset = State.resetWith Config.cfgS1 ∧
    ∀ c : Config, c.wf → (State.resetWith c).Inv ∧ (State.resetWith c).ChipInv ∧ (State.resetWith c).TraceInv

/-- R39 (a) to (e) hold "after every step". -/
def Obligations.StepKeepsInvariant : Prop :=
  ∀ s t : State, s.Inv → step s = .next t → t.Inv

/-- The flash array keeps its canonical form, and the reference chip has seen exactly the bytes of the open frame. -/
def Obligations.StepKeepsChipInvariant : Prop :=
  ∀ s t : State, s.Inv → s.ChipInv → step s = .next t → t.ChipInv

/-- R62, R39 (f): in the order of all transport calls the calls of one hold are contiguous and made by its owner. -/
def Obligations.StepKeepsCallsSerial : Prop :=
  ∀ s t : State, s.Inv → s.TraceInv → step s = .next t → t.TraceInv

/-- R39 (f), R23: in one small step every transport call is made by the agent that holds the token before the step. -/
def Obligations.CallsAreTheOwners : Prop :=
  ∀ (s t : State) (u : Turn), s.Inv → takeTurn u s = .next t →
    ∃ calls, t.trace = s.trace ++ calls ∧ ∀ c ∈ calls, s.owner = some c.agent

/-- R16 (2), R160: no frame the block emits reaches a byte at or above 2^24, so no step faults. -/
def Obligations.NoStepFaults : Prop :=
  ∀ s : State, s.Inv → s.ChipInv → s.cfg.opcodesDistinct → ∀ f, step s ≠ .fault f

/-- R55: no step changes a byte of the Boot partition of the reference chip (`ENV_REF`). Under `ENV_ANY` no flash contents
are tracked: that the array is unchanged there is the model's choice (log 11). -/
def Obligations.BootPartitionNeverChanges : Prop :=
  ∀ s t : State, s.Inv → s.ChipInv → s.cfg.opcodesDistinct → step s = .next t →
    ∀ (i : Fin 3) (a : Nat), (s.cfg.pt.get i).role = .boot → contains (s.cfg.pt.get i) a = true →
      t.env.chip.fl.read a = s.env.chip.fl.read a

/-- R7: no step changes the configuration; nor which environment and which chip it is. -/
def Obligations.ConfigurationConstant : Prop :=
  ∀ s t : State, step s = .next t →
    t.cfg = s.cfg ∧ t.env.kind = s.env.kind ∧ t.env.chip.chipId = s.env.chip.chipId

/-! ## Encoding and fetch (30_encoding) -/

/-- Words written out from R83 and R90 decode to the instruction they stand for (example configuration; the opcode
values are those of log 1). -/
def Obligations.WordsDecode : Prop :=
  decode Config.cfgS1 (.descriptor 0x00000001 0x00FC0000 0x00001000 []) = .ok (.read 0x00FC0000 4096) ∧
    decode Config.cfgS1 (.descriptor 0x00000002 0x00FC0000 0x00000002 [0xAB, 0xCD]) =
      .ok (.write 0x00FC0000 2 [0xAB, 0xCD]) ∧
    decode Config.cfgS1 (.descriptor 0x00000003 0xFFFFFFFF 0x12345678 [0x01]) = .ok .status ∧
    decode Config.cfgS1 (.descriptor 0x00000004 0x00000000 0x00000000 []) = .ok .resetStatus ∧
    decode Config.cfgS1 (.descriptor 0x00000005 0x00000000 0x00000000 []) = .error (.reservedOp 5) ∧
    decode Config.cfgS1 (.frame [0x9F]) = .ok .ident ∧
    decode Config.cfgS1 (.frame [0xD8, 0xFC, 0x01, 0x02]) = .ok (.erase 0x10000 0xFC0102) ∧
    decode Config.cfgS1 (.frame [0x02, 0xFD, 0x01, 0x00, 0xAB]) = .ok (.program 0xFD0100 [0xAB]) ∧
    decode Config.cfgS1 (.frame [0x0B, 0x12, 0x34, 0x56]) = .ok (.fastRead 0x123456) ∧
    decode Config.cfgS1 (.frame [0x03, 0x12, 0x34, 0x56]) = .ok (.readSlow 0x123456)

/-- R83, R90, R91: decoding the encoding of a well-formed instruction gives it back, with every operand. -/
def Obligations.EncodeThenDecode : Prop :=
  ∀ (c : Config) (i : Instr), c.opcodesDistinct → i.wf c = true → decode c (encode c i) = .ok i

/-- R90, R91, R83: what decodes was the encoding of what it decodes to: no bit of a frame or of a READ or WRITE
descriptor is dropped. -/
def Obligations.DecodeThenEncode : Prop :=
  ∀ (c : Config) (i : Instr),
    (∀ bytes, decode c (.frame bytes) = .ok i → encode c i = .frame bytes) ∧
      (∀ w1 w2 payload, decode c (.descriptor 2 w1 w2 payload) = .ok i → encode c i = .descriptor 2 w1 w2 payload) ∧
      ∀ w1 w2, decode c (.descriptor 1 w1 w2 []) = .ok i → encode c i = .descriptor 1 w1 w2 []

/-- A step runs the decoded instruction: where a port has a submitted descriptor that decodes to an instruction, the
port stands at it; and a `run` turn of the schedule executes the instruction at which its agent stands, in the state
with that turn taken from the schedule and that agent active, and nothing else (the model's fused form of R40, log 13).
Every other turn is one small step of R36. -/
def Obligations.StepRunsTheFetchedInstruction : Prop :=
  (∀ (s : State) (p : Nat) (i : Instr), (s.port p).phase = .pSubmitted →
      decode s.cfg (.descriptor (s.port p).op (s.port p).addr (s.port p).len (s.port p).payload) = .ok i →
      s.fetchPort p = some i) ∧
    (∀ (s : State) (a : Agent) (rest : List Turn) (i : Instr), s.cfg.wf → s.sched = .run a :: rest →
      ({ s with sched := rest, active := a } : State).fetch = some i →
      step s = exec i { s with sched := rest, active := a }) ∧
    ∀ (s : State) (u : Turn) (rest : List Turn), s.cfg.wf → s.sched = u :: rest → (∀ a, u ≠ .run a) →
      step s = takeTurn u { s with sched := rest }

/-- R118, R161, R177, R192: the frame at which a port stands is well formed; its events are the next ones of the hold's
list; and the bytes they write decode to it. -/
def Obligations.FetchedFrameIsDecoded : Prop :=
  ∀ (s : State) (p : Nat) (i : Instr), s.Inv → s.cfg.opcodesDistinct → s.fetchPort p = some i →
    (s.port p).phase ≠ .pSubmitted →
    i.wf s.cfg = true ∧
      decode s.cfg (.frame (bytesWritten (frameOf s.cfg (s.port p).lenNat i))) = .ok i ∧
      ∃ rest, ((s.port p).holdList s.cfg).drop (s.port p).ev = frameOf s.cfg (s.port p).lenNat i ++ rest

/-- R177: the event list of a program hold, its length, and that its cycles carry the payload's bytes in order. -/
def Obligations.ProgramListShape : Prop :=
  ∀ (c : Config) (addr : Word) (buf : List Byte),
    progList c addr buf buf.length =
        (List.range (buf.length / 256)).flatMap
            (fun k => progCycle c (flashAddr addr (256 * k)) ((buf.drop (256 * k)).take 256)) ++
          (List.range (buf.length % 256)).flatMap
            (fun k => progCycle c (flashAddr addr (256 * (buf.length / 256) + k))
              ((buf.drop (256 * (buf.length / 256) + k)).take 1)) ∧
      (progList c addr buf buf.length).length = 279 * (buf.length / 256) + 8 * (buf.length % 256) ∧
      (0 < buf.length → progList c addr buf buf.length ≠ []) ∧
      (progOperands addr buf buf.length).flatMap (fun o => o.2) = buf

/-! ## Validation (46_address_partition_validator) -/

/-- R52: `owner(addr)` is the index of the one partition that contains the address, or none. -/
def Obligations.OwnerIsUnique : Prop :=
  ∀ c : Config, c.wf → ∀ a : Nat,
    (∀ i : Fin 3, owner c a = some i ↔ (c.pt.get i).start ≤ a ∧ a < (c.pt.get i).stop) ∧
      (owner c a = none ↔ ∀ i : Fin 3, ¬ ((c.pt.get i).start ≤ a ∧ a < (c.pt.get i).stop)) ∧
      (flashSize ≤ a → owner c a = none)

/-- R203: the checks of `validate_write` in their order, on mathematical integers, and the rule's three examples. -/
def Obligations.WriteChecksInOrder : Prop :=
  validateWrite Config.cfgS1 0x00FC0001 10 = .alignmentError ∧
    validateWrite Config.cfgS1 0x00FE0000 10 = .boundaryError ∧
    validateWrite Config.cfgS1 0x00FC0000 4096 = .ok ∧
    ∀ (c : Config) (addr len : Word),
    (len.toInt ≤ 0 → validateWrite c addr len = .invalidArgument) ∧
      (0 < len.toInt → owner c addr.toNat = none → validateWrite c addr len = .invalidArgument) ∧
      ∀ i, 0 < len.toInt → owner c addr.toNat = some i →
        ((c.pt.get i).role = .boot → validateWrite c addr len = .boundaryError) ∧
          ((c.pt.get i).role ≠ .boot → ((c.pt.get i).stop : Int) < addr.toNat + len.toInt →
            validateWrite c addr len = .boundaryError) ∧
          ((c.pt.get i).role ≠ .boot → addr.toNat + len.toInt ≤ (c.pt.get i).stop →
            addr.toNat % (c.pt.get i).gran ≠ 0 → validateWrite c addr len = .alignmentError) ∧
          ((c.pt.get i).role ≠ .boot → addr.toNat + len.toInt ≤ (c.pt.get i).stop →
            addr.toNat % (c.pt.get i).gran = 0 → (c.maxLen : Int) < len.toInt →
            validateWrite c addr len = .invalidArgument) ∧
          ((c.pt.get i).role ≠ .boot → addr.toNat + len.toInt ≤ (c.pt.get i).stop →
            addr.toNat % (c.pt.get i).gran = 0 → len.toInt ≤ c.maxLen → validateWrite c addr len = .ok)

/-- R210: the checks of `validate_read` in their order, and the rule's four examples. -/
def Obligations.ReadChecksInOrder : Prop :=
  validateRead Config.cfgS1 0x00FDFFFF 1 = .ok ∧ validateRead Config.cfgS1 0x00FDFFFF 2 = .boundaryError ∧
    validateRead Config.cfgS1 0x00FE0000 16 = .ok ∧ validateRead Config.cfgS1 0x01000000 1 = .invalidArgument ∧
    ∀ (c : Config) (addr len : Word),
    (len.toInt ≤ 0 → validateRead c addr len = .invalidArgument) ∧
      (0 < len.toInt → owner c addr.toNat = none → validateRead c addr len = .invalidArgument) ∧
      ∀ i, 0 < len.toInt → owner c addr.toNat = some i →
        (((c.pt.get i).stop : Int) < addr.toNat + len.toInt → validateRead c addr len = .boundaryError) ∧
          (addr.toNat + len.toInt ≤ (c.pt.get i).stop → (c.maxLen : Int) < len.toInt →
            validateRead c addr len = .invalidArgument) ∧
          (addr.toNat + len.toInt ≤ (c.pt.get i).stop → len.toInt ≤ c.maxLen → validateRead c addr len = .ok)

/-- R200, R160, R178, R16 (2): what a WRITE that passes validation may touch: its whole erase sweep lies inside one
partition that is not Boot, and every program cycle lies inside the payload's range at a 24-bit address, a full cycle at
a multiple of 256. -/
def Obligations.ValidatedWriteStaysInside : Prop :=
  ∀ (c : Config) (addr len : Word) (buf : List Byte), c.wf → validateWrite c addr len = .ok →
    buf.length = len.toInt.toNat →
    ∃ i, owner c addr.toNat = some i ∧ (c.pt.get i).role ≠ .boot ∧ granAt c addr = (c.pt.get i).gran ∧
      addr.toNat % (c.pt.get i).gran = 0 ∧ 1 ≤ len.toInt ∧ len.toInt ≤ c.maxLen ∧
      (c.pt.get i).start ≤ addr.toNat ∧ addr.toNat + len.toInt ≤ eraseEnd c addr len ∧
      eraseEnd c addr len ≤ (c.pt.get i).stop ∧ (c.pt.get i).stop ≤ flashSize ∧
      (∀ a, addr.toNat ≤ a → a < eraseEnd c addr len → owner c a = some i) ∧
      ∀ o ∈ progOperands addr buf len.toInt.toNat,
        (o.2.length = 1 ∨ (o.2.length = 256 ∧ o.1.toNat % 256 = 0)) ∧ addr.toNat ≤ o.1.toNat ∧
          o.1.toNat + o.2.length ≤ addr.toNat + len.toInt.toNat

/-- R204, R55, R119: a WRITE of any positive length into the Boot partition finishes with BoundaryError, and a
misaligned one whose range fits a partition that is not Boot with AlignmentError; one whose range overruns its partition
with BoundaryError, misaligned or not; none makes a transport call. -/
def Obligations.BootAndMisalignedWritesRejected : Prop :=
  ∀ (s : State) (p : Nat) (addr len : Word) (payload : List Byte) (i : Fin 3), s.cfg.wf →
    s.active = .port p → s.fetch = some (.write addr len payload) → 0 < len.toInt →
    contains (s.cfg.pt.get i) addr.toNat = true →
    ((s.cfg.pt.get i).role = .boot →
        ∃ t buf, exec (.write addr len payload) s = .next t ∧
          t.port p = (s.port p).done .boundaryError 0 [] buf ∧ sameOutside p s t) ∧
      (((s.cfg.pt.get i).stop : Int) < addr.toNat + len.toInt →
        ∃ t buf, exec (.write addr len payload) s = .next t ∧
          t.port p = (s.port p).done .boundaryError 0 [] buf ∧ sameOutside p s t) ∧
      ((s.cfg.pt.get i).role ≠ .boot → addr.toNat + len.toInt ≤ (s.cfg.pt.get i).stop →
        addr.toNat % (s.cfg.pt.get i).gran ≠ 0 →
        ∃ t buf, exec (.write addr len payload) s = .next t ∧
          t.port p = (s.port p).done .alignmentError 0 [] buf ∧ sameOutside p s t)

/-! ## The decode step of the commands -/

/-- R215: STATUS finishes with OK and the counter, in any state of the token, and changes nothing outside its port. -/
def Obligations.StatusReturnsCounter : Prop :=
  ∀ (s : State) (p : Nat), s.active = .port p → s.fetch = some .status →
    ∃ t buf, exec .status s = .next t ∧ t.port p = (s.port p).done .ok s.xferCount [] buf ∧ sameOutside p s t

/-- R216: RESET_STATUS clears the counter and finishes with OK and 0, in any state of the token. -/
def Obligations.ResetStatusClearsCounter : Prop :=
  ∀ (s : State) (p : Nat), s.active = .port p → s.fetch = some .resetStatus →
    ∃ t buf, exec .resetStatus s = .next t ∧ t.xferCount = 0 ∧ t.port p = (s.port p).done .ok 0 [] buf ∧
      sameOutside p { s with xferCount := 0 } t

/-- R95: the decode step of a reserved descriptor finishes with InvalidArgument and changes nothing outside its port; that
a `run` turn takes that same step is the model's choice (log 13). -/
def Obligations.ReservedDescriptorRejected : Prop :=
  ∀ (s : State) (p : Nat) (u : Turn) (rest : List Turn), s.cfg.wf → s.sched = u :: rest →
    (u = .decode p ∨ u = .run (.port p)) → (s.port p).phase = .pSubmitted →
    (s.port p).op ≠ 1 → (s.port p).op ≠ 2 → (s.port p).op ≠ 3 → (s.port p).op ≠ 4 →
    ∃ t buf, step s = .next t ∧ t.port p = (s.port p).done .invalidArgument 0 [] buf ∧ sameOutside p s t

/-- R233, R227, R229: a READ that fails validation finishes with validation's answer and changes nothing outside its
port. -/
def Obligations.RejectedReadFinishes : Prop :=
  ∀ (s : State) (p : Nat) (addr len : Word), s.active = .port p → s.fetch = some (.read addr len) →
    validateRead s.cfg addr len ≠ .ok →
    ∃ t buf, exec (.read addr len) s = .next t ∧
      t.port p = (s.port p).done (validateRead s.cfg addr len) 0 [] buf ∧ sameOutside p s t

/-- R233, R157: a WRITE that fails validation finishes with validation's answer, whatever the allocation draw would be,
and changes nothing outside its port. -/
def Obligations.RejectedWriteFinishes : Prop :=
  ∀ (s : State) (p : Nat) (addr len : Word) (payload : List Byte), s.active = .port p →
    s.fetch = some (.write addr len payload) → validateWrite s.cfg addr len ≠ .ok →
    ∃ t buf, exec (.write addr len payload) s = .next t ∧
      t.port p = (s.port p).done (validateWrite s.cfg addr len) 0 [] buf ∧ sameOutside p s t

/-- R158, R231, R233: a valid WRITE whose allocation draw is false finishes with AllocationFailure, makes no transport
call and does not touch the token. -/
def Obligations.UnallocatedWriteFinishes : Prop :=
  ∀ (s : State) (p : Nat) (addr len : Word) (payload : List Byte), s.active = .port p →
    s.fetch = some (.write addr len payload) → validateWrite s.cfg addr len = .ok → s.drawAlloc.1 = false →
    ∃ t buf, exec (.write addr len payload) s = .next t ∧
      t.port p = (s.port p).done .allocationFailure 0 [] buf ∧ sameOutside p s t

/-- R157, R138, R131: the decode step of a valid WRITE copies the payload in, latches the partition and waits, with no
transport call; where the token is not Ready that is all the whole command does. -/
def Obligations.ValidWriteCopiesInAndWaits : Prop :=
  ∀ (s : State) (p : Nat) (addr len : Word) (payload : List Byte), s.active = .port p →
    s.fetch = some (.write addr len payload) → validateWrite s.cfg addr len = .ok → s.drawAlloc.1 = true →
    len.toInt ≤ payload.length →
    ∃ t, decodeStep p s = .next t ∧
      t.port p =
        { s.port p with
          buf := payload.take len.toInt.toNat
          bufHeld := true
          part := owner s.cfg addr.toNat
          k := 0
          phase := .pWaitErase } ∧
      sameOutside p s t ∧ (s.fstate ≠ .ready → exec (.write addr len payload) s = .next t)

/-- R191, R138, R131: the decode step of a valid READ latches the partition and waits, with no transport call; where the
token is not Ready that is all the whole command does. -/
def Obligations.ValidReadWaits : Prop :=
  ∀ (s : State) (p : Nat) (addr len : Word), s.active = .port p → s.fetch = some (.read addr len) →
    validateRead s.cfg addr len = .ok →
    ∃ t, decodeStep p s = .next t ∧
      t.port p = { s.port p with part := owner s.cfg addr.toNat, rdata := [], phase := .pWaitRead } ∧
      sameOutside p s t ∧ (s.fstate ≠ .ready → exec (.read addr len) s = .next t)

/-- A WRITE that was validated and owes its payload's rest: the host handed over fewer than `LEN` bytes (93 U11). -/
def shortWrite (c : Config) (addr len : Word) (payload : List Byte) : Prop :=
  validateWrite c addr len = .ok ∧ (payload.length : Int) < len.toInt

/-- 93 U6, U11 (the model's choice, logs 14, 15): the two refusals of the model, where each is answered, and that no step
and no instruction answers any other: a step under a well-formed configuration is refused only at a port whose submitted
WRITE is valid and short. -/
def Obligations.RefusalsAreTheTwoDeclared : Prop :=
  (∀ s : State, ¬ s.cfg.wf → step s = .refused .configIllFormed) ∧
    (∀ (s : State) (p : Nat) (addr len : Word) (payload : List Byte), s.active = .port p →
      s.fetch = some (.write addr len payload) → shortWrite s.cfg addr len payload → s.drawAlloc.1 = true →
      exec (.write addr len payload) s = .refused .payloadShort) ∧
    (∀ (s : State) (r : Refusal), s.cfg.wf → step s = .refused r →
      r = .payloadShort ∧ ∃ p, (s.port p).phase = .pSubmitted ∧ (s.port p).op = 2 ∧
        shortWrite s.cfg (s.port p).addr (s.port p).len (s.port p).payload) ∧
    (∀ (s : State) (i : Instr) (r : Refusal), exec i s = .refused r →
      r = .payloadShort ∧ s.drawAlloc.1 = true ∧
        ∃ addr len payload, i = .write addr len payload ∧ shortWrite s.cfg addr len payload) ∧
    ∀ (s : State) (i : Instr), i.wf s.cfg = true → ∀ r, exec i s ≠ .refused r

/-! ## Host steps (10_state R37) -/

/-- R37, R36: `submit` latches a descriptor in an idle port and resets its position; it is not enabled elsewhere. -/
def Obligations.SubmitLatchesDescriptor : Prop :=
  ∀ (s : State) (p : Nat) (w0 w1 w2 : Word) (payload : List Byte) (rest : List Turn), s.cfg.wf →
    s.sched = .submit p w0 w1 w2 payload :: rest → p < s.ctx.length →
    ∃ t, step s = .next t ∧ sameOutside p s t ∧
      ((s.port p).phase = .pIdle →
        t.port p =
          { s.port p with
            op := w0
            addr := w1
            len := w2
            payload := payload
            part := none
            k := 0
            ev := 0
            rdata := []
            phase := .pSubmitted }) ∧
      ((s.port p).phase ≠ .pIdle → t.port p = s.port p)

/-- R37, R36: `collect` hands the completion record of a finished port to the host and makes the port idle. -/
def Obligations.CollectReturnsRecord : Prop :=
  ∀ (s : State) (p : Nat) (rest : List Turn), s.cfg.wf → s.sched = .collect p :: rest →
    (s.port p).phase = .pDone →
    ∃ t, step s = .next t ∧
      t.host = s.host ++ [⟨p, (s.port p).result, (s.port p).count, (s.port p).rdata⟩] ∧
      t.port p = { s.port p with phase := .pIdle } ∧ sameOutside p { s with host := t.host } t

/-- R271: in a quiescent state no step of the block is enabled; with no turn scheduled, and none to come but the enabled
steps of the block, the state stays as it is (the model's schedule, log 6). -/
def Obligations.QuiescentStateStays : Prop :=
  ∀ s : State, s.cfg.wf → s.quiescent →
    s.enabledTurns = [] ∧ (s.sched = [] → s.later = .enabled → step s = .next s)

/-- R36: which steps of the block are enabled: `decode` of a submitted port, `acquire` of a waiting port when the token is
Ready, `event` of the owner in its hold, `init_event` while the token is Unknown, and no other. R41, R142: with no turn
scheduled, the step is one of them, any one, and none where there is none (the schedule `later = .enabled`, log 6). -/
def Obligations.UnscheduledStepIsEnabled : Prop :=
  (∀ (s : State) (p : Nat),
      (.decode p ∈ s.enabledTurns ↔ (s.port p).phase = .pSubmitted) ∧
        (.acquire p ∈ s.enabledTurns ↔
          ((s.port p).phase = .pWaitErase ∨ (s.port p).phase = .pWaitProg ∨ (s.port p).phase = .pWaitRead) ∧
            s.fstate = .ready)) ∧
    (∀ s : State, s.Inv →
      (.initEvent ∈ s.enabledTurns ↔ s.fstate = .unknown) ∧
        ∀ p, .event p ∈ s.enabledTurns ↔
          ((s.port p).phase = .pErase ∨ (s.port p).phase = .pProg ∨ (s.port p).phase = .pRead) ∧
            s.owner = some (.port p)) ∧
    (∀ s : State, ∀ u ∈ s.enabledTurns, u = .initEvent ∨ ∃ p, u.smallOf p = true) ∧
    ∀ s : State, s.cfg.wf → s.sched = [] → s.later = .enabled →
      (s.enabledTurns = [] ∧ step s = .next s) ∨
        ∃ u ∈ s.enabledTurns, ∃ ix, step s = takeTurn u { s with freeIx := ix }

/-! ## The token (42_flash_state_machine) -/

/-- R139: `acquire` tests Ready and sets the matching busy state, the owner and the phase in one step. -/
def Obligations.AcquireTakesToken : Prop :=
  ∀ (s : State) (p : Nat) (busy : FlashState) (phase : Phase) (rest : List Turn), s.cfg.wf →
    s.sched = .acquire p :: rest → s.fstate = .ready →
    (((s.port p).phase = .pWaitErase ∧ busy = .erasing ∧ phase = .pErase) ∨
      ((s.port p).phase = .pWaitProg ∧ busy = .writing ∧ phase = .pProg) ∨
      ((s.port p).phase = .pWaitRead ∧ busy = .reading ∧ phase = .pRead)) →
    ∃ t, step s = .next t ∧ t.fstate = busy ∧ t.owner = some (.port p) ∧
      t.port p = { s.port p with ev := 0, phase := phase } ∧
      sameOutside p { s with fstate := busy, owner := some (.port p) } t

/-- R138: a port that finds the token not Ready stays where it is, and raises no error. -/
def Obligations.WaitingPortStays : Prop :=
  ∀ (s : State) (p : Nat) (rest : List Turn), s.cfg.wf → s.sched = .acquire p :: rest → s.fstate ≠ .ready →
    step s = .next { s with sched := rest }

/-- R136: the transition table of `csr.FSTATE`, for every small step, with the owner each transition sets or clears. -/
def Obligations.TokenTransitions : Prop :=
  ∀ (s t : State) (u : Turn), s.Inv → (∀ a, u ≠ .run a) → takeTurn u s = .next t →
    (t.fstate = s.fstate ∧ t.owner = s.owner) ∨
      (s.fstate = .unknown ∧ t.fstate = .ready ∧ t.owner = none ∧ u = .initEvent) ∨
      (s.fstate = .ready ∧ ∃ p, u = .acquire p ∧ t.owner = some (.port p) ∧
        (((s.port p).phase = .pWaitErase ∧ t.fstate = .erasing) ∨
          ((s.port p).phase = .pWaitProg ∧ t.fstate = .writing) ∨
          ((s.port p).phase = .pWaitRead ∧ t.fstate = .reading))) ∨
      (s.fstate.busy = true ∧ t.fstate = .ready ∧ t.owner = none ∧
        ∃ p, u = .event p ∧ s.owner = some (.port p))

/-- R262: a hold always ends: performing the events that are left of it brings the token back to Ready, whatever the
environment answers. -/
def Obligations.HoldEndsInReady : Prop :=
  ∀ (s : State) (p : Nat), s.Inv → s.ChipInv → s.cfg.opcodesDistinct → s.owner = some (.port p) →
    ∃ t, repeatStep (portEvent p) (((s.port p).holdList s.cfg).length - (s.port p).ev) s = .next t ∧
      t.idleToken ∧ sameBeyondHold p s t

/-! ## Identification (41_identification) -/

/-- R126, R128, R92: the whole IDENT frame, where no answer is a timeout: three bytes, big-endian, become the identity,
and the token becomes Ready whatever the identity is. Under the pure reference environment they are the chip's. That the
flash is unchanged speaks of the reference chip; under `ENV_ANY` no contents are tracked (log 11). -/
def Obligations.IdentificationCompletes : Prop :=
  ∀ s : State, s.active = .init → s.fetch = some .ident → s.env.answers 4 →
    ∃ t b0 b1 b2, exec .ident s = .next t ∧
      t.trace = s.trace ++
        [⟨.init, s.holdNo, .sel, .ok⟩, ⟨.init, s.holdNo, .wb s.cfg.opcIdent, .ok⟩,
          ⟨.init, s.holdNo, .rb, .byte b0⟩, ⟨.init, s.holdNo, .rb, .byte b1⟩,
          ⟨.init, s.holdNo, .rb, .byte b2⟩, ⟨.init, s.holdNo, .desel, .ok⟩] ∧
      t.identity = b0 ++ b1 ++ b2 ∧ t.idValid = true ∧
      (t.idMismatch = true ↔ t.identity ∉ s.cfg.expectedIds) ∧ t.idTimeout = false ∧
      t.idleToken ∧ sameBeyondIdent s t ∧ (s.env.reference → t.identity = s.env.chip.chipId)

/-- R129: a timeout in identification ends it with Ready and `ID_TIMEOUT`, after a deselect where one is owed. Of the
identity nothing is said: it is unspecified. That the flash is unchanged speaks of the reference chip; under `ENV_ANY` no
contents are tracked (log 11). -/
def Obligations.IdentificationTimeout : Prop :=
  ∀ (s : State) (e : Event), s.Inv → s.ChipInv → s.owner = some .init →
    (identFrame s.cfg)[s.initEv]? = some e → e ≠ .sel → e ≠ .desel → s.draw.1 = .timeout →
    ∃ t, initEvent s = .next t ∧
      t.trace = s.trace ++ ⟨.init, s.holdNo, e, .timeout⟩ ::
        (if s.sel then [⟨.init, s.holdNo, .desel, .ok⟩] else []) ∧
      t.idValid = false ∧ t.idMismatch = false ∧ t.idTimeout = true ∧ t.idleToken ∧ sameBeyondIdent s t

/-- R130: no command and no step of a port reads `csr.IDENTITY` or `csr.DIAG`: with other values there everything else
goes the same way. -/
def Obligations.CommandsIgnoreIdentity : Prop :=
  ∀ (s : State) (identity : Addr24) (diag : BitVec 3),
    (∀ i : Instr, i ≠ .ident →
      exec i (s.withIdentity identity diag) = andThen (exec i s) (fun t => .next (t.withIdentity identity diag))) ∧
      ∀ u : Turn, u ≠ .initEvent → u ≠ .run .init →
        takeTurn u (s.withIdentity identity diag) =
          andThen (takeTurn u s) (fun t => .next (t.withIdentity identity diag))

/-! ## Frames and holds -/

/-- R232: a timeout inside a hold, at any event that can time out: the call is made, then a deselect where one is owed
and no other; the token is Ready; the command has finished with TransportTimeout, the buffer released; `K`, `EV` and the
counter keep their values. -/
def Obligations.HoldTimeoutFails : Prop :=
  ∀ (s : State) (p : Nat) (e : Event), s.Inv → s.ChipInv → s.cfg.opcodesDistinct →
    s.nextEvent p = some e → e ≠ .sel → e ≠ .desel → s.draw.1 = .timeout →
    ∃ t buf, portEvent p s = .next t ∧ t.port p = (s.port p).done .transportTimeout 0 [] buf ∧ t.idleToken ∧
      t.trace = s.trace ++ ⟨.port p, s.holdNo, e, .timeout⟩ ::
        (if s.sel then [⟨.port p, s.holdNo, .desel, .ok⟩] else []) ∧
      t.xferCount = s.xferCount ∧ sameBeyondHold p s t

/-- R161, R162, R70: the ERASE frame of a hold, where no answer is a timeout: its seven events, then the end action: the
token is Ready, `K` counts the unit, and the port waits for the next unit or for the program phase. Under `ENV_REF` the
unit is erased and no other byte changes; under `ENV_ANY` no flash contents are tracked (log 11). -/
def Obligations.EraseFrameCompletes : Prop :=
  ∀ (s : State) (p : Nat) (gran : Nat) (addr : Addr24), s.Inv → s.ChipInv → s.cfg.opcodesDistinct →
    s.active = .port p → s.fetch = some (.erase gran addr) → s.env.answers 5 →
    ∃ t, exec (.erase gran addr) s = .next t ∧ t.idleToken ∧ t.xferCount = s.xferCount ∧
      t.port p =
        { s.port p with
          k := (s.port p).k + 1
          ev := 7
          phase := if (s.port p).k + 1 < (s.port p).eraseUnits s.cfg then .pWaitErase else .pWaitProg } ∧
      performs s t (.port p) (eraseFrame s.cfg gran addr) ∧ sameBeyondHold p s t ∧
      ∀ a, t.env.chip.fl.read a =
        if s.env.kind = .ref ∧ addr.toNat ≤ a ∧ a < addr.toNat + gran then erasedByte else s.env.chip.fl.read a

/-- R176, R180, R70: a PROGRAM frame of a hold, where no answer is a timeout: its events; then, after the last cycle, the
end action that completes the WRITE, and otherwise the hold goes on at the next cycle. Under `ENV_REF` the data bytes are
ANDed in and no other byte changes; under `ENV_ANY` no flash contents are tracked (log 11). -/
def Obligations.ProgramFrameCompletes : Prop :=
  ∀ (s : State) (p : Nat) (addr : Addr24) (data : List Byte), s.Inv → s.ChipInv → s.cfg.opcodesDistinct →
    s.active = .port p → s.fetch = some (.program addr data) →
    s.env.answers (asked (progCycle s.cfg addr data)) →
    ∃ t, exec (.program addr data) s = .next t ∧
      performs s t (.port p) (progCycle s.cfg addr data) ∧ sameBeyondHold p s t ∧
      (∀ a, t.env.chip.fl.read a =
        if s.env.kind = .ref ∧ addr.toNat ≤ a ∧ a < addr.toNat + data.length then
          s.env.chip.fl.read a &&& data[a - addr.toNat]?.getD erasedByte
        else s.env.chip.fl.read a) ∧
      ((s.port p).ev + (progCycle s.cfg addr data).length = ((s.port p).holdList s.cfg).length →
        t.idleToken ∧ credited s.cfg (s.port p).addr (s.port p).lenNat s.xferCount t.xferCount ∧
          ∃ buf, t.port p =
            { s.port p with ev := ((s.port p).holdList s.cfg).length }.done .ok (s.port p).len [] buf) ∧
      ((s.port p).ev + (progCycle s.cfg addr data).length ≠ ((s.port p).holdList s.cfg).length →
        t.fstate = s.fstate ∧ t.owner = s.owner ∧ t.sel = false ∧ t.xferCount = s.xferCount ∧
          t.port p = { s.port p with ev := (s.port p).ev + (progCycle s.cfg addr data).length })

/-- R192, R193, R195: the FAST_READ or READ_SLOW frame of a hold, where no answer is a timeout: the end action completes
the READ with exactly `LEN` bytes, which under the pure reference environment are the flash bytes from the address on.
That the flash is unchanged speaks of the reference chip; under `ENV_ANY` no contents are tracked (log 11). -/
def Obligations.ReadFrameCompletes : Prop :=
  ∀ (s : State) (p : Nat) (addr : Addr24) (i : Instr), s.Inv → s.ChipInv → s.cfg.opcodesDistinct →
    s.active = .port p → (i = .fastRead addr ∨ i = .readSlow addr) → s.fetch = some i →
    s.env.answers (asked (frameOf s.cfg (s.port p).lenNat i)) →
    ∃ t rdata, exec i s = .next t ∧ t.idleToken ∧
      t.port p =
        { s.port p with ev := ((s.port p).holdList s.cfg).length }.done .ok (s.port p).len rdata (s.port p).buf ∧
      rdata.length = (s.port p).lenNat ∧
      credited s.cfg (s.port p).addr (s.port p).lenNat s.xferCount t.xferCount ∧
      performs s t (.port p) (frameOf s.cfg (s.port p).lenNat i) ∧ sameBeyondHold p s t ∧
      (∀ a, t.env.chip.fl.read a = s.env.chip.fl.read a) ∧
      (s.env.reference →
        rdata = (List.range (s.port p).lenNat).map (fun j => s.env.chip.fl.read (addr.toNat + j)))

/-- R191, R193, R217: a valid READ that finds the token Ready, where no answer is a timeout: one frame, then OK with
`COUNT` = `LEN` and exactly `LEN` bytes, which under the pure reference environment are the flash bytes from `ADDR` on;
the counter is credited on the Config partition; the flash is unchanged (under `ENV_ANY` no contents are tracked,
log 11). -/
def Obligations.ReadCompletes : Prop :=
  ∀ (s : State) (p : Nat) (addr len : Word), s.Inv → s.ChipInv → s.cfg.opcodesDistinct →
    s.active = .port p → s.fetch = some (.read addr len) → validateRead s.cfg addr len = .ok →
    s.fstate = .ready → s.env.answers (asked (readEvents s.cfg addr len.toInt.toNat)) →
    ∃ t rdata, exec (.read addr len) s = .next t ∧ t.idleToken ∧
      t.port p =
        { s.port p with
          part := owner s.cfg addr.toNat
          ev := (readEvents s.cfg addr len.toInt.toNat).length }.done .ok len rdata (s.port p).buf ∧
      rdata.length = len.toInt.toNat ∧ credited s.cfg addr len.toInt.toNat s.xferCount t.xferCount ∧
      performs s t (.port p) (readEvents s.cfg addr len.toInt.toNat) ∧ sameBeyondHold p s t ∧
      (∀ a, t.env.chip.fl.read a = s.env.chip.fl.read a) ∧
      (s.env.reference →
        rdata = (List.range len.toInt.toNat).map (fun j => s.env.chip.fl.read (addr.toNat + j)))

/-- R156, R160, R177, R180, R217, R70: a valid WRITE that is allocated and finds the token Ready, where no answer is a
timeout and no other agent comes in between: its erase frames in ascending order, then its program cycles; OK with
`COUNT` = `LEN`; the counter is credited on the Config partition. Under `ENV_REF` the payload stands at `ADDR`, the rest
of the last erase unit is erased, and no other byte has changed; under `ENV_ANY` no flash contents are tracked
(log 11). -/
def Obligations.WriteCompletes : Prop :=
  ∀ (s : State) (p : Nat) (addr len : Word) (payload : List Byte), s.Inv → s.ChipInv → s.cfg.opcodesDistinct →
    s.active = .port p → s.fetch = some (.write addr len payload) → validateWrite s.cfg addr len = .ok →
    s.drawAlloc.1 = true → len.toInt ≤ payload.length → s.fstate = .ready →
    s.env.answers (asked (writeEvents s.cfg addr len payload)) →
    ∃ t buf, exec (.write addr len payload) s = .next t ∧ t.idleToken ∧
      t.port p =
        { s.port p with
          part := owner s.cfg addr.toNat
          k := ceilDiv len.toInt.toNat (granAt s.cfg addr)
          ev := (progList s.cfg addr (payload.take len.toInt.toNat) len.toInt.toNat).length }.done .ok len [] buf ∧
      credited s.cfg addr len.toInt.toNat s.xferCount t.xferCount ∧
      performs s t (.port p) (writeEvents s.cfg addr len payload) ∧ sameBeyondHold p s t ∧
      ∀ a, t.env.chip.fl.read a =
        if s.env.kind = .ref ∧ addr.toNat ≤ a ∧ a < eraseEnd s.cfg addr len then
          ((payload.take len.toInt.toNat)[a - addr.toNat]?).getD erasedByte
        else s.env.chip.fl.read a

/-- R72: under the pure reference environment, a WRITE of `D` at `A` and then a READ of the same range, by the same port
or another, returns `D`. -/
def Obligations.WriteThenReadReturnsPayload : Prop :=
  ∀ (s : State) (p : Nat) (addr len : Word) (payload ignored : List Byte), s.Inv → s.ChipInv →
    s.cfg.opcodesDistinct → s.env.reference → s.active = .port p → s.fetch = some (.write addr len payload) →
    validateWrite s.cfg addr len = .ok → s.drawAlloc.1 = true → len.toInt ≤ payload.length → s.fstate = .ready →
    ∃ t, exec (.write addr len payload) s = .next t ∧
      ∀ q, q < s.ctx.length → ((t.port q).phase = .pIdle ∨ (t.port q).phase = .pDone) →
        ∃ u,
          exec (.read addr len)
              { (t.collect q).submit q 1 addr len ignored with active := .port q } = .next u ∧
            (u.port q).phase = .pDone ∧ (u.port q).result = .ok ∧ (u.port q).count = len ∧
            (u.port q).rdata = payload.take len.toInt.toNat

/-- The frame of every instruction a port runs, whatever the environment answers: if it answers a next state, the
configuration, the identification registers, the other ports and the latched request are unchanged (`PART` as well,
except by READ and WRITE, which latch it, and `K`, except by ERASE and WRITE); `RESULT` and `COUNT` change only when the
command finishes; every byte of the flash outside the bytes the instruction stores to reads as before (all of it for one
that stores nothing); and a command that has not finished with OK has not changed the counter, but for RESET_STATUS,
which clears it. The flash is the reference chip's; under `ENV_ANY` no contents are tracked: that the array is unchanged
there is the model's choice (log 11). -/
def Obligations.InstructionFrame : Prop :=
  ∀ (s t : State) (p : Nat) (i : Instr), s.Inv → s.ChipInv → s.cfg.opcodesDistinct → s.active = .port p →
    s.fetch = some i → exec i s = .next t →
    sameBeyondHold p s t ∧ sameRequest (s.port p) (t.port p) ∧
      sameFlashOutside (storedRange s.cfg i).1 (storedRange s.cfg i).2 s t ∧
      ((∀ addr len, i ≠ .read addr len) → (∀ addr len payload, i ≠ .write addr len payload) →
        (t.port p).part = (s.port p).part) ∧
      ((∀ gran addr, i ≠ .erase gran addr) → (∀ addr len payload, i ≠ .write addr len payload) →
        (t.port p).k = (s.port p).k) ∧
      ((t.port p).phase ≠ .pDone → (t.port p).result = (s.port p).result ∧ (t.port p).count = (s.port p).count) ∧
      (i ≠ .resetStatus → (t.port p).phase ≠ .pDone ∨ (t.port p).result ≠ .ok → t.xferCount = s.xferCount)

/-- R268, R25: the frame of IDENT, whatever the environment answers: ports, counter and flash are unchanged. The
flash is the reference chip's; under `ENV_ANY` no contents are tracked (log 11). -/
def Obligations.IdentificationFrame : Prop :=
  ∀ s t : State, exec .ident s = .next t → sameBeyondIdent s t

/-! ## Fused and small steps -/

/-- R40: running a whole frame at once is the same as performing its events one after another, whatever the environment
answers. -/
def Obligations.FusedFrameIsItsEvents : Prop :=
  (∀ (s : State) (p : Nat) (i : Instr), s.Inv → s.active = .port p → s.fetch = some i →
      (s.port p).phase ≠ .pSubmitted →
      exec i s = repeatStep (portEvent p) (frameOf s.cfg (s.port p).lenNat i).length s) ∧
    ∀ s : State, s.Inv → s.active = .init → s.fetch = some .ident →
      exec .ident s = repeatStep initEvent (identFrame s.cfg).length s

/-- R156, R191, R36: running a whole command at once is the same as small steps of its port, one after another, whatever
the environment answers: the fused form adds no behaviour. -/
def Obligations.FusedCommandIsSmallSteps : Prop :=
  ∀ (s : State) (p : Nat) (i : Instr), s.Inv → s.active = .port p → s.fetch = some i →
    (s.port p).phase = .pSubmitted →
    ∃ turns : List Turn, (∀ u ∈ turns, u.smallOf p = true) ∧ exec i s = takeTurns turns s

/-! ## No fairness -/

/-- R142, R262, 93 U2: no fairness. While port `p` waits, another port `q` may read again and again for ever: under that
schedule (log 6) every step answers a next state, `q` takes the token once in every three steps, and `p` is still where it
was. -/
def Obligations.WaitingPortMayStarve : Prop :=
  ∀ (s : State) (p q : Nat) (addr len : Word), s.Inv → s.ChipInv → s.cfg.opcodesDistinct → s.env.reference →
    s.fstate = .ready → q < s.ctx.length → q ≠ p → (s.port q).phase = .pIdle → validateRead s.cfg addr len = .ok →
    s.sched = [] → s.later = .again [.submit q 1 addr len [], .run (.port q), .collect q] →
    ∀ n, ∃ t, repeatStep step n s = .next t ∧ t.port p = s.port p ∧ s.holdNo + n / 3 ≤ t.holdNo
end

