-- ==== Sys2Proof/Laws/Memory.lean ====
section
/-! SUPPORT. The flash array: read after write, what erase and program leave, and that every operation keeps the
canonical form. -/

namespace Sys2Proof.Machine

theorem Mem.wf_nil : Mem.wf [] := by simp [Mem.wf]

theorem Mem.wf_cons {x : Host.Cell} {m : Mem} :
    Mem.wf (x :: m) ↔ (∀ y ∈ m, x.1 < y.1) ∧ x.2 ≠ erasedByte ∧ x.1 < flashSize ∧ Mem.wf m := by
  unfold Mem.wf
  rw [List.pairwise_cons, List.forall_mem_cons]
  exact ⟨fun ⟨⟨a, b⟩, ⟨c, d⟩, e⟩ => ⟨a, c, d, b, e⟩, fun ⟨a, c, d, b, e⟩ => ⟨⟨a, b⟩, ⟨c, d⟩, e⟩⟩

/-- An address below every listed address reads as erased. -/
theorem Mem.read_of_lt {m : Mem} {a : Nat} (h : ∀ y ∈ m, a < y.1) : m.read a = erasedByte := by
  induction m with
  | nil => rfl
  | cons x m ih =>
    have hx : a < x.1 := h x (List.mem_cons_self ..)
    simp only [Mem.read]
    rw [if_neg (by omega)]
    exact ih (fun y hy => h y (List.mem_cons_of_mem _ hy))

/-- Read after write: the written byte at its address, every other byte as before. -/
theorem Mem.read_write {m : Mem} (hm : m.wf) (a b : Nat) (v : Byte) :
    (m.write a v).read b = if b = a then v else m.read b := by
  induction m with
  | nil =>
    simp only [Mem.write]
    by_cases hv : v = erasedByte
    · simp [hv, Mem.read]
    · by_cases hb : b = a
      · simp [hv, Mem.read, hb]
      · simp [hv, Mem.read, hb, Ne.symm hb]
  | cons x m ih =>
    obtain ⟨k, w⟩ := x
    obtain ⟨hlt, hne, hk, hm'⟩ := Mem.wf_cons.1 hm
    simp only at hlt hne hk
    simp only [Mem.write]
    by_cases h1 : k < a
    · rw [if_pos h1]
      simp only [Mem.read]
      by_cases hb : k = b
      · rw [if_pos hb, if_pos hb, if_neg (by omega)]
      · rw [if_neg hb, if_neg hb, ih hm']
    · rw [if_neg h1]
      by_cases h2 : k = a
      · subst h2
        rw [if_pos rfl]
        by_cases hv : v = erasedByte
        · rw [if_pos hv]
          by_cases hb : b = k
          · subst hb; simp [hv, Mem.read_of_lt hlt]
          · simp [Mem.read, hb, Ne.symm hb]
        · rw [if_neg hv]
          by_cases hb : b = k
          · simp [Mem.read, hb]
          · simp [Mem.read, hb, Ne.symm hb]
      · rw [if_neg h2]
        have hall : ∀ y ∈ (k, w) :: m, a < y.1 := by
          intro y hy
          rcases List.mem_cons.1 hy with rfl | hy
          · simp only; omega
          · have := hlt y hy; omega
        by_cases hv : v = erasedByte
        · rw [if_pos hv]
          by_cases hb : b = a
          · subst hb; simp [hv, Mem.read_of_lt hall]
          · simp [hb]
        · rw [if_neg hv]
          simp only [Mem.read]
          by_cases hb : a = b
          · simp [hb]
          · simp [hb, Ne.symm hb]

/-- Where a write can put an address. -/
theorem Mem.mem_write {m : Mem} {a : Nat} {v : Byte} {y : Host.Cell} (h : y ∈ m.write a v) :
    y ∈ m ∨ (y = (a, v) ∧ v ≠ erasedByte) := by
  induction m with
  | nil =>
    simp only [Mem.write] at h
    split at h
    · cases h
    · rename_i hv; exact .inr ⟨by simpa using h, hv⟩
  | cons x m ih =>
    obtain ⟨k, w⟩ := x
    simp only [Mem.write] at h
    split at h
    · rcases List.mem_cons.1 h with rfl | h
      · exact .inl (List.mem_cons_self ..)
      · rcases ih h with h | h
        · exact .inl (List.mem_cons_of_mem _ h)
        · exact .inr h
    · split at h
      · split at h
        · exact .inl (List.mem_cons_of_mem _ h)
        · rename_i hv
          rcases List.mem_cons.1 h with rfl | h
          · exact .inr ⟨rfl, hv⟩
          · exact .inl (List.mem_cons_of_mem _ h)
      · split at h
        · exact .inl h
        · rename_i hv
          rcases List.mem_cons.1 h with rfl | h
          · exact .inr ⟨rfl, hv⟩
          · exact .inl h

/-- A write to an address of the flash keeps the canonical form. -/
theorem Mem.write_wf {m : Mem} (hm : m.wf) {a : Nat} (ha : a < flashSize) (v : Byte) : (m.write a v).wf := by
  induction m with
  | nil =>
    simp only [Mem.write]
    split
    · exact Mem.wf_nil
    · rename_i hv; exact Mem.wf_cons.2 ⟨by simp, hv, ha, Mem.wf_nil⟩
  | cons x m ih =>
    obtain ⟨k, w⟩ := x
    obtain ⟨hlt, hne, hk, hm'⟩ := Mem.wf_cons.1 hm
    simp only at hlt hne hk
    simp only [Mem.write]
    split
    · rename_i h1
      refine Mem.wf_cons.2 ⟨fun y hy => ?_, hne, hk, ih hm'⟩
      rcases Mem.mem_write hy with h | ⟨rfl, _⟩
      · exact hlt y h
      · exact h1
    · split
      · rename_i h1 h2
        subst h2
        split
        · exact hm'
        · rename_i hv; exact Mem.wf_cons.2 ⟨hlt, hv, ha, hm'⟩
      · rename_i h1 h2
        split
        · exact hm
        · rename_i hv
          refine Mem.wf_cons.2 ⟨fun y hy => ?_, hv, ha, hm⟩
          rcases List.mem_cons.1 hy with rfl | hy
          · simp only; omega
          · have := hlt y hy; simp only; omega

/-- Erasing keeps the canonical form. -/
theorem Mem.erase_wf {m : Mem} (hm : m.wf) (base n : Nat) : (m.erase base n).wf := by
  refine ⟨List.Pairwise.filter _ hm.1, fun x hx => hm.2 x (List.mem_of_mem_filter hx)⟩

/-- After an erase the unit reads 0xFF and every other byte as before. -/
theorem Mem.read_erase (m : Mem) (base n a : Nat) :
    (m.erase base n).read a = if base ≤ a ∧ a < base + n then erasedByte else m.read a := by
  induction m with
  | nil => simp [Mem.erase, Mem.read]
  | cons x m ih =>
    obtain ⟨k, w⟩ := x
    simp only [Mem.erase] at ih
    simp only [Mem.erase, List.filter_cons, Mem.read]
    by_cases hx : k < base ∨ base + n ≤ k
    · rw [if_pos (by simpa using hx)]
      simp only [Mem.read]
      by_cases hk : k = a
      · rw [if_pos hk, if_neg (by omega), if_pos hk]
      · rw [if_neg hk, ih, if_neg hk]
    · rw [if_neg (by simpa using hx), ih]
      by_cases hk : k = a
      · rw [if_pos (by omega), if_pos (by omega)]
      · rw [if_neg hk]

/-- Programming inside the flash keeps the canonical form. -/
theorem Mem.program_wf {m : Mem} (hm : m.wf) {a : Nat} {d : List Byte} (h : a + d.length ≤ flashSize) :
    (m.program a d).wf := by
  induction d generalizing m a with
  | nil => exact hm
  | cons b d ih =>
    simp only [List.length_cons] at h
    exact ih (Mem.write_wf hm (by omega) _) (by omega)

/-- After programming `d` at `a`, byte `a + j` is ANDed with `d[j]` and every other byte is as before. -/
theorem Mem.read_program {m : Mem} (hm : m.wf) {a : Nat} {d : List Byte} (h : a + d.length ≤ flashSize) (b : Nat) :
    (m.program a d).read b = if a ≤ b ∧ b < a + d.length then m.read b &&& d[b - a]?.getD erasedByte else m.read b := by
  induction d generalizing m a with
  | nil => simp [Mem.program]
  | cons x d ih =>
    simp only [List.length_cons] at h ⊢
    simp only [Mem.program]
    rw [ih (Mem.write_wf hm (by omega) _) (by omega), Mem.read_write hm]
    by_cases h0 : b = a
    · subst h0
      simp
    · by_cases h1 : a + 1 ≤ b ∧ b < a + 1 + d.length
      · rw [if_pos h1, if_neg h0, if_pos (by omega)]
        have : b - a = (b - (a + 1)) + 1 := by omega
        rw [this, List.getElem?_cons_succ]
      · rw [if_neg h1, if_neg h0, if_neg (by omega)]

end Sys2Proof.Machine
end

