-- ==== Sys2Proof/Laws/State.lean ====
section
/-! SUPPORT. One lemma per field of State per update, true by unfolding once, and the port registers read back. -/

namespace Sys2Proof.Machine

/-! ## Reading a port after writing it -/

theorem port_of_ctx {s t : State} (h : t.ctx = s.ctx) (p : Nat) : t.port p = s.port p := by
  simp [State.port, h]

theorem port_setPort_self {s : State} {p : Nat} (hp : p < s.ctx.length) (f : Ctx → Ctx) :
    (s.setPort p f).port p = f (s.port p) := by
  simp [State.port, State.setPort, List.getElem?_modify, hp]

@[simp] theorem port_setPort_of_ne {s : State} {p q : Nat} (h : q ≠ p) (f : Ctx → Ctx) :
    (s.setPort p f).port q = s.port q := by
  simp [State.port, State.setPort, List.getElem?_modify, Ne.symm h]

/-- A port number that does not exist cannot be written. -/
theorem setPort_absent {s : State} {p : Nat} (hp : s.ctx.length ≤ p) (f : Ctx → Ctx) : s.setPort p f = s := by
  have h : s.ctx.modify p f = s.ctx := by
    apply List.ext_getElem?
    intro i
    rw [List.getElem?_modify]
    by_cases hi : p = i
    · subst hi; simp [List.getElem?_eq_none hp]
    · simp [hi]
  simp [State.setPort, h]

/-- A port number that does not exist reads as an idle port. -/
theorem port_absent {s : State} {p : Nat} (hp : s.ctx.length ≤ p) : s.port p = Ctx.reset := by
  simp [State.port, List.getElem?_eq_none hp]

theorem port_setPort (s : State) (p q : Nat) (f : Ctx → Ctx) :
    (s.setPort p f).port q = if q = p ∧ p < s.ctx.length then f (s.port p) else s.port q := by
  by_cases h : q = p
  · subst h
    by_cases hp : q < s.ctx.length
    · simp [port_setPort_self hp, hp]
    · simp [setPort_absent (Nat.le_of_not_lt hp), hp]
  · simp [h]

@[simp] theorem length_setPort (s : State) (p : Nat) (f : Ctx → Ctx) :
    (s.setPort p f).ctx.length = s.ctx.length := by
  simp [State.setPort]

/-! ## `setPort` -/

@[simp] theorem setPort_cfg (s : State) (p : Nat) (f : Ctx → Ctx) :
    (s.setPort p f).cfg = s.cfg := rfl

@[simp] theorem setPort_fstate (s : State) (p : Nat) (f : Ctx → Ctx) :
    (s.setPort p f).fstate = s.fstate := rfl

@[simp] theorem setPort_owner (s : State) (p : Nat) (f : Ctx → Ctx) :
    (s.setPort p f).owner = s.owner := rfl

@[simp] theorem setPort_sel (s : State) (p : Nat) (f : Ctx → Ctx) :
    (s.setPort p f).sel = s.sel := rfl

@[simp] theorem setPort_identity (s : State) (p : Nat) (f : Ctx → Ctx) :
    (s.setPort p f).identity = s.identity := rfl

@[simp] theorem setPort_diag (s : State) (p : Nat) (f : Ctx → Ctx) :
    (s.setPort p f).diag = s.diag := rfl

@[simp] theorem setPort_xferCount (s : State) (p : Nat) (f : Ctx → Ctx) :
    (s.setPort p f).xferCount = s.xferCount := rfl

@[simp] theorem setPort_initEv (s : State) (p : Nat) (f : Ctx → Ctx) :
    (s.setPort p f).initEv = s.initEv := rfl

@[simp] theorem setPort_initAcc (s : State) (p : Nat) (f : Ctx → Ctx) :
    (s.setPort p f).initAcc = s.initAcc := rfl

@[simp] theorem setPort_env (s : State) (p : Nat) (f : Ctx → Ctx) :
    (s.setPort p f).env = s.env := rfl

@[simp] theorem setPort_sched (s : State) (p : Nat) (f : Ctx → Ctx) :
    (s.setPort p f).sched = s.sched := rfl

@[simp] theorem setPort_later (s : State) (p : Nat) (f : Ctx → Ctx) :
    (s.setPort p f).later = s.later := rfl

@[simp] theorem setPort_active (s : State) (p : Nat) (f : Ctx → Ctx) :
    (s.setPort p f).active = s.active := rfl

@[simp] theorem setPort_freeIx (s : State) (p : Nat) (f : Ctx → Ctx) :
    (s.setPort p f).freeIx = s.freeIx := rfl

@[simp] theorem setPort_holdNo (s : State) (p : Nat) (f : Ctx → Ctx) :
    (s.setPort p f).holdNo = s.holdNo := rfl

@[simp] theorem setPort_trace (s : State) (p : Nat) (f : Ctx → Ctx) :
    (s.setPort p f).trace = s.trace := rfl

@[simp] theorem setPort_host (s : State) (p : Nat) (f : Ctx → Ctx) :
    (s.setPort p f).host = s.host := rfl

/-! ## `release` -/

@[simp] theorem release_cfg (s : State) :
    (s.release).cfg = s.cfg := rfl

@[simp] theorem release_sel (s : State) :
    (s.release).sel = s.sel := rfl

@[simp] theorem release_identity (s : State) :
    (s.release).identity = s.identity := rfl

@[simp] theorem release_diag (s : State) :
    (s.release).diag = s.diag := rfl

@[simp] theorem release_xferCount (s : State) :
    (s.release).xferCount = s.xferCount := rfl

@[simp] theorem release_initEv (s : State) :
    (s.release).initEv = s.initEv := rfl

@[simp] theorem release_initAcc (s : State) :
    (s.release).initAcc = s.initAcc := rfl

@[simp] theorem release_ctx (s : State) :
    (s.release).ctx = s.ctx := rfl

@[simp] theorem release_env (s : State) :
    (s.release).env = s.env := rfl

@[simp] theorem release_sched (s : State) :
    (s.release).sched = s.sched := rfl

@[simp] theorem release_later (s : State) :
    (s.release).later = s.later := rfl

@[simp] theorem release_active (s : State) :
    (s.release).active = s.active := rfl

@[simp] theorem release_freeIx (s : State) :
    (s.release).freeIx = s.freeIx := rfl

@[simp] theorem release_holdNo (s : State) :
    (s.release).holdNo = s.holdNo := rfl

@[simp] theorem release_trace (s : State) :
    (s.release).trace = s.trace := rfl

@[simp] theorem release_host (s : State) :
    (s.release).host = s.host := rfl

@[simp] theorem release_fstate (s : State) : s.release.fstate = .ready := rfl

@[simp] theorem release_owner (s : State) : s.release.owner = none := rfl

@[simp] theorem release_port (s : State) (p : Nat) : s.release.port p = s.port p := rfl

/-! ## `logCall` -/

@[simp] theorem logCall_cfg (s : State) (a : Agent) (e : Event) (r : Answer) :
    (s.logCall a e r).cfg = s.cfg := rfl

@[simp] theorem logCall_fstate (s : State) (a : Agent) (e : Event) (r : Answer) :
    (s.logCall a e r).fstate = s.fstate := rfl

@[simp] theorem logCall_owner (s : State) (a : Agent) (e : Event) (r : Answer) :
    (s.logCall a e r).owner = s.owner := rfl

@[simp] theorem logCall_sel (s : State) (a : Agent) (e : Event) (r : Answer) :
    (s.logCall a e r).sel = s.sel := rfl

@[simp] theorem logCall_identity (s : State) (a : Agent) (e : Event) (r : Answer) :
    (s.logCall a e r).identity = s.identity := rfl

@[simp] theorem logCall_diag (s : State) (a : Agent) (e : Event) (r : Answer) :
    (s.logCall a e r).diag = s.diag := rfl

@[simp] theorem logCall_xferCount (s : State) (a : Agent) (e : Event) (r : Answer) :
    (s.logCall a e r).xferCount = s.xferCount := rfl

@[simp] theorem logCall_initEv (s : State) (a : Agent) (e : Event) (r : Answer) :
    (s.logCall a e r).initEv = s.initEv := rfl

@[simp] theorem logCall_initAcc (s : State) (a : Agent) (e : Event) (r : Answer) :
    (s.logCall a e r).initAcc = s.initAcc := rfl

@[simp] theorem logCall_ctx (s : State) (a : Agent) (e : Event) (r : Answer) :
    (s.logCall a e r).ctx = s.ctx := rfl

@[simp] theorem logCall_env (s : State) (a : Agent) (e : Event) (r : Answer) :
    (s.logCall a e r).env = s.env := rfl

@[simp] theorem logCall_sched (s : State) (a : Agent) (e : Event) (r : Answer) :
    (s.logCall a e r).sched = s.sched := rfl

@[simp] theorem logCall_later (s : State) (a : Agent) (e : Event) (r : Answer) :
    (s.logCall a e r).later = s.later := rfl

@[simp] theorem logCall_active (s : State) (a : Agent) (e : Event) (r : Answer) :
    (s.logCall a e r).active = s.active := rfl

@[simp] theorem logCall_freeIx (s : State) (a : Agent) (e : Event) (r : Answer) :
    (s.logCall a e r).freeIx = s.freeIx := rfl

@[simp] theorem logCall_holdNo (s : State) (a : Agent) (e : Event) (r : Answer) :
    (s.logCall a e r).holdNo = s.holdNo := rfl

@[simp] theorem logCall_host (s : State) (a : Agent) (e : Event) (r : Answer) :
    (s.logCall a e r).host = s.host := rfl

@[simp] theorem logCall_trace (s : State) (a : Agent) (e : Event) (r : Answer) :
    (s.logCall a e r).trace = s.trace ++ [⟨a, s.holdNo, e, r⟩] := rfl

@[simp] theorem logCall_port (s : State) (a : Agent) (e : Event) (r : Answer) (p : Nat) :
    (s.logCall a e r).port p = s.port p := rfl

end Sys2Proof.Machine
end

