-- ==== Sys2Proof/Laws/Ops.lean ====
section
/-! SUPPORT. One lemma for each shared operation, saying once everything it can do: the end of a command, the host steps,
the token, the draws, and the transport calls. -/

namespace Sys2Proof.Machine

/-! ## Outcomes -/

@[simp] theorem andThen_next (s : State) (f : State → Result) : andThen (.next s) f = f s := rfl
@[simp] theorem andThen_fault (e : Fault) (f : State → Result) : andThen (.fault e) f = .fault e := rfl
@[simp] theorem andThen_refused (e : Refusal) (f : State → Result) : andThen (.refused e) f = .refused e := rfl

/-- What `andThen` answers a next state from. -/
theorem andThen_eq_next {r : Result} {f : State → Result} {t : State} :
    andThen r f = .next t ↔ ∃ s, r = .next s ∧ f s = .next t := by
  cases r <;> simp

theorem andThen_assoc (r : Result) (f g : State → Result) :
    andThen (andThen r f) g = andThen r (fun s => andThen (f s) g) := by
  cases r <;> rfl

/-! ## The end of a command -/

/-- Releasing the buffer writes `BUF`, `BUF_HELD` of the port and the free-value counter, and nothing else. -/
theorem releaseBuffer_cases (s : State) (p : Nat) :
    ∃ ctx ix, s.releaseBuffer p = { s with ctx := ctx, freeIx := ix } ∧ ctx.length = s.ctx.length := by
  unfold State.releaseBuffer
  split
  · exact ⟨_, _, rfl, length_setPort s p _⟩
  · exact ⟨_, _, rfl, rfl⟩

/-- `finish` writes registers of the port and the free-value counter, and nothing else (R38). -/
theorem finish_cases (s : State) (p : Nat) (code : ResultCode) (count : Word) :
    ∃ ctx ix, s.finish p code count = { s with ctx := ctx, freeIx := ix } ∧ ctx.length = s.ctx.length := by
  obtain ⟨ctx, ix, h, hl⟩ := releaseBuffer_cases s p
  refine ⟨_, ix, by unfold State.finish; rw [h]; rfl, ?_⟩
  simpa using hl

@[simp] theorem finish_length (s : State) (p : Nat) (code : ResultCode) (count : Word) :
    (s.finish p code count).ctx.length = s.ctx.length := by
  obtain ⟨ctx, ix, h, hl⟩ := finish_cases s p code count
  rw [h]; exact hl

@[simp] theorem finish_cfg (s : State) (p : Nat) (code : ResultCode) (count : Word) :
    (s.finish p code count).cfg = s.cfg := by
  obtain ⟨_, _, h, _⟩ := finish_cases s p code count; rw [h]
@[simp] theorem finish_fstate (s : State) (p : Nat) (code : ResultCode) (count : Word) :
    (s.finish p code count).fstate = s.fstate := by
  obtain ⟨_, _, h, _⟩ := finish_cases s p code count; rw [h]
@[simp] theorem finish_owner (s : State) (p : Nat) (code : ResultCode) (count : Word) :
    (s.finish p code count).owner = s.owner := by
  obtain ⟨_, _, h, _⟩ := finish_cases s p code count; rw [h]
@[simp] theorem finish_sel (s : State) (p : Nat) (code : ResultCode) (count : Word) :
    (s.finish p code count).sel = s.sel := by
  obtain ⟨_, _, h, _⟩ := finish_cases s p code count; rw [h]
@[simp] theorem finish_identity (s : State) (p : Nat) (code : ResultCode) (count : Word) :
    (s.finish p code count).identity = s.identity := by
  obtain ⟨_, _, h, _⟩ := finish_cases s p code count; rw [h]
@[simp] theorem finish_diag (s : State) (p : Nat) (code : ResultCode) (count : Word) :
    (s.finish p code count).diag = s.diag := by
  obtain ⟨_, _, h, _⟩ := finish_cases s p code count; rw [h]
@[simp] theorem finish_xferCount (s : State) (p : Nat) (code : ResultCode) (count : Word) :
    (s.finish p code count).xferCount = s.xferCount := by
  obtain ⟨_, _, h, _⟩ := finish_cases s p code count; rw [h]
@[simp] theorem finish_initEv (s : State) (p : Nat) (code : ResultCode) (count : Word) :
    (s.finish p code count).initEv = s.initEv := by
  obtain ⟨_, _, h, _⟩ := finish_cases s p code count; rw [h]
@[simp] theorem finish_initAcc (s : State) (p : Nat) (code : ResultCode) (count : Word) :
    (s.finish p code count).initAcc = s.initAcc := by
  obtain ⟨_, _, h, _⟩ := finish_cases s p code count; rw [h]
@[simp] theorem finish_env (s : State) (p : Nat) (code : ResultCode) (count : Word) :
    (s.finish p code count).env = s.env := by
  obtain ⟨_, _, h, _⟩ := finish_cases s p code count; rw [h]
@[simp] theorem finish_sched (s : State) (p : Nat) (code : ResultCode) (count : Word) :
    (s.finish p code count).sched = s.sched := by
  obtain ⟨_, _, h, _⟩ := finish_cases s p code count; rw [h]
@[simp] theorem finish_later (s : State) (p : Nat) (code : ResultCode) (count : Word) :
    (s.finish p code count).later = s.later := by
  obtain ⟨_, _, h, _⟩ := finish_cases s p code count; rw [h]
@[simp] theorem finish_active (s : State) (p : Nat) (code : ResultCode) (count : Word) :
    (s.finish p code count).active = s.active := by
  obtain ⟨_, _, h, _⟩ := finish_cases s p code count; rw [h]
@[simp] theorem finish_holdNo (s : State) (p : Nat) (code : ResultCode) (count : Word) :
    (s.finish p code count).holdNo = s.holdNo := by
  obtain ⟨_, _, h, _⟩ := finish_cases s p code count; rw [h]
@[simp] theorem finish_trace (s : State) (p : Nat) (code : ResultCode) (count : Word) :
    (s.finish p code count).trace = s.trace := by
  obtain ⟨_, _, h, _⟩ := finish_cases s p code count; rw [h]
@[simp] theorem finish_host (s : State) (p : Nat) (code : ResultCode) (count : Word) :
    (s.finish p code count).host = s.host := by
  obtain ⟨_, _, h, _⟩ := finish_cases s p code count; rw [h]

theorem releaseBuffer_port_of_ne {s : State} {p q : Nat} (h : q ≠ p) : (s.releaseBuffer p).port q = s.port q := by
  unfold State.releaseBuffer
  split
  · exact port_setPort_of_ne h _
  · rfl

/-- `finish` leaves every other port as it is. -/
@[simp] theorem finish_port_of_ne {s : State} {p q : Nat} (h : q ≠ p) (code : ResultCode) (count : Word) :
    (s.finish p code count).port q = s.port q := by
  unfold State.finish
  rw [port_setPort_of_ne h, releaseBuffer_port_of_ne h]

/-- The buffer of a port after release. -/
theorem releaseBuffer_port {s : State} {p : Nat} (hp : p < s.ctx.length) :
    ∃ buf, (s.releaseBuffer p).port p = { s.port p with bufHeld := false, buf := buf } := by
  unfold State.releaseBuffer
  split
  · exact ⟨_, port_setPort_self hp _⟩
  · rename_i h
    refine ⟨(s.port p).buf, ?_⟩
    have : (s.port p).bufHeld = false := by simpa using h
    cases hq : s.port p
    simp_all

/-- What `finish` leaves in the port (R38): the record, `P_DONE`, the buffer released, the rest as it was. -/
theorem finish_port {s : State} {p : Nat} (hp : p < s.ctx.length) (code : ResultCode) (count : Word) :
    ∃ buf, (s.finish p code count).port p =
      { s.port p with
        buf := buf
        bufHeld := false
        result := code
        count := count
        rdata := if code ≠ .ok ∨ (s.port p).op ≠ opRead then [] else (s.port p).rdata
        phase := .pDone } := by
  obtain ⟨buf, hb⟩ := releaseBuffer_port hp
  have hl : p < (s.releaseBuffer p).ctx.length := by
    obtain ⟨_, _, h, hl⟩ := releaseBuffer_cases s p
    rw [h]; simpa [hl] using hp
  refine ⟨buf, ?_⟩
  unfold State.finish
  rw [port_setPort_self hl, hb]

/-! ## The token -/

/-- `acquire` is either not enabled and changes nothing (R138), or takes the token (R139). -/
theorem acquire_cases (s : State) (p : Nat) :
    s.acquire p = s ∨
    ∃ busy phase, s.fstate = .ready ∧ acquireTarget (s.port p).phase = some (busy, phase) ∧
      s.acquire p =
        { s.setPort p (fun c => { c with ev := 0, phase := phase }) with
          fstate := busy
          owner := some (.port p)
          holdNo := s.holdNo + 1 } := by
  unfold State.acquire
  split
  · rename_i hr
    split
    · rename_i busy phase h
      exact .inr ⟨busy, phase, hr, h, rfl⟩
    · exact .inl rfl
  · exact .inl rfl

/-- `acquire` where it is enabled. -/
theorem acquire_ready {s : State} {p : Nat} {busy : FlashState} {phase : Phase} (hr : s.fstate = .ready)
    (h : acquireTarget (s.port p).phase = some (busy, phase)) :
    s.acquire p =
      { s.setPort p (fun c => { c with ev := 0, phase := phase }) with
        fstate := busy
        owner := some (.port p)
        holdNo := s.holdNo + 1 } := by
  simp [State.acquire, hr, h]

/-! ## The draws -/

/-- Taking an answer changes the answers laid down and the free-value counter, and nothing else. -/
theorem draw_cases (s : State) :
    ∃ draws ix, s.draw.2 = { s with env := { s.env with draws := draws }, freeIx := ix } := by
  unfold State.draw
  split
  · exact ⟨_, _, rfl⟩
  · split
    · exact ⟨_, _, rfl⟩
    · exact ⟨_, _, rfl⟩

/-- An answer that was laid down is the one taken. -/
theorem draw_cons {s : State} {d : Draw} {ds : List Draw} (h : s.env.draws = d :: ds) :
    s.draw = (d, { s with env := { s.env with draws := ds } }) := by
  simp [State.draw, h]

/-- `ENV_REF` answers as its rules say where nothing is laid down (R70). -/
theorem draw_reference {s : State} (h : s.env.reference) : s.draw = (.normal, s) := by
  simp [State.draw, h.1, h.2]

/-- The draw of an allocation changes the draws laid down and the free-value counter, and nothing else. -/
theorem drawAlloc_cases (s : State) :
    ∃ allocs ix, s.drawAlloc.2 = { s with env := { s.env with allocs := allocs }, freeIx := ix } := by
  unfold State.drawAlloc
  split
  · exact ⟨_, _, rfl⟩
  · split
    · exact ⟨_, _, rfl⟩
    · exact ⟨_, _, rfl⟩

/-- Reading a byte changes the free-value counter at most. -/
theorem readByte_cases {s t : State} {b : Byte} (h : s.readByte = some (b, t)) :
    ∃ ix, t = { s with freeIx := ix } := by
  unfold State.readByte at h
  split at h
  · split at h
    · cases h; exact ⟨_, rfl⟩
    · cases h; exact ⟨_, rfl⟩
    · cases h
  · cases h; exact ⟨_, rfl⟩

/-! ## The transport -/

/-- Chip select after an event (R111, R112). -/
def selAfter (e : Event) (sel : Bool) : Bool :=
  match e with
  | .sel => true
  | .desel => false
  | .wb _ => sel
  | .rb => sel
  | .wi _ => sel

/-- What the reference chip sees of a call: the relation between the chip before and after (R70). Of a call under
`ENV_ANY`, and of a call that timed out, it sees nothing. -/
def chipAfter (cfg : Config) (kind : EnvKind) (e : Event) (r : Answer) (c d : Chip) : Prop :=
  match kind with
  | .any => d = c
  | .ref =>
    match e with
    | .sel => d = c.sel
    | .desel => c.desel cfg = some d
    | .wb b => d = if r = .timeout then c else c.accept b
    | .rb => d = if r = .timeout then c else c.countRead
    | .wi _ => d = c

/-- Everything a transport call can do (R111 to R117): it writes `SEL`, the environment, the free-value counter and the
trace, and nothing else. -/
theorem transport_cases {a : Agent} {e : Event} {s t : State} {r : Answer} (h : transport a e s = .ok (r, t)) :
    ∃ draws chip ix,
      t = { s with
            sel := selAfter e s.sel
            env := { s.env with draws := draws, chip := chip }
            freeIx := ix
            trace := s.trace ++ [⟨a, s.holdNo, e, r⟩] } ∧
        chipAfter s.cfg s.env.kind e r s.env.chip chip := by
  cases e with
  | sel =>
    simp only [transport, Except.ok.injEq, Prod.mk.injEq] at h
    obtain ⟨rfl, rfl⟩ := h
    cases hk : s.env.kind with
    | any =>
      exact ⟨s.env.draws, s.env.chip, s.freeIx, by simp [selCall, State.logCall, Env.onChip, hk, selAfter]; rw [← hk],
        by simp [chipAfter]⟩
    | ref =>
      exact ⟨s.env.draws, s.env.chip.sel, s.freeIx, by simp [selCall, State.logCall, Env.onChip, hk, selAfter],
        by simp [chipAfter]⟩
  | desel =>
    simp only [transport, deselCall, Env.desel] at h
    cases hk : s.env.kind with
    | any =>
      simp only [hk, Except.map, Except.ok.injEq, Prod.mk.injEq] at h
      obtain ⟨rfl, rfl⟩ := h
      exact ⟨s.env.draws, s.env.chip, s.freeIx, by simp [State.logCall, selAfter], by simp [chipAfter]⟩
    | ref =>
      simp only [hk] at h
      cases hd : s.env.chip.desel s.cfg with
      | none => simp [hd, Except.map] at h
      | some d =>
        simp only [hd, Option.map_some, Except.map, Except.ok.injEq, Prod.mk.injEq] at h
        obtain ⟨rfl, rfl⟩ := h
        exact ⟨s.env.draws, d, s.freeIx, by simp [State.logCall, selAfter, hk], by simp [chipAfter, hd]⟩
  | wb b =>
    obtain ⟨draws, ix, hd⟩ := draw_cases s
    simp only [transport, wbCall, Except.ok.injEq] at h
    split at h
    · rename_i s1 heq
      simp only [heq] at hd
      simp only [Prod.mk.injEq] at h
      obtain ⟨rfl, rfl⟩ := h
      subst hd
      exact ⟨draws, s.env.chip, ix, by simp [State.logCall, selAfter], by cases hk : s.env.kind <;> simp [chipAfter]⟩
    · rename_i s1 _ heq
      simp only [heq] at hd
      simp only [Prod.mk.injEq] at h
      obtain ⟨rfl, rfl⟩ := h
      subst hd
      cases hk : s.env.kind with
      | any => exact ⟨draws, s.env.chip, ix, by simp [State.logCall, selAfter, Env.onChip, hk], by simp [chipAfter]⟩
      | ref =>
        exact ⟨draws, s.env.chip.accept b, ix, by simp [State.logCall, selAfter, Env.onChip, hk], by simp [chipAfter]⟩
  | rb =>
    obtain ⟨draws, ix, hd⟩ := draw_cases s
    simp only [transport, rbCall] at h
    split at h
    · rename_i s1 heq
      simp only [heq] at hd
      simp only [Except.ok.injEq, Prod.mk.injEq] at h
      obtain ⟨rfl, rfl⟩ := h
      subst hd
      exact ⟨draws, s.env.chip, ix, by simp [State.logCall, selAfter], by cases hk : s.env.kind <;> simp [chipAfter]⟩
    · rename_i b s1 heq
      simp only [heq] at hd
      simp only [rbAnswer, Except.ok.injEq, Prod.mk.injEq] at h
      obtain ⟨rfl, rfl⟩ := h
      subst hd
      cases hk : s.env.kind with
      | any => exact ⟨draws, s.env.chip, ix, by simp [State.logCall, selAfter, Env.onChip, hk], by simp [chipAfter]⟩
      | ref =>
        exact ⟨draws, s.env.chip.countRead, ix, by simp [State.logCall, selAfter, Env.onChip, hk], by simp [chipAfter]⟩
    · rename_i s1 heq
      simp only [heq] at hd
      split at h
      · rename_i b s2 heq2
        obtain ⟨ix2, hx⟩ := readByte_cases heq2
        simp only [rbAnswer, Except.ok.injEq, Prod.mk.injEq] at h
        obtain ⟨rfl, rfl⟩ := h
        subst hx hd
        cases hk : s.env.kind with
        | any => exact ⟨draws, s.env.chip, ix2, by simp [State.logCall, selAfter, Env.onChip, hk], by simp [chipAfter]⟩
        | ref =>
          exact ⟨draws, s.env.chip.countRead, ix2, by simp [State.logCall, selAfter, Env.onChip, hk], by
            simp [chipAfter]⟩
      · cases h
  | wi k =>
    obtain ⟨draws, ix, hd⟩ := draw_cases s
    simp only [transport, wiCall, Except.ok.injEq] at h
    split at h
    · rename_i s1 heq
      simp only [heq] at hd
      simp only [Prod.mk.injEq] at h
      obtain ⟨rfl, rfl⟩ := h
      subst hd
      exact ⟨draws, s.env.chip, ix, by simp [State.logCall, selAfter], by cases hk : s.env.kind <;> simp [chipAfter]⟩
    · rename_i s1 _ heq
      simp only [heq] at hd
      simp only [Prod.mk.injEq] at h
      obtain ⟨rfl, rfl⟩ := h
      subst hd
      exact ⟨draws, s.env.chip, ix, by simp [State.logCall, selAfter], by cases hk : s.env.kind <;> simp [chipAfter]⟩

end Sys2Proof.Machine
end

