-- ==== Sys2Proof/Laws/Events.lean ====
section
/-! SUPPORT. Facts about event lists: lengths, what they do on the wire, the bytes they write, and that every hold's list
opens with a select and leaves the chip deselected. -/

namespace Sys2Proof.Machine

/-! ## The wire -/

theorem wire_foldl_append (w : Wire) (l m : List Event) :
    (l ++ m).foldl Wire.after w = m.foldl Wire.after (l.foldl Wire.after w) := List.foldl_append ..

theorem wireOf_append (l m : List Event) : wireOf (l ++ m) = m.foldl Wire.after (wireOf l) := List.foldl_append ..

theorem wireOf_snoc (l : List Event) (e : Event) : wireOf (l ++ [e]) = (wireOf l).after e := by
  simp [wireOf_append]

/-- The wire after one more event of a list. -/
theorem wireOf_take_succ {l : List Event} {n : Nat} {e : Event} (h : l[n]? = some e) :
    wireOf (l.take (n + 1)) = (wireOf (l.take n)).after e := by
  rw [List.take_add_one, h]; exact wireOf_snoc _ _

@[simp] theorem wireOf_nil : wireOf [] = ⟨false, [], 0⟩ := rfl

/-- Chip select follows `selAfter`'s rule: set by `Sel`, cleared by `Desel`. -/
theorem wire_after_sel (w : Wire) (e : Event) :
    (w.after e).sel = match e with
      | .sel => true
      | .desel => false
      | .wb _ => w.sel
      | .rb => w.sel
      | .wi _ => w.sel := by
  cases e <;> rfl

theorem wireOf_snoc_desel_sel (l : List Event) : (wireOf (l ++ [.desel])).sel = false := by
  rw [wireOf_snoc]; rfl

theorem wireOf_close_sel (l : List Event) (k : WaitKind) : (wireOf (l ++ [.desel, .wi k])).sel = false := by
  rw [wireOf_append]; rfl

/-- A list that opens with a select does on the wire what it does from any wire. -/
theorem wire_foldl_sel (w : Wire) (l : List Event) :
    (Event.sel :: l).foldl Wire.after w = wireOf (.sel :: l) := rfl

/-! ## The lists -/

@[simp] theorem length_identFrame (c : Config) : (identFrame c).length = 6 := rfl

@[simp] theorem length_frameHead (op : Byte) (a : Addr24) : (frameHead op a).length = 5 := rfl

@[simp] theorem length_eraseFrame (c : Config) (g : Nat) (a : Addr24) : (eraseFrame c g a).length = 7 := rfl

@[simp] theorem length_readFrame (op : Byte) (dummy : Bool) (a : Addr24) (n : Nat) :
    (readFrame op dummy a n).length = n + 6 + (if dummy then 1 else 0) := by
  cases dummy <;> simp [readFrame] <;> omega

theorem length_progCycle (c : Config) (a : Addr24) (d : List Byte) :
    (progCycle c a d).length = 7 + (dataEvents 0 d).length := by
  simp [progCycle]; omega

/-- A data list of `n` bytes numbered from `j` has one event a byte and one FIFO wait after every number 15 mod 16. -/
theorem length_dataEvents (j : Nat) (d : List Byte) :
    (dataEvents j d).length + j / 16 = d.length + (j + d.length) / 16 := by
  induction d generalizing j with
  | nil => simp [dataEvents]
  | cons b d ih =>
    have := ih (j + 1)
    simp only [dataEvents, List.length_cons, List.length_append]
    split <;> simp <;> omega

/-- A full cycle has 279 events (R176). -/
theorem length_progCycle_full (c : Config) (a : Addr24) {d : List Byte} (h : d.length = 256) :
    (progCycle c a d).length = 279 := by
  have := length_dataEvents 0 d
  rw [length_progCycle]; omega

/-- A tail cycle has 8 events (R176). -/
theorem length_progCycle_tail (c : Config) (a : Addr24) {d : List Byte} (h : d.length = 1) :
    (progCycle c a d).length = 8 := by
  have := length_dataEvents 0 d
  rw [length_progCycle]; omega

theorem frameHead_cons (op : Byte) (a : Addr24) :
    frameHead op a = .sel :: .wb op :: (addrBytes a).map Event.wb := rfl

theorem progCycle_cons (c : Config) (a : Addr24) (d : List Byte) :
    ∃ l, progCycle c a d = .sel :: l := ⟨_, rfl⟩

theorem progCycle_close (c : Config) (a : Addr24) (d : List Byte) :
    ∃ l, progCycle c a d = l ++ [.desel, .wi .busy] := ⟨_, rfl⟩

/-! ## Closed lists: the chip is left deselected -/

theorem wireOf_eraseFrame_sel (c : Config) (g : Nat) (a : Addr24) : (wireOf (eraseFrame c g a)).sel = false := rfl

theorem wireOf_identFrame_sel (c : Config) : (wireOf (identFrame c)).sel = false := rfl

theorem wireOf_readFrame_sel (op : Byte) (dummy : Bool) (a : Addr24) (n : Nat) :
    (wireOf (readFrame op dummy a n)).sel = false := wireOf_snoc_desel_sel _

theorem wireOf_progList_sel (c : Config) (os : List (Addr24 × List Byte)) :
    (wireOf (os.flatMap (fun o => progCycle c o.1 o.2))).sel = false := by
  induction os using List.reverseRecOn with
  | nil => rfl
  | append_singleton os o _ =>
    obtain ⟨l, hl⟩ := progCycle_close c o.1 o.2
    rw [List.flatMap_append, List.flatMap_singleton, hl, ← List.append_assoc]
    exact wireOf_close_sel _ _

/-- The list of a hold leaves the chip deselected (R24: "0 whenever `FSTATE` is Ready"). -/
theorem wireOf_holdList_sel (cfg : Config) (c : Ctx) : (wireOf (c.holdList cfg)).sel = false := by
  unfold Ctx.holdList
  split
  · rfl
  · split
    · rfl
    · exact wireOf_progList_sel _ _
    · split <;> exact wireOf_readFrame_sel _ _ _ _
    · rfl

/-- The reads of a read frame: the dummy and one for each byte. -/
theorem wireOf_readFrame_reads (op : Byte) (dummy : Bool) (a : Addr24) (n : Nat) :
    (wireOf (readFrame op dummy a n)).reads = n + (if dummy then 1 else 0) := by
  have h : ∀ (n : Nat) (w : Wire), ((List.replicate n Event.rb).foldl Wire.after w).reads = w.reads + n := by
    intro n
    induction n with
    | zero => intro w; rfl
    | succ n ih => intro w; rw [List.replicate_succ, List.foldl_cons, ih]; simp only [Wire.after]; omega
  unfold readFrame
  rw [wireOf_snoc, wireOf_append]
  simp only [Wire.after]
  rw [h]
  cases dummy <;> simp [frameHead, wireOf, Wire.after, addrBytes, Nat.add_comm]

/-- The operands of a program phase: one for each full cycle and one for each trailing byte. -/
theorem length_progOperands (addr : Word) (buf : List Byte) (n : Nat) :
    (progOperands addr buf n).length = n / 256 + n % 256 := by
  simp [progOperands]

/-- The data of a program cycle: 256 bytes in a full cycle, one in a tail cycle, where the buffer holds `n` bytes. -/
theorem mem_progOperands {addr : Word} {buf : List Byte} {n : Nat} {o : Addr24 × List Byte}
    (h : o ∈ progOperands addr buf n) :
    (∃ c < n / 256, o = (flashAddr addr (256 * c), (buf.drop (256 * c)).take 256)) ∨
      (∃ t < n % 256, o = (flashAddr addr (256 * (n / 256) + t), (buf.drop (256 * (n / 256) + t)).take 1)) := by
  rcases List.mem_append.1 h with h | h
  · obtain ⟨c, hc, rfl⟩ := List.mem_map.1 h
    exact .inl ⟨c, List.mem_range.1 hc, rfl⟩
  · obtain ⟨t, ht, rfl⟩ := List.mem_map.1 h
    exact .inr ⟨t, List.mem_range.1 ht, rfl⟩

/-- A cycle found at an event is followed in the list by the rest. -/
theorem cycleAt_drop {c : Config} {os : List (Addr24 × List Byte)} {ev : Nat} {o : Addr24 × List Byte}
    (h : cycleAt os ev = some o) :
    o ∈ os ∧ ∃ rest, (os.flatMap (fun o => progCycle c o.1 o.2)).drop ev = progCycle c o.1 o.2 ++ rest := by
  induction os generalizing ev with
  | nil => simp [cycleAt] at h
  | cons x os ih =>
    simp only [cycleAt] at h
    split at h
    · rename_i h0
      cases h
      subst h0
      exact ⟨List.mem_cons_self .., _, by rw [List.flatMap_cons]; rfl⟩
    · split at h
      · cases h
      · rename_i hn
        obtain ⟨hm, rest, hr⟩ := ih h
        refine ⟨List.mem_cons_of_mem _ hm, rest, ?_⟩
        rw [List.flatMap_cons, List.drop_append, length_progCycle,
          List.drop_eq_nil_of_le (by rw [length_progCycle]; omega), List.nil_append, hr]

end Sys2Proof.Machine
end

