-- ==== Sys2Proof/Laws/Validator.lean ====
section
/-! SUPPORT. What the partition lookup and an accepted validation say. -/

namespace Sys2Proof.Machine

theorem Config.wf_get {c : Config} (h : c.wf) (i : Fin 3) : (c.pt.get i).wf := by
  match i with
  | 0 => exact h.1
  | 1 => exact h.2.1
  | 2 => exact h.2.2.1

theorem contains_iff (p : Partition) (a : Nat) : contains p a = true ↔ p.start ≤ a ∧ a < p.stop := by
  simp [contains]

/-- The owning partition contains the address. -/
theorem owner_contains {c : Config} {a : Nat} {i : Fin 3} (h : owner c a = some i) :
    (c.pt.get i).start ≤ a ∧ a < (c.pt.get i).stop := by
  unfold owner at h
  split at h
  · cases h; exact (contains_iff _ _).1 ‹_›
  · split at h
    · cases h; exact (contains_iff _ _).1 ‹_›
    · split at h
      · cases h; exact (contains_iff _ _).1 ‹_›
      · cases h

/-- In a well-formed table two partitions that contain one address are one. -/
theorem owner_unique {c : Config} (h : c.wf) {a : Nat} {i j : Fin 3}
    (hi : (c.pt.get i).start ≤ a ∧ a < (c.pt.get i).stop) (hj : (c.pt.get j).start ≤ a ∧ a < (c.pt.get j).stop) :
    i = j := by
  obtain ⟨h0, h1, h2, hc, -⟩ := h
  simp only [Partition.wf, PartTable.contiguous, Partition.chain] at h0 h1 h2 hc
  match i, j with
  | 0, 0 => rfl
  | 1, 1 => rfl
  | 2, 2 => rfl
  | 0, 1 => simp only [PartTable.get] at hi hj; omega
  | 0, 2 => simp only [PartTable.get] at hi hj; omega
  | 1, 0 => simp only [PartTable.get] at hi hj; omega
  | 1, 2 => simp only [PartTable.get] at hi hj; omega
  | 2, 0 => simp only [PartTable.get] at hi hj; omega
  | 2, 1 => simp only [PartTable.get] at hi hj; omega

/-- An address that a partition contains is owned. -/
theorem owner_isSome {c : Config} {a : Nat} {i : Fin 3}
    (hi : (c.pt.get i).start ≤ a ∧ a < (c.pt.get i).stop) : ∃ j, owner c a = some j := by
  unfold owner
  split
  · exact ⟨_, rfl⟩
  · split
    · exact ⟨_, rfl⟩
    · split
      · exact ⟨_, rfl⟩
      · rename_i n0 n1 n2
        rw [contains_iff] at n0 n1 n2
        match i with
        | 0 => exact absurd hi n0
        | 1 => exact absurd hi n1
        | 2 => exact absurd hi n2

/-- Every check of `validate_write` passed (R203). -/
theorem validateWrite_ok {c : Config} {addr len : Word} (h : validateWrite c addr len = .ok) :
    0 < len.toInt ∧ ∃ i, owner c addr.toNat = some i ∧ (c.pt.get i).role ≠ .boot ∧
      addr.toNat + len.toInt ≤ (c.pt.get i).stop ∧ addr.toNat % (c.pt.get i).gran = 0 ∧ len.toInt ≤ c.maxLen := by
  unfold validateWrite at h
  split at h
  · cases h
  · split at h
    · cases h
    · rename_i hl i ho
      split at h
      · cases h
      · split at h
        · cases h
        · split at h
          · cases h
          · split at h
            · cases h
            · exact ⟨by omega, i, ho, ‹_›, by omega, by omega, by omega⟩

/-- Every check of `validate_read` passed (R210). -/
theorem validateRead_ok {c : Config} {addr len : Word} (h : validateRead c addr len = .ok) :
    0 < len.toInt ∧ ∃ i, owner c addr.toNat = some i ∧
      addr.toNat + len.toInt ≤ (c.pt.get i).stop ∧ len.toInt ≤ c.maxLen := by
  unfold validateRead at h
  split at h
  · cases h
  · split at h
    · cases h
    · rename_i hl i ho
      split at h
      · cases h
      · split at h
        · cases h
        · exact ⟨by omega, i, ho, by omega, by omega⟩

/-- `ceil(a / b)` counts the units that `a` bytes touch. -/
theorem ceilDiv_pos {a b : Nat} (ha : 0 < a) (hb : 0 < b) : 0 < ceilDiv a b := by
  unfold ceilDiv
  exact Nat.div_pos (by omega) hb

/-- Every unit but the last begins before the end. -/
theorem mul_lt_of_lt_ceilDiv {a b k : Nat} (hb : 0 < b) (hk : k < ceilDiv a b) : k * b < a := by
  unfold ceilDiv at hk
  have h1 : (k + 1) * b ≤ (a + b - 1) / b * b := Nat.mul_le_mul_right b hk
  have h2 : (a + b - 1) / b * b ≤ a + b - 1 := Nat.div_mul_le_self _ _
  have h3 : (k + 1) * b = k * b + b := by rw [Nat.add_mul, Nat.one_mul]
  omega

/-- The erase sweep never leaves a partition whose end is aligned (R160). -/
theorem ceilDiv_mul_le {addr len stop g : Nat} (hg : 0 < g) (ha : addr % g = 0) (hs : stop % g = 0)
    (h : addr + len ≤ stop) : addr + ceilDiv len g * g ≤ stop := by
  obtain ⟨x, rfl⟩ := Nat.dvd_of_mod_eq_zero ha
  obtain ⟨y, rfl⟩ := Nat.dvd_of_mod_eq_zero hs
  have hle : ceilDiv len g ≤ y - x := by
    unfold ceilDiv
    have hb : len + g - 1 < (y - x + 1) * g := by
      have : g * x + len ≤ g * y := h
      have e1 : (y - x + 1) * g = (y - x) * g + g := by rw [Nat.add_mul, Nat.one_mul]
      have e2 : (y - x) * g = g * y - g * x := by rw [Nat.mul_comm, Nat.mul_sub]
      omega
    have := (Nat.div_lt_iff_lt_mul hg).2 hb
    omega
  have hxy : g * x ≤ g * y := by omega
  have hxy' : x ≤ y := Nat.le_of_mul_le_mul_left hxy hg
  calc g * x + ceilDiv len g * g ≤ g * x + (y - x) * g := by
        have := Nat.mul_le_mul_right g hle; omega
    _ = g * y := by rw [Nat.mul_comm (y - x) g, Nat.mul_sub]; omega

/-- The sweep covers the request (R160). -/
theorem le_ceilDiv_mul {len g : Nat} (hg : 0 < g) : len ≤ ceilDiv len g * g := by
  unfold ceilDiv
  have := Nat.div_add_mod (len + g - 1) g
  have h2 := Nat.mod_lt (len + g - 1) hg
  rw [Nat.mul_comm] at this
  omega

end Sys2Proof.Machine
end

