-- ==== Sys2Proof/Laws/Ports.lean ====
section
/-! SUPPORT. What a port in the middle of a READ or WRITE knows: its partition, its length, its addresses, and that its
hold's event list has an event. -/

namespace Sys2Proof.Machine

/-- A positive length word is its natural value. -/
theorem lenNat_of_pos {c : Ctx} (h : 0 < c.len.toInt) : (c.lenNat : Int) = c.len.toInt ∧ c.lenNat = c.len.toNat := by
  have h1 : (c.lenNat : Int) = c.len.toInt := by unfold Ctx.lenNat; omega
  refine ⟨h1, ?_⟩
  have h2 := c.len.toInt_eq_toNat_cond
  have := c.len.isLt
  split at h2 <;> omega

/-- Everything validation established for a WRITE in progress (R200, R157). -/
theorem Ctx.Writes.facts {cfg : Config} {c : Ctx} (hw : cfg.wf) (h : c.Writes cfg) :
    ∃ i, c.part = some i ∧ owner cfg c.addr.toNat = some i ∧ c.gran cfg = (cfg.pt.get i).gran ∧ 0 < c.lenNat ∧
      c.lenNat = c.len.toNat ∧ (cfg.pt.get i).role ≠ .boot ∧ (cfg.pt.get i).start ≤ c.addr.toNat ∧
      c.addr.toNat + c.lenNat ≤ (cfg.pt.get i).stop ∧ c.addr.toNat % (cfg.pt.get i).gran = 0 ∧
      c.lenNat ≤ cfg.maxLen ∧ (cfg.pt.get i).wf := by
  obtain ⟨hl, i, ho, hr, hs, ha, hm⟩ := validateWrite_ok h.valid
  obtain ⟨e1, e2⟩ := lenNat_of_pos hl
  have hp : c.part = some i := h.part.trans ho
  have hc := owner_contains ho
  exact ⟨i, hp, ho, by simp [Ctx.gran, Ctx.partition, hp], by omega, e2, hr, hc.1, by omega, ha, by omega,
    Config.wf_get hw i⟩

/-- Everything validation established for a READ in progress (R191). -/
theorem Ctx.Reads.facts {cfg : Config} {c : Ctx} (hw : cfg.wf) (h : c.Reads cfg) :
    ∃ i, c.part = some i ∧ owner cfg c.addr.toNat = some i ∧ 0 < c.lenNat ∧ c.lenNat = c.len.toNat ∧
      (cfg.pt.get i).start ≤ c.addr.toNat ∧ c.addr.toNat + c.lenNat ≤ (cfg.pt.get i).stop ∧
      c.lenNat ≤ cfg.maxLen ∧ (cfg.pt.get i).wf := by
  obtain ⟨hl, i, ho, hs, hm⟩ := validateRead_ok h.valid
  obtain ⟨e1, e2⟩ := lenNat_of_pos hl
  have hc := owner_contains ho
  exact ⟨i, h.part.trans ho, ho, by omega, e2, hc.1, by omega, by omega, Config.wf_get hw i⟩

/-- The event list depends on the latched request, the unit and the phase, not on `EV` or `RDATA`. -/
theorem holdList_congr {cfg : Config} {c d : Ctx} (h1 : d.part = c.part) (h2 : d.phase = c.phase) (h3 : d.k = c.k)
    (h4 : d.addr = c.addr) (h5 : d.buf = c.buf) (h6 : d.len = c.len) : d.holdList cfg = c.holdList cfg := by
  unfold Ctx.holdList Ctx.eraseAddr Ctx.gran Ctx.partition Ctx.lenNat
  rw [h1, h2, h3, h4, h5, h6]

theorem holdList_erase {cfg : Config} {c : Ctx} {i : Fin 3} (hp : c.part = some i) (h : c.phase = .pErase) :
    c.holdList cfg = eraseFrame cfg (c.gran cfg) (c.eraseAddr cfg) := by
  simp [Ctx.holdList, hp, h]

theorem holdList_prog {cfg : Config} {c : Ctx} {i : Fin 3} (hp : c.part = some i) (h : c.phase = .pProg) :
    c.holdList cfg = progList cfg c.addr c.buf c.lenNat := by
  simp [Ctx.holdList, hp, h]

theorem holdList_read {cfg : Config} {c : Ctx} {i : Fin 3} (hp : c.part = some i) (h : c.phase = .pRead) :
    c.holdList cfg =
      readFrame (if cfg.useFastRead then cfg.opcFastRead else cfg.opcReadSlow) cfg.useFastRead (flashAddr c.addr 0)
        c.lenNat := by
  cases hf : cfg.useFastRead <;> simp [Ctx.holdList, hp, h, hf]

/-- A program list of a positive length is not empty (R177). -/
theorem progList_ne_nil {cfg : Config} {addr : Word} {buf : List Byte} {n : Nat} (h : 0 < n) :
    progList cfg addr buf n ≠ [] := by
  have hl := length_progOperands addr buf n
  unfold progList
  cases ho : progOperands addr buf n with
  | nil => rw [ho] at hl; simp at hl; omega
  | cons o os => simp [progCycle, frameHead]

/-- A hold of a port in progress has an event to begin with. -/
theorem holdList_pos {cfg : Config} (hw : cfg.wf) {c : Ctx} (hh : (holdState c.phase).isSome) (hg : c.Good cfg) :
    0 < (c.holdList cfg).length := by
  have h2 := hg.2
  cases hph : c.phase <;> simp [hph, holdState] at hh h2
  · obtain ⟨i, hp, -⟩ := h2.1.facts hw
    rw [holdList_erase hp hph]; simp
  · obtain ⟨i, hp, -, -, hl, -⟩ := h2.1.facts hw
    rw [holdList_prog hp hph]
    exact List.length_pos_iff.2 (progList_ne_nil hl)
  · obtain ⟨i, hp, -⟩ := h2.1.facts hw
    rw [holdList_read hp hph]; simp

/-- A WRITE has at least one erase unit (R157). -/
theorem eraseUnits_pos {cfg : Config} (hw : cfg.wf) {c : Ctx} (h : c.Writes cfg) : 0 < c.eraseUnits cfg := by
  obtain ⟨i, -, -, hg, hl, -, -, -, -, -, -, hwf⟩ := h.facts hw
  unfold Ctx.eraseUnits
  rw [hg]
  exact ceilDiv_pos hl hwf.2.2.1

/-- A computed flash address fits 24 bits exactly (R16 (2)). -/
theorem flashAddr_toNat {base : Word} {n : Nat} (h : base.toNat + n < flashSize) :
    (flashAddr base n).toNat = base.toNat + n := by
  unfold flashAddr
  rw [BitVec.toNat_ofNat]
  exact Nat.mod_eq_of_lt h

end Sys2Proof.Machine
end

