-- ==== Sys2Proof/Laws/Holds.lean ====
section
/-! SUPPORT. What an event of a hold, a whole hold, the failure path and the fetch can do: one case lemma for each, which
the proofs about steps cite instead of unfolding the operations. -/

namespace Sys2Proof.Machine

/-- What an event of a hold that does not end the hold leaves. -/
theorem eventStep_cases {p total : Nat} {e : Event} {s t : State} (h : eventStep p total e s = .next t) :
    (∃ r s1, transport (.port p) e s = .ok (r, s1) ∧ r ≠ .timeout ∧ t = (s1.deliver p r).advanceEv p total) ∨
      (∃ s1, transport (.port p) e s = .ok (.timeout, s1) ∧ failHold p s1 = .next t) := by
  unfold eventStep at h
  split at h
  · cases h
  · exact .inr ⟨_, ‹_›, h⟩
  · rename_i r s1 hne heq
    exact .inl ⟨r, s1, heq, hne, by cases h; rfl⟩

/-- The failure path (R232). -/
theorem failHold_cases {p : Nat} {s t : State} (h : failHold p s = .next t) :
    ∃ s1, deselIfSelected (.port p) s = .ok s1 ∧ t = s1.release.finish p .transportTimeout 0 := by
  unfold failHold at h
  split at h
  · cases h
  · exact ⟨_, ‹_›, by cases h; rfl⟩

theorem deselIfSelected_cases {a : Agent} {s t : State} (h : deselIfSelected a s = .ok t) :
    (s.sel = false ∧ t = s) ∨ (s.sel = true ∧ transport a .desel s = .ok (.ok, t)) := by
  unfold deselIfSelected at h
  split at h
  · exact .inr ⟨‹_›, by simp [transport, h, Except.map]⟩
  · rename_i hs; exact .inl ⟨by simpa using hs, by cases h; rfl⟩

theorem deliver_cases (s : State) (p : Nat) (r : Answer) :
    s.deliver p r = s ∨ ∃ b, r = .byte b ∧ (s.port p).phase = .pRead ∧
      ¬ (s.cfg.useFastRead = true ∧ (s.port p).ev = dummyEvent) ∧
      s.deliver p r = s.setPort p (fun c => { c with rdata := c.rdata ++ [b] }) := by
  cases r with
  | ok => exact .inl rfl
  | timeout => exact .inl rfl
  | byte b =>
    simp only [State.deliver]
    split
    · rename_i h; exact .inr ⟨b, rfl, h.1, h.2, rfl⟩
    · exact .inl rfl

theorem setPort_setPort (s : State) (p : Nat) (f g : Ctx → Ctx) :
    (s.setPort p f).setPort p g = s.setPort p (fun c => g (f c)) := by
  simp only [State.setPort, State.mk.injEq, true_and, and_true]
  apply List.ext_getElem?
  intro i
  simp only [List.getElem?_modify]
  by_cases hi : p = i
  · subst hi; cases s.ctx[p]? <;> simp
  · simp [hi]

theorem setPort_id {s : State} {p : Nat} {f : Ctx → Ctx} (h : ∀ c, f c = c) : s.setPort p f = s := by
  have : s.ctx.modify p f = s.ctx := by
    apply List.ext_getElem?
    intro i
    rw [List.getElem?_modify]
    by_cases hi : p = i
    · subst hi; cases s.ctx[p]? <;> simp [h]
    · simp [hi]
  simp [State.setPort, this]

/-- The bytes an answer delivers to a READ. -/
def delivered (s : State) (p : Nat) (r : Answer) : List Byte :=
  match r with
  | .byte b =>
    if (s.port p).phase = .pRead ∧ ¬ (s.cfg.useFastRead = true ∧ (s.port p).ev = dummyEvent) then [b] else []
  | .ok => []
  | .timeout => []

theorem deliver_eq (s : State) (p : Nat) (r : Answer) :
    s.deliver p r = s.setPort p (fun c => { c with rdata := c.rdata ++ delivered s p r }) := by
  cases r with
  | ok => exact (setPort_id (by intro c; simp [delivered])).symm
  | timeout => exact (setPort_id (by intro c; simp [delivered])).symm
  | byte b =>
    simp only [State.deliver, delivered]
    split
    · rfl
    · exact (setPort_id (by intro c; simp)).symm

/-- Only `T.rb()` answers a byte, and it answers nothing else but a timeout (R111 to R117). -/
theorem transport_answer {a : Agent} {e : Event} {s t : State} {r : Answer} (h : transport a e s = .ok (r, t)) :
    (e = .rb ∧ r ≠ .ok) ∨ (e ≠ .rb ∧ ∀ b, r ≠ .byte b) := by
  cases e with
  | sel => simp only [transport, Except.ok.injEq, Prod.mk.injEq] at h; obtain ⟨rfl, -⟩ := h; exact .inr (by simp)
  | desel =>
    simp only [transport] at h
    cases hd : deselCall a s with
    | error f => simp [hd, Except.map] at h
    | ok s1 =>
      simp only [hd, Except.map, Except.ok.injEq, Prod.mk.injEq] at h
      obtain ⟨rfl, -⟩ := h; exact .inr (by simp)
  | wb b =>
    simp only [transport, wbCall, Except.ok.injEq] at h
    split at h <;> (simp only [Prod.mk.injEq] at h; obtain ⟨rfl, -⟩ := h; exact .inr (by simp))
  | wi k =>
    simp only [transport, wiCall, Except.ok.injEq] at h
    split at h <;> (simp only [Prod.mk.injEq] at h; obtain ⟨rfl, -⟩ := h; exact .inr (by simp))
  | rb =>
    simp only [transport, rbCall] at h
    split at h
    · simp only [Except.ok.injEq, Prod.mk.injEq] at h; obtain ⟨rfl, -⟩ := h; exact .inl (by simp)
    · simp only [rbAnswer, Except.ok.injEq, Prod.mk.injEq] at h; obtain ⟨rfl, -⟩ := h; exact .inl (by simp)
    · split at h
      · simp only [rbAnswer, Except.ok.injEq, Prod.mk.injEq] at h; obtain ⟨rfl, -⟩ := h; exact .inl (by simp)
      · cases h

theorem wire_reads_replicate (n : Nat) (w : Wire) :
    ((List.replicate n Event.rb).foldl Wire.after w).reads = w.reads + n := by
  induction n generalizing w with
  | zero => rfl
  | succ n ih => rw [List.replicate_succ, List.foldl_cons, ih]; simp only [Wire.after]; omega

theorem readFrame_eq (op : Byte) (dummy : Bool) (a : Addr24) (n : Nat) :
    readFrame op dummy a n = frameHead op a ++ List.replicate (n + (if dummy then 1 else 0)) .rb ++ [.desel] := by
  cases dummy
  · simp [readFrame]
  · simp [readFrame, List.replicate_succ]

/-- The reads before event `ev` of a read frame. -/
theorem readFrame_reads_take {op : Byte} {dummy : Bool} {a : Addr24} {n ev : Nat}
    (h : ev < (readFrame op dummy a n).length) : (wireOf ((readFrame op dummy a n).take ev)).reads = ev - 5 := by
  rw [length_readFrame] at h
  rw [readFrame_eq]
  generalize hm : n + (if dummy then 1 else 0) = m
  have hle : ev ≤ 5 + m := by cases dummy <;> simp at h hm <;> omega
  have h1 : (frameHead op a ++ List.replicate m Event.rb ++ [Event.desel]).take ev =
      (frameHead op a).take ev ++ List.replicate (ev - 5) .rb := by
    rw [List.take_append_of_le_length (by simp; omega), List.take_append, length_frameHead, List.take_replicate,
      Nat.min_eq_left (by omega)]
  rw [h1, wireOf_append, wire_reads_replicate]
  have h2 : ∀ k, (wireOf ((frameHead op a).take k)).reads = 0 := by
    intro k
    match k with
    | 0 => rfl
    | 1 => rfl
    | 2 => rfl
    | 3 => rfl
    | 4 => rfl
    | k + 5 => rw [List.take_of_length_le (by simp)]; rfl
  rw [h2]; omega

theorem readFrame_get_rb {op : Byte} {dummy : Bool} {a : Addr24} {n ev : Nat}
    (h : (readFrame op dummy a n)[ev]? = some .rb) : 5 ≤ ev := by
  by_contra hn
  have : ev = 0 ∨ ev = 1 ∨ ev = 2 ∨ ev = 3 ∨ ev = 4 := by omega
  rcases this with rfl | rfl | rfl | rfl | rfl <;>
    simp [readFrame, frameHead, addrBytes] at h

@[simp] theorem creditTransfer_ctx (s : State) (p : Nat) : (s.creditTransfer p).ctx = s.ctx := by
  unfold State.creditTransfer; split <;> rfl

/-- The credit writes the counter alone (R26). -/
theorem creditTransfer_eq (s : State) (p : Nat) :
    s.creditTransfer p =
      { s with
        xferCount := if (s.port p).inConfig s.cfg then countAdd s.xferCount (s.port p).len else s.xferCount } := by
  unfold State.creditTransfer; split <;> rfl

/-- Everything the successful end of a READ or WRITE does (R180, R193). -/
theorem completeTransfer_cases {s : State} {p : Nat} (hp : p < s.ctx.length) :
    ∃ ctx ix buf,
      s.completeTransfer p =
        { s with
          fstate := .ready
          owner := none
          xferCount := if (s.port p).inConfig s.cfg then countAdd s.xferCount (s.port p).len else s.xferCount
          ctx := ctx
          freeIx := ix } ∧
      ctx.length = s.ctx.length ∧ (∀ q, q ≠ p → (s.completeTransfer p).port q = s.port q) ∧
      (s.completeTransfer p).port p =
        { s.port p with
          buf := buf
          bufHeld := false
          result := .ok
          count := (s.port p).len
          rdata := if (s.port p).op ≠ opRead then [] else (s.port p).rdata
          phase := .pDone } := by
  unfold State.completeTransfer
  obtain ⟨ctx, ix, h, hl⟩ := finish_cases (s.release.creditTransfer p) p .ok (s.port p).len
  have hp' : p < (s.release.creditTransfer p).ctx.length := by rw [creditTransfer_ctx]; exact hp
  have hport : ∀ q, (s.release.creditTransfer p).port q = s.port q := fun q => port_of_ctx (creditTransfer_ctx _ _) q
  obtain ⟨buf, hb⟩ := finish_port hp' .ok (s.port p).len
  refine ⟨ctx, ix, buf, ?_, ?_, ?_, ?_⟩
  · rw [h, creditTransfer_eq]; rfl
  · rw [hl, creditTransfer_ctx]; rfl
  · intro q hq; rw [finish_port_of_ne hq, hport]
  · rw [hb, hport]; simp

theorem endHold_owner {s : State} {p : Nat} (hp : p < s.ctx.length) (hh : (holdState (s.port p).phase).isSome) :
    (s.endHold p).owner = none ∧ (s.endHold p).fstate = .ready ∧ (s.endHold p).sel = s.sel := by
  unfold State.endHold
  cases hph : (s.port p).phase <;> simp [hph, holdState] at hh <;> simp only
  · exact ⟨rfl, rfl, rfl⟩
  all_goals
    obtain ⟨_, _, _, hE, -⟩ := completeTransfer_cases hp
    rw [hE]
    exact ⟨rfl, rfl, rfl⟩

theorem failHold_owner {s t : State} {p : Nat} (h : failHold p s = .next t) :
    t.owner = none ∧ t.fstate = .ready ∧ t.sel = false := by
  obtain ⟨s2, hd, rfl⟩ := failHold_cases h
  refine ⟨by simp, by simp, ?_⟩
  rcases deselIfSelected_cases hd with ⟨a, rfl⟩ | ⟨a, b⟩
  · simpa using a
  · obtain ⟨_, _, _, rfl, _⟩ := transport_cases b
    simp [selAfter]

/-- An event after which the port still holds the token: one further in the same list, the answer noted and delivered. -/
theorem event_goes_on {s t : State} {p : Nat} {e : Event} (hp : p < s.ctx.length)
    (hh : (holdState (s.port p).phase).isSome)
    (ht : eventStep p ((s.port p).holdList s.cfg).length e s = .next t) (ho1 : t.owner = some (.port p)) :
    ∃ r draws chip ix rd, r ≠ .timeout ∧ (s.port p).ev + 1 ≠ ((s.port p).holdList s.cfg).length ∧
      chipAfter s.cfg s.env.kind e r s.env.chip chip ∧
      t = { s.setPort p (fun c => { c with rdata := c.rdata ++ rd, ev := c.ev + 1 }) with
            sel := selAfter e s.sel
            env := { s.env with draws := draws, chip := chip }
            freeIx := ix
            trace := s.trace ++ [⟨.port p, s.holdNo, e, r⟩] } := by
  rcases eventStep_cases ht with ⟨r, s1, htr, hr, rfl⟩ | ⟨s1, htr, hf⟩
  swap
  · rw [(failHold_owner hf).1] at ho1; cases ho1
  obtain ⟨draws, chip, ix, rfl, hc⟩ := transport_cases htr
  rw [deliver_eq] at ho1 ⊢
  generalize delivered _ p r = rd at ho1 ⊢
  have hp1 : (s.port p) = State.port { s with
            sel := selAfter e s.sel
            env := { s.env with draws := draws, chip := chip }
            freeIx := ix
            trace := s.trace ++ [⟨.port p, s.holdNo, e, r⟩] } p := rfl
  unfold State.advanceEv at ho1 ⊢
  rw [port_setPort_self (by exact hp)] at ho1 ⊢
  simp only at ho1 ⊢
  split at ho1
  · exfalso
    rw [setPort_setPort] at ho1
    rw [(endHold_owner (by rw [length_setPort]; exact hp) (by rw [port_setPort_self (by exact hp)]; exact hh)).1] at ho1
    cases ho1
  · rename_i hne
    rw [if_neg hne, setPort_setPort]
    exact ⟨r, draws, chip, ix, rd, hr, hne, hc, rfl⟩

theorem decodeDescriptor_read {w0 w1 w2 : Word} {pl : List Byte} {a l : Word}
    (h : decodeDescriptor w0 w1 w2 pl = .ok (.read a l)) : w0 = 1 ∧ a = w1 ∧ l = w2 := by
  unfold decodeDescriptor at h
  repeat' split at h
  all_goals first | (cases h; exact ⟨‹_›, rfl, rfl⟩) | cases h

theorem decodeDescriptor_write {w0 w1 w2 : Word} {pl : List Byte} {a l : Word} {d : List Byte}
    (h : decodeDescriptor w0 w1 w2 pl = .ok (.write a l d)) : w0 = 2 ∧ a = w1 ∧ l = w2 ∧ d = pl := by
  unfold decodeDescriptor at h
  repeat' split at h
  all_goals first | (cases h; exact ⟨‹_›, rfl, rfl, rfl⟩) | cases h

theorem decodeDescriptor_status {w0 w1 w2 : Word} {pl : List Byte}
    (h : decodeDescriptor w0 w1 w2 pl = .ok .status) : w0 = 3 := by
  unfold decodeDescriptor at h
  repeat' split at h
  all_goals first | (cases h; assumption) | cases h

theorem decodeDescriptor_resetStatus {w0 w1 w2 : Word} {pl : List Byte}
    (h : decodeDescriptor w0 w1 w2 pl = .ok .resetStatus) : w0 = 4 := by
  unfold decodeDescriptor at h
  repeat' split at h
  all_goals first | (cases h; assumption) | cases h

/-- A descriptor decodes to a command or is reserved (R83, R95). -/
theorem decodeDescriptor_cases (w0 w1 w2 : Word) (pl : List Byte) :
    (w0 = 1 ∧ decodeDescriptor w0 w1 w2 pl = .ok (.read w1 w2)) ∨
      (w0 = 2 ∧ decodeDescriptor w0 w1 w2 pl = .ok (.write w1 w2 pl)) ∨
      (w0 = 3 ∧ decodeDescriptor w0 w1 w2 pl = .ok .status) ∨
      (w0 = 4 ∧ decodeDescriptor w0 w1 w2 pl = .ok .resetStatus) ∨
      ((w0 ≠ 1 ∧ w0 ≠ 2 ∧ w0 ≠ 3 ∧ w0 ≠ 4) ∧ decodeDescriptor w0 w1 w2 pl = .error (.reservedOp w0)) := by
  unfold decodeDescriptor
  by_cases h1 : w0 = 1
  · exact .inl ⟨h1, if_pos h1⟩
  · by_cases h2 : w0 = 2
    · exact .inr (.inl ⟨h2, by rw [if_neg h1, if_pos h2]⟩)
    · by_cases h3 : w0 = 3
      · exact .inr (.inr (.inl ⟨h3, by rw [if_neg h1, if_neg h2, if_pos h3]⟩))
      · by_cases h4 : w0 = 4
        · exact .inr (.inr (.inr (.inl ⟨h4, by rw [if_neg h1, if_neg h2, if_neg h3, if_pos h4]⟩)))
        · exact .inr (.inr (.inr (.inr ⟨⟨h1, h2, h3, h4⟩, by rw [if_neg h1, if_neg h2, if_neg h3, if_neg h4]⟩)))

/-- A step of the identification sequencer: either it goes on, or it ends with the token Ready (R127 to R129). -/
theorem initStep_cases {e : Event} {s t : State} (h : initStep e s = .next t) :
    (∃ r s1, transport .init e s = .ok (r, s1) ∧ r ≠ .timeout ∧ t = initAdvance (initDeliver s1 r)) ∨
      (∃ s1, transport .init e s = .ok (.timeout, s1) ∧ initFail s1 = .next t) := by
  unfold initStep at h
  split at h
  · cases h
  · exact .inr ⟨_, ‹_›, h⟩
  · rename_i r s1 hne heq
    exact .inl ⟨r, s1, heq, hne, by cases h; rfl⟩

theorem initDeliver_eq (s : State) (r : Answer) : ∃ acc, initDeliver s r = { s with initAcc := acc } := by
  cases r <;> exact ⟨_, rfl⟩

theorem initStep_owner {e : Event} {s t : State} (ht : initStep e s = .next t) :
    t.owner = none ∨ (t.owner = s.owner ∧ t.cfg = s.cfg ∧ t.initEv = s.initEv + 1) := by
  rcases initStep_cases ht with ⟨r, s1, htr, hr, rfl⟩ | ⟨s1, htr, hf⟩
  · obtain ⟨draws, chip, ix, rfl, -⟩ := transport_cases htr
    obtain ⟨acc, ha⟩ := initDeliver_eq { s with
            sel := selAfter e s.sel
            env := { s.env with draws := draws, chip := chip }
            freeIx := ix
            trace := s.trace ++ [⟨.init, s.holdNo, e, r⟩] } r
    rw [ha]
    unfold initAdvance
    split
    · exact .inl rfl
    · exact .inr ⟨rfl, rfl, rfl⟩
  · unfold initFail at hf
    split at hf
    · cases hf
    · cases hf; exact .inl rfl

/-- What a port's instruction is, by its phase. -/
theorem fetchPort_cases {s : State} {p : Nat} {i : Instr} (h : s.fetchPort p = some i) :
    ((s.port p).phase = .pSubmitted ∧
        decodeDescriptor (s.port p).op (s.port p).addr (s.port p).len (s.port p).payload = .ok i) ∨
      (s.holds p = true ∧
        (((s.port p).phase = .pErase ∧ (s.port p).ev = 0 ∧
            i = .erase ((s.port p).gran s.cfg) ((s.port p).eraseAddr s.cfg)) ∨
          ((s.port p).phase = .pProg ∧ ∃ o, i = .program o.1 o.2 ∧
            cycleAt (progOperands (s.port p).addr (s.port p).buf (s.port p).lenNat) (s.port p).ev = some o) ∨
          ((s.port p).phase = .pRead ∧ (s.port p).ev = 0 ∧
            ((s.cfg.useFastRead = true ∧ i = .fastRead (flashAddr (s.port p).addr 0)) ∨
              (s.cfg.useFastRead = false ∧ i = .readSlow (flashAddr (s.port p).addr 0)))))) := by
  unfold State.fetchPort at h
  simp only at h
  cases hph : (s.port p).phase <;> rw [hph] at h <;> simp only at h
  · cases h
  · left
    refine ⟨rfl, ?_⟩
    cases hd : decodeDescriptor (s.port p).op (s.port p).addr (s.port p).len (s.port p).payload with
    | error e => rw [hd] at h; cases h
    | ok j => rw [hd] at h; cases h; rfl
  · cases h
  · right
    split at h
    · rename_i hc
      simp only [Bool.and_eq_true, beq_iff_eq] at hc
      cases h
      exact ⟨hc.1, .inl ⟨rfl, hc.2, rfl⟩⟩
    · cases h
  · cases h
  · right
    split at h
    · rename_i hc
      obtain ⟨o, ho, rfl⟩ := Option.map_eq_some_iff.1 h
      exact ⟨hc, .inr (.inl ⟨rfl, o, rfl, ho⟩)⟩
    · cases h
  · cases h
  · right
    split at h
    · rename_i hc
      simp only [Bool.and_eq_true, beq_iff_eq] at hc
      split at h
      · cases h; exact ⟨hc.1, .inr (.inr ⟨rfl, hc.2, .inl ⟨‹_›, rfl⟩⟩)⟩
      · rename_i hf
        cases h; exact ⟨hc.1, .inr (.inr ⟨rfl, hc.2, .inr ⟨by simpa using hf, rfl⟩⟩)⟩
    · cases h
  · cases h

/-- `whenAt` runs the meaning for the port that stands at the instruction, or does nothing. -/
theorem whenAt_cases {i : Instr} {s : State} {m : Nat → Result} :
    (∃ p, s.active = .port p ∧ s.fetchPort p = some i ∧ whenAt i s m = m p) ∨ whenAt i s m = .next s := by
  unfold whenAt
  split
  · rename_i p hp
    split
    · rename_i hf
      exact .inl ⟨p, hp, by simpa [State.fetch, hp] using hf, rfl⟩
    · exact .inr rfl
  · exact .inr rfl

theorem whenAt_at {i : Instr} {s : State} {m : Nat → Result} {p : Nat} (ha : s.active = .port p)
    (hf : s.fetch = some i) : whenAt i s m = m p := by
  simp [whenAt, ha, hf]

/-- The events of the frame at which a port stands are the next of its hold's list. -/
theorem fetched_frame {s : State} {p : Nat} {i : Instr} (h : s.fetchPort p = some i)
    (hp : (s.port p).phase ≠ .pSubmitted) :
    ∃ rest, ((s.port p).holdList s.cfg).drop (s.port p).ev = frameOf s.cfg (s.port p).lenNat i ++ rest := by
  rcases fetchPort_cases h with ⟨hs, -⟩ | ⟨hh, hc⟩
  · exact absurd hs hp
  · simp only [State.holds, Bool.and_eq_true, decide_eq_true_eq] at hh
    obtain ⟨j, hj⟩ := Option.isSome_iff_exists.1 hh.2
    rcases hc with ⟨hph, hev, rfl⟩ | ⟨hph, o, rfl, hcy⟩ | ⟨hph, hev, hf⟩
    · exact ⟨[], by rw [holdList_erase hj hph, hev]; simp [frameOf]⟩
    · obtain ⟨-, rest, hr⟩ := cycleAt_drop (c := s.cfg) hcy
      exact ⟨rest, by rw [holdList_prog hj hph]; exact hr⟩
    · refine ⟨[], ?_⟩
      rw [holdList_read hj hph, hev]
      rcases hf with ⟨hb, rfl⟩ | ⟨hb, rfl⟩ <;> simp [frameOf, hb]

theorem nextTurn_cases (s : State) :
    ∃ sched ix, s.nextTurn.2 = { s with sched := sched, freeIx := ix } := by
  unfold State.nextTurn
  split
  · exact ⟨_, _, rfl⟩
  · split
    · unfold State.enabledTurn
      split <;> exact ⟨_, _, rfl⟩
    · exact ⟨_, _, rfl⟩
    · exact ⟨_, _, rfl⟩
    · exact ⟨_, _, rfl⟩

end Sys2Proof.Machine
end

