-- ==== Sys2Proof/Laws/Invariant.lean ====
section
/-! SUPPORT. Every operation of the machine keeps the invariant of 10_state R39: one lemma for each shape of change, then
one for each operation and each instruction. -/

namespace Sys2Proof.Machine

theorem Inv.of_nonhold {s t : State} {p : Nat} (h : s.Inv)
    (hcfg : t.cfg = s.cfg) (hfs : t.fstate = s.fstate) (how : t.owner = s.owner) (hsel : t.sel = s.sel)
    (hie : t.initEv = s.initEv) (hlen : t.ctx.length = s.ctx.length) (hoth : ∀ q, q ≠ p → t.port q = s.port q)
    (hs : holdState (s.port p).phase = none) (ht : holdState (t.port p).phase = none)
    (hg : (t.port p).Good t.cfg) : t.Inv := by
  have hnp : s.owner ≠ some (.port p) := by
    intro hq; have := (h.hold p hq).2.1; rw [hs] at this; cases this
  refine ⟨hcfg ▸ h.cfgWf, ?_, ?_, ?_, ?_, ?_, ?_, ?_, ?_⟩
  · rw [hlen, hcfg]; exact h.ports
  · rw [hfs, how]; exact h.unknownInit
  · rw [hfs, how]; exact h.readyNone
  · rw [hfs, hsel]; exact h.readySel
  · rw [how, hie, hcfg]; intro hq; have := h.initPos hq; unfold selMatches at *; rw [hsel]; exact this
  · intro q hq
    rw [how] at hq
    have hqp : q ≠ p := fun e => hnp (e ▸ hq)
    rw [hlen, hoth q hqp, hcfg, hfs]
    have := h.hold q hq
    unfold selMatches at *; rw [hsel]; exact this
  · intro q hq
    by_cases hqp : q = p
    · subst hqp; rw [ht] at hq; cases hq
    · rw [how]; rw [hoth q hqp] at hq; exact h.inHold q hq
  · intro q
    by_cases hqp : q = p
    · subst hqp; exact hg
    · rw [hoth q hqp, hcfg]; exact h.good q

theorem Inv.of_hold {s t : State} {p : Nat} (h : s.Inv) (ho : s.owner = some (.port p))
    (hcfg : t.cfg = s.cfg) (hfs : t.fstate = s.fstate) (how : t.owner = s.owner)
    (hlen : t.ctx.length = s.ctx.length) (hoth : ∀ q, q ≠ p → t.port q = s.port q)
    (hph : (t.port p).phase = (s.port p).phase)
    (hev : (t.port p).ev < ((t.port p).holdList t.cfg).length)
    (hsel : selMatches t ((t.port p).holdList t.cfg) (t.port p).ev)
    (hg : (t.port p).Good t.cfg) : t.Inv := by
  obtain ⟨h1, h2, h3, h4⟩ := h.hold p ho
  refine ⟨hcfg ▸ h.cfgWf, ?_, ?_, ?_, ?_, ?_, ?_, ?_, ?_⟩
  · rw [hlen, hcfg]; exact h.ports
  · rw [hfs, how]; exact h.unknownInit
  · rw [hfs, how]; exact h.readyNone
  · intro hr; rw [hfs] at hr; have := h.readyNone.1 hr; rw [ho] at this; cases this
  · rw [how, ho]; intro hq; cases hq
  · intro q hq
    rw [how, ho] at hq
    cases hq
    exact ⟨hlen ▸ h1, by rw [hph, hfs]; exact h2, hev, hsel⟩
  · intro q hq
    by_cases hqp : q = p
    · subst hqp; rw [how]; exact ho
    · rw [how]; rw [hoth q hqp] at hq; exact h.inHold q hq
  · intro q
    by_cases hqp : q = p
    · subst hqp; exact hg
    · rw [hoth q hqp, hcfg]; exact h.good q

theorem Inv.of_release {s t : State} {p : Nat} (h : s.Inv) (ho : s.owner = some (.port p))
    (hcfg : t.cfg = s.cfg) (hfs : t.fstate = .ready) (how : t.owner = none) (hsel : t.sel = false)
    (hlen : t.ctx.length = s.ctx.length) (hoth : ∀ q, q ≠ p → t.port q = s.port q)
    (hph : holdState (t.port p).phase = none)
    (hg : (t.port p).Good t.cfg) : t.Inv := by
  refine ⟨hcfg ▸ h.cfgWf, ?_, ?_, ?_, ?_, ?_, ?_, ?_, ?_⟩
  · rw [hlen, hcfg]; exact h.ports
  · rw [hfs, how]; simp
  · rw [hfs, how]; simp
  · intro _; exact hsel
  · rw [how]; intro hq; cases hq
  · intro q hq; rw [how] at hq; cases hq
  · intro q hq
    by_cases hqp : q = p
    · subst hqp; rw [hph] at hq; cases hq
    · rw [hoth q hqp] at hq; have := h.inHold q hq; rw [ho] at this; cases this; exact absurd rfl hqp
  · intro q
    by_cases hqp : q = p
    · subst hqp; exact hg
    · rw [hoth q hqp, hcfg]; exact h.good q

theorem Inv.of_acquire {s : State} {p : Nat} {busy phase} (h : s.Inv) (hr : s.fstate = .ready)
    (ht : acquireTarget (s.port p).phase = some (busy, phase)) : (s.acquire p).Inv := by
  have hp : p < s.ctx.length := by
    by_contra hn
    rw [port_absent (Nat.le_of_not_lt hn)] at ht; cases ht
  rw [acquire_ready hr ht]
  have ho := h.readyNone.1 hr
  have hsel := h.readySel hr
  have hport : ({ s.setPort p (fun c => { c with ev := 0, phase := phase }) with
          fstate := busy, owner := some (.port p), holdNo := s.holdNo + 1 } : State).port p
        = { s.port p with ev := 0, phase := phase } := port_setPort_self hp _
  have hoth : ∀ q, q ≠ p → ({ s.setPort p (fun c => { c with ev := 0, phase := phase }) with
          fstate := busy, owner := some (.port p), holdNo := s.holdNo + 1 } : State).port q = s.port q :=
    fun q hq => port_setPort_of_ne hq _
  have hgood := h.good p
  have key : holdState phase = some busy ∧ busy ≠ .ready ∧ busy ≠ .unknown ∧
      0 < (({ s.port p with ev := 0, phase := phase } : Ctx).holdList s.cfg).length ∧
      ({ s.port p with ev := 0, phase := phase } : Ctx).Good s.cfg := by
    have hk : holdState phase = some busy ∧ busy ≠ .ready ∧ busy ≠ .unknown ∧
        ({ s.port p with ev := 0, phase := phase } : Ctx).Good s.cfg := by
      obtain ⟨hb, hg⟩ := hgood
      cases hph : (s.port p).phase <;> simp only [hph, acquireTarget] at ht hg hb <;>
        first
        | (cases ht; done)
        | skip
      · cases ht
        refine ⟨rfl, by decide, by decide, hb, ⟨⟨hg.1.op, hg.1.valid, hg.1.part, hg.1.buf⟩, hg.2⟩⟩
      · cases ht
        refine ⟨rfl, by decide, by decide, hb, ⟨⟨hg.1.op, hg.1.valid, hg.1.part, hg.1.buf⟩, hg.2⟩⟩
      · cases ht
        refine ⟨rfl, by decide, by decide, hb, ⟨⟨hg.1.op, hg.1.valid, hg.1.part⟩, ?_⟩⟩
        simp [hg.2]
    obtain ⟨e1, e2, e3, e4⟩ := hk
    exact ⟨e1, e2, e3, holdList_pos h.cfgWf (by simp [e1]) e4, e4⟩
  obtain ⟨k1, k2, k3, k4, k5⟩ := key
  refine ⟨h.cfgWf, ?_, ?_, ?_, ?_, ?_, ?_, ?_, ?_⟩
  · simpa using h.ports
  · simp [k3]
  · simp [k2]
  · intro hq; exact absurd hq k2
  · intro hq; cases hq
  · intro q hq
    cases hq
    rw [hport]
    refine ⟨by simpa using hp, k1, k4, ?_⟩
    unfold selMatches; simpa using hsel
  · intro q hq
    by_cases hqp : q = p
    · subst hqp; rfl
    · rw [hoth q hqp] at hq; have := h.inHold q hq; rw [ho] at this; cases this
  · intro q
    by_cases hqp : q = p
    · subst hqp; rw [hport]; exact k5
    · rw [hoth q hqp]; exact h.good q

/-- After the failure path the port has finished with TransportTimeout and the token is free (R232). -/
theorem failHold_inv {s s1 t : State} {p : Nat} (h : s.Inv) (ho : s.owner = some (.port p))
    (hcfg : s1.cfg = s.cfg) (hlen : s1.ctx = s.ctx) (hf : failHold p s1 = .next t) : t.Inv := by
  obtain ⟨s2, hd, rfl⟩ := failHold_cases hf
  have hs2 : s2.cfg = s.cfg ∧ s2.ctx = s.ctx ∧ s2.sel = false := by
    rcases deselIfSelected_cases hd with ⟨a, rfl⟩ | ⟨a, b⟩
    · exact ⟨hcfg, hlen, a⟩
    · obtain ⟨_, _, _, rfl, _⟩ := transport_cases b
      exact ⟨hcfg, hlen, rfl⟩
  obtain ⟨c1, c2, c3⟩ := hs2
  obtain ⟨hp, hh, -, -⟩ := h.hold p ho
  have hpl : p < s2.release.ctx.length := by simpa [c2] using hp
  have hport : s2.release.port p = s.port p := by
    rw [release_port]; exact port_of_ctx c2 p
  obtain ⟨buf, hb⟩ := finish_port hpl .transportTimeout 0
  have hop : (s.port p).op = 1 ∨ (s.port p).op = 2 := by
    have hg := (h.good p).2
    cases hph : (s.port p).phase <;> simp [hph, holdState] at hh hg
    · exact .inr hg.1.op
    · exact .inr hg.1.op
    · exact .inl hg.1.op
  refine Inv.of_release h ho (by simp [c1]) (by simp) (by simp) (by simp [c3]) (by simp [c2]) ?_ ?_ ?_
  · intro q hq
    rw [finish_port_of_ne hq, release_port]; exact port_of_ctx c2 q
  · rw [hb]; rfl
  · rw [hb, hport]
    refine ⟨rfl, ?_⟩
    refine ⟨fun _ => by simp, fun hc => by simp at hc, fun hc => by simp at hc, ?_, ?_, ?_⟩
    · intro hc; simp only at hc; rcases hop with e | e <;> rw [e] at hc <;> simp at hc
    · intro hc; simp only at hc; rcases hop with e | e <;> rw [e] at hc <;> simp at hc
    · intro a b; simp only at a b; rcases hop with e | e
      · exact absurd e a
      · exact absurd e b

/-- An event of a hold that is answered: what the whole state becomes when the hold goes on. -/
theorem event_inv {s t : State} {p : Nat} {e : Event} (h : s.Inv) (ho : s.owner = some (.port p))
    (he : ((s.port p).holdList s.cfg)[(s.port p).ev]? = some e)
    (ht : eventStep p ((s.port p).holdList s.cfg).length e s = .next t) : t.Inv := by
  obtain ⟨hp, hh, hev, hsel⟩ := h.hold p ho
  rcases eventStep_cases ht with ⟨r, s1, htr, hr, rfl⟩ | ⟨s1, htr, hf⟩
  swap
  · obtain ⟨_, _, _, rfl, _⟩ := transport_cases htr
    refine failHold_inv h ho ?_ ?_ hf <;> rfl
  have hans := transport_answer htr
  obtain ⟨draws, chip, ix, rfl, -⟩ := transport_cases htr
  rw [deliver_eq]
  generalize hd : delivered _ p r = rd
  set s1 : State := { s with
    sel := selAfter e s.sel
    env := { s.env with draws := draws, chip := chip }
    freeIx := ix
    trace := s.trace ++ [⟨.port p, s.holdNo, e, r⟩] } with hs1
  have hp1 : p < s1.ctx.length := hp
  have hport : ∀ f, (s1.setPort p f).port p = f (s.port p) := fun f => port_setPort_self hp1 f
  have hoth : ∀ f q, q ≠ p → (s1.setPort p f).port q = s.port q := fun f q hq => port_setPort_of_ne hq f
  have hwire := wireOf_take_succ he
  have hsel' : selAfter e s.sel = (wireOf (((s.port p).holdList s.cfg).take ((s.port p).ev + 1))).sel := by
    rw [hwire, wire_after_sel]
    unfold selMatches at hsel
    cases e <;> simp [selAfter, hsel]
  have hgood := h.good p
  -- the bytes read so far
  have hrd : (s.port p).phase = .pRead →
      ((s.port p).rdata ++ rd).length =
        (wireOf (((s.port p).holdList s.cfg).take ((s.port p).ev + 1))).reads - (if s.cfg.useFastRead then 1 else 0) := by
    intro hph
    have hg2 := hgood.2
    rw [hph] at hg2
    obtain ⟨hreads, hlen⟩ := hg2
    obtain ⟨i, hpart, -⟩ := hreads.facts h.cfgWf
    have hl := holdList_read (cfg := s.cfg) hpart hph
    rw [hwire, List.length_append, hlen]
    rw [hl] at he hev ⊢
    have htake := readFrame_reads_take hev
    rcases hans with ⟨rfl, hne⟩ | ⟨hne, hnb⟩
    · have h5 := readFrame_get_rb he
      cases r with
      | ok => exact absurd rfl hne
      | timeout => exact absurd rfl hr
      | byte b =>
        simp only [Wire.after]
        rw [htake]
        have hpp : s1.port p = s.port p := rfl
        simp only [delivered, hpp, hph] at hd
        subst hd
        have hcf : s1.cfg = s.cfg := rfl
        rw [hcf]
        cases hfast : s.cfg.useFastRead
        · simp
        · by_cases h5' : (s.port p).ev = 5
          · simp [h5', dummyEvent]
          · simp [h5', dummyEvent]; omega
    · have hnil : rd = [] := by
        subst hd
        cases r with
        | ok => rfl
        | timeout => rfl
        | byte b => exact absurd rfl (hnb b)
      have : ∀ w : Wire, e ≠ .sel → (w.after e).reads = w.reads := by
        intro w hw; cases e <;> first | rfl | (exact absurd rfl hne) | (exact absurd rfl hw)
      by_cases hse : e = .sel
      · subst hse
        rw [hnil, htake]
        have h0 : (s.port p).ev = 0 := by
          by_contra hn
          have hgt : 1 ≤ (s.port p).ev := by omega
          rw [readFrame_eq] at he
          obtain ⟨k, hk⟩ : ∃ k, (s.port p).ev = k + 1 := ⟨(s.port p).ev - 1, by omega⟩
          rw [hk] at he
          have hm := List.mem_of_getElem? (l := (frameHead _ _ ++ List.replicate _ Event.rb ++ [Event.desel]).tail)
            (i := k) (a := Event.sel) (by rw [List.getElem?_tail]; exact he)
          simp [frameHead, addrBytes] at hm
        rw [h0]; simp [Wire.after]
      · rw [hnil, this _ hse]; simp
  unfold State.advanceEv
  rw [hport]
  simp only
  split
  · -- the last event
    rename_i hlast
    rw [setPort_setPort]
    have hselend : selAfter e s.sel = false := by
      rw [hsel', hlast, List.take_length]; exact wireOf_holdList_sel _ _
    set s3 := s1.setPort p (fun c => { c with rdata := c.rdata ++ rd, ev := c.ev + 1 }) with hs3
    have hp3 : p < s3.ctx.length := by rw [hs3, length_setPort]; exact hp
    have h3 : s3.port p = { s.port p with rdata := (s.port p).rdata ++ rd, ev := (s.port p).ev + 1 } := hport _
    have ho3 : ∀ q, q ≠ p → s3.port q = s.port q := fun q hq => hoth _ q hq
    have hl3 : s3.ctx.length = s.ctx.length := by rw [hs3, length_setPort]
    obtain ⟨hb, hg2⟩ := hgood
    cases hph : (s.port p).phase <;> rw [hph] at hh hg2 <;> simp [holdState] at hh
    · -- erase
      have hph3 : (s3.port p).phase = .pErase := by rw [h3]; exact hph
      have hend : s3.endHold p = s3.endErase p := by unfold State.endHold; rw [hph3]
      rw [hend]
      unfold State.endErase
      have hp4 : p < s3.release.ctx.length := hp3
      have h4 : (s3.release.setPort p (fun c =>
          { c with k := c.k + 1, phase := if c.k + 1 < c.eraseUnits s3.cfg then .pWaitErase else .pWaitProg })).port p
          = _ := port_setPort_self hp4 _
      rw [release_port, h3] at h4
      have hcfg3 : s3.cfg = s.cfg := rfl
      refine Inv.of_release h ho rfl rfl rfl hselend ?_ ?_ ?_ ?_
      · rw [length_setPort]; exact hl3
      · intro q hq; rw [port_setPort_of_ne hq, release_port]; exact ho3 q hq
      · rw [h4]; simp only; split <;> rfl
      · rw [h4]
        have hw : ∀ b k', (Ctx.Writes s.cfg
          { s.port p with rdata := (s.port p).rdata ++ rd, ev := (s.port p).ev + 1, k := k', phase := b }) :=
          fun b k' => ⟨hg2.1.op, hg2.1.valid, hg2.1.part, hg2.1.buf⟩
        have heu : ∀ b k' , Ctx.eraseUnits s.cfg
          { s.port p with rdata := (s.port p).rdata ++ rd, ev := (s.port p).ev + 1, k := k', phase := b }
            = (s.port p).eraseUnits s.cfg := fun _ _ => rfl
        have heu' : Ctx.eraseUnits s3.cfg
          { s.port p with rdata := (s.port p).rdata ++ rd, ev := (s.port p).ev + 1 }
            = (s.port p).eraseUnits s.cfg := rfl
        have hc5 : (s3.release.setPort p (fun c =>
          { c with k := c.k + 1, phase := if c.k + 1 < c.eraseUnits s3.cfg then .pWaitErase else .pWaitProg })).cfg = s.cfg := rfl
        rw [hc5]
        simp only [heu']
        by_cases hk : (s.port p).k + 1 < (s.port p).eraseUnits s.cfg
        · simp only [hk, if_true]
          refine ⟨?_, hw _ _, ?_⟩
          · simpa [hph, Phase.buffered] using hb
          · exact hk
        · simp only [hk, if_false]
          refine ⟨?_, hw _ _, ?_⟩
          · simpa [hph, Phase.buffered] using hb
          · have := hg2.2
            show (s.port p).k + 1 = (s.port p).eraseUnits s.cfg
            omega
    · -- program
      have hph3 : (s3.port p).phase = .pProg := by rw [h3]; exact hph
      have hend : s3.endHold p = s3.completeTransfer p := by unfold State.endHold; rw [hph3]
      rw [hend]
      obtain ⟨ctx, ix', buf, hE, hl, ho5, hp5⟩ := completeTransfer_cases hp3
      have hrdata : (s3.port p).op ≠ opRead := by rw [h3]; simp only [hg2.1.op]; decide
      rw [if_pos hrdata, h3] at hp5
      refine Inv.of_release h ho ?_ ?_ ?_ ?_ ?_ (fun q hq => (ho5 q hq).trans (ho3 q hq)) ?_ ?_
      · rw [hE]; rfl
      · rw [hE]
      · rw [hE]
      · rw [hE]; exact hselend
      · rw [hE]; exact hl.trans hl3
      · rw [hp5]; rfl
      · rw [hp5]
        have hop : (s.port p).op = 2 := hg2.1.op
        refine ⟨rfl, ⟨fun hc => absurd rfl hc, fun _ hc => ?_, fun _ _ => ⟨rfl, rfl⟩, fun hc => ?_, fun hc => ?_,
          fun _ hc => absurd hop hc⟩⟩
        · simp only [hop] at hc; cases hc
        · simp only [hop] at hc; cases hc
        · simp only [hop] at hc; cases hc
    · -- read
      have hph3 : (s3.port p).phase = .pRead := by rw [h3]; exact hph
      have hend : s3.endHold p = s3.completeTransfer p := by unfold State.endHold; rw [hph3]
      rw [hend]
      obtain ⟨ctx, ix', buf, hE, hl, ho5, hp5⟩ := completeTransfer_cases hp3
      have hrdata : ¬ (s3.port p).op ≠ opRead := by rw [h3]; simp only [hg2.1.op]; decide
      rw [if_neg hrdata, h3] at hp5
      refine Inv.of_release h ho ?_ ?_ ?_ ?_ ?_ (fun q hq => (ho5 q hq).trans (ho3 q hq)) ?_ ?_
      · rw [hE]; rfl
      · rw [hE]
      · rw [hE]
      · rw [hE]; exact hselend
      · rw [hE]; exact hl.trans hl3
      · rw [hp5]; rfl
      · rw [hp5]
        have hop : (s.port p).op = 1 := hg2.1.op
        refine ⟨rfl, ⟨fun hc => absurd rfl hc, fun _ _ => ⟨rfl, ?_⟩, fun _ hc => ?_, fun hc => ?_, fun hc => ?_,
          fun hc => absurd hop hc⟩⟩
        · have := hrd hph
          obtain ⟨i, hpart, -⟩ := hg2.1.facts h.cfgWf
          rw [hlast, List.take_length, holdList_read hpart hph, wireOf_readFrame_reads] at this
          simp only [Nat.add_sub_cancel] at this
          exact this
        · simp only [hop] at hc; cases hc
        · simp only [hop] at hc; cases hc
        · simp only [hop] at hc; cases hc
  · -- the hold goes on
    rename_i hlast
    rw [setPort_setPort]
    set s3 := s1.setPort p (fun c => { c with rdata := c.rdata ++ rd, ev := c.ev + 1 }) with hs3
    have h3 : s3.port p = { s.port p with rdata := (s.port p).rdata ++ rd, ev := (s.port p).ev + 1 } := hport _
    have hhl : (s3.port p).holdList s3.cfg = (s.port p).holdList s.cfg := by
      rw [h3]; exact holdList_congr rfl rfl rfl rfl rfl rfl
    refine Inv.of_hold h ho rfl rfl rfl (by rw [hs3, length_setPort]) (fun q hq => hoth _ q hq) ?_ ?_ ?_ ?_
    · rw [h3]
    · rw [hhl, h3]; simp only; omega
    · unfold selMatches; rw [hhl, h3]; exact hsel'
    · rw [h3]
      obtain ⟨hb, hg2⟩ := hgood
      refine ⟨hb, ?_⟩
      have hcfg : s3.cfg = s.cfg := rfl
      rw [hcfg]
      cases hph : (s.port p).phase <;> rw [hph] at hh hg2 <;> simp [holdState] at hh <;> simp only [hph]
      · exact ⟨⟨hg2.1.op, hg2.1.valid, hg2.1.part, hg2.1.buf⟩, hg2.2⟩
      · exact ⟨⟨hg2.1.op, hg2.1.valid, hg2.1.part, hg2.1.buf⟩, hg2.2⟩
      · refine ⟨⟨hg2.1.op, hg2.1.valid, hg2.1.part⟩, ?_⟩
        have hcg : ∀ d : Ctx, d.part = (s.port p).part → d.phase = (s.port p).phase → d.k = (s.port p).k →
            d.addr = (s.port p).addr → d.buf = (s.port p).buf → d.len = (s.port p).len →
            d.holdList s.cfg = (s.port p).holdList s.cfg := fun d => holdList_congr
        have hcg' := hcg { s.port p with rdata := (s.port p).rdata ++ rd, ev := (s.port p).ev + 1 } rfl rfl rfl rfl rfl rfl
        have hr' := hrd hph
        rw [← hcg'] at hr'
        simp only [hph] at hr'
        exact hr'

/-- Events one after another keep the invariant, as long as they are the next of the hold's list. -/
theorem runEvents_inv {p : Nat} {l : List Event} : ∀ {es : List Event} {s t : State}, s.Inv →
    (s.owner = some (.port p) → (s.port p).holdList s.cfg = l ∧ ∃ rest, l.drop (s.port p).ev = es ++ rest) →
    runEvents p l.length es s = .next t → t.Inv := by
  intro es
  induction es with
  | nil => intro s t h _ ht; cases ht; exact h
  | cons e es ih =>
    intro s t h hl ht
    simp only [runEvents] at ht
    split at ht
    swap
    · cases ht; exact h
    · rename_i ho
      obtain ⟨hl1, rest, hr⟩ := hl ho
      obtain ⟨s1, h1, h2⟩ := andThen_eq_next.1 ht
      have he : ((s.port p).holdList s.cfg)[(s.port p).ev]? = some e := by
        rw [hl1]
        have := congrArg (fun x => x[0]?) hr
        simpa using this
      obtain ⟨hp, hh, -, -⟩ := h.hold p ho
      rw [← hl1] at h1
      refine ih (event_inv h ho he h1) ?_ h2
      intro ho1
      obtain ⟨r, draws, chip, ix, rd, -, -, -, rfl⟩ := event_goes_on hp (by rw [hh]; rfl) h1 ho1
      have hport : ({ s.setPort p (fun c => { c with rdata := c.rdata ++ rd, ev := c.ev + 1 }) with
            sel := selAfter e s.sel
            env := { s.env with draws := draws, chip := chip }
            freeIx := ix
            trace := s.trace ++ [⟨.port p, s.holdNo, e, r⟩] } : State).port p
          = { s.port p with rdata := (s.port p).rdata ++ rd, ev := (s.port p).ev + 1 } := port_setPort_self hp _
      rw [hport]
      refine ⟨?_, rest, ?_⟩
      · rw [← hl1]; exact holdList_congr rfl rfl rfl rfl rfl rfl
      · simp only
        have := congrArg List.tail hr
        simpa [List.tail_drop] using this

theorem runFrame_inv {s t : State} {p : Nat} {frame rest : List Event} (h : s.Inv)
    (hl : s.owner = some (.port p) → ((s.port p).holdList s.cfg).drop (s.port p).ev = frame ++ rest)
    (ht : runFrame p frame s = .next t) : t.Inv :=
  runEvents_inv h (fun ho => ⟨rfl, rest, hl ho⟩) ht

theorem runHold_inv {s t : State} {p : Nat} (h : s.Inv) (hev : s.owner = some (.port p) → (s.port p).ev = 0)
    (ht : runHold p s = .next t) : t.Inv :=
  runFrame_inv (rest := []) h (fun ho => by rw [hev ho]; simp) ht

theorem runHolds_inv {p : Nat} : ∀ {n : Nat} {s t : State}, s.Inv → runHolds p n s = .next t → t.Inv := by
  intro n
  induction n with
  | zero => intro s t h ht; cases ht; exact h
  | succ n ih =>
    intro s t h ht
    simp only [runHolds] at ht
    split at ht
    swap
    · cases ht; exact h
    · rename_i hc
      obtain ⟨s1, h1, h2⟩ := andThen_eq_next.1 ht
      simp only [State.canAcquire, Bool.and_eq_true, decide_eq_true_eq] at hc
      obtain ⟨⟨busy, phase⟩, hb⟩ := Option.isSome_iff_exists.1 hc.1
      have hi := Inv.of_acquire h hc.2 hb
      have hp : p < s.ctx.length := by
        by_contra hn
        rw [port_absent (Nat.le_of_not_lt hn)] at hb; cases hb
      refine ih (runHold_inv hi ?_ h1) h2
      intro _
      rw [acquire_ready hc.2 hb]
      have : ({ s.setPort p (fun c => { c with ev := 0, phase := phase }) with
          fstate := busy, owner := some (.port p), holdNo := s.holdNo + 1 } : State).port p
          = { s.port p with ev := 0, phase := phase } := port_setPort_self hp _
      rw [this]

/-- A finished command in a port that was not in a hold (R38). -/
theorem finish_inv {s : State} {p : Nat} {code : ResultCode} {count : Word} (h : s.Inv)
    (hs : holdState (s.port p).phase = none)
    (hrec : ∀ buf, Ctx.Record { s.port p with
        buf := buf
        bufHeld := false
        result := code
        count := count
        rdata := if code ≠ .ok ∨ (s.port p).op ≠ opRead then [] else (s.port p).rdata
        phase := .pDone }) : (s.finish p code count).Inv := by
  by_cases hp : p < s.ctx.length
  · obtain ⟨buf, hb⟩ := finish_port hp code count
    refine Inv.of_nonhold h (by simp) (by simp) (by simp) (by simp) (by simp) (by simp)
      (fun q hq => finish_port_of_ne hq _ _) hs ?_ ?_
    · rw [hb]; rfl
    · rw [hb]; exact ⟨rfl, hrec buf⟩
  · have h0 : s.port p = Ctx.reset := port_absent (Nat.le_of_not_lt hp)
    have h1 : (s.finish p code count).port p = Ctx.reset := port_absent (by simpa using Nat.le_of_not_lt hp)
    refine Inv.of_nonhold h (by simp) (by simp) (by simp) (by simp) (by simp) (by simp)
      (fun q hq => finish_port_of_ne hq _ _) hs ?_ ?_
    · rw [h1]; rfl
    · rw [h1]; exact ⟨rfl, trivial⟩

theorem record_failed {c : Ctx} {code : ResultCode} {buf : List Byte} (hc : code ≠ .ok) (hop : c.op = 1 ∨ c.op = 2) :
    Ctx.Record { c with
        buf := buf, bufHeld := false, result := code, count := 0
        rdata := if code ≠ .ok ∨ c.op ≠ opRead then [] else c.rdata
        phase := .pDone } := by
  refine ⟨fun _ => ⟨rfl, by simp [hc]⟩, fun e => absurd e hc, fun e => absurd e hc, ?_, ?_, ?_⟩
  · intro e; simp only at e; rcases hop with h | h <;> rw [h] at e <;> simp at e
  · intro e; simp only at e; rcases hop with h | h <;> rw [h] at e <;> simp at e
  · intro a b; simp only at a b; rcases hop with h | h
    · exact absurd h a
    · exact absurd h b

theorem record_reserved {c : Ctx} {buf : List Byte} (h3 : c.op ≠ 3) (h4 : c.op ≠ 4) :
    Ctx.Record { c with
        buf := buf, bufHeld := false, result := .invalidArgument, count := 0
        rdata := if ResultCode.invalidArgument ≠ .ok ∨ c.op ≠ opRead then [] else c.rdata
        phase := .pDone } := by
  refine ⟨fun _ => ⟨rfl, by simp⟩, fun e => (by simp at e), fun e => (by simp at e), fun e => absurd e h3,
    fun e => absurd e h4, fun _ _ _ _ => rfl⟩

theorem decodeRead_inv {s : State} {p : Nat} {addr len : Word} (h : s.Inv) (hph : (s.port p).phase = .pSubmitted)
    (hop : (s.port p).op = 1) (ha : (s.port p).addr = addr) (hl : (s.port p).len = len) :
    (decodeRead p addr len s).Inv := by
  have hs : holdState (s.port p).phase = none := by rw [hph]; rfl
  have hp : p < s.ctx.length := by
    by_contra hn
    rw [port_absent (Nat.le_of_not_lt hn)] at hph; cases hph
  unfold decodeRead
  split
  · rename_i hv
    refine Inv.of_nonhold h rfl rfl rfl rfl rfl (length_setPort _ _ _) (fun q hq => port_setPort_of_ne hq _) hs ?_ ?_
    · rw [port_setPort_self hp]; rfl
    · rw [port_setPort_self hp]
      have hb := (h.good p).1
      rw [hph] at hb
      exact ⟨hb, ⟨hop, by rw [← hv]; show validateRead s.cfg (s.port p).addr (s.port p).len = _; rw [ha, hl],
        by show owner _ _ = owner s.cfg (s.port p).addr.toNat; rw [ha]⟩, rfl⟩
  all_goals exact finish_inv h hs (fun buf => record_failed (by decide) (.inl hop))

theorem Inv.of_env {s t : State} (h : s.Inv) {allocs : List Bool} {ix : Nat}
    (ht : t = { s with env := { s.env with allocs := allocs }, freeIx := ix }) : t.Inv := by
  subst ht
  exact ⟨h.cfgWf, h.ports, h.unknownInit, h.readyNone, h.readySel, h.initPos, h.hold, h.inHold, h.good⟩

theorem decodeWrite_inv {s t : State} {p : Nat} {addr len : Word} {payload : List Byte} (h : s.Inv)
    (hph : (s.port p).phase = .pSubmitted)
    (hop : (s.port p).op = 2) (ha : (s.port p).addr = addr) (hl : (s.port p).len = len)
    (ht : decodeWrite p addr len payload s = .next t) : t.Inv := by
  have hs : holdState (s.port p).phase = none := by rw [hph]; rfl
  have hp : p < s.ctx.length := by
    by_contra hn
    rw [port_absent (Nat.le_of_not_lt hn)] at hph; cases hph
  unfold decodeWrite at ht
  split at ht
  · rename_i hv
    unfold allocate at ht
    obtain ⟨allocs, ix, hd⟩ := drawAlloc_cases s
    split at ht
    · rename_i s1 heq
      rw [heq] at hd
      have h1 := Inv.of_env h hd
      simp only at hd
      subst hd
      cases ht
      exact finish_inv h1 hs (fun buf => record_failed (by decide) (.inr hop))
    · rename_i s1 heq
      rw [heq] at hd
      have h1 := Inv.of_env h hd
      simp only at hd
      split at ht
      · cases ht
      · rename_i hlen
        cases ht
        have hpp : s1.port p = s.port p := by subst hd; rfl
        have hp1 : p < s1.ctx.length := by subst hd; exact hp
        have hc1 : s1.cfg = s.cfg := by subst hd; rfl
        have hport : (copyIn p addr len payload s1).port p = { s1.port p with
            buf := payload.take len.toInt.toNat
            bufHeld := true
            part := owner s1.cfg addr.toNat
            k := 0
            phase := .pWaitErase } := port_setPort_self hp1 _
        refine Inv.of_nonhold h1 rfl rfl rfl rfl rfl (length_setPort _ _ _) (fun q hq => port_setPort_of_ne hq _)
          (by rw [hpp]; exact hs) ?_ ?_
        · rw [hport]; rfl
        · rw [hport, hpp]
          have hw : Ctx.Writes s1.cfg { s.port p with
              buf := payload.take len.toInt.toNat, bufHeld := true, part := owner s1.cfg addr.toNat, k := 0
              phase := .pWaitErase } := by
            refine ⟨hop, ?_, ?_, ?_⟩
            · rw [hc1]; show validateWrite s.cfg (s.port p).addr (s.port p).len = _; rw [ha, hl]; exact hv
            · show owner _ _ = owner s1.cfg (s.port p).addr.toNat; rw [ha]
            · show (payload.take len.toInt.toNat).length = (s.port p).len.toInt.toNat
              rw [hl, List.length_take]; omega
          exact ⟨rfl, hw, eraseUnits_pos h1.cfgWf hw⟩
  all_goals
    cases ht
    exact finish_inv h hs (fun buf => record_failed (by decide) (.inr hop))

theorem readCounter_inv {s : State} {p : Nat} (h : s.Inv) (hph : (s.port p).phase = .pSubmitted)
    (hop : (s.port p).op = 3) : (readCounter p s).Inv := by
  refine finish_inv h (by rw [hph]; rfl) (fun buf => ?_)
  have hne : (s.port p).op ≠ opRead := by rw [hop]; decide
  refine ⟨fun e => absurd rfl e, fun _ e => ?_, fun _ e => ?_, fun _ => ⟨rfl, by simp [hne]⟩, fun e => ?_,
    fun _ _ e _ => absurd hop e⟩
  all_goals (simp only [hop] at e; cases e)

theorem clearCounter_inv {s : State} {p : Nat} (h : s.Inv) (hph : (s.port p).phase = .pSubmitted)
    (hop : (s.port p).op = 4) : (clearCounter p s).Inv := by
  have h1 : ({ s with xferCount := 0 } : State).Inv :=
    ⟨h.cfgWf, h.ports, h.unknownInit, h.readyNone, h.readySel, h.initPos, h.hold, h.inHold, h.good⟩
  refine finish_inv h1 (by show holdState (s.port p).phase = _; rw [hph]; rfl) (fun buf => ?_)
  have hne : (s.port p).op ≠ opRead := by rw [hop]; decide
  refine ⟨fun e => absurd rfl e, fun _ e => ?_, fun _ e => ?_, fun e => ?_, fun _ => ⟨rfl, rfl, ?_⟩,
    fun _ _ _ e => absurd hop e⟩
  · have e' : (s.port p).op = 1 := e
    rw [hop] at e'; cases e'
  · have e' : (s.port p).op = 2 := e
    rw [hop] at e'; cases e'
  · have e' : (s.port p).op = 3 := e
    rw [hop] at e'; cases e'
  · have : ({ s with xferCount := 0 } : State).port p = s.port p := rfl
    simp only [this]; simp [hne]

theorem decodeStep_inv {s t : State} {p : Nat} (h : s.Inv) (ht : decodeStep p s = .next t) : t.Inv := by
  unfold decodeStep at ht
  split at ht
  swap
  · cases ht; exact h
  · rename_i hph
    have hs : holdState (s.port p).phase = none := by rw [hph]; rfl
    rcases decodeDescriptor_cases (s.port p).op (s.port p).addr (s.port p).len (s.port p).payload with
      ⟨e, hd⟩ | ⟨e, hd⟩ | ⟨e, hd⟩ | ⟨e, hd⟩ | ⟨e, hd⟩ <;> rw [hd] at ht <;> simp only at ht
    · cases ht; exact decodeRead_inv h hph e rfl rfl
    · exact decodeWrite_inv h hph e rfl rfl ht
    · cases ht; exact readCounter_inv h hph e
    · cases ht; exact clearCounter_inv h hph e
    · cases ht; exact finish_inv h hs (fun buf => record_reserved e.2.2.1 e.2.2.2)

theorem Inv.of_init {s t : State} (h : s.Inv) (ho : s.owner = some .init)
    (hcfg : t.cfg = s.cfg) (hctx : t.ctx = s.ctx)
    (ht : (t.fstate = .ready ∧ t.owner = none ∧ t.sel = false) ∨
      (t.fstate = s.fstate ∧ t.owner = s.owner ∧ t.initEv < (identFrame t.cfg).length ∧
        selMatches t (identFrame t.cfg) t.initEv)) : t.Inv := by
  have hport : ∀ q, t.port q = s.port q := fun q => port_of_ctx hctx q
  have hno : ∀ q, holdState (s.port q).phase = none := by
    intro q
    by_contra hn
    have := h.inHold q (Option.isSome_iff_ne_none.2 hn)
    rw [ho] at this; cases this
  have hu := h.unknownInit.2 ho
  rcases ht with ⟨a, b, c⟩ | ⟨a, b, c, d⟩
  · refine ⟨hcfg ▸ h.cfgWf, by rw [hctx, hcfg]; exact h.ports, by rw [a, b]; simp, by rw [a, b]; simp,
      fun _ => c, fun e => (by rw [b] at e; cases e), fun q e => (by rw [b] at e; cases e), fun q e => ?_,
      fun q => by rw [hport, hcfg]; exact h.good q⟩
    rw [hport, hno] at e; cases e
  · refine ⟨hcfg ▸ h.cfgWf, by rw [hctx, hcfg]; exact h.ports, by rw [a, b]; exact h.unknownInit,
      by rw [a, b]; exact h.readyNone, fun e => ?_, fun _ => ⟨c, d⟩, fun q e => ?_, fun q e => ?_,
      fun q => by rw [hport, hcfg]; exact h.good q⟩
    · rw [a, hu] at e; cases e
    · rw [b, ho] at e; cases e
    · rw [hport, hno] at e; cases e

theorem initStep_inv {e : Event} {s t : State} (h : s.Inv) (ho : s.owner = some .init)
    (he : (identFrame s.cfg)[s.initEv]? = some e) (ht : initStep e s = .next t) : t.Inv := by
  obtain ⟨hlt, hsel⟩ := h.initPos ho
  rcases initStep_cases ht with ⟨r, s1, htr, hr, rfl⟩ | ⟨s1, htr, hf⟩
  · obtain ⟨draws, chip, ix, rfl, -⟩ := transport_cases htr
    obtain ⟨acc, ha⟩ := initDeliver_eq { s with
            sel := selAfter e s.sel
            env := { s.env with draws := draws, chip := chip }
            freeIx := ix
            trace := s.trace ++ [⟨.init, s.holdNo, e, r⟩] } r
    rw [ha]
    have hsel' : selAfter e s.sel = (wireOf ((identFrame s.cfg).take (s.initEv + 1))).sel := by
      rw [wireOf_take_succ he, wire_after_sel]
      unfold selMatches at hsel
      cases e <;> simp [selAfter, hsel]
    unfold initAdvance
    simp only
    split
    · rename_i hlast
      refine Inv.of_init h ho rfl rfl (.inl ⟨rfl, rfl, ?_⟩)
      show selAfter e s.sel = false
      rw [hsel', hlast, List.take_length]; rfl
    · rename_i hlast
      refine Inv.of_init h ho rfl rfl (.inr ⟨rfl, rfl, ?_, ?_⟩)
      · show s.initEv + 1 < (identFrame s.cfg).length
        omega
      · exact hsel'
  · obtain ⟨draws, chip, ix, rfl, -⟩ := transport_cases htr
    unfold initFail at hf
    split at hf
    · cases hf
    · rename_i s2 hd
      cases hf
      rcases deselIfSelected_cases hd with ⟨a, rfl⟩ | ⟨a, b⟩
      · exact Inv.of_init h ho rfl rfl (.inl ⟨rfl, rfl, a⟩)
      · obtain ⟨_, _, _, rfl, _⟩ := transport_cases b
        exact Inv.of_init h ho rfl rfl (.inl ⟨rfl, rfl, rfl⟩)

theorem runInit_inv : ∀ {es : List Event} {s t : State}, s.Inv →
    (s.owner = some .init → ∃ rest, (identFrame s.cfg).drop s.initEv = es ++ rest) →
    runInit es s = .next t → t.Inv := by
  intro es
  induction es with
  | nil => intro s t h _ ht; cases ht; exact h
  | cons e es ih =>
    intro s t h hl ht
    simp only [runInit] at ht
    split at ht
    swap
    · cases ht; exact h
    · rename_i ho
      obtain ⟨rest, hr⟩ := hl ho
      obtain ⟨s1, h1, h2⟩ := andThen_eq_next.1 ht
      have he : (identFrame s.cfg)[s.initEv]? = some e := by
        have := congrArg (fun x => x[0]?) hr
        simpa using this
      refine ih (initStep_inv h ho he h1) ?_ h2
      intro ho1
      rcases initStep_owner h1 with h0 | ⟨_, hc, hi⟩
      · rw [h0] at ho1; cases ho1
      · refine ⟨rest, ?_⟩
        rw [hc, hi]
        have := congrArg List.tail hr
        simpa [List.tail_drop] using this

theorem submit_inv {s : State} {p : Nat} {w0 w1 w2 : Word} {pl : List Byte} (h : s.Inv) :
    (s.submit p w0 w1 w2 pl).Inv := by
  unfold State.submit
  split
  swap
  · exact h
  · rename_i hph
    by_cases hp : p < s.ctx.length
    · refine Inv.of_nonhold (p := p) h rfl rfl rfl rfl rfl (length_setPort _ _ _)
        (fun q hq => port_setPort_of_ne hq _) (by rw [hph]; rfl) ?_ ?_
      · rw [port_setPort_self hp]; rfl
      · rw [port_setPort_self hp]
        have := (h.good p).1
        rw [hph] at this
        exact ⟨this, rfl⟩
    · rw [setPort_absent (Nat.le_of_not_lt hp)]; exact h

theorem collect_inv {s : State} {p : Nat} (h : s.Inv) : (s.collect p).Inv := by
  unfold State.collect
  split
  swap
  · exact h
  · rename_i hph
    have hp : p < s.ctx.length := by
      by_contra hn
      rw [port_absent (Nat.le_of_not_lt hn)] at hph; cases hph
    have hport : ∀ l, ({ s.setPort p (fun c => { c with phase := .pIdle }) with host := l } : State).port p =
      { s.port p with phase := .pIdle } := fun l => port_setPort_self hp _
    refine Inv.of_nonhold (p := p) h rfl rfl rfl rfl rfl (length_setPort _ _ _)
      (fun q hq => port_setPort_of_ne hq _) (by rw [hph]; rfl) ?_ ?_
    · rw [hport]; rfl
    · rw [hport]
      have := (h.good p).1
      rw [hph] at this
      exact ⟨this, trivial⟩

theorem acquire_inv {s : State} {p : Nat} (h : s.Inv) : (s.acquire p).Inv := by
  rcases acquire_cases s p with e | ⟨busy, phase, hr, hb, -⟩
  · rw [e]; exact h
  · exact Inv.of_acquire h hr hb

theorem initEvent_inv {s t : State} (h : s.Inv) (ht : initEvent s = .next t) : t.Inv := by
  unfold initEvent at ht
  split at ht
  · rename_i hi
    simp only [State.initEnabled, decide_eq_true_eq] at hi
    split at ht
    · exact initStep_inv h hi.2 ‹_› ht
    · cases ht; exact h
  · cases ht; exact h

theorem portEvent_inv {s t : State} {p : Nat} (h : s.Inv) (ht : portEvent p s = .next t) : t.Inv := by
  unfold portEvent State.nextEvent at ht
  split at ht
  · rename_i e he
    split at he
    · rename_i hh
      simp only [State.holds, Bool.and_eq_true, decide_eq_true_eq] at hh
      exact event_inv h hh.1 he ht
    · cases he
  · cases ht; exact h

theorem agentStep_inv {s t : State} {a : Agent} (h : s.Inv) (ht : agentStep a s = .next t) : t.Inv := by
  unfold agentStep at ht
  split at ht
  · exact initEvent_inv h ht
  · split at ht
    · exact decodeStep_inv h ht
    · cases ht; exact acquire_inv h
    · cases ht; exact acquire_inv h
    · cases ht; exact acquire_inv h
    · exact portEvent_inv h ht
    · exact portEvent_inv h ht
    · exact portEvent_inv h ht
    · cases ht; exact h
    · cases ht; exact h

theorem takeTurn_inv {s t : State} {u : Turn} (h : s.Inv) (ht : takeTurn u s = .next t) : t.Inv := by
  unfold takeTurn at ht
  split at ht
  · cases ht; exact submit_inv h
  · cases ht; exact collect_inv h
  · exact initEvent_inv h ht
  · exact decodeStep_inv h ht
  · cases ht; exact acquire_inv h
  · exact portEvent_inv h ht
  · exact agentStep_inv h ht

theorem exec_inv {s t : State} {i : Instr} (h : s.Inv) (ht : exec i s = .next t) : t.Inv := by
  have hframe : ∀ (m : Nat → Result) (i : Instr), (∀ p, m p = runFrame p (frameOf s.cfg (s.port p).lenNat i) s) →
      (∀ p, s.fetchPort p = some i → (s.port p).phase ≠ .pSubmitted) →
      whenAt i s m = .next t → t.Inv := by
    intro m i hm hns ht
    rcases whenAt_cases (i := i) (s := s) (m := m) with ⟨p, hp, hf, e⟩ | e
    · rw [e, hm] at ht
      obtain ⟨rest, hr⟩ := fetched_frame hf (hns p hf)
      exact runFrame_inv h (fun _ => hr) ht
    · rw [e] at ht; cases ht; exact h
  have hcmd : ∀ p i, s.fetchPort p = some i → (s.port p).phase = .pSubmitted →
      decodeDescriptor (s.port p).op (s.port p).addr (s.port p).len (s.port p).payload = .ok i := by
    intro p i hf hph
    rcases fetchPort_cases hf with ⟨-, hd⟩ | ⟨-, hc⟩
    · exact hd
    · rcases hc with ⟨hph', -⟩ | ⟨hph', -⟩ | ⟨hph', -⟩ <;> rw [hph] at hph' <;> cases hph'
  have hns : ∀ p i, s.fetchPort p = some i → (∀ a l, i ≠ .read a l) → (∀ a l d, i ≠ .write a l d) → i ≠ .status →
      i ≠ .resetStatus → (s.port p).phase ≠ .pSubmitted := by
    intro p i hf h1 h2 h3 h4 hph
    have hd := hcmd p i hf hph
    rcases decodeDescriptor_cases (s.port p).op (s.port p).addr (s.port p).len (s.port p).payload with
      ⟨e, hd'⟩ | ⟨e, hd'⟩ | ⟨e, hd'⟩ | ⟨e, hd'⟩ | ⟨e, hd'⟩ <;> rw [hd'] at hd <;> cases hd
    · exact h1 _ _ rfl
    · exact h2 _ _ _ rfl
    · exact h3 rfl
    · exact h4 rfl
  have hsub : ∀ p i, s.fetchPort p = some i → ((∃ a l, i = .read a l) ∨ (∃ a l d, i = .write a l d) ∨ i = .status ∨
      i = .resetStatus) → (s.port p).phase = .pSubmitted := by
    intro p i hf hi
    rcases fetchPort_cases hf with ⟨hph, -⟩ | ⟨-, hc⟩
    · exact hph
    · exfalso
      rcases hc with ⟨-, -, rfl⟩ | ⟨-, o, rfl, -⟩ | ⟨-, -, ⟨-, rfl⟩ | ⟨-, rfl⟩⟩ <;> simp at hi
  cases i with
  | read addr len =>
    simp only [exec, execRead] at ht
    rcases whenAt_cases (i := .read addr len) (s := s)
      (m := fun p => runHolds p 1 (decodeRead p addr len s)) with ⟨p, hp, hf, e⟩ | e
    · rw [e] at ht
      have hph := hsub p _ hf (.inl ⟨_, _, rfl⟩)
      obtain ⟨e1, e2, e3⟩ := decodeDescriptor_read (hcmd p _ hf hph)
      exact runHolds_inv (decodeRead_inv h hph e1 e2.symm e3.symm) ht
    · rw [e] at ht; cases ht; exact h
  | write addr len payload =>
    simp only [exec, execWrite] at ht
    rcases whenAt_cases (i := .write addr len payload) (s := s)
      (m := fun p => andThen (decodeWrite p addr len payload s)
        (fun s1 => runHolds p ((s1.port p).eraseUnits s1.cfg + 1) s1)) with ⟨p, hp, hf, e⟩ | e
    · rw [e] at ht
      have hph := hsub p _ hf (.inr (.inl ⟨_, _, _, rfl⟩))
      obtain ⟨e1, e2, e3, e4⟩ := decodeDescriptor_write (hcmd p _ hf hph)
      obtain ⟨s1, h1, h2⟩ := andThen_eq_next.1 ht
      exact runHolds_inv (decodeWrite_inv h hph e1 e2.symm e3.symm h1) h2
    · rw [e] at ht; cases ht; exact h
  | status =>
    simp only [exec, execStatus] at ht
    rcases whenAt_cases (i := .status) (s := s) (m := fun p => .next (readCounter p s)) with ⟨p, hp, hf, e⟩ | e
    · rw [e] at ht; cases ht
      have hph := hsub p _ hf (.inr (.inr (.inl rfl)))
      exact readCounter_inv h hph (decodeDescriptor_status (hcmd p _ hf hph))
    · rw [e] at ht; cases ht; exact h
  | resetStatus =>
    simp only [exec, execResetStatus] at ht
    rcases whenAt_cases (i := .resetStatus) (s := s) (m := fun p => .next (clearCounter p s)) with ⟨p, hp, hf, e⟩ | e
    · rw [e] at ht; cases ht
      have hph := hsub p _ hf (.inr (.inr (.inr rfl)))
      exact clearCounter_inv h hph (decodeDescriptor_resetStatus (hcmd p _ hf hph))
    · rw [e] at ht; cases ht; exact h
  | ident =>
    simp only [exec, execIdent] at ht
    split at ht
    · rename_i hf
      refine runInit_inv h (fun ho => ⟨[], ?_⟩) ht
      unfold State.fetch at hf
      split at hf
      · split at hf
        · rename_i hc
          simp only [Bool.and_eq_true, beq_iff_eq] at hc
          rw [hc.2]; simp
        · cases hf
      · rename_i p hp
        have hph := hns p _ hf (by simp) (by simp) (by simp) (by simp)
        rcases fetchPort_cases hf with ⟨hs, -⟩ | ⟨-, hc⟩
        · exact absurd hs hph
        · rcases hc with ⟨-, -, e⟩ | ⟨-, o, e, -⟩ | ⟨-, -, ⟨-, e⟩ | ⟨-, e⟩⟩ <;> cases e
    · cases ht; exact h
  | erase g a =>
    exact hframe _ (.erase g a) (fun p => rfl) (fun p hf => hns p _ hf (by simp) (by simp) (by simp) (by simp)) ht
  | program a d =>
    exact hframe _ (.program a d) (fun p => rfl) (fun p hf => hns p _ hf (by simp) (by simp) (by simp) (by simp)) ht
  | fastRead a =>
    exact hframe _ (.fastRead a) (fun p => rfl) (fun p hf => hns p _ hf (by simp) (by simp) (by simp) (by simp)) ht
  | readSlow a =>
    exact hframe _ (.readSlow a) (fun p => rfl) (fun p hf => hns p _ hf (by simp) (by simp) (by simp) (by simp)) ht

theorem Inv.of_model {s : State} (h : s.Inv) (sched : List Turn) (active : Agent) (ix : Nat) :
    ({ s with sched := sched, active := active, freeIx := ix } : State).Inv :=
  ⟨h.cfgWf, h.ports, h.unknownInit, h.readyNone, h.readySel, h.initPos, h.hold, h.inHold, h.good⟩

end Sys2Proof.Machine
end

