-- ==== Sys2Proof/Laws/Encoding.lean ====
section
/-! SUPPORT. The byte-order helpers and the erase opcode: what each gives, and that the two address helpers invert each
other. -/

namespace Sys2Proof

theorem addrOfBytes_toNat (a b c : Byte) :
    (addrOfBytes a b c).toNat = a.toNat * 65536 + b.toNat * 256 + c.toNat := by
  have := a.isLt
  have := b.isLt
  have := c.isLt
  simp only [addrOfBytes, BitVec.toNat_append]
  rw [← Nat.shiftLeft_add_eq_or_of_lt (by omega), Nat.shiftLeft_eq, ← Nat.shiftLeft_add_eq_or_of_lt (by omega),
    Nat.shiftLeft_eq]
  omega

/-- The three bytes of an address, put together again. -/
theorem addrOfBytes_extract (a : Addr24) :
    addrOfBytes (a.extractLsb' 16 8) (a.extractLsb' 8 8) (a.extractLsb' 0 8) = a := by
  apply BitVec.eq_of_toNat_eq
  have := a.isLt
  rw [addrOfBytes_toNat]
  simp only [BitVec.extractLsb'_toNat, Nat.shiftRight_eq_div_pow]
  omega

/-- An address put together from three bytes has those bytes. -/
theorem addrBytes_addrOfBytes (a b c : Byte) : addrBytes (addrOfBytes a b c) = [a, b, c] := by
  have := a.isLt
  have := b.isLt
  have := c.isLt
  have h : ∀ k (x : Byte), (addrOfBytes a b c).toNat / 2 ^ k % 2 ^ 8 = x.toNat →
      (addrOfBytes a b c).extractLsb' k 8 = x := by
    intro k x hx
    apply BitVec.eq_of_toNat_eq
    rw [BitVec.extractLsb'_toNat, Nat.shiftRight_eq_div_pow, hx]
  unfold addrBytes
  rw [h 16 a (by rw [addrOfBytes_toNat]; omega), h 8 b (by rw [addrOfBytes_toNat]; omega),
    h 0 c (by rw [addrOfBytes_toNat]; omega)]

theorem mem_grans (c : Config) (i : Fin 3) : (c.pt.get i).gran ∈ c.grans := by
  match i with
  | 0 => simp [Config.grans, PartTable.get]
  | 1 => simp [Config.grans, PartTable.get]
  | 2 => simp [Config.grans, PartTable.get]

/-- The granularity an erase opcode stands for is the one it was chosen for. -/
theorem eraseGran_opcErase {c : Config} (hc : c.opcodesDistinct) {g : Nat} (hg : g ∈ c.grans) :
    eraseGran c (c.opcEraseOf g) = some g := by
  unfold eraseGran
  cases hf : c.grans.find? (fun h => c.opcEraseOf h = c.opcEraseOf g) with
  | none => have := List.find?_eq_none.1 hf g hg; simp at this
  | some h =>
    have e1 := List.find?_some hf
    simp only [decide_eq_true_eq] at e1
    rw [hc.2.2 h (List.mem_of_find?_eq_some hf) g hg e1]

/-- What an opcode's granularity says about the opcode. -/
theorem eraseGran_some {c : Config} {op : Byte} {g : Nat} (h : eraseGran c op = some g) :
    g ∈ c.grans ∧ c.opcEraseOf g = op := by
  unfold eraseGran at h
  exact ⟨List.mem_of_find?_eq_some h, by simpa using List.find?_some h⟩

/-- No opcode of another frame is an erase opcode. -/
theorem eraseGran_other {c : Config} (hc : c.opcodesDistinct) {op : Byte}
    (h : op ∈ [c.opcIdent, c.opcProgram, c.opcFastRead, c.opcReadSlow]) : eraseGran c op = none := by
  cases hf : eraseGran c op with
  | none => rfl
  | some g =>
    obtain ⟨hg, e⟩ := eraseGran_some hf
    exact absurd (e ▸ h) (hc.2.1 g hg)

theorem opcodesDistinct_read {c : Config} (hc : c.opcodesDistinct) : c.opcReadSlow ≠ c.opcFastRead := by
  have h := hc.1
  simp only [List.nodup_cons, List.mem_cons, not_or] at h
  exact fun e => h.2.2.1.1 e.symm

theorem opcodesDistinct_erase {c : Config} (hc : c.opcodesDistinct) {g : Nat} (hg : g ∈ c.grans) :
    c.opcEraseOf g ≠ c.opcIdent ∧ c.opcEraseOf g ≠ c.opcProgram ∧ c.opcEraseOf g ≠ c.opcFastRead ∧
      c.opcEraseOf g ≠ c.opcReadSlow := by
  have h := hc.2.1 g hg
  simpa only [List.mem_cons, not_or, List.not_mem_nil, not_false_eq_true, and_true] using h

end Sys2Proof
end

