-- ==== Sys2Proof/Laws/Runs.lean ====
section
/-! SUPPORT. Runs of events in which no answer is a timeout: what the reference chip makes of an event list, that one
event, a list of events and a whole hold then complete, and what they leave. -/

namespace Sys2Proof.Machine

/-! ## The chip -/

/-- The reference chip after one event that was answered (R70); none where it would touch a byte that does not exist. -/
def chipStep (cfg : Config) (e : Event) (c : Chip) : Option Chip :=
  match e with
  | .sel => some c.sel
  | .desel => c.desel cfg
  | .wb b => some (c.accept b)
  | .rb =>
    match c.answer cfg with
    | .absent => none
    | .byte _ => some c.countRead
    | .anyByte => some c.countRead
  | .wi _ => some c

/-- The reference chip after a list of events. -/
def chipRun (cfg : Config) : List Event → Chip → Option Chip
  | [], c => some c
  | e :: es, c => (chipStep cfg e c).bind (chipRun cfg es)

theorem chipRun_append (cfg : Config) (l m : List Event) (c : Chip) :
    chipRun cfg (l ++ m) c = (chipRun cfg l c).bind (chipRun cfg m) := by
  induction l generalizing c with
  | nil => rfl
  | cons e l ih =>
    simp only [List.cons_append, chipRun]
    cases chipStep cfg e c with
    | none => rfl
    | some d => exact ih d

/-! ## Answers asked for -/

theorem asked_append (l m : List Event) : asked (l ++ m) = asked l + asked m := by
  simp [asked, List.filter_append]

theorem asked_cons (e : Event) (l : List Event) : asked (e :: l) = asked [e] + asked l := by
  rw [← List.singleton_append, asked_append]

/-- Fewer answers are there where more are. -/
theorem answers_mono {e : Env} {m n : Nat} (h : e.answers n) (hm : m ≤ n) : e.answers m := by
  refine ⟨fun d hd => h.1 d ?_, h.2.imp id (fun h => by omega)⟩
  exact (List.take_subset_take_left _ hm) hd

/-- What is left of the answers after some have been taken. -/
theorem answers_drop {e f : Env} {m n : Nat} (h : e.answers (m + n)) (hk : f.kind = e.kind)
    (hd : f.draws = e.draws.drop m) : f.answers n := by
  refine ⟨fun d hm => h.1 d ?_, h.2.imp (fun h => hk.trans h) (fun h => by rw [hd, List.length_drop]; omega)⟩
  rw [hd] at hm
  rw [List.take_add]
  exact List.mem_append_right _ hm

/-- A draw where an answer is there: no timeout, and the answer is used up. -/
theorem draw_ok {s : State} (h : s.env.answers 1) :
    ∃ d ix, d ≠ .timeout ∧
      s.draw = (d, { s with env := { s.env with draws := s.env.draws.drop 1 }, freeIx := ix }) ∧
      (s.env.draws = [] → d = .normal ∧ ix = s.freeIx) := by
  unfold State.draw
  cases hd : s.env.draws with
  | cons d ds =>
    exact ⟨d, s.freeIx, h.1 d (by rw [hd]; simp), rfl, by simp⟩
  | nil =>
    rcases h.2 with hk | hl
    · refine ⟨.normal, s.freeIx, by simp, ?_, fun _ => ⟨rfl, rfl⟩⟩
      have e : s.env.draws.drop 1 = s.env.draws := by rw [hd]; rfl
      simp only [← hd, e]
      split
      · rfl
      · rename_i h2; rw [hk] at h2; cases h2
    · rw [hd] at hl; simp at hl

/-- What one event that is answered leaves. -/
def eventLeaves (a : Agent) (e : Event) (s : State) (r : Answer) (chip : Chip) (ix : Nat) : State :=
  { s with
    sel := selAfter e s.sel
    env := { s.env with draws := s.env.draws.drop (asked [e]), chip := chip }
    freeIx := ix
    trace := s.trace ++ [⟨a, s.holdNo, e, r⟩] }

/-- Where an answer is there, and the chip touches no byte that does not exist, a call is answered, and no answer is a
timeout (R111 to R117). -/
theorem transport_ok {a : Agent} {e : Event} {s : State} (ha : s.env.answers (asked [e]))
    (hc : s.env.kind = .ref → ∃ c, chipStep s.cfg e s.env.chip = some c) :
    ∃ r chip ix, transport a e s = .ok (r, eventLeaves a e s r chip ix) ∧ r ≠ .timeout ∧
      (s.env.kind = .any → chip = s.env.chip) ∧
      (s.env.kind = .ref → chipStep s.cfg e s.env.chip = some chip) ∧
      (s.env.reference → ∀ b, e = .rb → s.env.chip.answer s.cfg = .byte b → r = .byte b) := by
  cases e with
  | sel =>
    cases hk : s.env.kind with
    | any =>
      exact ⟨.ok, s.env.chip, s.freeIx, by
        simp [transport, selCall, State.logCall, Env.onChip, hk, selAfter, eventLeaves, asked]; rw [← hk],
        by simp, fun _ => rfl, by simp, by simp⟩
    | ref =>
      exact ⟨.ok, s.env.chip.sel, s.freeIx, by
        simp [transport, selCall, State.logCall, Env.onChip, hk, selAfter, eventLeaves, asked], by simp, by simp,
        fun _ => rfl, by simp⟩
  | desel =>
    cases hk : s.env.kind with
    | any =>
      exact ⟨.ok, s.env.chip, s.freeIx, by
        simp [transport, deselCall, Env.desel, State.logCall, hk, selAfter, eventLeaves, asked, Except.map]; rw [← hk],
        by simp, fun _ => rfl, by simp, by simp⟩
    | ref =>
      obtain ⟨d, hd⟩ := hc hk
      have hd' : s.env.chip.desel s.cfg = some d := hd
      exact ⟨.ok, d, s.freeIx, by
        simp [transport, deselCall, Env.desel, State.logCall, hk, hd', selAfter, eventLeaves, asked, Except.map],
        by simp, by simp, fun _ => hd, by simp⟩
  | wb b =>
    obtain ⟨d, ix, hne, hd, -⟩ := draw_ok ha
    cases hk : s.env.kind with
    | any =>
      refine ⟨.ok, s.env.chip, ix, ?_, by simp, fun _ => rfl, by simp, by simp⟩
      cases d <;>
        simp_all [transport, wbCall, State.logCall, Env.onChip, selAfter, eventLeaves, asked]
    | ref =>
      refine ⟨.ok, s.env.chip.accept b, ix, ?_, by simp, by simp, fun _ => rfl, by simp⟩
      cases d <;>
        simp_all [transport, wbCall, State.logCall, Env.onChip, selAfter, eventLeaves, asked]
  | wi k =>
    obtain ⟨d, ix, hne, hd, -⟩ := draw_ok ha
    refine ⟨.ok, s.env.chip, ix, ?_, by simp, fun _ => rfl, fun _ => rfl, by simp⟩
    cases d <;> simp_all [transport, wiCall, State.logCall, selAfter, eventLeaves, asked]
  | rb =>
    obtain ⟨d, ix, hne, hd, href⟩ := draw_ok ha
    cases hk : s.env.kind with
    | any =>
      cases d with
      | timeout => exact absurd rfl hne
      | byte b =>
        refine ⟨.byte b, s.env.chip, ix, ?_, by simp, fun _ => rfl, by simp, fun h => absurd h.1 (by simp [hk])⟩
        simp [transport, rbCall, hd, rbAnswer, State.logCall, Env.onChip, hk, selAfter, eventLeaves, asked]
      | normal =>
        refine ⟨.byte (Config.freeByte ix), s.env.chip, ix + 1, ?_, by simp, fun _ => rfl, by simp, fun h => absurd h.1 (by simp [hk])⟩
        simp [transport, rbCall, hd, rbAnswer, State.readByte, State.logCall, Env.onChip, hk, selAfter, eventLeaves,
          asked]
    | ref =>
      obtain ⟨c, hcc⟩ := hc hk
      have hcr : c = s.env.chip.countRead ∧ ∀ x, s.env.chip.answer s.cfg = x → x ≠ .absent := by
        unfold chipStep at hcc
        cases hx : s.env.chip.answer s.cfg <;> simp [hx] at hcc
        · exact ⟨hcc.symm, by simp⟩
        · exact ⟨hcc.symm, by simp⟩
      obtain ⟨rfl, hna⟩ := hcr
      cases d with
      | timeout => exact absurd rfl hne
      | byte b =>
        refine ⟨.byte b, s.env.chip.countRead, ix, ?_, by simp, by simp, fun _ => hcc,
          fun h => absurd (href h.2).1 (by simp)⟩
        simp [transport, rbCall, hd, rbAnswer, State.logCall, Env.onChip, hk, selAfter, eventLeaves, asked]
      | normal =>
        cases hx : s.env.chip.answer s.cfg with
        | absent => exact absurd rfl (hna _ hx)
        | byte b =>
          refine ⟨.byte b, s.env.chip.countRead, ix, ?_, by simp, by simp, fun _ => hcc,
            fun _ b' _ hb => by cases hb; rfl⟩
          simp [transport, rbCall, hd, rbAnswer, State.readByte, hx, State.logCall, Env.onChip, hk, selAfter,
            eventLeaves, asked]
        | anyByte =>
          refine ⟨.byte (Config.freeByte ix), s.env.chip.countRead, ix + 1, ?_, by simp, by simp, fun _ => hcc,
            fun _ b' _ hb => by cases hb⟩
          simp [transport, rbCall, hd, rbAnswer, State.readByte, hx, State.logCall, Env.onChip, hk, selAfter,
            eventLeaves, asked]

/-! ## Events of a hold -/

/-- What a list of answered events of a port leaves while the hold goes on. -/
def eventsLeave (p : Nat) (es : List Event) (rd : List Byte) (chip : Chip) (ix : Nat) (calls : List Call) (s : State) :
    State :=
  { s.setPort p (fun c => { c with rdata := c.rdata ++ rd, ev := c.ev + es.length }) with
    sel := es.foldl (fun b e => selAfter e b) s.sel
    env := { s.env with draws := s.env.draws.drop (asked es), chip := chip }
    freeIx := ix
    trace := s.trace ++ calls }

/-- A port has performed these events, each answered, and nothing else has happened. -/
def Ran (p : Nat) (es : List Event) (rd : List Byte) (s t : State) : Prop :=
  ∃ chip ix calls, t = eventsLeave p es rd chip ix calls s ∧
    (s.env.kind = .any → chip = s.env.chip) ∧
    (s.env.kind = .ref → chipRun s.cfg es s.env.chip = some chip) ∧
    calls.map Call.event = es ∧ (∀ c ∈ calls, c.agent = .port p ∧ c.answer ≠ .timeout) ∧
    ((s.port p).phase ≠ .pRead → rd = [])

theorem Ran.nil (p : Nat) (s : State) : Ran p [] [] s s := by
  refine ⟨s.env.chip, s.freeIx, [], ?_, fun _ => rfl, fun _ => rfl, rfl, by simp, fun _ => rfl⟩
  unfold eventsLeave
  rw [setPort_id (by intro c; simp)]
  simp [asked]

theorem Ran.port {p : Nat} {es : List Event} {rd : List Byte} {s t : State} (h : Ran p es rd s t)
    (hp : p < s.ctx.length) :
    t.port p = { s.port p with rdata := (s.port p).rdata ++ rd, ev := (s.port p).ev + es.length } := by
  obtain ⟨_, _, _, rfl, -⟩ := h
  exact port_setPort_self hp _

theorem Ran.trans {p : Nat} {es fs : List Event} {rd rd' : List Byte} {s t u : State} (hp : p < s.ctx.length)
    (h : Ran p es rd s t) (g : Ran p fs rd' t u) : Ran p (es ++ fs) (rd ++ rd') s u := by
  have hport := h.port hp
  obtain ⟨chip, ix, calls, rfl, h1, h2, h3, h4, h5⟩ := h
  obtain ⟨chip', ix', calls', rfl, g1, g2, g3, g4, g5⟩ := g
  refine ⟨chip', ix', calls ++ calls', ?_, ?_, ?_, by simp [h3, g3], ?_, ?_⟩
  · unfold eventsLeave
    have e := setPort_setPort s p (fun c => { c with rdata := c.rdata ++ rd, ev := c.ev + es.length })
      (fun c => { c with rdata := c.rdata ++ rd', ev := c.ev + fs.length })
    have e2 : (fun c : Ctx => ({ c with rdata := c.rdata ++ (rd ++ rd'), ev := c.ev + (es ++ fs).length } : Ctx)) =
        fun c => { { c with rdata := c.rdata ++ rd, ev := c.ev + es.length } with
          rdata := ({ c with rdata := c.rdata ++ rd, ev := c.ev + es.length } : Ctx).rdata ++ rd'
          ev := ({ c with rdata := c.rdata ++ rd, ev := c.ev + es.length } : Ctx).ev + fs.length } := by
      funext c
      simp [Nat.add_assoc]
    rw [e2, ← e]
    simp [State.setPort, asked_append, List.drop_drop]
  · exact fun hk => (g1 hk).trans (h1 hk)
  · intro hk
    rw [chipRun_append, h2 hk]
    exact g2 hk
  · intro c hc
    rcases List.mem_append.1 hc with hc | hc
    · exact h4 c hc
    · exact g4 c hc
  · intro hph
    rw [h5 hph, g5 (by rw [hport]; exact hph)]; rfl

/-- One answered event of a hold, but for what comes after the last. -/
theorem eventStep_ok {p total : Nat} {e : Event} {s : State} (hp : p < s.ctx.length)
    (ha : s.env.answers (asked [e])) (hc : s.env.kind = .ref → ∃ c, chipStep s.cfg e s.env.chip = some c) :
    ∃ rd t, Ran p [e] rd s t ∧
      eventStep p total e s = .next (if (s.port p).ev + 1 = total then t.endHold p else t) ∧
      (s.env.reference → ∀ b, e = .rb → s.env.chip.answer s.cfg = .byte b → (s.port p).phase = .pRead →
        ¬ (s.cfg.useFastRead = true ∧ (s.port p).ev = dummyEvent) → rd = [b]) ∧
      (s.cfg.useFastRead = true → (s.port p).ev = dummyEvent → rd = []) ∧ (e ≠ .rb → rd = []) := by
  obtain ⟨r, chip, ix, htr, hr, h1, h2, h3⟩ := transport_ok (a := .port p) ha hc
  have hans := transport_answer htr
  refine ⟨delivered (eventLeaves (.port p) e s r chip ix) p r, eventsLeave p [e] _ chip ix
    [⟨.port p, s.holdNo, e, r⟩] s, ⟨chip, ix, _, rfl, h1, ?_, rfl, ?_, ?_⟩, ?_, ?_, ?_, ?_⟩
  · intro hk; simp [chipRun, h2 hk]
  · intro c hc
    simp only [List.mem_singleton] at hc
    subst hc
    exact ⟨rfl, hr⟩
  · intro hph
    have hpp : (eventLeaves (.port p) e s r chip ix).port p = s.port p := rfl
    cases r <;> simp [delivered, hpp, hph]
  · have hstep : eventStep p total e s =
        .next (((eventLeaves (.port p) e s r chip ix).deliver p r).advanceEv p total) := by
      unfold eventStep
      rw [htr]
      cases r with
      | timeout => exact absurd rfl hr
      | ok => rfl
      | byte b => rfl
    rw [hstep, deliver_eq]
    generalize delivered _ p r = rd
    unfold State.advanceEv
    rw [port_setPort_self (by exact hp)]
    have hpp : (eventLeaves (.port p) e s r chip ix).port p = s.port p := rfl
    simp only [hpp]
    rw [setPort_setPort]
    rfl
  · intro hr b he hb hph hd
    have hrb := h3 hr b he hb
    subst hrb
    exact if_pos ⟨hph, hd⟩
  · intro h5 h6
    have hpp : (eventLeaves (.port p) e s r chip ix).port p = s.port p := rfl
    have hcf : (eventLeaves (.port p) e s r chip ix).cfg = s.cfg := rfl
    cases r with
    | ok => rfl
    | timeout => rfl
    | byte b => simp [delivered, hpp, hcf, h5, h6]
  · intro hne
    rcases hans with ⟨he, -⟩ | ⟨-, hb⟩
    · exact absurd he hne
    · cases r with
      | ok => rfl
      | timeout => rfl
      | byte b => exact absurd rfl (hb b)

/-- A list of answered events that does not end the hold. -/
theorem runEvents_ok {p total : Nat} : ∀ {es : List Event} {s : State}, p < s.ctx.length →
    s.owner = some (.port p) → (s.port p).ev + es.length < total → s.env.answers (asked es) →
    (s.env.kind = .ref → ∃ c, chipRun s.cfg es s.env.chip = some c) →
    ∃ rd t, runEvents p total es s = .next t ∧ Ran p es rd s t := by
  intro es
  induction es with
  | nil => intro s _ _ _ _ _; exact ⟨[], s, rfl, Ran.nil p s⟩
  | cons e es ih =>
    intro s hp ho hl ha hc
    rw [asked_cons] at ha
    have hc1 : s.env.kind = .ref → ∃ c, chipStep s.cfg e s.env.chip = some c := by
      intro hk
      obtain ⟨c, hc⟩ := hc hk
      simp only [chipRun] at hc
      obtain ⟨d, hd, -⟩ := Option.bind_eq_some_iff.1 hc
      exact ⟨d, hd⟩
    obtain ⟨rd, t, hran, hstep, -⟩ := eventStep_ok (total := total) hp (answers_mono ha (by omega)) hc1
    rw [if_neg (by simp only [List.length_cons] at hl; omega)] at hstep
    have hport := hran.port hp
    have hran' := hran
    obtain ⟨chip, ix, calls, ht, h1, h2, h3, h4, h5⟩ := hran
    have hlen : t.ctx.length = s.ctx.length := by rw [ht]; exact length_setPort _ _ _
    obtain ⟨rd', u, hu, hran2⟩ := ih (s := t) (by rw [hlen]; exact hp) (by rw [ht]; exact ho)
      (by rw [hport]; simp only [List.length_cons, List.length_nil] at hl ⊢; omega)
      (answers_drop ha (by rw [ht]; rfl) (by rw [ht]; rfl)) (by
        intro hk
        have hk' : s.env.kind = .ref := by rw [ht] at hk; exact hk
        obtain ⟨c, hc⟩ := hc hk'
        have e1 := h2 hk'
        rw [← List.singleton_append, chipRun_append, e1] at hc
        refine ⟨c, ?_⟩
        rw [ht]
        exact hc)
    refine ⟨rd ++ rd', u, ?_, Ran.trans hp hran' hran2⟩
    simp only [runEvents]
    rw [if_pos ho, hstep]
    exact hu

theorem runEvents_append {p total : Nat} (es fs : List Event) (s : State) :
    runEvents p total (es ++ fs) s = andThen (runEvents p total es s) (runEvents p total fs) := by
  induction es generalizing s with
  | nil => rfl
  | cons e es ih =>
    simp only [List.cons_append, runEvents]
    split
    · rw [andThen_assoc]
      congr 1
      funext t
      exact ih t
    · rename_i ho
      cases fs with
      | nil => rfl
      | cons f fs => simp [runEvents, ho]

/-- A list of answered events that ends the hold: the events, then the hold's end action. -/
theorem runEvents_last {p total : Nat} {es : List Event} {s : State} (hne : es ≠ []) (hp : p < s.ctx.length)
    (ho : s.owner = some (.port p)) (hl : (s.port p).ev + es.length = total) (ha : s.env.answers (asked es))
    (hc : s.env.kind = .ref → ∃ c, chipRun s.cfg es s.env.chip = some c) :
    ∃ rd t, runEvents p total es s = .next (t.endHold p) ∧ Ran p es rd s t := by
  obtain ⟨es, e, rfl⟩ : ∃ l e, es = l ++ [e] := ⟨es.dropLast, es.getLast hne, (List.dropLast_append_getLast hne).symm⟩
  rw [asked_append] at ha
  simp only [List.length_append, List.length_cons, List.length_nil] at hl
  obtain ⟨rd, t, ht, hran⟩ := runEvents_ok (p := p) (total := total) (es := es) hp ho (by omega)
    (answers_mono ha (by omega)) (by
      intro hk
      obtain ⟨c, hc⟩ := hc hk
      rw [chipRun_append] at hc
      obtain ⟨d, hd, -⟩ := Option.bind_eq_some_iff.1 hc
      exact ⟨d, hd⟩)
  have hport := hran.port hp
  have hran' := hran
  obtain ⟨chip, ix, calls, hte, h1, h2, h3, h4, h5⟩ := hran
  have hlen : t.ctx.length = s.ctx.length := by rw [hte]; exact length_setPort _ _ _
  obtain ⟨rd', u, hran2, hstep, -⟩ := eventStep_ok (p := p) (total := total) (e := e) (s := t)
    (by rw [hlen]; exact hp) (answers_drop ha (by rw [hte]; rfl) (by rw [hte]; rfl)) (by
      intro hk
      have hk' : s.env.kind = .ref := by rw [hte] at hk; exact hk
      obtain ⟨c, hc⟩ := hc hk'
      rw [chipRun_append, h2 hk'] at hc
      simp only [Option.bind_some, chipRun] at hc
      obtain ⟨d, hd, -⟩ := Option.bind_eq_some_iff.1 hc
      exact ⟨d, by rw [hte]; exact hd⟩)
  rw [if_pos (by rw [hport]; simp only; omega)] at hstep
  refine ⟨rd ++ rd', u, ?_, Ran.trans hp hran' hran2⟩
  rw [runEvents_append, ht]
  simp only [andThen_next, runEvents]
  rw [if_pos (by rw [hte]; exact ho), hstep]
  rfl

end Sys2Proof.Machine
end

