-- ==== Sys2Proof/Laws/Chips.lean ====
section
/-! SUPPORT. What the reference chip makes of each frame (20_memory R70), whole or cut off. -/

namespace Sys2Proof.Machine

theorem chipRun_head (cfg : Config) (op : Byte) (a : Addr24) (c : Chip) :
    chipRun cfg (frameHead op a) c = some { c with frame := op :: addrBytes a, reads := 0 } := by
  simp [frameHead, chipRun, chipStep, addrBytes, Chip.sel, Chip.accept]

theorem chipRun_data (cfg : Config) (j : Nat) (d : List Byte) (c : Chip) :
    chipRun cfg (dataEvents j d) c = some { c with frame := c.frame ++ d } := by
  induction d generalizing j c with
  | nil => simp [dataEvents, chipRun]
  | cons b d ih =>
    unfold dataEvents
    simp only [chipRun, chipStep, Option.bind_some]
    split
    · simp only [List.cons_append, List.nil_append, chipRun, chipStep, Option.bind_some]
      rw [ih]; simp [Chip.accept]
    · rw [List.nil_append, ih]; simp [Chip.accept]

/-- A chip with an erase frame open, at the deselect (R70). -/
theorem desel_erase {cfg : Config} (hc : cfg.opcodesDistinct) {g : Nat} (hg : g ∈ cfg.grans) {a : Addr24} {c : Chip}
    (hf : c.frame = cfg.opcEraseOf g :: addrBytes a) (ha : a.toNat % g = 0) (hs : a.toNat + g ≤ flashSize) :
    c.desel cfg = some { c with fl := c.fl.erase a.toNat g } := by
  unfold Chip.desel
  rw [hf]
  simp only [addrBytes]
  rw [eraseGran_opcErase hc hg]
  simp only [addrOfBytes_extract, ha, Nat.sub_zero]
  rw [if_pos hs]

/-- A chip with a program frame open that has data, at the deselect (R70). -/
theorem desel_program {cfg : Config} {a : Addr24} {c : Chip} {d : List Byte}
    (hf : c.frame = cfg.opcProgram :: (addrBytes a ++ d)) (hd : d ≠ []) (hs : a.toNat + d.length ≤ flashSize) :
    c.desel cfg = some { c with fl := c.fl.program a.toNat d } := by
  cases d with
  | nil => exact absurd rfl hd
  | cons b d =>
    unfold Chip.desel
    rw [hf]
    simp only [addrBytes, List.cons_append, List.nil_append, if_true, addrOfBytes_extract]
    rw [if_pos hs]

/-- A frame of another kind has no effect at the deselect (R70). -/
theorem desel_none {cfg : Config} {c : Chip} (h4 : c.frame.length = 4 → ∀ op ∈ c.frame.head?, eraseGran cfg op = none)
    (h5 : 5 ≤ c.frame.length → ∀ op ∈ c.frame.head?, op ≠ cfg.opcProgram) : c.desel cfg = some c := by
  unfold Chip.desel
  split
  · rename_i op a2 a1 a0 hf
    rw [hf] at h4
    have : eraseGran cfg op = none := h4 rfl op (by simp)
    rw [this]
  · rename_i op a2 a1 a0 d ds hf
    rw [hf] at h5
    rw [if_neg (h5 (by simp) op (by simp))]
  · rfl

/-- The ERASE frame (R161, R70). -/
theorem chipRun_eraseFrame {cfg : Config} (hc : cfg.opcodesDistinct) {g : Nat} (hg : g ∈ cfg.grans) {a : Addr24}
    (c : Chip) (ha : a.toNat % g = 0) (hs : a.toNat + g ≤ flashSize) :
    chipRun cfg (eraseFrame cfg g a) c =
      some { c with fl := c.fl.erase a.toNat g, frame := cfg.opcEraseOf g :: addrBytes a, reads := 0 } := by
  unfold eraseFrame
  rw [chipRun_append, chipRun_head]
  simp only [Option.bind_some, chipRun, chipStep]
  rw [desel_erase hc hg rfl ha hs]
  rfl

/-- The PROGRAM frame (R176, R70). -/
theorem chipRun_progCycle {cfg : Config} {a : Addr24} {d : List Byte} (c : Chip) (hd : d ≠ [])
    (hs : a.toNat + d.length ≤ flashSize) :
    chipRun cfg (progCycle cfg a d) c =
      some { c with
        fl := c.fl.program a.toNat d
        frame := cfg.opcProgram :: (addrBytes a ++ d)
        reads := 0 } := by
  unfold progCycle
  rw [chipRun_append, chipRun_append, chipRun_head]
  simp only [Option.bind_some, chipRun_data, chipRun, chipStep]
  rw [desel_program rfl hd hs]
  rfl

/-- The IDENT frame (R126, R70). -/
theorem chipRun_identFrame (cfg : Config) (c : Chip) :
    chipRun cfg (identFrame cfg) c = some { c with frame := [cfg.opcIdent], reads := 3 } := by
  simp [identFrame, chipRun, chipStep, Chip.sel, Chip.accept, Chip.answer, Chip.countRead, addrBytes, Chip.desel]

/-- What the chip answers inside a fast-read frame (R70). -/
theorem answer_fastRead {cfg : Config} {a : Addr24} {c : Chip} (hf : c.frame = cfg.opcFastRead :: addrBytes a) :
    c.answer cfg = if c.reads = 0 then .anyByte else c.flash (a.toNat + c.reads - 1) := by
  unfold Chip.answer
  rw [hf]
  simp only [addrBytes, if_true, addrOfBytes_extract]

/-- What the chip answers inside a slow-read frame (R70). -/
theorem answer_readSlow {cfg : Config} (hc : cfg.opcodesDistinct) {a : Addr24} {c : Chip}
    (hf : c.frame = cfg.opcReadSlow :: addrBytes a) : c.answer cfg = c.flash (a.toNat + c.reads) := by
  unfold Chip.answer
  rw [hf]
  simp only [addrBytes, addrOfBytes_extract]
  rw [if_neg (opcodesDistinct_read hc), if_pos trivial]

/-- The reads of a frame whose answers exist. -/
theorem chipRun_reads {cfg : Config} {n : Nat} {c : Chip}
    (h : ∀ k < n, ({ c with reads := c.reads + k } : Chip).answer cfg ≠ .absent) :
    chipRun cfg (List.replicate n .rb) c = some { c with reads := c.reads + n } := by
  induction n generalizing c with
  | zero => rfl
  | succ n ih =>
    have h0 := h 0 (by omega)
    have hstep : chipStep cfg .rb c = some c.countRead := by
      unfold chipStep
      cases hx : c.answer cfg with
      | absent => exact absurd hx h0
      | byte b => rfl
      | anyByte => rfl
    simp only [List.replicate_succ, chipRun, hstep, Option.bind_some]
    rw [ih (c := c.countRead) (fun k hk => by
      have := h (k + 1) (by omega)
      simpa [Chip.countRead, Nat.add_assoc, Nat.add_comm 1 k] using this)]
    simp [Chip.countRead, Nat.add_assoc, Nat.add_comm 1 n]

/-- The FAST_READ or READ_SLOW frame (R192, R70): no byte of the flash changes. -/
theorem chipRun_readFrame {cfg : Config} (hc : cfg.opcodesDistinct) {op : Byte} {dummy : Bool} {a : Addr24} {n : Nat}
    (c : Chip) (ho : op = if dummy then cfg.opcFastRead else cfg.opcReadSlow) (hs : a.toNat + n ≤ flashSize) :
    chipRun cfg (readFrame op dummy a n) c =
      some { c with frame := op :: addrBytes a, reads := n + (if dummy then 1 else 0) } := by
  rw [readFrame_eq, chipRun_append, chipRun_append, chipRun_head]
  simp only [Option.bind_some]
  rw [chipRun_reads]
  · simp only [Option.bind_some, chipRun, chipStep, Nat.zero_add]
    rw [desel_none (fun _ x hx => ?_) (fun h => by simp [addrBytes] at h)]
    · rfl
    · simp only [List.head?_cons, Option.mem_some_iff] at hx
      subst hx
      refine eraseGran_other hc ?_
      rw [ho]
      cases dummy <;> simp
  · intro k hk
    cases dummy with
    | true =>
      simp only [if_true] at ho
      subst ho
      rw [answer_fastRead rfl]
      simp only [Nat.zero_add]
      split
      · simp
      · simp only [if_true] at hk
        unfold Chip.flash
        rw [if_pos (by omega)]; simp
    | false =>
      simp only [Bool.false_eq_true, if_false] at ho hk
      subst ho
      rw [answer_readSlow hc rfl]
      simp only [Nat.zero_add]
      unfold Chip.flash
      rw [if_pos (by omega)]; simp

end Sys2Proof.Machine
end

