-- ==== Sys2Proof/Laws/Decode.lean ====
section
/-! SUPPORT. The decode step of the commands: what `finish` and the copy-in leave unchanged, and where a port stands that
has a command fetched. -/

namespace Sys2Proof.Machine

theorem sameOutside.refl (p : Nat) (s : State) : sameOutside p s s :=
  ⟨rfl, rfl, rfl, rfl, rfl, rfl, rfl, rfl, rfl, rfl, fun _ _ => rfl, rfl, rfl, rfl, rfl⟩

theorem sameOutside.trans {p : Nat} {s t u : State} (h : sameOutside p s t) (g : sameOutside p t u) :
    sameOutside p s u :=
  ⟨g.cfg.trans h.cfg, g.fstate.trans h.fstate, g.owner.trans h.owner, g.sel.trans h.sel, g.identity.trans h.identity,
    g.diag.trans h.diag, g.xferCount.trans h.xferCount, g.initEv.trans h.initEv, g.initAcc.trans h.initAcc,
    g.ports.trans h.ports, fun q hq => (g.others q hq).trans (h.others q hq), g.kind.trans h.kind,
    g.chip.trans h.chip, g.trace.trans h.trace, g.host.trans h.host⟩

/-- Writing registers of a port changes nothing outside it. -/
theorem sameOutside_setPort (s : State) (p : Nat) (f : Ctx → Ctx) : sameOutside p s (s.setPort p f) :=
  ⟨rfl, rfl, rfl, rfl, rfl, rfl, rfl, rfl, rfl, length_setPort s p f, fun _ hq => port_setPort_of_ne hq f, rfl, rfl,
    rfl, rfl⟩

/-- `finish` changes nothing outside its port (R38). -/
theorem sameOutside_finish (s : State) (p : Nat) (code : ResultCode) (count : Word) :
    sameOutside p s (s.finish p code count) :=
  ⟨by simp, by simp, by simp, by simp, by simp, by simp, by simp, by simp, by simp, by simp,
    fun q hq => finish_port_of_ne hq code count, by simp, by simp, by simp, by simp⟩

/-- What `finish` leaves in its port (R38). -/
theorem finish_port_done {s : State} {p : Nat} (hp : p < s.ctx.length) (code : ResultCode) (count : Word) :
    ∃ buf, (s.finish p code count).port p =
      (s.port p).done code count (if code ≠ .ok ∨ (s.port p).op ≠ opRead then [] else (s.port p).rdata) buf := by
  obtain ⟨buf, h⟩ := finish_port hp code count
  exact ⟨buf, h⟩

/-- A port with no buffer held keeps the contents of `BUF` when it finishes. -/
theorem finish_port_done_of_free {s : State} {p : Nat} (hp : p < s.ctx.length) (hb : (s.port p).bufHeld = false)
    (code : ResultCode) (count : Word) :
    (s.finish p code count).port p =
      (s.port p).done code count (if code ≠ .ok ∨ (s.port p).op ≠ opRead then [] else (s.port p).rdata)
        (s.port p).buf := by
  have h : s.releaseBuffer p = s := by simp [State.releaseBuffer, hb]
  unfold State.finish
  rw [h, port_setPort_self hp]
  simp only [Ctx.done, ← hb]

/-- The draw of an allocation changes nothing outside the environment's draws. -/
theorem sameOutside_drawAlloc (s : State) (p : Nat) : sameOutside p s s.drawAlloc.2 := by
  obtain ⟨_, _, h⟩ := drawAlloc_cases s
  rw [h]
  exact ⟨rfl, rfl, rfl, rfl, rfl, rfl, rfl, rfl, rfl, rfl, fun _ _ => rfl, rfl, rfl, rfl, rfl⟩

theorem drawAlloc_port (s : State) (p : Nat) : s.drawAlloc.2.port p = s.port p := by
  obtain ⟨_, _, h⟩ := drawAlloc_cases s
  rw [h]; rfl

/-- A port at which something is fetched exists. -/
theorem lt_of_phase_ne_idle {s : State} {p : Nat} (h : (s.port p).phase ≠ .pIdle) : p < s.ctx.length := by
  by_contra hn
  exact h (by rw [port_absent (Nat.le_of_not_lt hn)]; rfl)

/-- The phase in which a port stands at a command. -/
theorem fetchPort_command {s : State} {p : Nat} {i : Instr} (h : s.fetchPort p = some i)
    (hi : (∃ a l, i = .read a l) ∨ (∃ a l d, i = .write a l d) ∨ i = .status ∨ i = .resetStatus) :
    (s.port p).phase = .pSubmitted ∧
      decodeDescriptor (s.port p).op (s.port p).addr (s.port p).len (s.port p).payload = .ok i := by
  rcases fetchPort_cases h with h | ⟨-, hc⟩
  · exact h
  · exfalso
    rcases hc with ⟨-, -, rfl⟩ | ⟨-, o, rfl, -⟩ | ⟨-, -, ⟨-, rfl⟩ | ⟨-, rfl⟩⟩ <;> simp at hi

theorem fetch_port {s : State} {p : Nat} (ha : s.active = .port p) : s.fetch = s.fetchPort p := by
  simp [State.fetch, ha]

/-- Where the active port stands at a READ. -/
theorem fetch_read {s : State} {p : Nat} {a l : Word} (ha : s.active = .port p) (h : s.fetch = some (.read a l)) :
    (s.port p).phase = .pSubmitted ∧ (s.port p).op = 1 ∧ (s.port p).addr = a ∧ (s.port p).len = l := by
  obtain ⟨h1, h2⟩ := fetchPort_command (fetch_port ha ▸ h) (.inl ⟨_, _, rfl⟩)
  obtain ⟨e1, e2, e3⟩ := decodeDescriptor_read h2
  exact ⟨h1, e1, e2.symm, e3.symm⟩

/-- Where the active port stands at a WRITE. -/
theorem fetch_write {s : State} {p : Nat} {a l : Word} {d : List Byte} (ha : s.active = .port p)
    (h : s.fetch = some (.write a l d)) :
    (s.port p).phase = .pSubmitted ∧ (s.port p).op = 2 ∧ (s.port p).addr = a ∧ (s.port p).len = l ∧
      (s.port p).payload = d := by
  obtain ⟨h1, h2⟩ := fetchPort_command (fetch_port ha ▸ h) (.inr (.inl ⟨_, _, _, rfl⟩))
  obtain ⟨e1, e2, e3, e4⟩ := decodeDescriptor_write h2
  exact ⟨h1, e1, e2.symm, e3.symm, e4.symm⟩

theorem fetch_status {s : State} {p : Nat} (ha : s.active = .port p) (h : s.fetch = some .status) :
    (s.port p).phase = .pSubmitted ∧ (s.port p).op = 3 := by
  obtain ⟨h1, h2⟩ := fetchPort_command (fetch_port ha ▸ h) (.inr (.inr (.inl rfl)))
  exact ⟨h1, decodeDescriptor_status h2⟩

theorem fetch_resetStatus {s : State} {p : Nat} (ha : s.active = .port p) (h : s.fetch = some .resetStatus) :
    (s.port p).phase = .pSubmitted ∧ (s.port p).op = 4 := by
  obtain ⟨h1, h2⟩ := fetchPort_command (fetch_port ha ▸ h) (.inr (.inr (.inr rfl)))
  exact ⟨h1, decodeDescriptor_resetStatus h2⟩

/-- The decode step of a valid READ (R191). -/
theorem decodeRead_ok {s : State} {addr len : Word} (h : validateRead s.cfg addr len = .ok) (p : Nat) :
    decodeRead p addr len s =
      s.setPort p (fun c => { c with part := owner s.cfg addr.toNat, rdata := [], phase := .pWaitRead }) := by
  simp [decodeRead, h]

/-- The decode step of a READ that validation rejects (R233). -/
theorem decodeRead_rejected {s : State} {addr len : Word} (h : validateRead s.cfg addr len ≠ .ok) (p : Nat) :
    decodeRead p addr len s = s.finish p (validateRead s.cfg addr len) 0 := by
  unfold decodeRead
  split
  · exact absurd ‹_› h
  all_goals (rename_i e; rw [e])

/-- The decode step of a WRITE that validation rejects (R233). -/
theorem decodeWrite_rejected {s : State} {addr len : Word} (h : validateWrite s.cfg addr len ≠ .ok) (p : Nat)
    (payload : List Byte) :
    decodeWrite p addr len payload s = .next (s.finish p (validateWrite s.cfg addr len) 0) := by
  unfold decodeWrite
  split
  · exact absurd ‹_› h
  all_goals (rename_i e; rw [e])

/-- The decode step of a valid WRITE, by the allocation draw and the payload's length (R157, R158). -/
theorem decodeWrite_ok {s : State} {addr len : Word} (h : validateWrite s.cfg addr len = .ok) (p : Nat)
    (payload : List Byte) :
    decodeWrite p addr len payload s =
      if s.drawAlloc.1 = false then .next (s.drawAlloc.2.finish p .allocationFailure 0)
      else if (payload.length : Int) < len.toInt then .refused .payloadShort
      else .next (copyIn p addr len payload s.drawAlloc.2) := by
  simp only [decodeWrite, h, allocate]
  rcases s.drawAlloc with ⟨b, s1⟩
  cases b <;> rfl

/-- A finished or submitted port takes no hold. -/
theorem runHolds_none {s : State} {p : Nat} (h : s.canAcquire p = false) (n : Nat) : runHolds p n s = .next s := by
  cases n with
  | zero => rfl
  | succ n => simp [runHolds, h]

theorem canAcquire_of_phase {s : State} {p : Nat} (h : acquireTarget (s.port p).phase = none) :
    s.canAcquire p = false := by
  simp [State.canAcquire, h]

theorem canAcquire_of_fstate {s : State} {p : Nat} (h : s.fstate ≠ .ready) : s.canAcquire p = false := by
  simp [State.canAcquire, h]

/-- A port that has finished cannot acquire. -/
theorem canAcquire_finish {s : State} {p : Nat} (code : ResultCode) (count : Word) :
    (s.finish p code count).canAcquire p = false := by
  by_cases hp : p < s.ctx.length
  · obtain ⟨buf, h⟩ := finish_port_done hp code count
    exact canAcquire_of_phase (by rw [h]; rfl)
  · exact canAcquire_of_phase (by rw [port_absent (by simpa using hp)]; rfl)

end Sys2Proof.Machine
end

