-- ==== Sys2Proof/Laws/Sweep.lean ====
section
/-! SUPPORT. Where the frames of a hold reach (00_scope R16 (2), 43 R160, 44 R177, R178), and what a run of events leaves
outside its port. -/

namespace Sys2Proof.Machine

/-- The unit an erase hold erases lies inside the owning partition (R160). -/
theorem erase_facts {cfg : Config} (hw : cfg.wf) {c : Ctx} (h : c.Writes cfg) (hk : c.k < c.eraseUnits cfg) :
    ∃ i, c.part = some i ∧ owner cfg c.addr.toNat = some i ∧ c.gran cfg = (cfg.pt.get i).gran ∧
      c.gran cfg ∈ cfg.grans ∧ 0 < c.gran cfg ∧ (cfg.pt.get i).role ≠ .boot ∧
      (c.eraseAddr cfg).toNat = c.addr.toNat + c.k * c.gran cfg ∧ (c.eraseAddr cfg).toNat % c.gran cfg = 0 ∧
      (cfg.pt.get i).start ≤ (c.eraseAddr cfg).toNat ∧
      c.addr.toNat + c.eraseUnits cfg * c.gran cfg ≤ (cfg.pt.get i).stop ∧
      (c.eraseAddr cfg).toNat + c.gran cfg ≤ c.addr.toNat + c.eraseUnits cfg * c.gran cfg ∧
      (cfg.pt.get i).stop ≤ flashSize := by
  obtain ⟨i, hp, ho, hg, hl, hl2, hr, hs, he, ha, hm, hwf⟩ := h.facts hw
  have hgp : 0 < c.gran cfg := by rw [hg]; exact hwf.2.2.1
  have hend : c.addr.toNat + c.eraseUnits cfg * c.gran cfg ≤ (cfg.pt.get i).stop := by
    unfold Ctx.eraseUnits
    rw [hg] at hgp ⊢
    exact ceilDiv_mul_le hgp ha hwf.2.2.2.2.2 he
  have hstep : c.k * c.gran cfg + c.gran cfg ≤ c.eraseUnits cfg * c.gran cfg := by
    have := Nat.mul_le_mul_right (c.gran cfg) hk
    rwa [Nat.add_one_mul] at this
  have hfl := hwf.2.1
  have haddr : (c.eraseAddr cfg).toNat = c.addr.toNat + c.k * c.gran cfg :=
    flashAddr_toNat (by omega)
  refine ⟨i, hp, ho, hg, by rw [hg]; exact mem_grans cfg i, hgp, hr, haddr, ?_, by omega, hend, by omega, hfl⟩
  rw [haddr, Nat.add_mul_mod_self_right, hg]
  exact ha

/-- The program cycles of a program hold lie inside the payload's range (R177, R178). -/
theorem prog_facts {cfg : Config} (hw : cfg.wf) {c : Ctx} (h : c.Writes cfg) {o : Addr24 × List Byte}
    (ho : o ∈ progOperands c.addr c.buf c.lenNat) :
    (o.2.length = 1 ∨ (o.2.length = 256 ∧ o.1.toNat % 256 = 0)) ∧ c.addr.toNat ≤ o.1.toNat ∧
      o.1.toNat + o.2.length ≤ c.addr.toNat + c.lenNat := by
  obtain ⟨i, hp, hi, hg, hl, hl2, hr, hs, he, ha, hm, hwf⟩ := h.facts hw
  have hb := h.buf
  have hfl := hwf.2.1
  have h256 : c.addr.toNat % 256 = 0 := by
    have := Nat.mod_mod_of_dvd c.addr.toNat (Nat.dvd_of_mod_eq_zero hwf.2.2.2.1)
    rw [ha] at this
    omega
  have hdm := Nat.div_add_mod c.lenNat 256
  rcases mem_progOperands ho with ⟨q, hq, rfl⟩ | ⟨t, ht, rfl⟩
  · have hlen : ((c.buf.drop (256 * q)).take 256).length = 256 := by
      rw [List.length_take, List.length_drop, hb]; omega
    have hto : (flashAddr c.addr (256 * q)).toNat = c.addr.toNat + 256 * q := flashAddr_toNat (by omega)
    rw [hto, hlen]
    exact ⟨.inr ⟨rfl, by omega⟩, by omega, by omega⟩
  · have hlen : ((c.buf.drop (256 * (c.lenNat / 256) + t)).take 1).length = 1 := by
      rw [List.length_take, List.length_drop, hb]; omega
    have hto : (flashAddr c.addr (256 * (c.lenNat / 256) + t)).toNat =
        c.addr.toNat + (256 * (c.lenNat / 256) + t) := flashAddr_toNat (by omega)
    rw [hto, hlen]
    exact ⟨.inl rfl, by omega, by omega⟩

/-- The range of a READ lies inside one partition (R196). -/
theorem read_facts {cfg : Config} (hw : cfg.wf) {c : Ctx} (h : c.Reads cfg) :
    (flashAddr c.addr 0).toNat = c.addr.toNat ∧ c.addr.toNat + c.lenNat ≤ flashSize := by
  obtain ⟨i, hp, hi, hl, hl2, hs, he, hm, hwf⟩ := h.facts hw
  have hfl := hwf.2.1
  exact ⟨flashAddr_toNat (by omega), by omega⟩

/-! ## Outside the port -/

theorem sameBeyondHold.refl (p : Nat) (s : State) : sameBeyondHold p s s :=
  ⟨rfl, rfl, rfl, rfl, rfl, rfl, fun _ _ => rfl, rfl, rfl, rfl⟩

theorem sameBeyondHold.trans {p : Nat} {s t u : State} (h : sameBeyondHold p s t) (g : sameBeyondHold p t u) :
    sameBeyondHold p s u :=
  ⟨g.cfg.trans h.cfg, g.identity.trans h.identity, g.diag.trans h.diag, g.initEv.trans h.initEv,
    g.initAcc.trans h.initAcc, g.ports.trans h.ports, fun q hq => (g.others q hq).trans (h.others q hq),
    g.kind.trans h.kind, g.chipId.trans h.chipId, g.host.trans h.host⟩

theorem sameOutside.beyond {p : Nat} {s t : State} (h : sameOutside p s t) : sameBeyondHold p s t :=
  ⟨h.cfg, h.identity, h.diag, h.initEv, h.initAcc, h.ports, h.others, h.kind, by rw [h.chip], h.host⟩

theorem chipStep_chipId {cfg : Config} {e : Event} {c d : Chip} (h : chipStep cfg e c = some d) :
    d.chipId = c.chipId := by
  cases e with
  | sel => cases h; rfl
  | wb b => cases h; rfl
  | wi k => cases h; rfl
  | rb =>
    simp only [chipStep] at h
    split at h
    · cases h
    · cases h; rfl
    · cases h; rfl
  | desel =>
    have h' : c.desel cfg = some d := h
    unfold Chip.desel at h'
    split at h'
    · split at h'
      · dsimp only at h'
        split at h'
        · cases h'; rfl
        · cases h'
      · cases h'; rfl
    · split at h'
      · dsimp only at h'
        split at h'
        · cases h'; rfl
        · cases h'
      · cases h'; rfl
    · cases h'; rfl

theorem chipRun_chipId {cfg : Config} {l : List Event} {c d : Chip} (h : chipRun cfg l c = some d) :
    d.chipId = c.chipId := by
  induction l generalizing c with
  | nil => cases h; rfl
  | cons e l ih =>
    simp only [chipRun] at h
    obtain ⟨x, hx, h⟩ := Option.bind_eq_some_iff.1 h
    rw [ih h, chipStep_chipId hx]

theorem Ran.beyond {p : Nat} {es : List Event} {rd : List Byte} {s t : State} (h : Ran p es rd s t) :
    sameBeyondHold p s t := by
  obtain ⟨chip, ix, calls, rfl, h1, h2, -⟩ := h
  refine ⟨rfl, rfl, rfl, rfl, rfl, length_setPort _ _ _, fun q hq => port_setPort_of_ne hq _, rfl, ?_, rfl⟩
  cases hk : s.env.kind with
  | any => exact congrArg Chip.chipId (h1 hk)
  | ref => exact chipRun_chipId (h2 hk)

theorem Ran.performs {p : Nat} {es : List Event} {rd : List Byte} {s t : State} (h : Ran p es rd s t) :
    performs s t (.port p) es := by
  obtain ⟨chip, ix, calls, rfl, h1, h2, h3, h4, -⟩ := h
  exact ⟨calls, rfl, h3, h4⟩

theorem performs.trans {s t u : State} {a : Agent} {l m : List Event} (h : performs s t a l) (g : performs t u a m) :
    performs s u a (l ++ m) := by
  obtain ⟨c, h1, h2, h3⟩ := h
  obtain ⟨d, g1, g2, g3⟩ := g
  refine ⟨c ++ d, by rw [g1, h1, List.append_assoc], by rw [List.map_append, h2, g2], fun x hx => ?_⟩
  rcases List.mem_append.1 hx with hx | hx
  · exact h3 x hx
  · exact g3 x hx

/-- The end action of a hold changes nothing the hold does not touch, makes no call and no flash change, and frees the
token. -/
theorem endHold_beyond {s : State} {p : Nat} (hp : p < s.ctx.length) (hh : (holdState (s.port p).phase).isSome) :
    sameBeyondHold p s (s.endHold p) ∧ (s.endHold p).trace = s.trace ∧ (s.endHold p).env = s.env ∧
      (s.endHold p).holdNo = s.holdNo ∧ (s.endHold p).sched = s.sched ∧ (s.endHold p).active = s.active := by
  unfold State.endHold
  cases hph : (s.port p).phase <;> simp [hph, holdState] at hh <;> simp only
  · exact ⟨⟨rfl, rfl, rfl, rfl, rfl, length_setPort _ _ _, fun q hq => port_setPort_of_ne hq _, rfl, rfl, rfl⟩,
      rfl, rfl, rfl, rfl, rfl⟩
  all_goals
    obtain ⟨ctx, ix, buf, hE, hl, ho, -⟩ := completeTransfer_cases hp
    refine ⟨⟨by rw [hE], by rw [hE], by rw [hE], by rw [hE], by rw [hE], by rw [hE]; exact hl, ho, by rw [hE],
      by rw [hE], by rw [hE]⟩, by rw [hE], by rw [hE], by rw [hE], by rw [hE], by rw [hE]⟩

end Sys2Proof.Machine
end

