-- ==== Sys2Proof/Laws/Program.lean ====
section
/-! SUPPORT. The program phase as one write of the payload (44_chunked_program_engine R177, 20_memory R70): its cycles are
contiguous, carry the payload's bytes in order, and together do what one long program operation would. -/

namespace Sys2Proof.Machine

/-- Cycles that follow one another in the flash, from an address on. -/
def contiguous : Nat → List (Addr24 × List Byte) → Prop
  | _, [] => True
  | base, o :: os => o.1.toNat = base ∧ contiguous (base + o.2.length) os

/-- The data bytes of some cycles. -/
def cycleData (os : List (Addr24 × List Byte)) : List Byte := os.flatMap (fun o => o.2)

theorem contiguous_append {base : Nat} {os ps : List (Addr24 × List Byte)} (h : contiguous base os)
    (g : contiguous (base + (cycleData os).length) ps) : contiguous base (os ++ ps) := by
  induction os generalizing base with
  | nil => simpa [cycleData] using g
  | cons o os ih =>
    obtain ⟨h1, h2⟩ := h
    refine ⟨h1, ih h2 ?_⟩
    have : (cycleData (o :: os)).length = o.2.length + (cycleData os).length := by simp [cycleData]
    rwa [this, ← Nat.add_assoc] at g

theorem cycleData_append (os ps : List (Addr24 × List Byte)) : cycleData (os ++ ps) = cycleData os ++ cycleData ps := by
  simp [cycleData]

/-- The full cycles cover the payload up to a multiple of 256. -/
theorem full_cycles {addr : Word} {buf : List Byte} {q : Nat} (hb : 256 * q ≤ buf.length)
    (hs : addr.toNat + buf.length ≤ flashSize) :
    cycleData ((List.range q).map (fun c => (flashAddr addr (256 * c), (buf.drop (256 * c)).take 256))) =
        buf.take (256 * q) ∧
      contiguous addr.toNat
        ((List.range q).map (fun c => (flashAddr addr (256 * c), (buf.drop (256 * c)).take 256))) := by
  induction q with
  | zero => exact ⟨rfl, trivial⟩
  | succ q ih =>
    obtain ⟨h1, h2⟩ := ih (by omega)
    rw [List.range_succ, List.map_append, cycleData_append, h1]
    refine ⟨?_, contiguous_append h2 ?_⟩
    · simp only [cycleData, List.map_cons, List.map_nil, List.flatMap_cons, List.flatMap_nil, List.append_nil]
      rw [show 256 * (q + 1) = 256 * q + 256 by omega, List.take_add]
    · rw [h1, List.length_take, Nat.min_eq_left (by omega)]
      exact ⟨flashAddr_toNat (by omega), trivial⟩

/-- The tail cycles cover the bytes that follow, one by one. -/
theorem tail_cycles {addr : Word} {buf : List Byte} {base r : Nat} (hb : base + r ≤ buf.length)
    (hs : addr.toNat + buf.length ≤ flashSize) :
    cycleData ((List.range r).map (fun t => (flashAddr addr (base + t), (buf.drop (base + t)).take 1))) =
        (buf.drop base).take r ∧
      contiguous (addr.toNat + base)
        ((List.range r).map (fun t => (flashAddr addr (base + t), (buf.drop (base + t)).take 1))) := by
  induction r with
  | zero => exact ⟨rfl, trivial⟩
  | succ r ih =>
    obtain ⟨h1, h2⟩ := ih (by omega)
    rw [List.range_succ, List.map_append, cycleData_append, h1]
    refine ⟨?_, contiguous_append h2 ?_⟩
    · simp only [cycleData, List.map_cons, List.map_nil, List.flatMap_cons, List.flatMap_nil, List.append_nil]
      rw [List.take_add, List.drop_drop]
    · rw [h1, List.length_take, List.length_drop, Nat.min_eq_left (by omega)]
      exact ⟨(flashAddr_toNat (by omega)).trans (by omega), trivial⟩

/-- The cycles of a program phase carry the payload's bytes in order, and follow one another in the flash. -/
theorem progOperands_cover {addr : Word} {buf : List Byte} (hs : addr.toNat + buf.length ≤ flashSize) :
    cycleData (progOperands addr buf buf.length) = buf ∧
      contiguous addr.toNat (progOperands addr buf buf.length) := by
  have hdm := Nat.div_add_mod buf.length 256
  obtain ⟨f1, f2⟩ := full_cycles (addr := addr) (buf := buf) (q := buf.length / 256) (by omega) hs
  obtain ⟨t1, t2⟩ := tail_cycles (addr := addr) (buf := buf) (base := 256 * (buf.length / 256))
    (r := buf.length % 256) (by omega) hs
  unfold progOperands
  refine ⟨?_, contiguous_append f2 ?_⟩
  · rw [cycleData_append, f1, t1, List.take_of_length_le (l := buf.drop _) (by rw [List.length_drop]; omega),
      List.take_append_drop]
  · rw [f1, List.length_take, Nat.min_eq_left (by omega)]
    exact t2

theorem Mem.program_append (m : Mem) (a : Nat) (d e : List Byte) :
    Mem.program m a (d ++ e) = Mem.program (Mem.program m a d) (a + d.length) e := by
  induction d generalizing m a with
  | nil => rfl
  | cons b d ih =>
    simp only [List.cons_append, Mem.program, List.length_cons]
    rw [ih, Nat.add_assoc, Nat.add_comm 1]

/-- Cycles that follow one another do what one program operation of all their bytes does (R176, R70). -/
theorem chipRun_cycles {cfg : Config} : ∀ {os : List (Addr24 × List Byte)} {base : Nat} (c : Chip),
    contiguous base os → (∀ o ∈ os, o.2 ≠ [] ∧ o.1.toNat + o.2.length ≤ flashSize) →
    ∃ d, chipRun cfg (os.flatMap (fun o => progCycle cfg o.1 o.2)) c = some d ∧
      d.fl = c.fl.program base (cycleData os) := by
  intro os
  induction os with
  | nil => intro base c _ _; exact ⟨c, rfl, rfl⟩
  | cons o os ih =>
    intro base c h hf
    obtain ⟨h1, h2⟩ := h
    obtain ⟨hd, hs⟩ := hf o (List.mem_cons_self ..)
    rw [List.flatMap_cons, chipRun_append, chipRun_progCycle c hd hs]
    obtain ⟨d, e1, e2⟩ := ih
      { c with fl := c.fl.program o.1.toNat o.2, frame := cfg.opcProgram :: (addrBytes o.1 ++ o.2), reads := 0 } h2
      (fun x hx => hf x (List.mem_cons_of_mem _ hx))
    refine ⟨d, e1, ?_⟩
    rw [e2]
    simp only [cycleData, List.flatMap_cons]
    rw [Mem.program_append, h1]

/-- The whole program list of a WRITE (R177, R70). -/
theorem chipRun_progList {cfg : Config} (hw : cfg.wf) {x : Ctx} (h : x.Writes cfg) (c : Chip) :
    ∃ d, chipRun cfg (progList cfg x.addr x.buf x.lenNat) c = some d ∧
      d.fl = c.fl.program x.addr.toNat x.buf := by
  obtain ⟨i, hp, hi, hg, hl, hl2, hr, hs, he, ha, hm, hwf⟩ := h.facts hw
  have hb := h.buf
  have hfl := hwf.2.1
  obtain ⟨c1, c2⟩ := progOperands_cover (addr := x.addr) (buf := x.buf) (by omega)
  rw [hb] at c1 c2
  obtain ⟨d, e1, e2⟩ := chipRun_cycles (cfg := cfg) c c2 (fun o ho => by
    obtain ⟨p1, p2, p3⟩ := prog_facts hw h ho
    refine ⟨?_, by omega⟩
    intro e
    rw [e] at p1
    simp at p1)
  exact ⟨d, e1, by rw [e2, c1]⟩

end Sys2Proof.Machine
end

