-- ==== Sys2Proof/Laws/Completion.lean ====
section
/-! SUPPORT. A whole hold in which no answer is a timeout, for each kind of hold: what it leaves. -/

namespace Sys2Proof.Machine

@[simp] theorem asked_eraseFrame (c : Config) (g : Nat) (a : Addr24) : asked (eraseFrame c g a) = 5 := rfl

/-- The list of a hold is run from its first event to its end action. -/
theorem runHold_last {s : State} {p : Nat} (h : s.Inv) (ho : s.owner = some (.port p)) (hev : (s.port p).ev = 0)
    (ha : s.env.answers (asked ((s.port p).holdList s.cfg)))
    (hc : s.env.kind = .ref → ∃ c, chipRun s.cfg ((s.port p).holdList s.cfg) s.env.chip = some c) :
    ∃ rd t, runHold p s = .next (t.endHold p) ∧ Ran p ((s.port p).holdList s.cfg) rd s t := by
  obtain ⟨hp, -, hlt, -⟩ := h.hold p ho
  exact runEvents_last (by intro e; rw [e] at hlt; simp at hlt) hp ho (by omega) ha hc

/-- The token after the end action, where the events have left the chip deselected. -/
theorem endHold_idle {s t : State} {p : Nat} {es : List Event} {rd : List Byte} (h : Ran p es rd s t)
    (hp : p < s.ctx.length) (hh : (holdState (s.port p).phase).isSome)
    (hsel : es.foldl (fun b e => selAfter e b) s.sel = false) : (t.endHold p).idleToken := by
  have hport := h.port hp
  have hlen : p < t.ctx.length := by rw [h.beyond.ports]; exact hp
  obtain ⟨e1, e2, e3⟩ := endHold_owner (s := t) (p := p) hlen (by rw [hport]; exact hh)
  obtain ⟨chip, ix, calls, rfl, -⟩ := h
  exact ⟨e2, e1, e3.trans hsel⟩

theorem foldl_selAfter (l : List Event) (w : Wire) :
    l.foldl (fun b e => selAfter e b) w.sel = (l.foldl Wire.after w).sel := by
  induction l generalizing w with
  | nil => rfl
  | cons e l ih =>
    simp only [List.foldl_cons]
    rw [← ih (w.after e)]
    congr 1
    cases e <;> rfl

/-- From a deselected chip, the events of a whole hold leave it deselected. -/
theorem holdList_sel (cfg : Config) (c : Ctx) :
    (c.holdList cfg).foldl (fun b e => selAfter e b) false = false := by
  have := foldl_selAfter (c.holdList cfg) ⟨false, [], 0⟩
  simp only at this
  rw [this]
  exact wireOf_holdList_sel cfg c

/-- At the first event of a hold the chip is not selected. -/
theorem sel_at_start {s : State} {p : Nat} (h : s.Inv) (ho : s.owner = some (.port p)) (hev : (s.port p).ev = 0) :
    s.sel = false := by
  obtain ⟨-, -, -, hs⟩ := h.hold p ho
  unfold selMatches at hs
  rw [hs, hev]; rfl

/-- What the phase of a hold says of its port (R31, R39). -/
theorem writes_of_erase {s : State} {p : Nat} (h : s.Inv) (hph : (s.port p).phase = .pErase) :
    (s.port p).Writes s.cfg ∧ (s.port p).k < (s.port p).eraseUnits s.cfg := by
  have hg := (h.good p).2
  rw [hph] at hg
  exact hg

theorem writes_of_prog {s : State} {p : Nat} (h : s.Inv) (hph : (s.port p).phase = .pProg) :
    (s.port p).Writes s.cfg ∧ (s.port p).k = (s.port p).eraseUnits s.cfg := by
  have hg := (h.good p).2
  rw [hph] at hg
  exact hg

theorem reads_of_read {s : State} {p : Nat} (h : s.Inv) (hph : (s.port p).phase = .pRead) :
    (s.port p).Reads s.cfg ∧
      (s.port p).rdata.length =
        (wireOf (((s.port p).holdList s.cfg).take (s.port p).ev)).reads - (if s.cfg.useFastRead then 1 else 0) := by
  have hg := (h.good p).2
  rw [hph] at hg
  exact hg

/-- An erase hold (R161, R162, R70). -/
theorem eraseHold_ok {s : State} {p : Nat} (h : s.Inv) (hd : s.cfg.opcodesDistinct) (ho : s.owner = some (.port p))
    (hph : (s.port p).phase = .pErase) (hev : (s.port p).ev = 0) (ha : s.env.answers 5) :
    ∃ t, runHold p s = .next t ∧ t.idleToken ∧ t.xferCount = s.xferCount ∧
      t.port p =
        { s.port p with
          k := (s.port p).k + 1
          ev := 7
          phase := if (s.port p).k + 1 < (s.port p).eraseUnits s.cfg then .pWaitErase else .pWaitProg } ∧
      performs s t (.port p) (eraseFrame s.cfg ((s.port p).gran s.cfg) ((s.port p).eraseAddr s.cfg)) ∧
      sameBeyondHold p s t ∧ t.env.draws = s.env.draws.drop 5 ∧ t.env.allocs = s.env.allocs ∧
      (s.env.kind = .ref →
        t.env.chip.fl =
          s.env.chip.fl.erase ((s.port p).eraseAddr s.cfg).toNat ((s.port p).gran s.cfg)) ∧
      (s.env.kind = .any → t.env.chip = s.env.chip) := by
  obtain ⟨hw, hk⟩ := writes_of_erase h hph
  obtain ⟨i, hpart, -, -, hgr, -, -, -, hmod, -, hend, hle, hfl⟩ := erase_facts h.cfgWf hw hk
  obtain ⟨hp, -, -, -⟩ := h.hold p ho
  have hl := holdList_erase (cfg := s.cfg) hpart hph
  have hrun := chipRun_eraseFrame hd hgr s.env.chip hmod (by omega)
  obtain ⟨rd, t, ht, hran⟩ := runHold_last h ho hev (by rw [hl]; exact ha) (fun _ => ⟨_, by rw [hl]; exact hrun⟩)
  have hport := hran.port hp
  have hidle := endHold_idle hran hp (by rw [hph]; rfl)
    (by rw [sel_at_start h ho hev]; exact holdList_sel s.cfg (s.port p))
  have hbey := hran.beyond
  have hperf := hran.performs
  have hlen : p < t.ctx.length := by rw [hbey.ports]; exact hp
  obtain ⟨b1, b2, b3, -⟩ := endHold_beyond (s := t) (p := p) hlen (by rw [hport]; simp [hph, holdState])
  obtain ⟨chip, ix, calls, hte, c1, c2, -, -, hrd⟩ := hran
  have hrd := hrd (by rw [hph]; simp)
  have hend : t.endHold p = t.endErase p := by
    unfold State.endHold
    rw [hport]
    simp only [hph]
  refine ⟨t.endHold p, ht, hidle, ?_, ?_, ?_, hbey.trans b1, ?_, ?_, ?_, ?_⟩
  · rw [hend, hte]; rfl
  · rw [hend]
    unfold State.endErase
    have hcfg : t.cfg = s.cfg := hbey.cfg
    rw [port_setPort_self (by exact hlen), hcfg]
    have hpr : t.release.port p = t.port p := rfl
    rw [hpr, hport, hrd, hl, hev]
    simp only [List.append_nil, length_eraseFrame, Nat.zero_add]
    rfl
  · rw [hl] at hperf
    obtain ⟨cs, e1, e2⟩ := hperf
    exact ⟨cs, by rw [b2, e1], e2⟩
  · rw [b3, hte, hl]; rfl
  · rw [b3, hte]; rfl
  · intro hk
    have := c2 hk
    rw [hl, hrun] at this
    rw [b3, hte]
    simp only [Option.some.injEq] at this
    rw [eventsLeave, ← this]
  · intro hk
    rw [b3, hte]
    exact c1 hk

/-- The counter after the end action of a transfer (R26, R217). -/
theorem credited_of_part {cfg : Config} {c : Ctx} (h : c.part = owner cfg c.addr.toNat) (hl : c.lenNat = c.len.toNat)
    (x : Word) :
    credited cfg c.addr c.lenNat x (if c.inConfig cfg then countAdd x c.len else x) := by
  unfold credited Ctx.inConfig Ctx.partition
  rw [h, hl]
  cases ho : owner cfg c.addr.toNat with
  | none => simp
  | some i =>
    by_cases hr : (cfg.pt.get i).role = .config
    · simp [hr, countAdd]
    · simp [hr]

/-- What the end action of a transfer leaves (R180, R193). -/
theorem endHold_transfer {s : State} {p : Nat} (hp : p < s.ctx.length)
    (hph : (s.port p).phase = .pProg ∨ (s.port p).phase = .pRead) :
    ∃ buf, (s.endHold p).port p =
        (s.port p).done .ok (s.port p).len (if (s.port p).op ≠ opRead then [] else (s.port p).rdata) buf ∧
      ((s.port p).bufHeld = false → buf = (s.port p).buf) ∧
      (s.endHold p).xferCount =
        (if (s.port p).inConfig s.cfg then countAdd s.xferCount (s.port p).len else s.xferCount) := by
  have hend : s.endHold p = s.completeTransfer p := by
    unfold State.endHold
    rcases hph with h | h <;> simp only [h]
  rw [hend]
  obtain ⟨ctx, ix, buf, hE, -, -, hport⟩ := completeTransfer_cases hp
  by_cases hb : (s.port p).bufHeld = false
  · refine ⟨(s.port p).buf, ?_, fun _ => rfl, by rw [hE]⟩
    unfold State.completeTransfer
    have hpr : (s.release.creditTransfer p).port p = s.port p := port_of_ctx (creditTransfer_ctx _ _) p
    rw [finish_port_done_of_free (by rw [creditTransfer_ctx]; exact hp) (by rw [hpr]; exact hb), hpr]
    simp
  · exact ⟨buf, by rw [hport]; rfl, fun e => absurd e hb, by rw [hE]⟩

/-- A program hold, from its first event (R177, R180, R70). -/
theorem progHold_ok {s : State} {p : Nat} (h : s.Inv) (ho : s.owner = some (.port p))
    (hph : (s.port p).phase = .pProg) (hev : (s.port p).ev = 0)
    (ha : s.env.answers (asked (progList s.cfg (s.port p).addr (s.port p).buf (s.port p).lenNat))) :
    ∃ t buf, runHold p s = .next t ∧ t.idleToken ∧
      credited s.cfg (s.port p).addr (s.port p).lenNat s.xferCount t.xferCount ∧
      t.port p =
        { s.port p with
          ev := (progList s.cfg (s.port p).addr (s.port p).buf (s.port p).lenNat).length }.done
            .ok (s.port p).len [] buf ∧
      performs s t (.port p) (progList s.cfg (s.port p).addr (s.port p).buf (s.port p).lenNat) ∧
      sameBeyondHold p s t ∧
      (s.env.kind = .ref →
        t.env.chip.fl = s.env.chip.fl.program (s.port p).addr.toNat (s.port p).buf) ∧
      (s.env.kind = .any → t.env.chip = s.env.chip) := by
  obtain ⟨hw, hk⟩ := writes_of_prog h hph
  obtain ⟨i, hpart, -, -, -, hl2, -⟩ := hw.facts h.cfgWf
  obtain ⟨hp, -, -, -⟩ := h.hold p ho
  have hl := holdList_prog (cfg := s.cfg) hpart hph
  obtain ⟨d, hrun, hdfl⟩ := chipRun_progList h.cfgWf hw s.env.chip
  obtain ⟨rd, t, ht, hran⟩ := runHold_last h ho hev (by rw [hl]; exact ha) (fun _ => ⟨_, by rw [hl]; exact hrun⟩)
  have hport := hran.port hp
  have hidle := endHold_idle hran hp (by rw [hph]; rfl)
    (by rw [sel_at_start h ho hev]; exact holdList_sel s.cfg (s.port p))
  have hbey := hran.beyond
  have hperf := hran.performs
  have hlen : p < t.ctx.length := by rw [hbey.ports]; exact hp
  obtain ⟨b1, b2, b3, -⟩ := endHold_beyond (s := t) (p := p) hlen (by rw [hport]; simp [hph, holdState])
  obtain ⟨buf, t1, -, t3⟩ := endHold_transfer (s := t) (p := p) hlen (.inl (by rw [hport]; exact hph))
  have hcfg : t.cfg = s.cfg := hbey.cfg
  obtain ⟨chip, ix, calls, hte, c1, c2, -, -, hrd⟩ := hran
  have hrd := hrd (by rw [hph]; simp)
  have hxf : t.xferCount = s.xferCount := by rw [hte]; rfl
  refine ⟨t.endHold p, buf, ht, hidle, ?_, ?_, ?_, hbey.trans b1, ?_, ?_⟩
  · rw [t3, hcfg, hxf, hport]
    exact credited_of_part (c := { s.port p with rdata := _, ev := _ }) hw.part hl2 s.xferCount
  · rw [t1, hport, hl, hev]
    have hop : (s.port p).op ≠ opRead := by rw [hw.op]; decide
    simp only [Nat.zero_add, hop, ne_eq, not_false_eq_true, if_true]
    rfl
  · rw [hl] at hperf
    obtain ⟨cs, e1, e2⟩ := hperf
    exact ⟨cs, by rw [b2, e1], e2⟩
  · intro hk
    have := c2 hk
    rw [hl, hrun] at this
    simp only [Option.some.injEq] at this
    rw [b3, hte, ← hdfl, this]
    rfl
  · intro hk
    rw [b3, hte]
    exact c1 hk

end Sys2Proof.Machine
end

