-- ==== Sys2Proof/Laws/Frames.lean ====
section
/-! SUPPORT. What the frame of a hold looks like on the wire at any of its events (40 R118, 43 R161, 44 R176, 45 R192): a
prefix of opcode, address and data; and the bytes each frame writes in all. -/

namespace Sys2Proof.Machine

/-- Where no select comes, the open frame grows by the bytes written. -/
theorem wire_foldl_frame {l : List Event} (h : ∀ e ∈ l, e ≠ .sel) (w : Wire) : (l.foldl Wire.after w).frame =
    w.frame ++ bytesWritten l := by
  induction l generalizing w with
  | nil => simp [bytesWritten]
  | cons e l ih =>
    rw [List.foldl_cons, ih (fun x hx => h x (List.mem_cons_of_mem _ hx))]
    cases e with
    | sel => exact absurd rfl (h _ (List.mem_cons_self ..))
    | _ => simp [Wire.after, bytesWritten]

/-- A list that opens with its only select: the open frame is a prefix of the bytes it writes. -/
theorem wire_frame_prefix {l : List Event} (h : ∀ e ∈ l, e ≠ .sel) (n : Nat) :
    (wireOf ((Event.sel :: l).take n)).frame <+: bytesWritten l := by
  cases n with
  | zero => exact List.nil_prefix
  | succ n =>
    have : (wireOf ((Event.sel :: l).take (n + 1))).frame = bytesWritten (l.take n) := by
      rw [List.take_succ_cons]
      unfold wireOf
      rw [List.foldl_cons, wire_foldl_frame (fun e he => h e (List.mem_of_mem_take he))]
      simp [Wire.after]
    rw [this]
    unfold bytesWritten
    exact (List.take_prefix n l).filterMap _

theorem bytesWritten_append (l m : List Event) : bytesWritten (l ++ m) = bytesWritten l ++ bytesWritten m :=
    by simp [bytesWritten]

theorem dataEvents_no_sel : ∀ (d : List Byte) (j : Nat), ∀ e ∈ dataEvents j d, e ≠ .sel := by
  intro d
  induction d with
  | nil => intro j e he; simp [dataEvents] at he
  | cons b d ih =>
    intro j e he
    simp only [dataEvents, List.mem_cons, List.mem_append] at he
    rcases he with rfl | he | he
    · simp
    · split at he
      · simp only [List.mem_singleton] at he; subst he; simp
      · simp at he
    · exact ih _ e he

theorem bytesWritten_dataEvents : ∀ (d : List Byte) (j : Nat), bytesWritten (dataEvents j d) = d := by
  intro d
  induction d with
  | nil => intro j; rfl
  | cons b d ih =>
    intro j
    have := ih (j + 1)
    unfold bytesWritten at this ⊢
    simp only [dataEvents, List.filterMap_cons, List.filterMap_append]
    rw [this]
    split <;> rfl

/-- A program cycle after its select. -/
def cycleTail (c : Config) (a : Addr24) (d : List Byte) : List Event :=
  .wb c.opcProgram :: ((addrBytes a).map Event.wb ++ dataEvents 0 d ++ [.desel, .wi .busy])

theorem progCycle_eq_tail (c : Config) (a : Addr24) (d : List Byte) : progCycle c a d = .sel :: cycleTail c a d := by
  simp [progCycle, frameHead, cycleTail]

theorem cycleTail_no_sel (c : Config) (a : Addr24) (d : List Byte) : ∀ e ∈ cycleTail c a d, e ≠ .sel := by
  intro e he
  simp only [cycleTail, List.mem_cons, List.mem_append, List.mem_map, List.not_mem_nil, or_false] at he
  rcases he with rfl | (⟨b, -, rfl⟩ | he) | rfl | rfl
  · simp
  · simp
  · exact dataEvents_no_sel _ _ e he
  · simp
  · simp

theorem bytesWritten_cycleTail (c : Config) (a : Addr24) (d : List Byte) : bytesWritten (cycleTail c a d) =
    c.opcProgram :: (addrBytes a ++ d) := by
  have : cycleTail c a d = [.wb c.opcProgram] ++ (addrBytes a).map Event.wb ++ dataEvents 0 d ++ [.desel,
      .wi .busy] := by simp [cycleTail]
  rw [this, bytesWritten_append, bytesWritten_append, bytesWritten_append, bytesWritten_dataEvents]
  simp [bytesWritten, addrBytes]

/-- The bytes of a PROGRAM frame (R90, R176). -/
theorem bytesWritten_progCycle (c : Config) (a : Addr24) (d : List Byte) :
    bytesWritten (progCycle c a d) = c.opcProgram :: (addrBytes a ++ d) := by
  rw [progCycle_eq_tail, ← bytesWritten_cycleTail]; rfl

theorem progCycle_frame (c : Config) (a : Addr24) (d : List Byte) (n : Nat) :
    (wireOf ((progCycle c a d).take n)).frame <+: c.opcProgram :: (addrBytes a ++ d) := by
  rw [progCycle_eq_tail, ← bytesWritten_cycleTail]
  exact wire_frame_prefix (cycleTail_no_sel c a d) n

/-- Inside a list of program cycles the open frame is a prefix of one of the cycles. -/
theorem cycles_frame {c : Config} : ∀ (os : List (Addr24 × List Byte)) (n : Nat), os ≠ [] → ∃ o ∈ os,
    (wireOf ((os.flatMap (fun o => progCycle c o.1 o.2)).take n)).frame <+: c.opcProgram :: (addrBytes o.1 ++ o.2) :=
    by
  intro os
  induction os with
  | nil => intro n h; exact absurd rfl h
  | cons o os ih =>
    intro n _
    rw [List.flatMap_cons, List.take_append]
    by_cases hos : os = [] ∨ n ≤ (progCycle c o.1 o.2).length
    · refine ⟨o, List.mem_cons_self .., ?_⟩
      have : List.take (n - (progCycle c o.1 o.2).length) (os.flatMap (fun o => progCycle c o.1 o.2)) = [] := by
        rcases hos with rfl | h
        · simp
        · simp [Nat.sub_eq_zero_of_le h]
      rw [this, List.append_nil]
      exact progCycle_frame _ _ _ _
    · simp only [not_or, Nat.not_le] at hos
      obtain ⟨o', ho', hp⟩ := ih (n - (progCycle c o.1 o.2).length) hos.1
      refine ⟨o', List.mem_cons_of_mem _ ho', ?_⟩
      rw [wireOf_append]
      obtain ⟨x, xs, rfl⟩ := List.exists_cons_of_ne_nil hos.1
      obtain ⟨k, hk⟩ : ∃ k, n - (progCycle c o.1 o.2).length = k + 1 := ⟨_, (Nat.succ_pred_eq_of_pos (by omega)).symm⟩
      rw [hk] at hp ⊢
      rw [List.flatMap_cons, progCycle_eq_tail c x.1 x.2, List.cons_append, List.take_succ_cons] at hp ⊢
      rw [wire_foldl_sel]
      exact hp

/-- A read frame after its select. -/
def readTail (op : Byte) (dummy : Bool) (a : Addr24) (n : Nat) : List Event :=
  .wb op :: ((addrBytes a).map Event.wb ++ List.replicate (n + (if dummy then 1 else 0)) .rb ++ [.desel])

theorem readFrame_eq_tail (op : Byte) (dummy : Bool) (a : Addr24) (n : Nat) : readFrame op dummy a n =
    .sel :: readTail op dummy a n := by
  rw [readFrame_eq]; simp [frameHead, readTail]

theorem readTail_no_sel (op : Byte) (dummy : Bool) (a : Addr24) (n : Nat) : ∀ e ∈ readTail op dummy a n, e ≠ .sel :=
    by
  intro e he
  simp only [readTail, List.mem_cons, List.mem_append, List.mem_map, List.mem_replicate, List.not_mem_nil,
      or_false] at he
  rcases he with rfl | (⟨b, -, rfl⟩ | ⟨-, rfl⟩) | rfl <;> simp

theorem bytesWritten_readTail (op : Byte) (dummy : Bool) (a : Addr24) (n : Nat) :
    bytesWritten (readTail op dummy a n) = op :: addrBytes a := by
  have : readTail op dummy a n = [.wb op] ++ (addrBytes a).map Event.wb ++ List.replicate
      (n + (if dummy then 1 else 0)) .rb ++ [.desel] := by simp [readTail]
  rw [this, bytesWritten_append, bytesWritten_append, bytesWritten_append]
  have : ∀ m, bytesWritten (List.replicate m .rb) = [] := by
    intro m; induction m with
    | zero => rfl
    | succ m ih => rw [List.replicate_succ]; exact ih
  rw [this]
  simp [bytesWritten, addrBytes]

/-- The bytes of a FAST_READ or READ_SLOW frame (R90, R192). -/
theorem bytesWritten_readFrame (op : Byte) (dummy : Bool) (a : Addr24) (n : Nat) :
    bytesWritten (readFrame op dummy a n) = op :: addrBytes a := by
  rw [readFrame_eq_tail, ← bytesWritten_readTail op dummy a n]; rfl

/-- The frames of a hold: opcode, address, data. -/
def Ctx.wires (cfg : Config) (c : Ctx) : List (Byte × Addr24 × List Byte) :=
  match c.phase with
  | .pErase => [(cfg.opcEraseOf (c.gran cfg), c.eraseAddr cfg, [])]
  | .pProg => (progOperands c.addr c.buf c.lenNat).map (fun o => (cfg.opcProgram, o.1, o.2))
  | .pRead => [(if cfg.useFastRead then cfg.opcFastRead else cfg.opcReadSlow, flashAddr c.addr 0, [])]
  | _ => []

/-- At any event of a hold the open frame is a prefix of one of its frames. -/
theorem hold_frame {cfg : Config} (hw : cfg.wf) {c : Ctx} (hg : c.Good cfg) (hh : (holdState c.phase).isSome) (n :
    Nat) :
   ∃ f ∈ Ctx.wires cfg c, (wireOf ((c.holdList cfg).take n)).frame <+: f.1 :: (addrBytes f.2.1 ++ f.2.2) := by
  have h2 := hg.2
  cases hph : c.phase <;> simp [hph, holdState] at hh h2
  · obtain ⟨i, hp, -⟩ := h2.1.facts hw
    rw [holdList_erase hp hph]
    simp only [Ctx.wires, hph, List.mem_singleton, exists_eq_left, List.append_nil]
    unfold eraseFrame
    exact wire_frame_prefix (l := .wb (cfg.opcEraseOf (c.gran cfg)) :: ((addrBytes
        (c.eraseAddr cfg)).map Event.wb ++ [.desel, .wi .busy])) (by simp [addrBytes]) n
  · obtain ⟨i, hp, -, -, hl, -⟩ := h2.1.facts hw
    rw [holdList_prog hp hph]
    simp only [Ctx.wires, hph]
    unfold progList
    obtain ⟨o, ho, hf⟩ := cycles_frame (c := cfg) (progOperands c.addr c.buf c.lenNat) n (by
      intro e
      have := length_progOperands c.addr c.buf c.lenNat
      rw [e] at this
      simp only [List.length_nil] at this
      omega)
    exact ⟨_, List.mem_map.2 ⟨o, ho, rfl⟩, hf⟩
  · obtain ⟨i, hp, -⟩ := h2.1.facts hw
    rw [holdList_read hp hph]
    simp only [Ctx.wires, hph, List.mem_singleton, exists_eq_left, List.append_nil]
    rw [readFrame_eq_tail, ← bytesWritten_readTail]
    exact wire_frame_prefix (readTail_no_sel _ _ _ _) n

/-- The IDENT frame opens with one byte. -/
theorem identFrame_frame (cfg : Config) (n : Nat) : (wireOf ((identFrame cfg).take n)).frame.length ≤ 1 := by
  have := wire_frame_prefix (l := [.wb cfg.opcIdent, .rb, .rb, .rb, .desel]) (by simp) n
  have := this.length_le
  exact this

/-- Every hold opens with a select. -/
theorem sel_first {cfg : Config} (hw : cfg.wf) {c : Ctx} (hg : c.Good cfg) (hh : (holdState c.phase).isSome)
    {e} (he : (c.holdList cfg)[0]? = some e) : e = .sel := by
  have h2 := hg.2
  cases hph : c.phase <;> simp [hph, holdState] at hh h2
  · obtain ⟨i, hp, -⟩ := h2.1.facts hw
    rw [holdList_erase hp hph] at he; cases he; rfl
  · obtain ⟨i, hp, -⟩ := h2.1.facts hw
    rw [holdList_prog hp hph] at he
    unfold progList at he
    cases ho : progOperands c.addr c.buf c.lenNat with
    | nil => rw [ho] at he; simp at he
    | cons o os => rw [ho, List.flatMap_cons, progCycle_eq_tail] at he; simpa using he.symm
  · obtain ⟨i, hp, -⟩ := h2.1.facts hw
    rw [holdList_read hp hph, readFrame_eq_tail] at he; simpa using he.symm

end Sys2Proof.Machine
end

