-- ==== Sys2Proof/Laws/Desel.lean ====
section
/-! SUPPORT. What the reference chip can do in a hold, at any of its events and whatever was cut off (20_memory R70, 00_scope
R16 (2)): a deselect changes bytes of the hold's own region alone, and a read is of a byte that exists. -/

namespace Sys2Proof.Machine

/-- The bytes a hold may change: its erase unit, or the payload range of a program hold. -/
def Ctx.region (cfg : Config) (c : Ctx) : Nat × Nat :=
  match c.phase with
  | .pErase => ((c.eraseAddr cfg).toNat, (c.eraseAddr cfg).toNat + c.gran cfg)
  | .pProg => (c.addr.toNat, c.addr.toNat + c.lenNat)
  | _ => (0, 0)

/-- The chip after a deselect: the same but for flash bytes in a range, the canonical form kept. -/
def deselOk (lo hi : Nat) (c d : Chip) : Prop :=
  d.frame = c.frame ∧ d.reads = c.reads ∧ d.chipId = c.chipId ∧ (c.fl.wf → d.fl.wf ∧ ∀ a, (a < lo ∨ hi ≤ a) →
      d.fl.read a = c.fl.read a)

theorem deselOk.refl {lo hi} (c : Chip) : deselOk lo hi c c := ⟨rfl, rfl, rfl, fun h => ⟨h, fun _ _ => rfl⟩⟩

/-- A PROGRAM frame that was cut off programs the bytes that were sent. -/
theorem desel_program_prefix {cfg : Config} (hc : cfg.opcodesDistinct) {a : Addr24} {d : List Byte} {c : Chip}
    {lo hi : Nat} (hp : c.frame <+: cfg.opcProgram :: (addrBytes a ++ d))
   (h1 : lo ≤ a.toNat) (h2 : a.toNat + d.length ≤ hi) (h3 : hi ≤ flashSize) : ∃ x, c.desel cfg = some x ∧
       deselOk lo hi c x := by
  by_cases hl : c.frame.length ≤ 4
  · rw [desel_none (fun h op hop => ?_) (fun h => by omega)]
    · exact ⟨c, rfl, deselOk.refl c⟩
    · refine eraseGran_other hc ?_
      obtain ⟨t, ht⟩ := hp
      cases hf : c.frame with
      | nil => rw [hf] at hop; simp at hop
      | cons x xs =>
        rw [hf] at hop ht
        simp only [List.head?_cons, Option.mem_some_iff] at hop
        simp only [List.cons_append, List.cons.injEq] at ht
        rw [← hop, ht.1]; simp
  · obtain ⟨e, he⟩ : ∃ e, c.frame = cfg.opcProgram :: (addrBytes a ++ e) ∧ e <+: d ∧ e ≠ [] := by
      have h5 := List.prefix_iff_eq_take.1 hp
      have : c.frame = cfg.opcProgram :: (addrBytes a ++ d.take (c.frame.length - 4)) := by
        obtain ⟨k, hk⟩ : ∃ k, c.frame.length = k + 4 := ⟨c.frame.length - 4, by omega⟩
        rw [h5, hk]
        simp [addrBytes, List.take_succ_cons]
      refine ⟨_, this, List.take_prefix _ _, ?_⟩
      intro e
      rw [e] at this
      rw [this] at hl
      simp [addrBytes] at hl
    obtain ⟨he, hpre, hne⟩ := he
    have hlen := hpre.length_le
    rw [desel_program he hne (by omega)]
    refine ⟨_, rfl, rfl, rfl, rfl, fun hwf => ⟨Mem.program_wf hwf (by omega), fun b hb => ?_⟩⟩
    simp only
    rw [Mem.read_program hwf (by omega), if_neg (by omega)]

/-- A deselect at any event of a hold. -/
theorem desel_hold {cfg : Config} (hw : cfg.wf) (hc : cfg.opcodesDistinct) {x : Ctx} (hg : x.Good cfg) (hh :
    (holdState x.phase).isSome) {n : Nat} {c : Chip}
    (hf : c.frame = (wireOf ((x.holdList cfg).take n)).frame) : ∃ d, c.desel cfg = some d ∧
        deselOk (Ctx.region cfg x).1 (Ctx.region cfg x).2 c d := by
  obtain ⟨f, hm, hp⟩ := hold_frame hw hg hh n
  rw [← hf] at hp
  have h2 := hg.2
  cases hph : x.phase <;> simp [hph, holdState] at hh h2
  · simp only [Ctx.wires, hph, List.mem_singleton] at hm
    subst hm
    simp only [List.append_nil] at hp
    obtain ⟨i, -, -, -, hgm, hgp, -, haddr, hmod, -, hend, hle, hfl⟩ := erase_facts hw h2.1 h2.2
    by_cases hl : c.frame.length = 4
    · have := hp.eq_of_length (by rw [hl]; simp [addrBytes])
      rw [desel_erase hc hgm this hmod (by omega)]
      refine ⟨_, rfl, rfl, rfl, rfl, fun hwf => ⟨Mem.erase_wf hwf _ _, fun a ha => ?_⟩⟩
      simp only [Ctx.region, hph] at ha ⊢
      rw [Mem.read_erase, if_neg (by omega)]
    · have hlt := hp.length_le
      simp only [List.length_cons, addrBytes, List.length_nil] at hlt
      rw [desel_none (fun h => absurd h hl) (fun h => by omega)]
      exact ⟨c, rfl, deselOk.refl c⟩
  · simp only [Ctx.wires, hph, List.mem_map] at hm
    obtain ⟨o, ho, rfl⟩ := hm
    obtain ⟨f1, f2, f3⟩ := prog_facts hw h2.1 ho
    obtain ⟨_, _, _, _, _, _, _, _, hs, _, _, hwf⟩ := h2.1.facts hw
    have := hwf.2.1
    simp only [Ctx.region, hph]
    exact desel_program_prefix hc hp f2 f3 (by omega)
  · simp only [Ctx.wires, hph, List.mem_singleton] at hm
    subst hm
    simp only [List.append_nil] at hp
    rw [desel_none (fun h op hop => ?_) (fun h => ?_)]
    · exact ⟨c, rfl, deselOk.refl c⟩
    · refine eraseGran_other hc ?_
      have := hp.eq_of_length (by rw [h]; simp [addrBytes])
      rw [this] at hop
      simp only [List.head?_cons, Option.mem_some_iff] at hop
      subst hop
      split <;> simp
    · have hlt := hp.length_le
      simp only [List.length_cons, addrBytes, List.length_nil] at hlt
      omega

/-- A read at any event of a hold. -/
theorem answer_hold {cfg : Config} (hw : cfg.wf) (hc : cfg.opcodesDistinct) {x : Ctx} (hg : x.Good cfg) (hh :
    (holdState x.phase).isSome) {n : Nat} {c : Chip}
    (hf : c.frame = (wireOf ((x.holdList cfg).take n)).frame) (hr : c.reads =
        (wireOf ((x.holdList cfg).take n)).reads)
    (he : (x.holdList cfg)[n]? = some .rb) : c.answer cfg ≠ .absent := by
  have h2 := hg.2
  cases hph : x.phase <;> simp [hph, holdState] at hh h2
  · exfalso
    obtain ⟨i, hp, -⟩ := h2.1.facts hw
    rw [holdList_erase hp hph] at he
    have := List.mem_of_getElem? he
    simp [eraseFrame, frameHead, addrBytes] at this
  · exfalso
    obtain ⟨i, hp, -⟩ := h2.1.facts hw
    rw [holdList_prog hp hph] at he
    have hm := List.mem_of_getElem? he
    simp only [progList, List.mem_flatMap] at hm
    obtain ⟨o, -, hm⟩ := hm
    have : ∀ (d : List Byte) (j : Nat), Event.rb ∉ dataEvents j d := by
      intro d
      induction d with
      | nil => intro j; simp [dataEvents]
      | cons b d ih =>
        intro j; simp only [dataEvents, List.mem_cons, List.mem_append, not_or]
        refine ⟨by simp, ?_, ih _⟩
        split <;> simp
    simp [progCycle, frameHead, addrBytes, this] at hm
  · obtain ⟨i, hp, -⟩ := h2.1.facts hw
    obtain ⟨ha, hb⟩ := read_facts hw h2.1
    rw [holdList_read hp hph] at he hf hr
    have hlt : n < (readFrame (if cfg.useFastRead then cfg.opcFastRead else cfg.opcReadSlow) cfg.useFastRead
        (flashAddr x.addr 0) x.lenNat).length := by
      by_contra hx; rw [List.getElem?_eq_none (by omega)] at he; cases he
    have h5 := readFrame_get_rb he
    rw [readFrame_reads_take hlt] at hr
    have hlen := hlt
    rw [length_readFrame] at hlen
    have hne : n ≠ x.lenNat + 5 + (if cfg.useFastRead then 1 else 0) := by
      intro e
      rw [readFrame_eq, List.getElem?_append_right (by simp; omega)] at he
      simp only [List.length_append, length_frameHead, List.length_replicate] at he
      rw [show n - (5 + (x.lenNat + if cfg.useFastRead = true then 1 else 0)) = 0 by omega] at he
      cases he
    have hfr : (wireOf ((readFrame (if cfg.useFastRead then cfg.opcFastRead else cfg.opcReadSlow) cfg.useFastRead
        (flashAddr x.addr 0) x.lenNat).take n)).frame =
        (if cfg.useFastRead then cfg.opcFastRead else cfg.opcReadSlow) :: addrBytes (flashAddr x.addr 0) := by
      rw [readFrame_eq]
      obtain ⟨k, rfl⟩ : ∃ k, n = 5 + k := ⟨n - 5, by omega⟩
      have : ((frameHead (if cfg.useFastRead then cfg.opcFastRead else cfg.opcReadSlow)
          (flashAddr x.addr 0)) ++ List.replicate (x.lenNat + if cfg.useFastRead =
          true then 1 else 0) Event.rb ++ [Event.desel]).take (5 + k) = frameHead
          (if cfg.useFastRead then cfg.opcFastRead else cfg.opcReadSlow) (flashAddr x.addr 0) ++
          (List.replicate (x.lenNat + if cfg.useFastRead =
          true then 1 else 0) Event.rb ++ [Event.desel]).take k := by
        rw [List.append_assoc, List.take_append]; simp
      rw [this, wireOf_append, wire_foldl_frame]
      · have : bytesWritten (List.take k (List.replicate (x.lenNat + if cfg.useFastRead =
          true then 1 else 0) Event.rb ++ [Event.desel])) = [] := by
          unfold bytesWritten
          rw [List.filterMap_eq_nil_iff]
          intro e he
          have := List.mem_of_mem_take he
          simp only [List.mem_append, List.mem_replicate, List.mem_singleton] at this
          rcases this with ⟨-, rfl⟩ | rfl <;> rfl
        rw [this]
        rfl
      · intro e he
        have := List.mem_of_mem_take he
        simp only [List.mem_append, List.mem_replicate, List.mem_singleton] at this
        rcases this with ⟨-, rfl⟩ | rfl <;> simp
    rw [hfr] at hf
    cases hu : cfg.useFastRead with
    | true =>
      rw [hu] at hf hlen hne
      simp only [if_true] at hf hlen hne
      rw [answer_fastRead hf]
      split
      · simp
      · unfold Chip.flash; rw [if_pos (by rw [ha]; omega)]; simp
    | false =>
      rw [hu] at hf hlen hne
      simp only [Bool.false_eq_true, if_false] at hf hlen hne
      rw [answer_readSlow hc hf]
      unfold Chip.flash; rw [if_pos (by rw [ha]; omega)]; simp

/-- A deselect keeps the canonical form of the flash. -/
theorem desel_wf {cfg : Config} {c d : Chip} (hw : c.fl.wf) (h : c.desel cfg = some d) : d.fl.wf := by
  unfold Chip.desel at h
  split at h
  · split at h
    · dsimp only at h
      split at h
      · cases h; exact Mem.erase_wf hw _ _
      · cases h
    · cases h; exact hw
  · split at h
    · dsimp only at h
      split at h
      · cases h; exact Mem.program_wf hw ‹_›
      · cases h
    · cases h; exact hw
  · cases h; exact hw

/-- A call keeps the canonical form of the flash. -/
theorem chipAfter_wf {cfg : Config} {e r c d} (hw : c.fl.wf) (h : chipAfter cfg .ref e r c d) : d.fl.wf := by
  cases e with
  | sel => simp only [chipAfter] at h; rw [h]; exact hw
  | wb b => simp only [chipAfter] at h; rw [h]; split <;> exact hw
  | rb => simp only [chipAfter] at h; rw [h]; split <;> exact hw
  | wi k => simp only [chipAfter] at h; rw [h]; exact hw
  | desel => exact desel_wf hw h

/-- What the chip has seen of the open frame, one event further. -/
theorem chipAfter_wire {cfg : Config} {e r c d} {l : List Event} {n : Nat} (he : l[n]? = some e) (hr : r ≠ .timeout)
    (h0 : n = 0 → e = .sel)
    (hf : n ≠ 0 → c.frame = (wireOf (l.take n)).frame ∧ c.reads = (wireOf (l.take n)).reads)
    (h : chipAfter cfg .ref e r c d) : d.frame = (wireOf (l.take (n + 1))).frame ∧ d.reads =
        (wireOf (l.take (n + 1))).reads := by
  rw [wireOf_take_succ he]
  by_cases hn : n = 0
  · have := h0 hn; subst this
    simp only [chipAfter] at h
    rw [h]; exact ⟨rfl, rfl⟩
  · obtain ⟨f1, f2⟩ := hf hn
    cases e with
    | sel => simp only [chipAfter] at h; rw [h]; exact ⟨rfl, rfl⟩
    | wb b => simp only [chipAfter, if_neg hr] at h; rw [h]; exact ⟨by simp [Chip.accept, Wire.after, f1], f2⟩
    | rb => simp only [chipAfter, if_neg hr] at h; rw [h]; exact ⟨f1, by simp [Chip.countRead, Wire.after, f2]⟩
    | wi k => simp only [chipAfter] at h; rw [h]; exact ⟨f1, f2⟩
    | desel =>
      have : d.frame = c.frame ∧ d.reads = c.reads := by
        simp only [chipAfter] at h
        unfold Chip.desel at h
        repeat' split at h
        all_goals (first | (cases h; exact ⟨rfl, rfl⟩) | cases h | skip)
        all_goals (dsimp only at h; split at h <;> cases h; exact ⟨rfl, rfl⟩)
      exact ⟨this.1.trans f1, this.2.trans f2⟩

/-- The granularity of a port is that of the partition that owns its address. -/
theorem gran_of_part {cfg : Config} {c : Ctx} (h : c.part = owner cfg c.addr.toNat) : c.gran cfg =
    granAt cfg c.addr := by
  unfold Ctx.gran Ctx.partition granAt; rw [h]; cases owner cfg c.addr.toNat <;> rfl

/-- The region of a hold lies inside one partition that is not Boot (R160, R178, R200). -/
theorem region_inside {cfg : Config} (hw : cfg.wf) {c : Ctx} (hg : c.Good cfg) :
   (Ctx.region cfg c).1 = (Ctx.region cfg c).2 ∨ (c.Writes cfg ∧ ∃ i, c.part = some i ∧ owner cfg c.addr.toNat =
       some i ∧ (cfg.pt.get i).role ≠ .boot ∧ (cfg.pt.get i).start ≤ c.addr.toNat ∧
       c.addr.toNat ≤ (Ctx.region cfg c).1 ∧ (Ctx.region cfg c).2 ≤ eraseEnd cfg c.addr c.len ∧
       eraseEnd cfg c.addr c.len ≤ (cfg.pt.get i).stop) := by
  have h2 := hg.2
  have key : c.Writes cfg → ∃ i, c.part = some i ∧ owner cfg c.addr.toNat = some i ∧ (cfg.pt.get i).role ≠ .boot ∧
      (cfg.pt.get i).start ≤ c.addr.toNat ∧ eraseEnd cfg c.addr c.len ≤ (cfg.pt.get i).stop ∧
      c.addr.toNat + c.lenNat ≤ eraseEnd cfg c.addr c.len ∧ eraseEnd cfg c.addr c.len =
      c.addr.toNat + c.eraseUnits cfg * c.gran cfg := by
    intro w
    obtain ⟨i, hpart, ho, hgr, hlp, hl2, hrole, hst, hsp, hal2, hmax, hwf⟩ := w.facts hw
    have e1 : eraseEnd cfg c.addr c.len = c.addr.toNat + c.eraseUnits cfg * c.gran cfg := by
      unfold eraseEnd Ctx.eraseUnits; rw [gran_of_part w.part]; rfl
    have h1 : 0 < c.gran cfg := by rw [hgr]; exact hwf.2.2.1
    have h3 := ceilDiv_mul_le h1 (by rw [hgr]; exact hal2) (by rw [hgr]; exact hwf.2.2.2.2.2) hsp
    have h4 := le_ceilDiv_mul (len := c.lenNat) h1
    refine ⟨i, hpart, ho, hrole, hst, ?_, ?_, e1⟩
    · rw [e1]; exact h3
    · rw [e1]; unfold Ctx.eraseUnits; omega
  unfold Ctx.region
  cases hph : c.phase <;> simp only [hph] at h2 ⊢
  · exact .inl trivial
  · exact .inl trivial
  · exact .inl trivial
  · right
    obtain ⟨i, k1, k2, k3, k4, k5, k6, k7⟩ := key h2.1
    obtain ⟨j, -, -, -, hgm, hgp, -, haddr, hmod, -, hend, hle, hfl⟩ := erase_facts hw h2.1 h2.2
    exact ⟨h2.1, i, k1, k2, k3, k4, by rw [haddr]; omega, by omega, k5⟩
  · exact .inl trivial
  · right
    obtain ⟨i, k1, k2, k3, k4, k5, k6, k7⟩ := key h2.1
    exact ⟨h2.1, i, k1, k2, k3, k4, Nat.le_refl _, k6, k5⟩
  · exact .inl trivial
  · exact .inl trivial
  · exact .inl trivial

/-- A READ has no region. -/
theorem empty_region {cfg : Config} {c : Ctx} (hg : c.Good cfg) (ho : c.op ≠ 2) : (Ctx.region cfg c).1 =
    (Ctx.region cfg c).2 := by
  have h2 := hg.2
  unfold Ctx.region
  cases hph : c.phase <;> simp only [hph] at h2 ⊢
  · exact absurd h2.1.op ho
  · exact absurd h2.1.op ho

end Sys2Proof.Machine
end

