-- ==== Sys2Proof/Laws/HoldEvent.lean ====
section
/-! SUPPORT. Everything one event of a hold, one event of identification, a decode step or an acquisition can do, said
once. -/

namespace Sys2Proof.Machine

/-- A call that timed out has not reached the chip (R70). -/
theorem transport_timeout_chip {a e s s1} (h : transport a e s = .ok (.timeout, s1)) : s1.env.chip = s.env.chip ∧
    s1.env.kind = s.env.kind ∧ s1.cfg = s.cfg ∧ s1.sel = s.sel := by
  obtain ⟨draws, chip, ix, rfl, hc⟩ := transport_cases h
  have hne : e ≠ .sel ∧ e ≠ .desel := by
    constructor
    · rintro rfl; simp [transport] at h
    · rintro rfl
      simp only [transport] at h
      cases hx : deselCall a s <;> simp [hx, Except.map] at h
  refine ⟨?_, rfl, rfl, by cases e <;> first | rfl | exact absurd rfl hne.1 | exact absurd rfl hne.2⟩
  simp only
  cases hk : s.env.kind with
  | any => rw [hk] at hc; exact hc
  | ref =>
    rw [hk] at hc
    cases e with
    | sel => exact absurd rfl hne.1
    | desel => exact absurd rfl hne.2
    | wb b => simpa [chipAfter] using hc
    | rb => simpa [chipAfter] using hc
    | wi k => exact hc

theorem transport_timeout_event {a e s s1} (h : transport a e s = .ok (.timeout, s1)) : e ≠ .sel :=
    by rintro rfl; simp [transport] at h

/-- A call faults only where the chip would touch a byte that does not exist. -/
theorem transport_fault {a e s f} (h : transport a e s = .error f) : s.env.kind = .ref ∧ ((e = .desel ∧
    s.env.chip.desel s.cfg = none) ∨ (e = .rb ∧ s.env.chip.answer s.cfg = .absent)) := by
  cases e with
  | sel => cases h
  | wb b => cases h
  | wi k => cases h
  | desel =>
    simp only [transport, deselCall, Env.desel] at h
    cases hk : s.env.kind with
    | any => simp [hk, Except.map] at h
    | ref =>
      cases hd : s.env.chip.desel s.cfg with
      | none => simp
      | some d => simp [hk, hd, Except.map] at h
  | rb =>
    obtain ⟨draws, ix, hd⟩ := draw_cases s
    simp only [transport, rbCall] at h
    split at h
    · cases h
    · cases h
    · rename_i s1 heq
      rw [heq] at hd
      simp only at hd
      subst hd
      split at h
      · cases h
      · rename_i hr
        unfold State.readByte at hr
        split at hr
        · rename_i hk
          split at hr
          · cases hr
          · cases hr
          · exact ⟨hk, .inr ⟨rfl, ‹_›⟩⟩
        · cases hr

/-- A timeout that is drawn is the answer (R117). -/
theorem transport_timeout {a e} {s : State} (h1 : e ≠ .sel) (h2 : e ≠ .desel) (hd : s.draw.1 = .timeout) :
    transport a e s = .ok (.timeout, s.draw.2.logCall a e .timeout) := by
  rcases hx : s.draw with ⟨d, s1⟩
  rw [hx] at hd; simp only at hd; subst hd
  cases e with
  | sel => exact absurd rfl h1
  | desel => exact absurd rfl h2
  | wb b => simp [transport, wbCall, hx]
  | rb => simp [transport, rbCall, hx]
  | wi k => simp [transport, wiCall, hx]

theorem draw_unchanged (s : State) : s.draw.2.trace = s.trace ∧ s.draw.2.sel = s.sel ∧ s.draw.2.xferCount =
    s.xferCount ∧ s.draw.2.ctx = s.ctx ∧ s.draw.2.holdNo = s.holdNo ∧ s.draw.2.cfg = s.cfg ∧ s.draw.2.env.kind =
    s.env.kind ∧ s.draw.2.env.chip = s.env.chip ∧ s.draw.2.host = s.host := by
  obtain ⟨_, _, e⟩ := draw_cases s
  rw [e]; exact ⟨rfl, rfl, rfl, rfl, rfl, rfl, rfl, rfl, rfl⟩

theorem chipAfter_ref {cfg : Config} {k e r c d} (h : chipAfter cfg k e r c d) (hk : k = .ref) :
    chipAfter cfg .ref e r c d := by subst hk; exact h

theorem chipAfter_id {cfg k e r c d} (hc : chipAfter cfg k e r c d) : d.chipId = c.chipId := by
  unfold chipAfter at hc
  cases k with
  | any => simp only at hc; rw [hc]
  | ref =>
    cases e with
    | sel => rw [hc]; rfl
    | desel => exact chipStep_chipId (e := .desel) hc
    | wb b => rw [hc]; split <;> rfl
    | rb => rw [hc]; split <;> rfl
    | wi k => rw [hc]

/-- Everything one event of a hold can do: answered, the hold goes on or ends; timed out, the failure path. -/
structure EventSummary (p : Nat) (e : Event) (s t : State) : Prop where
  beyond : sameBeyondHold p s t
  request : sameRequest (s.port p) (t.port p)
  part : (t.port p).part = (s.port p).part
  calls : ∃ calls, t.trace = s.trace ++ calls ∧ ∀ c ∈ calls, c.agent = .port p ∧ c.hold = s.holdNo
  holdNo : t.holdNo = s.holdNo
  token : (t.fstate = s.fstate ∧ t.owner = s.owner) ∨ (t.fstate = .ready ∧ t.owner = none)
  k : (s.port p).phase ≠ .pErase → (t.port p).k = (s.port p).k
  phase : (t.port p).phase = (s.port p).phase ∨ ((t.port p).phase = .pDone ∧ t.owner = none) ∨ ((s.port p).phase =
      .pErase ∧ t.owner = none ∧ ((t.port p).phase = .pWaitErase ∨ (t.port p).phase = .pWaitProg))
  record : (t.port p).phase ≠ .pDone → (t.port p).result = (s.port p).result ∧ (t.port p).count = (s.port p).count
  xfer : (t.port p).phase ≠ .pDone ∨ (t.port p).result ≠ .ok → t.xferCount = s.xferCount
  chipAny : s.env.kind = .any → t.env.chip = s.env.chip
  chipRef : s.env.kind = .ref → ∃ r c1, chipAfter s.cfg .ref e r s.env.chip c1 ∧ ((t.env.chip = c1 ∧
      (t.owner ≠ none → r ≠ .timeout)) ∨ (t.owner = none ∧ (c1 = s.env.chip ∧ e ≠ .sel) ∧ c1.desel s.cfg =
      some t.env.chip))

/-- Where a port has an event to perform. -/
theorem nextEvent_some {s : State} {p : Nat} {e : Event} (h : s.nextEvent p = some e) : s.owner = some (.port p) ∧
    p < s.ctx.length ∧ (holdState (s.port p).phase).isSome ∧ ((s.port p).holdList s.cfg)[(s.port p).ev]? = some e :=
    by
  unfold State.nextEvent at h
  split at h
  · rename_i hh
    simp only [State.holds, Bool.and_eq_true, decide_eq_true_eq] at hh
    refine ⟨hh.1, ?_, ?_, h⟩
    · by_contra hn
      have := hh.2
      rw [port_absent (Nat.le_of_not_lt hn)] at this
      cases this
    · by_contra hn
      have : (s.port p).holdList s.cfg = [] := by
        unfold Ctx.holdList
        split
        · rfl
        · cases hph : (s.port p).phase <;> simp [hph, holdState] at hn <;> rfl
      rw [this] at h; cases h
  · cases h

theorem endErase_port {s : State} {p : Nat} (hp : p < s.ctx.length) :
    (s.endErase p).port p =
      { s.port p with
        k := (s.port p).k + 1
        phase := if (s.port p).k + 1 < (s.port p).eraseUnits s.cfg then .pWaitErase else .pWaitProg } := by
  unfold State.endErase
  rw [port_setPort_self (by exact hp)]; rfl

theorem eventStep_summary {p : Nat} {e : Event} {s t : State} (hp : p < s.ctx.length) (hh :
    (holdState (s.port p).phase).isSome) {total : Nat}
    (ht : eventStep p total e s = .next t) : EventSummary p e s t := by
  rcases eventStep_cases ht with ⟨r, s1, htr, hr, rfl⟩ | ⟨s1, htr, hf⟩
  · obtain ⟨draws, chip, ix, rfl, hc⟩ := transport_cases htr
    rw [deliver_eq]
    generalize delivered _ p r = rd
    unfold State.advanceEv
    rw [port_setPort_self (by exact hp)]
    simp only
    rw [setPort_setPort]
    generalize hu : State.setPort _ p (fun c => ({ c with rdata := c.rdata ++ rd, ev := c.ev + 1 } : Ctx)) = u
    have port1 : u.port p = { s.port p with rdata := (s.port p).rdata ++ rd, ev := (s.port p).ev + 1 } :=
        by rw [← hu]; exact port_setPort_self hp _
    have base : EventSummary p e s u := by
      refine ⟨?_, ?_, ?_, ?_, ?_, ?_, ?_, ?_, ?_, ?_, ?_, ?_⟩
      · rw [← hu]; exact ⟨rfl, rfl, rfl, rfl, rfl, length_setPort _ _ _, fun q hq => port_setPort_of_ne hq _, rfl, (by
          show chip.chipId = _
          unfold chipAfter at hc
          cases hk : s.env.kind with
          | any => rw [hk] at hc; rw [hc]
          | ref =>
            rw [hk] at hc
            cases e with
            | sel => rw [hc]; rfl
            | desel => exact chipStep_chipId (e := .desel) hc
            | wb b => rw [hc]; split <;> rfl
            | rb => rw [hc]; split <;> rfl
            | wi k => rw [hc]), rfl⟩
      · rw [port1]; exact ⟨rfl, rfl, rfl, rfl⟩
      · rw [port1]
      · rw [← hu]; exact ⟨_, rfl, by simp⟩
      · rw [← hu]; rfl
      · rw [← hu]; exact .inl ⟨rfl, rfl⟩
      · rw [port1]; exact fun _ => rfl
      · rw [port1]; exact .inl rfl
      · rw [port1]; exact fun _ => ⟨rfl, rfl⟩
      · rw [← hu]; exact fun _ => rfl
      · intro hk; rw [hk] at hc; rw [← hu]; exact hc
      · intro hk; rw [hk] at hc; rw [← hu]; exact ⟨r, chip, hc, .inl ⟨rfl, fun _ => hr⟩⟩
    have hul : p < u.ctx.length := by rw [base.beyond.ports]; exact hp
    split
    · obtain ⟨b1, b2, b3, b4, -⟩ := endHold_beyond (s := u) (p := p) hul (by rw [port1]; exact hh)
      obtain ⟨o1, o2, -⟩ := endHold_owner (s := u) (p := p) hul (by rw [port1]; exact hh)
      have hport : ∃ x, (u.endHold p).port p = x ∧ sameRequest (u.port p) x ∧ x.part = (u.port p).part ∧
          ((s.port p).phase ≠ .pErase → x.k = (u.port p).k) ∧
          ((x.phase = .pDone) ∨ ((s.port p).phase = .pErase ∧ (x.phase = .pWaitErase ∨ x.phase = .pWaitProg))) ∧
          (x.phase ≠ .pDone → x.result = (u.port p).result ∧ x.count = (u.port p).count) ∧ (x.phase ≠ .pDone ∨
              x.result ≠ .ok → (u.endHold p).xferCount = u.xferCount) := by
        cases hph : (s.port p).phase <;> simp [hph, holdState] at hh
        · have : u.endHold p = u.endErase p := by unfold State.endHold; rw [port1]; simp only [hph]
          refine ⟨_, rfl, ?_⟩
          rw [this, endErase_port hul]
          refine ⟨⟨rfl, rfl, rfl, rfl⟩, rfl, fun h => absurd rfl h, .inr ⟨rfl, ?_⟩, fun _ => ⟨rfl, rfl⟩, fun _ => rfl⟩
          simp only; split <;> simp
        · obtain ⟨buf, t1, -⟩ := endHold_transfer (s := u) (p := p) hul (.inl (by rw [port1]; exact hph))
          rw [t1]
          exact ⟨_, rfl, ⟨rfl, rfl, rfl, rfl⟩, rfl, fun _ => rfl, .inl rfl, fun h => absurd rfl h,
              fun h => by rcases h with h | h <;> exact absurd rfl h⟩
        · obtain ⟨buf, t1, -⟩ := endHold_transfer (s := u) (p := p) hul (.inr (by rw [port1]; exact hph))
          rw [t1]
          exact ⟨_, rfl, ⟨rfl, rfl, rfl, rfl⟩, rfl, fun _ => rfl, .inl rfl, fun h => absurd rfl h,
              fun h => by rcases h with h | h <;> exact absurd rfl h⟩
      obtain ⟨x, hx, x1, x2, x3, x4, x5, x6⟩ := hport
      refine ⟨base.beyond.trans b1, ?_, ?_, ?_, ?_, .inr ⟨o2, o1⟩, ?_, ?_, ?_, ?_, ?_, ?_⟩
      · rw [hx]; exact ⟨x1.op.trans base.request.op, x1.addr.trans base.request.addr, x1.len.trans base.request.len,
          x1.payload.trans base.request.payload⟩
      · rw [hx, x2]; exact base.part
      · rw [b2]; exact base.calls
      · rw [b4]; exact base.holdNo
      · rw [hx]; exact fun h => (x3 h).trans (base.k h)
      · rw [hx]; rcases x4 with h | ⟨h, h'⟩
        · exact .inr (.inl ⟨h, o1⟩)
        · exact .inr (.inr ⟨h, o1, h'⟩)
      · rw [hx]; intro h; obtain ⟨a, b⟩ := x5 h; rw [a, b, port1]; exact ⟨rfl, rfl⟩
      · rw [hx]; intro h; rw [x6 h, ← hu]; rfl
      · rw [b3]; exact base.chipAny
      · rw [b3]; intro hk; rw [hk] at hc; rw [← hu]; exact ⟨r, chip, hc, .inl ⟨rfl, fun _ => hr⟩⟩
    · exact base
  · have htc := (transport_timeout_chip htr).1
    have hte := transport_timeout_event htr
    obtain ⟨draws, chip, ix, rfl, hc⟩ := transport_cases htr
    simp only at htc
    obtain ⟨s2, hd, rfl⟩ := failHold_cases hf
    have two : s2.cfg = s.cfg ∧ s2.ctx = s.ctx ∧ s2.identity = s.identity ∧ s2.diag = s.diag ∧ s2.initEv = s.initEv ∧
        s2.initAcc = s.initAcc ∧ s2.host = s.host ∧ s2.holdNo = s.holdNo ∧ s2.xferCount = s.xferCount ∧ s2.env.kind =
        s.env.kind ∧
       (∃ calls, s2.trace = s.trace ++ calls ∧ ∀ c ∈ calls, c.agent = .port p ∧ c.hold = s.holdNo) ∧
       (s.env.kind = .any → s2.env.chip = s.env.chip) ∧ (s.env.kind = .ref → s2.env.chip = chip ∨ chip.desel s.cfg =
           some s2.env.chip) := by
      rcases deselIfSelected_cases hd with ⟨a, rfl⟩ | ⟨a, b⟩
      · refine ⟨rfl, rfl, rfl, rfl, rfl, rfl, rfl, rfl, rfl, rfl, ⟨_, rfl, by simp⟩,
          fun hk => by rw [hk] at hc; exact hc, fun _ => .inl rfl⟩
      · obtain ⟨d2, c2, i2, rfl, hc2⟩ := transport_cases b
        refine ⟨rfl, rfl, rfl, rfl, rfl, rfl, rfl, rfl, rfl, rfl, ⟨[⟨.port p, s.holdNo, e, .timeout⟩, ⟨.port p,
            s.holdNo, .desel, .ok⟩], by simp, by simp⟩, fun hk => ?_, fun hk => ?_⟩
        · simp only [hk, chipAfter] at hc hc2; rw [hc2]; exact hc
        · simp only [hk, chipAfter] at hc2; exact .inr hc2
    obtain ⟨e1, e2, e3, e4, e5, e6, e7, e8, e9, e10, e11, e12, e13⟩ := two
    have hp2 : p < s2.release.ctx.length := by simpa [e2] using hp
    obtain ⟨buf, hb⟩ := finish_port_done hp2 .transportTimeout 0
    have hpp : s2.release.port p = s.port p := by rw [release_port]; exact port_of_ctx e2 p
    rw [hpp] at hb
    have hchip : chip.chipId = s.env.chip.chipId := by
      unfold chipAfter at hc
      cases hk : s.env.kind with
      | any => rw [hk] at hc; rw [hc]
      | ref =>
        rw [hk] at hc
        cases e with
        | sel => rw [hc]; rfl
        | desel => exact chipStep_chipId (e := .desel) hc
        | wb b => rw [hc]; split <;> rfl
        | rb => rw [hc]; split <;> rfl
        | wi k => rw [hc]
    refine ⟨⟨by simp [e1], by simp [e3], by simp [e4], by simp [e5], by simp [e6], by simp [e2], ?_, by simp [e10],
        ?_, by simp [e7]⟩, ?_, ?_, ?_, by simp [e8], .inr ⟨by simp, by simp⟩, ?_, ?_, ?_, ?_, ?_, ?_⟩
    · intro q hq; rw [finish_port_of_ne hq, release_port]; exact port_of_ctx e2 q
    · simp only [finish_env, release_env]
      cases hk : s.env.kind with
      | any => rw [e12 hk]
      | ref =>
        rcases e13 hk with h | h
        · rw [h]; exact hchip
        · rw [← hchip]; exact chipStep_chipId (e := .desel) h
    · rw [hb]; exact ⟨rfl, rfl, rfl, rfl⟩
    · rw [hb]; rfl
    · simpa using e11
    · rw [hb]; exact fun _ => rfl
    · exact .inr (.inl ⟨by rw [hb]; rfl, by simp⟩)
    · rw [hb]; exact fun h => absurd rfl h
    · intro _; simp [e9]
    · simpa using e12
    · intro hk
      have hc' := chipAfter_ref hc hk
      simp only [finish_env, release_env, finish_owner, release_owner]
      rcases e13 hk with h | h
      · exact ⟨_, _, hc', .inl ⟨h, fun ho => absurd rfl ho⟩⟩
      · exact ⟨_, _, hc', .inr ⟨trivial, ⟨htc, hte⟩, h⟩⟩

/-- Everything one event of identification can do. -/
structure InitSummary (s t : State) : Prop where
  beyond0 : t.cfg = s.cfg ∧ t.xferCount = s.xferCount ∧ t.ctx = s.ctx ∧ t.env.kind = s.env.kind ∧ t.env.chip.chipId =
      s.env.chip.chipId ∧ t.host = s.host
  calls : ∃ calls, t.trace = s.trace ++ calls ∧ ∀ c ∈ calls, c.agent = .init ∧ c.hold = s.holdNo
  holdNo : t.holdNo = s.holdNo
  token : (t.fstate = s.fstate ∧ t.owner = s.owner) ∨ (t.fstate = .ready ∧ t.owner = none)

theorem initStep_summary {e s t} (h : initStep e s = .next t) : InitSummary s t := by
  rcases initStep_cases h with ⟨r, s1, htr, hr, rfl⟩ | ⟨s1, htr, hf⟩
  · obtain ⟨draws, chip, ix, rfl, hc⟩ := transport_cases htr
    obtain ⟨acc, ha⟩ := initDeliver_eq { s with
            sel := selAfter e s.sel
            env := { s.env with draws := draws, chip := chip }
            freeIx := ix
            trace := s.trace ++ [⟨.init, s.holdNo, e, r⟩] } r
    rw [ha]; unfold initAdvance
    have := chipAfter_id hc
    split
    · exact ⟨⟨rfl, rfl, rfl, rfl, this, rfl⟩, ⟨_, rfl, by simp⟩, rfl, .inr ⟨rfl, rfl⟩⟩
    · exact ⟨⟨rfl, rfl, rfl, rfl, this, rfl⟩, ⟨_, rfl, by simp⟩, rfl, .inl ⟨rfl, rfl⟩⟩
  · obtain ⟨draws, chip, ix, rfl, hc⟩ := transport_cases htr
    have := chipAfter_id hc
    unfold initFail at hf
    split at hf
    · cases hf
    · rename_i hd; cases hf
      rcases deselIfSelected_cases hd with ⟨a, rfl⟩ | ⟨a, b⟩
      · exact ⟨⟨rfl, rfl, rfl, rfl, this, rfl⟩, ⟨_, rfl, by simp⟩, rfl, .inr ⟨rfl, rfl⟩⟩
      · obtain ⟨_, c2, _, rfl, hc2⟩ := transport_cases b
        refine ⟨⟨rfl, rfl, rfl, rfl, (chipAfter_id hc2).trans this, rfl⟩, ⟨[⟨.init, s.holdNo, e, .timeout⟩, ⟨.init,
            s.holdNo, .desel, .ok⟩], by simp, by simp⟩, rfl, .inr ⟨rfl, rfl⟩⟩

theorem initEvent_cases {s t : State} (ht : initEvent s = .next t) : t = s ∨ (s.owner = some .init ∧ s.fstate =
    .unknown ∧ ∃ e, (identFrame s.cfg)[s.initEv]? = some e ∧ initStep e s = .next t) := by
  unfold initEvent at ht
  split at ht
  · rename_i hi
    simp only [State.initEnabled, decide_eq_true_eq] at hi
    split at ht
    · exact .inr ⟨hi.2, hi.1, _, ‹_›, ht⟩
    · cases ht; exact .inl rfl
  · cases ht; exact .inl rfl

theorem portEvent_cases {s t : State} {p} (ht : portEvent p s = .next t) : t = s ∨ ∃ e, s.nextEvent p = some e ∧
    eventStep p ((s.port p).holdList s.cfg).length e s = .next t := by
  unfold portEvent at ht
  split at ht
  · exact .inr ⟨_, ‹_›, ht⟩
  · cases ht; exact .inl rfl

/-- Everything a decode step can do: it finishes the command, or has a valid READ or WRITE wait. -/
theorem decodeStep_cases {s t : State} {p} (ht : decodeStep p s = .next t) : t = s ∨ ((s.port p).phase =
    .pSubmitted ∧ ∃ x, sameOutside p { s with xferCount := x } t ∧ t.holdNo = s.holdNo ∧ sameRequest (s.port p)
    (t.port p) ∧
    (x = s.xferCount ∨ (s.port p).op = 4) ∧
    (((t.port p).phase = .pDone ∧ (t.port p).part = (s.port p).part ∧ (t.port p).k = (s.port p).k) ∨ ((s.port p).op =
        1 ∧ (t.port p).phase = .pWaitRead ∧ (t.port p).k = (s.port p).k ∧ (t.port p).result = (s.port p).result ∧
        (t.port p).count = (s.port p).count) ∨ ((s.port p).op = 2 ∧ (t.port p).phase = .pWaitErase ∧
        (t.port p).result = (s.port p).result ∧ (t.port p).count = (s.port p).count))) := by
  unfold decodeStep at ht
  split at ht
  swap
  · cases ht; exact .inl rfl
  rename_i hph
  refine .inr ⟨hph, ?_⟩
  have hp := lt_of_phase_ne_idle (s := s) (p := p) (by rw [hph]; simp)
  have fin : ∀ code count, ∃ x, sameOutside p { s with xferCount := x } (s.finish p code count) ∧
      (s.finish p code count).holdNo = s.holdNo ∧ sameRequest (s.port p) ((s.finish p code count).port p) ∧
      (x = s.xferCount ∨ (s.port p).op = 4) ∧
    ((((s.finish p code count).port p).phase = .pDone ∧ ((s.finish p code count).port p).part = (s.port p).part ∧
        ((s.finish p code count).port p).k = (s.port p).k) ∨ ((s.port p).op = 1 ∧
        ((s.finish p code count).port p).phase = .pWaitRead ∧ ((s.finish p code count).port p).k = (s.port p).k ∧
        ((s.finish p code count).port p).result = (s.port p).result ∧
        ((s.finish p code count).port p).count = (s.port p).count) ∨ ((s.port p).op = 2 ∧
        ((s.finish p code count).port p).phase = .pWaitErase ∧
        ((s.finish p code count).port p).result = (s.port p).result ∧
        ((s.finish p code count).port p).count = (s.port p).count)) := by
    intro code count
    obtain ⟨buf, hb⟩ := finish_port_done hp code count
    exact ⟨s.xferCount, sameOutside_finish s p code count, by simp, by rw [hb]; exact ⟨rfl, rfl, rfl, rfl⟩, .inl rfl,
        .inl (by rw [hb]; exact ⟨rfl, rfl, rfl⟩)⟩
  rcases decodeDescriptor_cases (s.port p).op (s.port p).addr (s.port p).len (s.port p).payload with ⟨ho, e⟩ | ⟨ho,
      e⟩ | ⟨ho, e⟩ | ⟨ho, e⟩ | ⟨ho, e⟩ <;> rw [e] at ht <;> simp only [Host.Outcome.next.injEq] at ht
  · subst ht
    by_cases hv : validateRead s.cfg (s.port p).addr (s.port p).len = .ok
    · rw [decodeRead_ok hv, port_setPort_self hp]
      exact ⟨s.xferCount, sameOutside_setPort _ _ _, rfl, ⟨rfl, rfl, rfl, rfl⟩, .inl rfl, .inr (.inl ⟨ho, rfl, rfl,
          rfl, rfl⟩)⟩
    · rw [decodeRead_rejected hv]; exact fin _ _
  · by_cases hv : validateWrite s.cfg (s.port p).addr (s.port p).len = .ok
    · have hl' : p < s.drawAlloc.2.ctx.length := by rw [(sameOutside_drawAlloc s p).ports]; exact hp
      have hno : s.drawAlloc.2.holdNo = s.holdNo := by obtain ⟨_, _, e⟩ := drawAlloc_cases s; rw [e]
      rw [decodeWrite_ok hv] at ht
      split at ht
      · cases ht
        obtain ⟨buf, hb⟩ := finish_port_done hl' .allocationFailure 0
        rw [drawAlloc_port] at hb
        exact ⟨s.xferCount, (sameOutside_drawAlloc s p).trans (sameOutside_finish _ p .allocationFailure 0),
            by simp [hno], by rw [hb]; exact ⟨rfl, rfl, rfl, rfl⟩, .inl rfl, .inl (by rw [hb]; exact ⟨rfl, rfl, rfl⟩)⟩
      · split at ht
        · cases ht
        · cases ht
          rw [copyIn, port_setPort_self hl', drawAlloc_port]
          exact ⟨s.xferCount, (sameOutside_drawAlloc s p).trans (sameOutside_setPort _ _ _), hno, ⟨rfl, rfl, rfl,
              rfl⟩, .inl rfl, .inr (.inr ⟨ho, rfl, rfl, rfl⟩)⟩
    · rw [decodeWrite_rejected hv] at ht; cases ht; exact fin _ _
  · subst ht; exact fin _ _
  · subst ht
    obtain ⟨buf, hb⟩ := finish_port_done (s := { s with xferCount := 0 }) (p := p) hp .ok 0
    have hpp : ({ s with xferCount := 0 } : State).port p = s.port p := rfl
    rw [hpp] at hb
    refine ⟨0, sameOutside_finish _ p .ok 0, by simp [clearCounter], ?_, .inr ho, .inl ?_⟩
    · unfold clearCounter; rw [hb]; exact ⟨rfl, rfl, rfl, rfl⟩
    · unfold clearCounter; rw [hb]; exact ⟨rfl, rfl, rfl⟩
  · subst ht; exact fin _ _

/-- `submit` is not enabled, or it writes its port alone (R37). -/
theorem submit_cases (s : State) (p w0 w1 w2 pl) : s.submit p w0 w1 w2 pl = s ∨ ((s.port p).phase = .pIdle ∧
    sameOutside p s (s.submit p w0 w1 w2 pl) ∧ (s.submit p w0 w1 w2 pl).holdNo = s.holdNo) := by
  unfold State.submit
  split
  · exact .inr ⟨‹_›, sameOutside_setPort _ _ _, rfl⟩
  · exact .inl rfl

/-- Everything an acquisition that is enabled does (R139). -/
theorem acquire_summary {s : State} {p : Nat} {busy phase} (h : s.Inv) (hr : s.fstate = .ready)
    (ht : acquireTarget (s.port p).phase = some (busy, phase)) :
    (s.acquire p).Inv ∧ (s.acquire p).port p = { s.port p with ev := 0, phase := phase } ∧ (s.acquire p).owner =
        some (.port p) ∧
     (s.acquire p).env = s.env ∧ (s.acquire p).trace = s.trace ∧ (s.acquire p).xferCount = s.xferCount ∧
         (s.acquire p).cfg = s.cfg ∧ sameBeyondHold p s (s.acquire p) ∧ s.canAcquire p = true := by
  have hi := Inv.of_acquire h hr ht
  have hl : p < s.ctx.length := lt_of_phase_ne_idle (by intro h; rw [h] at ht; cases ht)
  refine ⟨hi, ?_⟩
  have hca : s.canAcquire p = true := by simp [State.canAcquire, ht, hr]
  rw [acquire_ready hr ht]
  exact ⟨port_setPort_self hl _, rfl, rfl, rfl, rfl, rfl, ⟨rfl, rfl, rfl, rfl, rfl, length_setPort _ _ _,
      fun q hq => port_setPort_of_ne hq _, rfl, rfl, rfl⟩, hca⟩

/-- An event after which the port no longer holds the token leaves it free. -/
theorem event_ends_idle {s t : State} {p : Nat} {e} (h : s.Inv) (hn : s.nextEvent p = some e) (ht :
    eventStep p ((s.port p).holdList s.cfg).length e s = .next t) (ho : t.owner ≠ some (.port p)) : t.idleToken := by
  obtain ⟨hso, hp, hh, he⟩ := nextEvent_some hn
  have hi := event_inv h hso he ht
  have es := eventStep_summary hp hh ht
  rcases es.token with ⟨-, hx⟩ | ⟨h1, h2⟩
  · rw [hx, hso] at ho; exact absurd rfl ho
  · exact ⟨h1, h2, hi.readySel h1⟩

/-- An event of a hold changes no byte outside its region. -/
theorem event_flash {s t : State} {p : Nat} {e : Event} (h : s.Inv) (hch : s.ChipInv) (hd : s.cfg.opcodesDistinct)
    (hn : s.nextEvent p = some e) (ht : eventStep p ((s.port p).holdList s.cfg).length e s = .next t) :
   sameFlashOutside (Ctx.region s.cfg (s.port p)).1 (Ctx.region s.cfg (s.port p)).2 s t := by
  obtain ⟨ho, hp, hh, he⟩ := nextEvent_some hn
  have es := eventStep_summary hp hh ht
  intro a ha
  cases hk : s.env.kind with
  | any => rw [es.chipAny hk]
  | ref =>
    obtain ⟨r, c1, h1, h2⟩ := es.chipRef hk
    have chipf : e ≠ .sel → s.env.chip.frame = (wireOf (((s.port p).holdList s.cfg).take (s.port p).ev)).frame :=
        fun hne =>
      (hch.portFrame hk p ho (fun h0 => hne (sel_first h.cfgWf (h.good p) hh (h0 ▸ he)))).1
    have key : ∀ c d : Chip, c.fl.wf → c.frame = (wireOf (((s.port p).holdList s.cfg).take (s.port p).ev)).frame →
        c.desel s.cfg = some d → d.fl.read a = c.fl.read a := by
      intro c d hw hf hx
      obtain ⟨d', x1, x2, x3, x4, x5⟩ := desel_hold h.cfgWf hd (h.good p) hh hf
      rw [x1] at hx; cases hx
      exact (x5 hw).2 a ha
    have c1fl : c1.fl.read a = s.env.chip.fl.read a := by
      cases e with
      | sel => simp only [chipAfter] at h1; rw [h1]; rfl
      | wb b => simp only [chipAfter] at h1; rw [h1]; split <;> rfl
      | rb => simp only [chipAfter] at h1; rw [h1]; split <;> rfl
      | wi k => simp only [chipAfter] at h1; rw [h1]
      | desel => exact key _ _ hch.flash (chipf (by simp)) h1
    rcases h2 with ⟨h2, -⟩ | ⟨-, hr, h2⟩
    · rw [h2]; exact c1fl
    · rw [← c1fl]
      exact key _ _ (hr.1 ▸ hch.flash) (by rw [hr.1]; exact chipf hr.2) h2

end Sys2Proof.Machine
end

