-- ==== Sys2Proof/Laws/Fetched.lean ====
section
/-! SUPPORT. Where a port stands at a frame, and a frame run as its events, one after another (10_state R40). -/

namespace Sys2Proof.Machine

/-- The frames at which a port stands, by its phase. -/
theorem fetched_in_hold {s : State} {p : Nat} {i : Instr} (ha : s.active = .port p) (hf : s.fetch = some i) (hp :
    (s.port p).phase ≠ .pSubmitted) :
   s.owner = some (.port p) ∧
     (((s.port p).phase = .pErase ∧ (s.port p).ev = 0 ∧
            i = .erase ((s.port p).gran s.cfg) ((s.port p).eraseAddr s.cfg)) ∨
          ((s.port p).phase = .pProg ∧ ∃ o, i = .program o.1 o.2 ∧
            cycleAt (progOperands (s.port p).addr (s.port p).buf (s.port p).lenNat) (s.port p).ev = some o) ∨
          ((s.port p).phase = .pRead ∧ (s.port p).ev = 0 ∧
            ((s.cfg.useFastRead = true ∧ i = .fastRead (flashAddr (s.port p).addr 0)) ∨
              (s.cfg.useFastRead = false ∧ i = .readSlow (flashAddr (s.port p).addr 0))))) := by
  rcases fetchPort_cases (fetch_port ha ▸ hf) with ⟨h, -⟩ | ⟨hh, hc⟩
  · exact absurd h hp
  · simp only [State.holds, Bool.and_eq_true, decide_eq_true_eq] at hh
    exact ⟨hh.1, hc⟩

/-- No descriptor decodes to a frame. -/
theorem decodeDescriptor_not_frame {i : Instr} (h1 : ∀ a l, i ≠ .read a l) (h2 : ∀ a l d, i ≠ .write a l d) (h3 :
    i ≠ .status) (h4 : i ≠ .resetStatus) :
    ∀ w0 w1 w2 pl, decodeDescriptor w0 w1 w2 pl ≠ .ok i := by
  intro w0 w1 w2 pl e
  rcases decodeDescriptor_cases w0 w1 w2 pl with ⟨_, h⟩ | ⟨_, h⟩ | ⟨_, h⟩ | ⟨_, h⟩ | ⟨_,
      h⟩ <;> rw [h] at e <;> cases e
  · exact h1 _ _ rfl
  · exact h2 _ _ _ rfl
  · exact h3 rfl
  · exact h4 rfl

theorem performs_of_trace {s s' t : State} {a l} (h : s'.trace = s.trace) (g : performs s' t a l) :
    performs s t a l := by
  unfold performs at *; rw [← h]; exact g

theorem portEvent_free {s : State} {p : Nat} (h : s.owner ≠ some (.port p)) : portEvent p s = .next s := by
  simp [portEvent, State.nextEvent, State.holds, h]

theorem holds_of_owner {s : State} {p : Nat} (h : s.Inv) (ho : s.owner = some (.port p)) : s.holds p = true := by
  obtain ⟨-, -, hlt, -⟩ := h.hold p ho
  have : (s.port p).part ≠ none := by
    intro e
    simp [Ctx.holdList, e] at hlt
  simp [State.holds, ho, Option.isSome_iff_ne_none, this]

theorem portEvent_hold {s : State} {p : Nat} {e : Event} (h : s.Inv) (ho : s.owner = some (.port p)) (he :
    ((s.port p).holdList s.cfg)[(s.port p).ev]? = some e) :
    portEvent p s = eventStep p ((s.port p).holdList s.cfg).length e s := by
  simp [portEvent, State.nextEvent, holds_of_owner h ho, he]

theorem repeatStep_fixed {f : State → Result} {s : State} (h : f s = .next s) : ∀ n, repeatStep f n s = .next s
  | 0 => rfl
  | n + 1 => by simp [repeatStep, h, repeatStep_fixed h n]

/-- Events run as one frame are the events performed one after another. -/
theorem runEvents_repeat {p : Nat} {l : List Event} : ∀ {es : List Event} {s : State}, s.Inv →
    (s.owner = some (.port p) → (s.port p).holdList s.cfg = l ∧ ∃ rest, l.drop (s.port p).ev = es ++ rest) →
    runEvents p l.length es s = repeatStep (portEvent p) es.length s := by
  intro es
  induction es with
  | nil => intro s h _; rfl
  | cons e es ih =>
    intro s h hl
    simp only [runEvents]
    split
    swap
    · rename_i ho
      exact (repeatStep_fixed (portEvent_free ho) _).symm
    · rename_i ho
      obtain ⟨hl1, rest, hr⟩ := hl ho
      have he : ((s.port p).holdList s.cfg)[(s.port p).ev]? = some e := by
        rw [hl1]
        have := congrArg (fun x => x[0]?) hr
        simpa using this
      obtain ⟨hp, hh, -, -⟩ := h.hold p ho
      rw [List.length_cons, repeatStep, portEvent_hold h ho he, hl1]
      cases hx : eventStep p l.length e s with
      | fault f => rfl
      | refused r => rfl
      | next s1 =>
        simp only [andThen_next]
        rw [← hl1] at hx
        refine ih (event_inv h ho he hx) ?_
        intro ho1
        obtain ⟨r, draws, chip, ix, rd, -, -, -, rfl⟩ := event_goes_on hp (by rw [hh]; rfl) hx ho1
        have hport : ({ s.setPort p (fun c => { c with rdata := c.rdata ++ rd, ev := c.ev + 1 }) with
              sel := selAfter e s.sel
              env := { s.env with draws := draws, chip := chip }
              freeIx := ix
              trace := s.trace ++ [⟨.port p, s.holdNo, e, r⟩] } : State).port p
            = { s.port p with rdata := (s.port p).rdata ++ rd, ev := (s.port p).ev + 1 } := port_setPort_self hp _
        rw [hport]
        refine ⟨?_, rest, ?_⟩
        · rw [← hl1]; exact holdList_congr rfl rfl rfl rfl rfl rfl
        · simp only
          have := congrArg List.tail hr
          simpa [List.tail_drop] using this

theorem initEvent_free {s : State} (h : s.owner ≠ some .init) : initEvent s = .next s := by
  simp [initEvent, State.initEnabled, h]

theorem initEvent_hold {s : State} {e : Event} (h : s.Inv) (ho : s.owner = some .init) (he :
    (identFrame s.cfg)[s.initEv]? = some e) :
    initEvent s = initStep e s := by
  simp [initEvent, State.initEnabled, h.unknownInit.2 ho, ho, he]

/-- The IDENT frame run as one is its events performed one after another. -/
theorem runInit_repeat : ∀ {es : List Event} {s : State}, s.Inv →
    (s.owner = some .init → ∃ rest, (identFrame s.cfg).drop s.initEv = es ++ rest) →
    runInit es s = repeatStep initEvent es.length s := by
  intro es
  induction es with
  | nil => intro s h _; rfl
  | cons e es ih =>
    intro s h hl
    simp only [runInit]
    split
    swap
    · rename_i ho
      exact (repeatStep_fixed (initEvent_free ho) _).symm
    · rename_i ho
      obtain ⟨rest, hr⟩ := hl ho
      have he : (identFrame s.cfg)[s.initEv]? = some e := by
        have := congrArg (fun x => x[0]?) hr
        simpa using this
      rw [List.length_cons, repeatStep, initEvent_hold h ho he]
      cases hx : initStep e s with
      | fault f => rfl
      | refused r => rfl
      | next s1 =>
        simp only [andThen_next]
        refine ih (initStep_inv h ho he hx) ?_
        intro ho1
        rcases initStep_owner hx with e1 | ⟨-, e1, e2⟩
        · rw [e1] at ho1; cases ho1
        · rw [e1, e2]
          refine ⟨rest, ?_⟩
          have := congrArg List.tail hr
          simpa [List.tail_drop] using this

theorem takeTurns_append (us vs : List Turn) (s : State) : takeTurns (us ++ vs) s = andThen (takeTurns us s)
    (takeTurns vs) := by
  induction us generalizing s with
  | nil => rfl
  | cons u us ih =>
    simp only [List.cons_append, takeTurns, andThen_assoc]
    congr 1; funext t; exact ih t

theorem takeTurns_events (p n : Nat) (s : State) : takeTurns (List.replicate n (.event p)) s = repeatStep
    (portEvent p) n s := by
  induction n generalizing s with
  | zero => rfl
  | succ n ih => simp only [List.replicate_succ, takeTurns, repeatStep]; congr 1; funext t; exact ih t

/-- Holds run as one are small steps of the port. -/
theorem runHolds_turns {p : Nat} : ∀ {n : Nat} {s : State}, s.Inv → ∃ turns : List Turn, (∀ u ∈ turns, u.smallOf p =
    true) ∧ runHolds p n s = takeTurns turns s := by
  intro n
  induction n with
  | zero => intro s h; exact ⟨[], by simp, rfl⟩
  | succ n ih =>
    intro s h
    by_cases hca : s.canAcquire p = true
    swap
    · exact ⟨[], by simp, by simp [runHolds, hca, takeTurns]⟩
    · simp only [State.canAcquire, Bool.and_eq_true, decide_eq_true_eq] at hca
      obtain ⟨⟨busy, phase⟩, ht⟩ := Option.isSome_iff_exists.1 hca.1
      obtain ⟨i2, q2, own2, -, -, -, -, -, hc⟩ := acquire_summary h hca.2 ht
      have hrun : runHold p (s.acquire p) = repeatStep (portEvent p) (((s.acquire p).port p).holdList
          (s.acquire p).cfg).length (s.acquire p) :=
        runEvents_repeat i2 (fun _ => ⟨rfl, [], by rw [q2]; simp⟩)
      have key : ∀ rest, takeTurns (.acquire p :: List.replicate (((s.acquire p).port p).holdList
          (s.acquire p).cfg).length (.event p) ++ rest) s = andThen (runHold p (s.acquire p)) (takeTurns rest) := by
        intro rest
        simp only [List.cons_append, takeTurns, takeTurn, andThen_next, takeTurns_append, takeTurns_events, hrun]
      have small : ∀ rest : List Turn, (∀ u ∈ rest, u.smallOf p = true) → ∀ u ∈ (Turn.acquire p :: List.replicate
          (((s.acquire p).port p).holdList (s.acquire p).cfg).length (Turn.event p) ++ rest), u.smallOf p = true := by
        intro rest h1 u hu
        simp only [List.mem_append, List.mem_cons, List.mem_replicate] at hu
        rcases hu with (rfl | ⟨-, rfl⟩) | hu
        · simp [Turn.smallOf]
        · simp [Turn.smallOf]
        · exact h1 u hu
      cases hx : runHold p (s.acquire p) with
      | next t =>
        obtain ⟨turns, h1, h2⟩ := ih (s := t) (runHold_inv i2 (fun _ => by rw [q2]) hx)
        exact ⟨_, small turns h1, by rw [key, hx]; simp only [runHolds, hc, if_true, hx, andThen_next, h2]⟩
      | fault f => exact ⟨_, small [] (by simp), by rw [key, hx]; simp only [runHolds, hc, if_true, hx]; rfl⟩
      | refused f => exact ⟨_, small [] (by simp), by rw [key, hx]; simp only [runHolds, hc, if_true, hx]; rfl⟩

/-- A relation that is reflexive and transitive and holds of small steps holds of a run of them. -/
theorem takeTurns_rel {R : State → State → Prop} (hr : ∀ s, R s s) (htr : ∀ s t u, R s t → R t u → R s u) {us :
    List Turn} :
   ∀ {s t}, s.Inv → (∀ s t u, s.Inv → u ∈ us → takeTurn u s = .next t → R s t) → takeTurns us s = .next t → R s t :=
       by
  induction us with
  | nil => intro s t h _ ht; cases ht; exact hr s
  | cons u us ih =>
    intro s t h hs ht
    obtain ⟨x, h1, h2⟩ := andThen_eq_next.1 ht
    exact htr _ _ _ (hs s x u h (List.mem_cons_self ..) h1) (ih (takeTurn_inv h h1) (fun s t u a b c => hs s t u a
        (List.mem_cons_of_mem _ b) c) h2)

/-- A property that small steps keep is kept by a run of them. -/
theorem takeTurns_inv {J : State → Prop} (hs : ∀ s t u, s.Inv → J s → (∀ a, u ≠ .run a) → takeTurn u s = .next t →
    J t) :
  ∀ us : List Turn, (∀ u ∈ us, ∀ a, u ≠ .run a) → ∀ s t, s.Inv → J s → takeTurns us s = .next t → J t := by
  intro us
  induction us with
  | nil => intro _ s t h j ht; cases ht; exact j
  | cons u us ih =>
    intro hu s t h j ht
    obtain ⟨x, h1, h2⟩ := andThen_eq_next.1 ht
    exact ih (fun u h => hu u (List.mem_cons_of_mem _ h)) x t (takeTurn_inv h h1) (hs s x u h j (hu u
        (List.mem_cons_self ..)) h1) h2

end Sys2Proof.Machine
end

