-- ==== Sys2Proof/Laws/ChipInvariant.lean ====
section
/-! SUPPORT. The small steps keep what the chip has seen of the open frame; which calls a small step makes, and which flash bytes it
may change (20_memory R62, R70). -/

namespace Sys2Proof.Machine

/-- A step that makes no call. -/
theorem ChipInv.of_no_event {s t : State} (h : s.ChipInv) (hc : t.env.chip = s.env.chip) (hk : t.env.kind =
    s.env.kind) (hcfg : t.cfg = s.cfg)
   (ho : t.owner = s.owner ∧ t.initEv = s.initEv ∧ (∀ p, s.owner = some (.port p) → t.port p = s.port p) ∨ (∃ p,
       t.owner = some (.port p) ∧ (t.port p).ev = 0)) : t.ChipInv := by
  refine ⟨hc ▸ h.flash, fun k p o e => ?_, fun k o e => ?_⟩
  · rcases ho with ⟨h1, h2, h3⟩ | ⟨q, h1, h2⟩
    · rw [h1] at o
      rw [hc, hcfg, h3 p o]
      rw [h3 p o] at e
      exact h.portFrame (hk ▸ k) p o e
    · rw [h1] at o; cases o; exact absurd h2 e
  · rcases ho with ⟨h1, h2, h3⟩ | ⟨q, h1, h2⟩
    · rw [hc, hcfg, h2]; rw [h2] at e; exact h.initFrame (hk ▸ k) (h1 ▸ o) e
    · rw [h1] at o; cases o

/-- An event of a hold. -/
theorem event_chipInv {s t : State} {p : Nat} {e : Event} (h : s.Inv) (hch : s.ChipInv) (hn : s.nextEvent p = some e)
    (ht : eventStep p ((s.port p).holdList s.cfg).length e s = .next t) : t.ChipInv := by
  obtain ⟨ho, hp, hh, he⟩ := nextEvent_some hn
  have es := eventStep_summary hp hh ht
  have hkind := es.beyond.kind
  refine ⟨?_, fun k q o e2 => ?_, fun k o => ?_⟩
  · cases hk : s.env.kind with
    | any => rw [es.chipAny hk]; exact hch.flash
    | ref =>
      obtain ⟨r, c1, h1, h2⟩ := es.chipRef hk
      have := chipAfter_wf hch.flash h1
      rcases h2 with ⟨h2, -⟩ | ⟨-, -, h2⟩
      · rw [h2]; exact this
      · exact desel_wf this h2
  · have hown : t.owner = s.owner := by
      rcases es.token with ⟨-, h⟩ | ⟨-, h⟩
      · exact h
      · rw [h] at o; cases o
    rw [hown, ho] at o; cases o
    obtain ⟨r, draws, chip, ix, rd, hr, -, hc, rfl⟩ := event_goes_on hp hh ht (hown.trans ho)
    have hport : ({ s.setPort p (fun c => { c with rdata := c.rdata ++ rd, ev := c.ev + 1 }) with
              sel := selAfter e s.sel
              env := { s.env with draws := draws, chip := chip }
              freeIx := ix
              trace := s.trace ++ [⟨.port p, s.holdNo, e, r⟩] } : State).port p
            = { s.port p with rdata := (s.port p).rdata ++ rd, ev := (s.port p).ev + 1 } := port_setPort_self hp _
    rw [hport]
    have hlist : ({ s.port p with rdata := (s.port p).rdata ++ rd, ev := (s.port p).ev + 1 } : Ctx).holdList s.cfg =
        (s.port p).holdList s.cfg := holdList_congr rfl rfl rfl rfl rfl rfl
    have k' : s.env.kind = .ref := k
    rw [k'] at hc
    have := chipAfter_wire he hr (fun h0 => sel_first h.cfgWf (h.good p) hh (h0 ▸ he))
        (fun h0 => hch.portFrame k' p ho h0) hc
    show chip.frame = (wireOf (List.take _ (Ctx.holdList s.cfg _))).frame ∧ chip.reads = (wireOf (List.take _
        (Ctx.holdList s.cfg _))).reads
    rw [hlist]; exact this
  · exfalso
    rcases es.token with ⟨-, h⟩ | ⟨-, h⟩
    · rw [h, ho] at o; cases o
    · rw [h] at o; cases o

/-- An event of identification. -/
theorem initStep_chipInv {e : Event} {s t : State} (h : s.Inv) (hch : s.ChipInv) (ho : s.owner = some .init)
    (he : (identFrame s.cfg)[s.initEv]? = some e) (ht : initStep e s = .next t) : t.ChipInv := by
  have h0 : s.initEv = 0 → e = .sel := by intro h; rw [h] at he; cases he; rfl
  rcases initStep_cases ht with ⟨r, s1, htr, hr, rfl⟩ | ⟨s1, htr, hf⟩
  · obtain ⟨draws, chip, ix, rfl, hc⟩ := transport_cases htr
    obtain ⟨acc, ha⟩ := initDeliver_eq { s with
            sel := selAfter e s.sel
            env := { s.env with draws := draws, chip := chip }
            freeIx := ix
            trace := s.trace ++ [⟨.init, s.holdNo, e, r⟩] } r
    rw [ha]
    have hfl : chip.fl.wf := by
      cases hk : s.env.kind with
      | any => rw [hk] at hc; simp only [chipAfter] at hc; rw [hc]; exact hch.flash
      | ref => rw [hk] at hc; exact chipAfter_wf hch.flash hc
    unfold initAdvance
    split
    · exact ⟨hfl, fun _ p o => by simp [initEnd] at o, fun _ o => by simp [initEnd] at o⟩
    · refine ⟨hfl, fun _ p o => ?_, fun k o _ => ?_⟩
      · have : s.owner = some (.port p) := o
        rw [ho] at this; cases this
      · have k' : s.env.kind = .ref := k
        rw [k'] at hc
        exact chipAfter_wire he hr h0 (fun h => hch.initFrame k' ho h) hc
  · obtain ⟨draws, chip, ix, rfl, hc⟩ := transport_cases htr
    unfold initFail at hf
    split at hf
    · cases hf
    · rename_i s2 hd
      cases hf
      have hfl : chip.fl.wf := by
        cases hk : s.env.kind with
        | any => rw [hk] at hc; simp only [chipAfter] at hc; rw [hc]; exact hch.flash
        | ref => rw [hk] at hc; exact chipAfter_wf hch.flash hc
      refine ⟨?_, fun _ p o => by simp at o, fun _ o => by simp at o⟩
      rcases deselIfSelected_cases hd with ⟨a, rfl⟩ | ⟨a, b⟩
      · exact hfl
      · obtain ⟨_, c2, _, rfl, hc2⟩ := transport_cases b
        show c2.fl.wf
        cases hk : s.env.kind with
        | any => simp only [hk, chipAfter] at hc2; rw [hc2]; exact hfl
        | ref => simp only [hk] at hc2; exact chipAfter_wf hfl hc2

/-- A step inside one port that is in no hold. -/
theorem ChipInv.of_outside {s t : State} {p : Nat} {x} (h : s.Inv) (hch : s.ChipInv) (hh :
    holdState (s.port p).phase = none) (ho : sameOutside p { s with xferCount := x } t) : t.ChipInv := by
  refine ChipInv.of_no_event hch ho.chip ho.kind ho.cfg (.inl ⟨ho.owner, ho.initEv, fun q hq => ho.others q ?_⟩)
  rintro rfl
  have := (h.hold _ hq).2.1; rw [hh] at this; cases this

/-- A small step. -/
theorem takeTurn_chipInv (s t : State) (u : Turn) (h : s.Inv) (hch : s.ChipInv) (hu : ∀ a, u ≠ .run a) (ht :
    takeTurn u s = .next t) : t.ChipInv := by
  cases u with
  | run a => exact absurd rfl (hu a)
  | submit p w0 w1 w2 pl =>
    cases ht
    rcases submit_cases s p w0 w1 w2 pl with e | ⟨a, b, -⟩
    · rw [e]; exact hch
    · exact ChipInv.of_outside (x := s.xferCount) h hch (by rw [a]; rfl) b
  | collect p =>
    cases ht
    unfold State.collect
    split
    · rename_i hph
      refine ChipInv.of_no_event hch rfl rfl rfl (.inl ⟨rfl, rfl, fun q hq => ?_⟩)
      refine port_setPort_of_ne (s := s) ?_ _
      rintro rfl
      have := (h.hold _ hq).2.1; rw [hph] at this; cases this
    · exact hch
  | initEvent =>
    rcases initEvent_cases ht with rfl | ⟨ho, -, e, he, h1⟩
    · exact hch
    · exact initStep_chipInv h hch ho he h1
  | decode p =>
    rcases decodeStep_cases ht with rfl | ⟨hph, x, ho, -⟩
    · exact hch
    · exact ChipInv.of_outside h hch (by rw [hph]; rfl) ho
  | acquire p =>
    cases ht
    rcases acquire_cases s p with e | ⟨busy, phase, hr, hb, -⟩
    · rw [e]; exact hch
    · obtain ⟨-, q2, own2, en2, tr2, x2, c2, b2, hca⟩ := acquire_summary h hr hb
      exact ChipInv.of_no_event hch (by rw [en2]) (by rw [en2]) c2 (.inr ⟨p, own2, by rw [q2]⟩)
  | event p =>
    rcases portEvent_cases ht with rfl | ⟨e, h1, h2⟩
    · exact hch
    · exact event_chipInv h hch h1 h2

/-- The calls a small step makes are its owner's, in the current hold. -/
theorem takeTurn_calls {s t : State} {u : Turn} (hu : ∀ a, u ≠ .run a) (ht : takeTurn u s = .next t) :
    ∃ calls, t.trace = s.trace ++ calls ∧ (∀ c ∈ calls, s.owner = some c.agent ∧ c.hold = s.holdNo) ∧
     ((t.holdNo = s.holdNo ∧ (t.owner = none ∨ t.owner = s.owner)) ∨ (t.holdNo = s.holdNo + 1 ∧ calls = [])) := by
  cases u with
  | run a => exact absurd rfl (hu a)
  | submit p w0 w1 w2 pl =>
    cases ht
    rcases submit_cases s p w0 w1 w2 pl with e | ⟨a, b, c⟩
    · rw [e]; exact ⟨[], by simp, by simp, .inl ⟨rfl, .inr rfl⟩⟩
    · exact ⟨[], by rw [b.trace]; simp, by simp, .inl ⟨c, .inr b.owner⟩⟩
  | collect p =>
    cases ht; unfold State.collect; split <;> exact ⟨[], by simp, by simp, .inl ⟨rfl, .inr rfl⟩⟩
  | initEvent =>
    rcases initEvent_cases ht with rfl | ⟨ho, -, e, he, h1⟩
    · exact ⟨[], by simp, by simp, .inl ⟨rfl, .inr rfl⟩⟩
    · have is := initStep_summary h1
      obtain ⟨cs, c1, c2⟩ := is.calls
      exact ⟨cs, c1, fun c hc => ⟨by rw [ho, (c2 c hc).1], (c2 c hc).2⟩, .inl ⟨is.holdNo,
          is.token.elim (fun h => .inr h.2) (fun h => .inl h.2)⟩⟩
  | decode p =>
    rcases decodeStep_cases ht with rfl | ⟨hph, x, ho, hn, -⟩
    · exact ⟨[], by simp, by simp, .inl ⟨rfl, .inr rfl⟩⟩
    · exact ⟨[], by rw [ho.trace]; simp, by simp, .inl ⟨hn, .inr ho.owner⟩⟩
  | acquire p =>
    cases ht
    rcases acquire_cases s p with e | ⟨busy, phase, hr, hb, e⟩ <;> rw [e]
    · exact ⟨[], by simp, by simp, .inl ⟨rfl, .inr rfl⟩⟩
    · exact ⟨[], by simp, by simp, .inr ⟨rfl, rfl⟩⟩
  | event p =>
    rcases portEvent_cases ht with rfl | ⟨e, h1, h2⟩
    · exact ⟨[], by simp, by simp, .inl ⟨rfl, .inr rfl⟩⟩
    · obtain ⟨ho, hp, hh, he⟩ := nextEvent_some h1
      have es := eventStep_summary hp hh h2
      obtain ⟨cs, c1, c2⟩ := es.calls
      exact ⟨cs, c1, fun c hc => ⟨by rw [ho, (c2 c hc).1], (c2 c hc).2⟩, .inl ⟨es.holdNo,
          es.token.elim (fun h => .inr h.2) (fun h => .inl h.2)⟩⟩

/-- Identification changes no flash byte. -/
theorem initStep_flash_inv {s t : State} {e : Event} (h : s.Inv) (hch : s.ChipInv) (ho : s.owner = some .init) (he :
    (identFrame s.cfg)[s.initEv]? = some e) (ht : initStep e s = .next t) : t.env.chip.fl = s.env.chip.fl := by
  have chipf : e ≠ .sel → s.env.kind = .ref → s.env.chip.frame.length ≤ 1 := fun hne hk => by
    rw [(hch.initFrame hk ho (fun h0 => hne (by rw [h0] at he; cases he; rfl))).1]; exact identFrame_frame _ _
  have nodesel : ∀ c d : Chip, c.frame.length ≤ 1 → c.desel s.cfg = some d → d = c := by
    intro c d hl hx; rw [desel_none (fun h => by omega) (fun h => by omega)] at hx; cases hx; rfl
  have step1 : ∀ r c1, chipAfter s.cfg s.env.kind e r s.env.chip c1 → c1.fl = s.env.chip.fl := by
    intro r c1 hc
    cases hk : s.env.kind with
    | any => rw [hk] at hc; simp only [chipAfter] at hc; rw [hc]
    | ref =>
      rw [hk] at hc
      cases e with
      | sel => simp only [chipAfter] at hc; rw [hc]; rfl
      | wb b => simp only [chipAfter] at hc; rw [hc]; split <;> rfl
      | rb => simp only [chipAfter] at hc; rw [hc]; split <;> rfl
      | wi k => simp only [chipAfter] at hc; rw [hc]
      | desel => rw [nodesel _ _ (chipf (by simp) hk) hc]
  rcases initStep_cases ht with ⟨r, s1, htr, hr, rfl⟩ | ⟨s1, htr, hf⟩
  · obtain ⟨draws, chip, ix, rfl, hc⟩ := transport_cases htr
    obtain ⟨acc, ha⟩ := initDeliver_eq { s with
            sel := selAfter e s.sel
            env := { s.env with draws := draws, chip := chip }
            freeIx := ix
            trace := s.trace ++ [⟨.init, s.holdNo, e, r⟩] } r
    rw [ha]; unfold initAdvance
    have := step1 _ _ hc
    split <;> exact this
  · obtain ⟨t1, t2, t3, t4⟩ := transport_timeout_chip htr
    have t5 := transport_timeout_event htr
    unfold initFail at hf
    split at hf
    · cases hf
    · rename_i hd; cases hf
      rcases deselIfSelected_cases hd with ⟨a, rfl⟩ | ⟨a, b⟩
      · exact congrArg Chip.fl t1
      · obtain ⟨_, c2, _, rfl, hc2⟩ := transport_cases b
        show c2.fl = _
        rw [t1, t2, t3] at hc2
        cases hk : s.env.kind with
        | any => rw [hk] at hc2; simp only [chipAfter] at hc2; rw [hc2]
        | ref => rw [hk] at hc2; rw [nodesel _ _ (chipf t5 hk) hc2]

/-- Nothing but an event of a hold changes the flash, and that in its region alone. -/
theorem takeTurn_flash {s t : State} {u : Turn} (h : s.Inv) (hch : s.ChipInv) (hd : s.cfg.opcodesDistinct) (hu : ∀ a,
    u ≠ .run a) (ht : takeTurn u s = .next t) :
   (∀ a, t.env.chip.fl.read a = s.env.chip.fl.read a) ∨ ∃ p e, u = .event p ∧ s.nextEvent p = some e ∧
       sameFlashOutside (Ctx.region s.cfg (s.port p)).1 (Ctx.region s.cfg (s.port p)).2 s t := by
  cases u with
  | run a => exact absurd rfl (hu a)
  | submit p w0 w1 w2 pl =>
    cases ht; left
    rcases submit_cases s p w0 w1 w2 pl with e | ⟨a, b, c⟩
    · rw [e]; exact fun _ => rfl
    · rw [b.chip]; exact fun _ => rfl
  | collect p => cases ht; left; unfold State.collect; split <;> exact fun _ => rfl
  | initEvent =>
    left
    rcases initEvent_cases ht with rfl | ⟨ho, hf, e, he, h1⟩
    · exact fun _ => rfl
    · rw [initStep_flash_inv h hch ho he h1]; exact fun _ => rfl
  | decode p =>
    left
    rcases decodeStep_cases ht with rfl | ⟨hph, x, ho, hn, -⟩
    · exact fun _ => rfl
    · rw [ho.chip]; exact fun _ => rfl
  | acquire p =>
    cases ht; left
    rcases acquire_cases s p with e | ⟨busy, phase, hr, hb, e⟩ <;> rw [e] <;> exact fun _ => rfl
  | event p =>
    rcases portEvent_cases ht with rfl | ⟨e, h1, h2⟩
    · exact .inl fun _ => rfl
    · exact .inr ⟨p, e, rfl, h1, event_flash h hch hd h1 h2⟩

end Sys2Proof.Machine
end

