-- ==== Sys2Proof/Laws/EraseSweep.lean ====
section
/-! SUPPORT. The erase sweep of a WRITE: its erase holds one after another, where no answer is a timeout and no other agent
comes in between (43 R160 to R162). -/

namespace Sys2Proof.Machine

theorem asked_erases {c : Config} {g : Nat} {f : Nat → Addr24} (l : List Nat) :
    asked (l.flatMap (fun k => eraseFrame c g (f k))) = 5 * l.length := by
  induction l with
  | nil => rfl
  | cons a l ih => rw [List.flatMap_cons, asked_append, ih, asked_eraseFrame, List.length_cons]; omega

/-- Programming an erased byte gives the byte programmed (R70). -/
theorem erased_and (b : Byte) : erasedByte &&& b = b := by
  unfold erasedByte
  revert b; decide

theorem selAfter_close (l : List Event) (k : WaitKind) (b : Bool) : (l ++ [Event.desel, Event.wi k]).foldl
    (fun b e => selAfter e b) b = false := by
  simp [selAfter]

/-- From a port that waits for its next erase unit to the program phase. -/
theorem eraseSweep_ok {p : Nat} (n : Nat) : ∀ {m : Nat} {s : State}, s.Inv → s.cfg.opcodesDistinct → s.fstate =
    .ready → (s.port p).phase = .pWaitErase →
    (s.port p).k + (m + 1) = (s.port p).eraseUnits s.cfg → (∃ r, s.env.answers (5 * (m + 1) + r)) →
    ∃ t, runHolds p ((m + 1) + n) s = runHolds p n t ∧ t.Inv ∧ t.idleToken ∧ t.xferCount = s.xferCount ∧
      t.port p = { s.port p with k := (s.port p).eraseUnits s.cfg, ev := 7, phase := .pWaitProg } ∧
      performs s t (.port p) ((List.range' (s.port p).k (m + 1)).flatMap (fun k => eraseFrame s.cfg
          ((s.port p).gran s.cfg) (flashAddr (s.port p).addr (k * (s.port p).gran s.cfg)))) ∧
      sameBeyondHold p s t ∧ t.env.draws = s.env.draws.drop (5 * (m + 1)) ∧
      (s.env.chip.fl.wf → t.env.chip.fl.wf) ∧
      (s.env.kind = .ref → ∀ a, t.env.chip.fl.read a = if (s.port p).addr.toNat + (s.port p).k *
          (s.port p).gran s.cfg ≤ a ∧ a < (s.port p).addr.toNat + (s.port p).eraseUnits s.cfg *
          (s.port p).gran s.cfg then erasedByte else s.env.chip.fl.read a) ∧
      (s.env.kind = .any → t.env.chip = s.env.chip) := by
  intro m
  induction m with
  | zero =>
    intro s h hd hr hph hk hans
    obtain ⟨r, hans⟩ := hans
    obtain ⟨i2, q2, own2, en2, tr2, x2, c2, b2, hca⟩ := acquire_summary (p := p) h (busy := .erasing) (phase :=
        .pErase) hr (by rw [hph]; rfl)
    obtain ⟨t, e1, e2, e3, e4, e5, e6, e7, e8, e9, e10⟩ := eraseHold_ok i2 (by rw [c2]; exact hd) own2 (by rw [q2])
        (by rw [q2]) (answers_mono (by rw [en2]; exact hans) (by omega))
    have hgr : (((s.acquire p).port p).gran (s.acquire p).cfg) = (s.port p).gran s.cfg := by rw [q2, c2]; rfl
    have hea : (((s.acquire p).port p).eraseAddr (s.acquire p).cfg) = flashAddr (s.port p).addr ((s.port p).k *
        (s.port p).gran s.cfg) := by
      rw [q2, c2]; rfl
    have heu : (((s.acquire p).port p).eraseUnits (s.acquire p).cfg) = (s.port p).eraseUnits s.cfg := by
      rw [q2, c2]; rfl
    have it : t.Inv := runHold_inv i2 (fun _ => by rw [q2]) e1
    have hw := writes_of_erase i2 (by rw [q2])
    obtain ⟨i, -, -, -, hgm, hgp, -, haddr, -, -, hend, hle, hfl⟩ := erase_facts i2.cfgWf hw.1 hw.2
    refine ⟨t, ?_, it, e2, by rw [e3, x2], ?_, ?_, b2.trans e6, by rw [e7, en2], ?_, ?_, ?_⟩
    · rw [Nat.zero_add, Nat.add_comm 1 n]
      simp only [runHolds, hca, if_true, e1, andThen_next]
    · rw [e4, heu, if_neg (by rw [q2]; simp only; omega)]
      rw [q2]; simp only [Ctx.mk.injEq, true_and, and_true]; omega
    · rw [hgr, hea, c2] at e5
      simpa using performs_of_trace tr2 e5
    · intro hwf
      cases hk : s.env.kind with
      | any => rw [e10 (by rw [en2]; exact hk), en2]; exact hwf
      | ref => rw [e9 (by rw [en2]; exact hk), en2]; exact Mem.erase_wf hwf _ _
    · intro hk' a
      rw [e9 (by rw [en2]; exact hk'), en2, Mem.read_erase, haddr, hgr]
      have e : ((s.acquire p).port p).k = (s.port p).k ∧ ((s.acquire p).port p).addr = (s.port p).addr := by
        rw [q2]; exact ⟨rfl, rfl⟩
      rw [e.1, e.2]
      have : (s.port p).eraseUnits s.cfg * (s.port p).gran s.cfg = (s.port p).k * (s.port p).gran s.cfg +
          (s.port p).gran s.cfg := by
        rw [← hk, Nat.zero_add, Nat.add_one_mul]
      rw [this, Nat.add_assoc]
    · intro hk'; rw [e10 (by rw [en2]; exact hk'), en2]
  | succ m ih =>
    intro s h hd hr hph hk hans
    obtain ⟨r, hans⟩ := hans
    obtain ⟨i2, q2, own2, en2, tr2, x2, c2, b2, hca⟩ := acquire_summary (p := p) h (busy := .erasing) (phase :=
        .pErase) hr (by rw [hph]; rfl)
    obtain ⟨t, e1, e2, e3, e4, e5, e6, e7, e8, e9, e10⟩ := eraseHold_ok i2 (by rw [c2]; exact hd) own2 (by rw [q2])
        (by rw [q2]) (answers_mono (by rw [en2]; exact hans) (by omega))
    have hgr : (((s.acquire p).port p).gran (s.acquire p).cfg) = (s.port p).gran s.cfg := by rw [q2, c2]; rfl
    have hea : (((s.acquire p).port p).eraseAddr (s.acquire p).cfg) = flashAddr (s.port p).addr ((s.port p).k *
        (s.port p).gran s.cfg) := by
      rw [q2, c2]; rfl
    have heu : (((s.acquire p).port p).eraseUnits (s.acquire p).cfg) = (s.port p).eraseUnits s.cfg := by
      rw [q2, c2]; rfl
    have it : t.Inv := runHold_inv i2 (fun _ => by rw [q2]) e1
    have hw := writes_of_erase i2 (by rw [q2])
    obtain ⟨i, -, -, -, hgm, hgp, -, haddr, -, -, hend, hle, hfl⟩ := erase_facts i2.cfgWf hw.1 hw.2
    have hport : t.port p = { s.port p with k := (s.port p).k + 1, ev := 7, phase := .pWaitErase } := by
      rw [e4, heu, if_pos (by rw [q2]; simp only; omega)]
      rw [q2]
    have hcfg : t.cfg = s.cfg := e6.cfg.trans c2
    have hkind : t.env.kind = s.env.kind := e6.kind.trans (by rw [en2])
    have gt : (t.port p).gran t.cfg = (s.port p).gran s.cfg := by rw [hport, hcfg]; rfl
    have et : (t.port p).eraseUnits t.cfg = (s.port p).eraseUnits s.cfg := by rw [hport, hcfg]; rfl
    have at' : (t.port p).addr = (s.port p).addr := by rw [hport]
    have kt : (t.port p).k = (s.port p).k + 1 := by rw [hport]
    obtain ⟨u, f1, f2, f3, f4, f5, f6, f7, f8, f9, f10, f11⟩ := ih (s := t) it (by rw [hcfg]; exact hd) e2.fstate
        (by rw [hport]) (by rw [et, kt]; omega)
      ⟨r, answers_drop (m := 5) (by rw [show 5 + (5 * (m + 1) + r) = 5 * (m + 1 + 1) + r by omega]; exact hans) hkind
          (by rw [e7, en2])⟩
    rw [gt, et, at', kt] at f10
    rw [gt, at', kt, hcfg] at f6
    refine ⟨u, ?_, f2, f3, by rw [f4, e3, x2], ?_, ?_, (b2.trans e6).trans f7, ?_, ?_, ?_, ?_⟩
    · rw [← f1, show m + 1 + 1 + n = (m + 1 + n) + 1 by omega]
      conv_lhs => unfold runHolds
      rw [if_pos hca, e1]
      rfl
    · rw [f5, et, hport]
    · rw [List.range'_succ, List.flatMap_cons]
      rw [hgr, hea, c2] at e5
      exact (performs_of_trace tr2 e5).trans f6
    · rw [f8, e7, en2, List.drop_drop]; congr 1; omega
    · intro hwf
      refine f9 ?_
      cases hk : s.env.kind with
      | any => rw [e10 (by rw [en2]; exact hk), en2]; exact hwf
      | ref => rw [e9 (by rw [en2]; exact hk), en2]; exact Mem.erase_wf hwf _ _
    · intro hk' a
      rw [f10 (by rw [hkind]; exact hk'), e9 (by rw [en2]; exact hk'), en2, Mem.read_erase, haddr, hgr]
      have e : ((s.acquire p).port p).k = (s.port p).k ∧ ((s.acquire p).port p).addr = (s.port p).addr := by
        rw [q2]; exact ⟨rfl, rfl⟩
      rw [e.1, e.2]
      have h1 : ((s.port p).k + 1) * (s.port p).gran s.cfg = (s.port p).k * (s.port p).gran s.cfg +
          (s.port p).gran s.cfg := Nat.add_one_mul _ _
      have h2 : ((s.port p).k + 1) * (s.port p).gran s.cfg ≤ (s.port p).eraseUnits s.cfg * (s.port p).gran s.cfg :=
          Nat.mul_le_mul_right _ (by omega)
      rw [h1] at h2 ⊢
      split
      · rw [if_pos (by omega)]
      · split
        · rw [if_pos (by omega)]
        · rw [if_neg (by omega)]
    · intro hk'; rw [f11 (by rw [hkind]; exact hk'), e10 (by rw [en2]; exact hk'), en2]

end Sys2Proof.Machine
end

