-- ==== Sys2Proof/Laws/Identify.lean ====
section
/-! SUPPORT. One event of identification that is answered, and the accumulator after three bytes (41 R126, R127). -/

namespace Sys2Proof.Machine

/-- An event of identification that was answered. -/
structure InitRan (e : Event) (r : Answer) (s t : State) : Prop where
  owner : t.owner = s.owner
  cfg : t.cfg = s.cfg
  xfer : t.xferCount = s.xferCount
  ctx : t.ctx = s.ctx
  host : t.host = s.host
  holdNo : t.holdNo = s.holdNo
  ev : t.initEv = s.initEv + 1
  acc : t.initAcc = match r with | .byte b => accumulate s.initAcc b | .ok => s.initAcc | .timeout => s.initAcc
  trace : t.trace = s.trace ++ [⟨.init, s.holdNo, e, r⟩]
  sel : t.sel = selAfter e s.sel
  draws : t.env.draws = s.env.draws.drop (asked [e])
  kind : t.env.kind = s.env.kind
  chipAny : s.env.kind = .any → t.env.chip = s.env.chip
  chipRef : s.env.kind = .ref → chipStep s.cfg e s.env.chip = some t.env.chip

theorem initStep_ok {e : Event} {s : State} (ha : s.env.answers (asked [e]))
    (hc : s.env.kind = .ref → ∃ c, chipStep s.cfg e s.env.chip = some c) :
    ∃ r t, initStep e s = .next (if s.initEv + 1 = 6 then initEnd t else t) ∧ InitRan e r s t ∧ r ≠ .timeout ∧
        ((e = .rb ∧ r ≠ .ok) ∨ (e ≠ .rb ∧ ∀ b, r ≠ .byte b)) ∧
    (s.env.reference → ∀ b, e = .rb → s.env.chip.answer s.cfg = .byte b → r = .byte b) := by
  obtain ⟨r, chip, ix, htr, hr, h1, h2, h3⟩ := transport_ok (a := .init) ha hc
  have hans := transport_answer htr
  refine ⟨r, { (initDeliver (eventLeaves .init e s r chip ix) r) with initEv := s.initEv + 1 }, ?_, ?_, hr, hans, h3⟩
  · unfold initStep; rw [htr]
    cases r with
    | timeout => exact absurd rfl hr
    | ok => rfl
    | byte b => rfl
  · cases r with
    | timeout => exact absurd rfl hr
    | ok => exact ⟨rfl, rfl, rfl, rfl, rfl, rfl, rfl, rfl, rfl, rfl, rfl, rfl, h1, h2⟩
    | byte b => exact ⟨rfl, rfl, rfl, rfl, rfl, rfl, rfl, rfl, rfl, rfl, rfl, rfl, h1, h2⟩

theorem accumulate_toNat (a : Addr24) (b : Byte) : (accumulate a b).toNat = a.toNat % 65536 * 256 + b.toNat := by
  have hb := b.isLt
  unfold accumulate
  rw [BitVec.toNat_or, BitVec.toNat_shiftLeft, BitVec.toNat_setWidth, Nat.mod_eq_of_lt (a := b.toNat) (by omega)]
  have : a.toNat <<< 8 % 2 ^ 24 = (a.toNat % 65536) <<< 8 := by
    rw [Nat.shiftLeft_eq, Nat.shiftLeft_eq]; omega
  rw [this, ← Nat.shiftLeft_add_eq_or_of_lt (by omega), Nat.shiftLeft_eq]

/-- Three bytes, most significant first (R92). -/
theorem accumulate_three (a : Addr24) (b0 b1 b2 : Byte) : accumulate (accumulate (accumulate a b0) b1) b2 =
    b0 ++ b1 ++ b2 := by
  apply BitVec.eq_of_toNat_eq
  have := addrOfBytes_toNat b0 b1 b2
  unfold addrOfBytes at this
  rw [this, accumulate_toNat, accumulate_toNat, accumulate_toNat]
  have := b0.isLt; have := b1.isLt; have := b2.isLt
  omega

theorem chipStep_rb_ident (cfg : Config) (c : Chip) (hf : c.frame.length ≤ 1) : chipStep cfg .rb c =
    some c.countRead := by
  unfold chipStep
  cases hx : c.answer cfg with
  | byte b => rfl
  | anyByte => rfl
  | absent =>
    exfalso
    unfold Chip.answer at hx
    split at hx
    · repeat' split at hx
      all_goals cases hx
    · rename_i hq; rw [hq] at hf; simp at hf
    · cases hx

end Sys2Proof.Machine
end

