-- ==== Sys2Proof/Laws/PerInstr.lean ====
section
/-! SUPPORT. Facts made per instruction: the bytes an instruction's frame writes on the wire are the bytes of its
encoding, and a command has a descriptor and no frame (30_encoding R83, R90). -/

namespace Sys2Proof.Laws.WrittenBytes

open Sys2Proof Sys2Proof.Machine

/-- The event list and the encoder, written apart from each other, agree on the bytes of an instruction. -/
def Statement (i : Instr) : Prop :=
  ∀ (c : Config) (n : Nat),
    match encode c i with
    | .frame bytes => bytesWritten (frameOf c n i) = bytes
    | .descriptor w0 _ _ _ => frameOf c n i = [] ∧ 1 ≤ w0.toNat ∧ w0.toNat ≤ 4

theorem read (addr len : Word) : Statement (.read addr len) := fun _ _ => ⟨rfl, by decide, by decide⟩

theorem write (addr len : Word) (payload : List Byte) : Statement (.write addr len payload) :=
  fun _ _ => ⟨rfl, by decide, by decide⟩

theorem status : Statement .status := fun _ _ => ⟨rfl, by decide, by decide⟩

theorem resetStatus : Statement .resetStatus := fun _ _ => ⟨rfl, by decide, by decide⟩

theorem ident : Statement .ident := fun _ _ => rfl

theorem erase (gran : Nat) (addr : Addr24) : Statement (.erase gran addr) := fun _ _ => rfl

theorem program (addr : Addr24) (data : List Byte) : Statement (.program addr data) :=
  fun c _ => bytesWritten_progCycle c addr data

theorem fastRead (addr : Addr24) : Statement (.fastRead addr) :=
  fun c n => bytesWritten_readFrame c.opcFastRead true addr n

theorem readSlow (addr : Addr24) : Statement (.readSlow addr) :=
  fun c n => bytesWritten_readFrame c.opcReadSlow false addr n

end Sys2Proof.Laws.WrittenBytes
end

