-- ==== Sys2Proof/Laws/PortTurns.lean ====
section
/-! SUPPORT. What small steps of one port leave unchanged, however many (10_state R37, R38), and which flash bytes they may
change: those of the erase unit, of the program cycle, of the WRITE (43 R160, R161, 44 R176). -/

namespace Sys2Proof.Machine

/-- What small steps of a port leave unchanged. -/
structure PortTurns (p : Nat) (s t : State) : Prop where
  beyond : sameBeyondHold p s t
  request : sameRequest (s.port p) (t.port p)
  part : ((s.port p).phase ≠ .pSubmitted ∨ ((s.port p).op ≠ 1 ∧ (s.port p).op ≠ 2)) → (t.port p).part =
      (s.port p).part
  k : ((s.port p).op ≠ 2 ∨ (s.port p).phase = .pProg) → (t.port p).k = (s.port p).k
  record : (t.port p).phase ≠ .pDone → (t.port p).result = (s.port p).result ∧ (t.port p).count = (s.port p).count
  xfer : (s.port p).op ≠ 4 → ((t.port p).phase ≠ .pDone ∨ (t.port p).result ≠ .ok) → t.xferCount = s.xferCount
  phase : ((t.port p).phase = .pSubmitted → (s.port p).phase = .pSubmitted) ∧ ((s.port p).phase = .pProg →
      (t.port p).phase = .pProg ∨ (t.port p).phase = .pDone)
  done : (s.port p).phase = .pDone → t = s

theorem PortTurns.refl (p s) : PortTurns p s s := ⟨.refl p s, ⟨rfl, rfl, rfl, rfl⟩, fun _ => rfl, fun _ => rfl,
    fun _ => ⟨rfl, rfl⟩, fun _ _ => rfl, ⟨id, fun h => .inl h⟩, fun _ => rfl⟩

theorem PortTurns.trans {p s t u} (h : PortTurns p s t) (g : PortTurns p t u) : PortTurns p s u := by
  by_cases hd : (t.port p).phase = .pDone
  · rw [g.done hd]; exact h
  · have o := h.request.op
    refine ⟨h.beyond.trans g.beyond, ⟨g.request.op.trans o, g.request.addr.trans h.request.addr,
        g.request.len.trans h.request.len, g.request.payload.trans h.request.payload⟩, fun c => ?_, fun c => ?_,
        fun c => ?_, fun c d => ?_, ⟨fun c => h.phase.1 (g.phase.1 c), fun c => ?_⟩, fun c => ?_⟩
    · rw [g.part ?_, h.part c]
      rcases c with c | c
      · exact .inl (fun e => c (h.phase.1 e))
      · rw [o]; exact .inr c
    · rw [g.k ?_, h.k c]
      rcases c with c | c
      · rw [o]; exact .inl c
      · rcases h.phase.2 c with e | e
        · exact .inr e
        · exact absurd e hd
    · obtain ⟨a, b⟩ := g.record c; obtain ⟨a', b'⟩ := h.record hd
      exact ⟨a.trans a', b.trans b'⟩
    · rw [g.xfer (by rw [o]; exact c) d, h.xfer c (.inl hd)]
    · rcases h.phase.2 c with e | e
      · exact g.phase.2 e
      · exact absurd e hd
    · have e := h.done c; subst e; exact g.done c

/-- One small step. -/
theorem takeTurn_portTurns {p : Nat} {s t : State} {u : Turn} (h : s.Inv) (hu : u.smallOf p = true) (ht :
    takeTurn u s = .next t) : PortTurns p s t := by
  cases u with
  | run a => simp [Turn.smallOf] at hu
  | submit p w0 w1 w2 pl => simp [Turn.smallOf] at hu
  | collect p => simp [Turn.smallOf] at hu
  | initEvent => simp [Turn.smallOf] at hu
  | decode q =>
    simp only [Turn.smallOf, decide_eq_true_eq] at hu; subst hu
    rcases decodeStep_cases ht with rfl | ⟨hph, x, ho, hn, hr, hx, hc⟩
    · exact .refl _ _
    · have hb : sameBeyondHold q s t := by
        have := ho.beyond
        exact ⟨this.cfg, this.identity, this.diag, this.initEv, this.initAcc, this.ports, this.others, this.kind,
            this.chipId, this.host⟩
      have hxx : t.xferCount = x := ho.xferCount
      refine ⟨hb, hr, fun c => ?_, fun c => ?_, fun c => ?_, fun c d => ?_, ⟨fun _ => hph,
          fun c => by rw [hph] at c; cases c⟩, fun c => by rw [hph] at c; cases c⟩
      · rcases c with c | c
        · exact absurd hph c
        · rcases hc with ⟨-, e, -⟩ | ⟨e, -⟩ | ⟨e, -⟩
          · exact e
          · exact absurd e c.1
          · exact absurd e c.2
      · rcases c with c | c
        · rcases hc with ⟨-, -, e⟩ | ⟨-, -, e, -⟩ | ⟨e, -⟩
          · exact e
          · exact e
          · exact absurd e c
        · rw [hph] at c; cases c
      · rcases hc with ⟨e, -⟩ | ⟨-, -, -, e⟩ | ⟨-, -, e⟩
        · exact absurd e c
        · exact e
        · exact e
      · rw [hxx]; rcases hx with e | e
        · exact e
        · exact absurd e c
  | acquire q =>
    simp only [Turn.smallOf, decide_eq_true_eq] at hu; subst hu
    cases ht
    rcases acquire_cases s q with e | ⟨busy, phase, hr, hb, -⟩
    · rw [e]; exact .refl _ _
    · obtain ⟨-, q2, own2, en2, tr2, x2, c2, b2, hca⟩ := acquire_summary h hr hb
      have hp : phase ≠ .pSubmitted ∧ phase ≠ .pDone := by
        cases hph : (s.port q).phase <;> rw [hph] at hb <;> simp [acquireTarget] at hb <;> rw [← hb.2] <;> simp
      refine ⟨b2, by rw [q2]; exact ⟨rfl, rfl, rfl, rfl⟩, by rw [q2]; exact fun _ => rfl,
          by rw [q2]; exact fun _ => rfl, by rw [q2]; exact fun _ => ⟨rfl, rfl⟩, fun _ _ => x2,
          ⟨fun c => by rw [q2] at c; exact absurd c hp.1, fun c => by rw [c] at hb; cases hb⟩,
          fun c => by rw [c] at hb; cases hb⟩
  | event q =>
    simp only [Turn.smallOf, decide_eq_true_eq] at hu; subst hu
    rcases portEvent_cases ht with rfl | ⟨e, h1, h2⟩
    · exact .refl _ _
    · obtain ⟨ho, hp, hh, he⟩ := nextEvent_some h1
      have es := eventStep_summary hp hh h2
      have hnd : (s.port q).phase ≠ .pDone := by intro e; rw [e] at hh; cases hh
      refine ⟨es.beyond, es.request, fun _ => es.part, fun c => es.k (fun e => ?_), es.record, fun _ => es.xfer,
          ⟨fun c => ?_, fun c => ?_⟩, fun c => absurd c hnd⟩
      · rcases c with c | c
        · exact c (writes_of_erase h e).1.op
        · rw [e] at c; cases c
      · rcases es.phase with e | ⟨e, -⟩ | ⟨-, -, e | e⟩
        · rw [← e]; exact c
        · rw [e] at c; cases c
        · rw [e] at c; cases c
        · rw [e] at c; cases c
      · rcases es.phase with e | ⟨e, -⟩ | ⟨e, -⟩
        · rw [e]; exact .inl c
        · exact .inr e
        · rw [e] at c; cases c

/-- A run of them. -/
theorem takeTurns_portTurns {p : Nat} {us : List Turn} (hu : ∀ u ∈ us, u.smallOf p = true) {s t : State} (h :
    s.Inv) (ht : takeTurns us s = .next t) : PortTurns p s t :=
  takeTurns_rel (R := PortTurns p) (PortTurns.refl p) (fun _ _ _ a b => a.trans b) h
      (fun s t u h hm ht => takeTurn_portTurns h (hu u hm) ht) ht

/-- A run of small steps of a port changes no flash byte outside the regions its request allows. -/
theorem takeTurns_flash_outside {p lo hi : Nat} {us : List Turn} : ∀ (s t : State), (∀ u ∈ us, u.smallOf p = true) →
    s.Inv → s.ChipInv → s.cfg.opcodesDistinct →
    (∀ c : Ctx, c.Good s.cfg → sameRequest (s.port p) c → (Ctx.region s.cfg c).1 = (Ctx.region s.cfg c).2 ∨
        (lo ≤ (Ctx.region s.cfg c).1 ∧ (Ctx.region s.cfg c).2 ≤ hi)) → takeTurns us s = .next t →
        sameFlashOutside lo hi s t := by
  induction us with
  | nil => intro s t _ _ _ _ _ ht; cases ht; exact fun _ _ => rfl
  | cons u us ih =>
    intro s t hu h hch hd hreg ht
    obtain ⟨x, h1, h2⟩ := andThen_eq_next.1 ht
    have hu1 := hu u (List.mem_cons_self ..)
    have hsm : ∀ a, u ≠ .run a := by rintro a rfl; simp [Turn.smallOf] at hu1
    have p2 := takeTurn_portTurns h hu1 h1
    have hcfg := p2.beyond.cfg
    have r := ih x t (fun u h => hu u (List.mem_cons_of_mem _ h)) (takeTurn_inv h h1)
        (takeTurn_chipInv s x u h hch hsm h1) (by rw [hcfg]; exact hd)
      (fun c hg hr => by
        rw [hcfg] at hg ⊢
        exact hreg c hg ⟨hr.op.trans p2.request.op, hr.addr.trans p2.request.addr, hr.len.trans p2.request.len,
            hr.payload.trans p2.request.payload⟩) h2
    intro a ha
    rw [r a ha]
    rcases takeTurn_flash h hch hd hsm h1 with hx | ⟨q, e, rfl, hn, hx⟩
    · exact hx a
    · simp only [Turn.smallOf, decide_eq_true_eq] at hu1; subst hu1
      apply hx
      rcases hreg _ (h.good q) ⟨rfl, rfl, rfl, rfl⟩ with e | e <;> omega

/-- The events of an erase hold change no byte outside the unit. -/
theorem eraseHold_flash {p : Nat} : ∀ (n : Nat) (s t : State), s.Inv → s.ChipInv → s.cfg.opcodesDistinct →
    (s.port p).phase = .pErase → repeatStep (portEvent p) n s = .next t →
   sameFlashOutside ((s.port p).eraseAddr s.cfg).toNat (((s.port p).eraseAddr s.cfg).toNat +
       (s.port p).gran s.cfg) s t := by
  intro n
  induction n with
  | zero => intro s t _ _ _ _ ht; cases ht; exact fun _ _ => rfl
  | succ n ih =>
    intro s t h hch hd hph ht
    obtain ⟨x, h1, h2⟩ := andThen_eq_next.1 ht
    rcases portEvent_cases h1 with rfl | ⟨e, hn, h3⟩
    · exact ih x t h hch hd hph h2
    · have hfl := event_flash h hch hd hn h3
      obtain ⟨ho, hp, hh, he⟩ := nextEvent_some hn
      have es := eventStep_summary hp hh h3
      have hreg : Ctx.region s.cfg (s.port p) = (((s.port p).eraseAddr s.cfg).toNat,
          ((s.port p).eraseAddr s.cfg).toNat + (s.port p).gran s.cfg) := by simp [Ctx.region, hph]
      rw [hreg] at hfl
      by_cases hxo : x.owner = some (.port p)
      · obtain ⟨r, draws, chip, ix, rd, hr, -, hc, hte⟩ := event_goes_on hp hh h3 hxo
        have hport : x.port p = { s.port p with rdata := (s.port p).rdata ++ rd, ev := (s.port p).ev + 1 } :=
            by rw [hte]; exact port_setPort_self hp _
        have := ih x t (event_inv h ho he h3) (event_chipInv h hch hn h3) (by rw [es.beyond.cfg]; exact hd)
            (by rw [hport]; exact hph) h2
        rw [es.beyond.cfg, hport] at this
        intro a ha
        rw [this a ha, hfl a ha]
      · rw [repeatStep_fixed (portEvent_free hxo)] at h2; cases h2; exact hfl

theorem chipAfter_bytes {e : Event} {r c c1} (h1 : e ≠ .sel) {cfg} (h : chipAfter cfg .ref e r c c1) (hr :
    r ≠ .timeout) : c1.frame = c.frame ++ bytesWritten [e] := by
  cases e with
  | sel => exact absurd rfl h1
  | wb b => simp only [chipAfter, if_neg hr] at h; rw [h]; rfl
  | rb => simp only [chipAfter, if_neg hr] at h; rw [h]; simp [Chip.countRead, bytesWritten]
  | wi k => simp only [chipAfter] at h; rw [h]; simp [bytesWritten]
  | desel =>
    simp only [chipAfter] at h
    have : c1.frame = c.frame := by
      unfold Chip.desel at h
      repeat' split at h
      all_goals (first | (cases h; rfl) | cases h | skip)
      all_goals (dsimp only at h; split at h <;> cases h; rfl)
    rw [this]; simp [bytesWritten]

/-- The events of a program cycle, whole or cut off, change no byte outside its data bytes. -/
theorem progCycle_flash {cfg : Config} (hc : cfg.opcodesDistinct) {a : Addr24} {d : List Byte} (hs :
    a.toNat + d.length ≤ flashSize) {p total : Nat} : ∀ (es : List Event) (s t : State),
    s.cfg = cfg → p < s.ctx.length → (s.owner = some (.port p) → (holdState (s.port p).phase).isSome) → (∀ e ∈ es,
        e ≠ .sel) → s.env.chip.fl.wf → (s.owner = some (.port p) → s.env.kind = .ref →
        s.env.chip.frame ++ bytesWritten es = cfg.opcProgram :: (addrBytes a ++ d)) →
    runEvents p total es s = .next t → sameFlashOutside a.toNat (a.toNat + d.length) s t := by
  intro es
  induction es with
  | nil => intro s t _ _ _ _ _ _ ht; cases ht; exact fun _ _ => rfl
  | cons e es ih =>
    intro s t hcfg hp hh hsel hwf hfr ht
    simp only [runEvents] at ht
    split at ht
    swap
    · cases ht; exact fun _ _ => rfl
    · rename_i ho
      obtain ⟨x, h1, h2⟩ := andThen_eq_next.1 ht
      have sm := eventStep_summary hp (hh ho) h1
      have hne := hsel e (List.mem_cons_self ..)
      have key : ∀ c y : Chip, c.fl.wf → c.frame <+: cfg.opcProgram :: (addrBytes a ++ d) → c.desel cfg = some y →
          y.fl.wf ∧ ∀ b, (b < a.toNat ∨ a.toNat + d.length ≤ b) → y.fl.read b = c.fl.read b := by
        intro c y hw hf hx
        obtain ⟨d', x1, x2, x3, x4, x5⟩ := desel_program_prefix hc hf (Nat.le_refl _) (Nat.le_refl _) hs
        rw [x1] at hx; cases hx
        exact x5 hw
      have step1 : s.env.kind = .ref → ∀ r c1, chipAfter s.cfg .ref e r s.env.chip c1 → c1.fl.wf ∧ ∀ b,
          (b < a.toNat ∨ a.toNat + d.length ≤ b) → c1.fl.read b = s.env.chip.fl.read b := by
        intro hk r c1 hx
        have hpre : s.env.chip.frame <+: cfg.opcProgram :: (addrBytes a ++ d) := ⟨_, hfr ho hk⟩
        refine ⟨chipAfter_wf hwf hx, fun b hb => ?_⟩
        cases e with
        | sel => exact absurd rfl hne
        | wb b => simp only [chipAfter] at hx; rw [hx]; split <;> rfl
        | rb => simp only [chipAfter] at hx; rw [hx]; split <;> rfl
        | wi k => simp only [chipAfter] at hx; rw [hx]
        | desel => exact (key _ _ hwf hpre (hcfg ▸ hx)).2 b hb
      have hx : x.env.chip.fl.wf ∧ ∀ b, (b < a.toNat ∨ a.toNat + d.length ≤ b) → x.env.chip.fl.read b =
          s.env.chip.fl.read b := by
        cases hk : s.env.kind with
        | any => rw [sm.chipAny hk]; exact ⟨hwf, fun _ _ => rfl⟩
        | ref =>
          obtain ⟨r, c1, g1, g2⟩ := sm.chipRef hk
          rcases g2 with ⟨g2, -⟩ | ⟨-, g3, g2⟩
          · rw [g2]; exact step1 hk _ _ g1
          · rw [g3.1] at g2
            exact key _ _ hwf ⟨_, hfr ho hk⟩ (hcfg ▸ g2)
      have r := ih x t (sm.beyond.cfg.trans hcfg) (by rw [sm.beyond.ports]; exact hp) (fun hxo => by
          rcases sm.phase with e | ⟨-, e⟩ | ⟨-, e, -⟩
          · rw [e]; exact hh ho
          · rw [e] at hxo; cases hxo
          · rw [e] at hxo; cases hxo) (fun e h => hsel e (List.mem_cons_of_mem _ h)) hx.1 (fun hxo hxk => by
          have hk : s.env.kind = .ref := by rw [← sm.beyond.kind]; exact hxk
          obtain ⟨r, c1, g1, g2⟩ := sm.chipRef hk
          rcases g2 with ⟨g2, g3⟩ | ⟨g3, -⟩
          · rw [g2, chipAfter_bytes hne g1 (g3 (by rw [hxo]; simp)), List.append_assoc, ← bytesWritten_append]
            exact hfr ho hk
          · rw [g3] at hxo; cases hxo) h2
      intro b hb
      rw [r b hb, hx.2 b hb]

end Sys2Proof.Machine
end

