-- ==== Sys2Proof/Laws/ReadHold.lean ====
section
/-! SUPPORT. A whole read hold in which no answer is a timeout (45 R192, R193): its bytes, and under the pure reference
environment what they are. -/

namespace Sys2Proof.Machine

/-- Data reads under the pure reference environment deliver what the chip answers (R118, R70). -/
theorem reads_ok {p total : Nat} {g : Nat → Byte} : ∀ {m : Nat} {s : State}, p < s.ctx.length →
    s.owner = some (.port p) → (s.port p).ev + m < total → s.env.reference → (s.port p).phase = .pRead →
    (s.cfg.useFastRead = true → dummyEvent < (s.port p).ev) →
    (∀ k < m, ({ s.env.chip with reads := s.env.chip.reads + k } : Chip).answer s.cfg = .byte (g k)) →
    ∃ t, runEvents p total (List.replicate m .rb) s = .next t ∧
      Ran p (List.replicate m .rb) ((List.range m).map g) s t := by
  intro m
  induction m generalizing g with
  | zero => intro s _ _ _ _ _ _ _; exact ⟨s, rfl, Ran.nil p s⟩
  | succ m ih =>
    intro s hp ho hl hr hph hf hb
    have h0 := hb 0 (by omega)
    have h0' : s.env.chip.answer s.cfg = .byte (g 0) := h0
    have hchip : chipStep s.cfg .rb s.env.chip = some s.env.chip.countRead := by
      simp [chipStep, h0']
    have hans : ∀ n, s.env.answers n := fun n => ⟨by simp [hr.2], .inl hr.1⟩
    obtain ⟨rd, t, hran, hstep, hrd, -⟩ := eventStep_ok (total := total) hp (hans _) (fun _ => ⟨_, hchip⟩)
    rw [if_neg (by omega)] at hstep
    have hrd1 := hrd hr (g 0) rfl h0' hph (fun e => by have := hf e.1; omega)
    subst hrd1
    have hport := hran.port hp
    have hran' := hran
    obtain ⟨chip, ix, calls, ht, h1, h2, h3, h4, h5⟩ := hran
    have hlen : t.ctx.length = s.ctx.length := by rw [ht]; exact length_setPort _ _ _
    have hchip2 : t.env.chip = s.env.chip.countRead := by
      have := h2 hr.1
      simp only [chipRun, hchip, Option.bind_some, Option.some.injEq] at this
      rw [ht, this]; rfl
    have hcfg : t.cfg = s.cfg := by rw [ht]; rfl
    obtain ⟨u, hu, hran2⟩ := ih (g := fun k => g (k + 1)) (s := t) (by rw [hlen]; exact hp) (by rw [ht]; exact ho)
      (by rw [hport]; simp only [List.length_cons, List.length_nil]; omega)
      ⟨by rw [ht]; exact hr.1, by rw [ht]; simp [eventsLeave, hr.2]⟩ (by rw [hport]; exact hph)
      (fun e => by
        rw [hcfg] at e
        have := hf e
        rw [hport]
        simp only [List.length_cons, List.length_nil]
        omega)
      (fun k hk => by
        have := hb (k + 1) (by omega)
        rw [hchip2, hcfg]
        simpa [Chip.countRead, Nat.add_assoc, Nat.add_comm 1 k] using this)
    refine ⟨u, ?_, ?_⟩
    · rw [List.replicate_succ]
      simp only [runEvents]
      rw [if_pos ho, hstep]
      exact hu
    · have := Ran.trans hp hran' hran2
      rw [List.replicate_succ, List.range_succ_eq_map, List.map_cons, List.map_map]
      exact this

/-- What a read frame opens with: the head, and the dummy byte of a fast read. -/
def readOpening (op : Byte) (dummy : Bool) (a : Addr24) : List Event :=
  frameHead op a ++ (if dummy then [.rb] else [])

theorem readFrame_split (op : Byte) (dummy : Bool) (a : Addr24) (n : Nat) :
    readFrame op dummy a n = readOpening op dummy a ++ (List.replicate n .rb ++ [.desel]) := by
  simp [readFrame, readOpening]

theorem length_readOpening (op : Byte) (dummy : Bool) (a : Addr24) :
    (readOpening op dummy a).length = 5 + (if dummy then 1 else 0) := by
  cases dummy <;> rfl

/-- The chip when the data of a read frame begin. -/
theorem chipRun_opening {cfg : Config} {op : Byte} {dummy : Bool} {a : Addr24} (c : Chip)
    (ho : op = if dummy then cfg.opcFastRead else cfg.opcReadSlow) :
    chipRun cfg (readOpening op dummy a) c =
      some { c with frame := op :: addrBytes a, reads := if dummy then 1 else 0 } := by
  unfold readOpening
  rw [chipRun_append, chipRun_head]
  cases dummy with
  | false => rfl
  | true =>
    simp only [if_true] at ho
    subst ho
    simp only [Option.bind_some, if_true, chipRun, chipStep]
    rw [answer_fastRead rfl]
    simp [Chip.countRead]

/-- What the chip answers to data read number `k` of a read frame (R70). -/
theorem answer_data {cfg : Config} (hc : cfg.opcodesDistinct) {op : Byte} {dummy : Bool} {a : Addr24} {c : Chip}
    (ho : op = if dummy then cfg.opcFastRead else cfg.opcReadSlow) (hf : c.frame = op :: addrBytes a) {k : Nat}
    (hr : c.reads = (if dummy then 1 else 0) + k) (hs : a.toNat + k < flashSize) :
    c.answer cfg = .byte (c.fl.read (a.toNat + k)) := by
  cases dummy with
  | true =>
    simp only [if_true] at ho hr
    subst ho
    rw [answer_fastRead hf, if_neg (by omega)]
    unfold Chip.flash
    rw [show a.toNat + c.reads - 1 = a.toNat + k by omega, if_pos hs]
  | false =>
    simp only [Bool.false_eq_true, if_false, Nat.zero_add] at ho hr
    subst ho
    rw [answer_readSlow hc hf, hr]
    unfold Chip.flash
    rw [if_pos hs]

/-- A read hold (R192, R193, R70). -/
theorem readHold_ok {s : State} {p : Nat} (h : s.Inv) (hd : s.cfg.opcodesDistinct) (ho : s.owner = some (.port p))
    (hph : (s.port p).phase = .pRead) (hev : (s.port p).ev = 0)
    (ha : s.env.answers (asked (readEvents s.cfg (s.port p).addr (s.port p).lenNat))) :
    ∃ t rdata, runHold p s = .next t ∧ t.idleToken ∧
      t.port p =
        { s.port p with ev := (readEvents s.cfg (s.port p).addr (s.port p).lenNat).length }.done
          .ok (s.port p).len rdata (s.port p).buf ∧
      rdata.length = (s.port p).lenNat ∧
      credited s.cfg (s.port p).addr (s.port p).lenNat s.xferCount t.xferCount ∧
      performs s t (.port p) (readEvents s.cfg (s.port p).addr (s.port p).lenNat) ∧ sameBeyondHold p s t ∧
      t.env.chip.fl = s.env.chip.fl ∧
      (s.env.reference →
        rdata = (List.range (s.port p).lenNat).map (fun j => s.env.chip.fl.read ((s.port p).addr.toNat + j))) := by
  obtain ⟨hw, -⟩ := reads_of_read h hph
  obtain ⟨i, hpart, -, hlpos, hl2, -⟩ := hw.facts h.cfgWf
  obtain ⟨haddr, hbound⟩ := read_facts h.cfgWf hw
  obtain ⟨hp, -, -, -⟩ := h.hold p ho
  have hl : (s.port p).holdList s.cfg = readEvents s.cfg (s.port p).addr (s.port p).lenNat :=
    holdList_read (cfg := s.cfg) hpart hph
  have hsel0 := sel_at_start h ho hev
  have hselEnd := holdList_sel s.cfg (s.port p)
  generalize hn : (s.port p).lenNat = n at *
  generalize hop : (if s.cfg.useFastRead then s.cfg.opcFastRead else s.cfg.opcReadSlow) = op at *
  have hre : readEvents s.cfg (s.port p).addr n =
      readOpening op s.cfg.useFastRead (flashAddr (s.port p).addr 0) ++ (List.replicate n .rb ++ [.desel]) := by
    unfold readEvents
    rw [hop, readFrame_split]
  have hlen := congrArg List.length hre
  simp only [List.length_append, List.length_replicate, List.length_cons, List.length_nil, length_readOpening] at hlen
  rw [hre, asked_append, asked_append] at ha
  have hopen := chipRun_opening (cfg := s.cfg) (op := op) (dummy := s.cfg.useFastRead)
    (a := flashAddr (s.port p).addr 0) s.env.chip hop.symm
  generalize hO : readOpening op s.cfg.useFastRead (flashAddr (s.port p).addr 0) = O at *
  have hOlen : O.length = 5 + (if s.cfg.useFastRead then 1 else 0) := by rw [← hO]; exact length_readOpening _ _ _
  -- the opening
  obtain ⟨rdA, t1, hA, ranA⟩ := runEvents_ok (p := p) (total := (readEvents s.cfg (s.port p).addr n).length) (es := O)
    hp ho (by omega) (answers_mono ha (by omega)) (fun _ => ⟨_, hopen⟩)
  have inv1 : t1.Inv := by
    refine runEvents_inv (l := readEvents s.cfg (s.port p).addr n) h (fun _ => ⟨hl, List.replicate n .rb ++ [.desel], ?_⟩) hA
    rw [hev, List.drop_zero]; exact hre
  have port1 := ranA.port hp
  have bey1 := ranA.beyond
  obtain ⟨chip1, ix1, calls1, ht1, a1, a2, -⟩ := id ranA
  have own1 : t1.owner = some (.port p) := by rw [ht1]; exact ho
  have len1 : p < t1.ctx.length := by rw [bey1.ports]; exact hp
  have ph1 : (t1.port p).phase = .pRead := by rw [port1]; exact hph
  have ev1 : (t1.port p).ev = O.length := by rw [port1]; simp only [hev, Nat.zero_add]
  have list1 : (t1.port p).holdList t1.cfg = readEvents s.cfg (s.port p).addr n := by
    rw [bey1.cfg, ← hl, port1]
    exact holdList_congr rfl rfl rfl rfl rfl rfl
  have rd1 : (t1.port p).rdata = [] := by
    have := (reads_of_read inv1 ph1).2
    rw [list1, bey1.cfg] at this
    have e2 : (readEvents s.cfg (s.port p).addr n) =
        readFrame op s.cfg.useFastRead (flashAddr (s.port p).addr 0) n := by unfold readEvents; rw [hop]
    rw [e2, readFrame_reads_take (by rw [← e2, ev1]; omega), ev1, hOlen] at this
    refine List.eq_nil_of_length_eq_zero (this.trans ?_)
    cases s.cfg.useFastRead <;> simp
  -- the data
  have ans1 : t1.env.answers (asked (List.replicate n .rb) + asked [.desel]) :=
    answers_drop ha (by rw [ht1]; rfl) (by rw [ht1]; rfl)
  have hB : ∃ rdB t2, runEvents p (readEvents s.cfg (s.port p).addr n).length (List.replicate n .rb) t1 = .next t2 ∧
      Ran p (List.replicate n .rb) rdB t1 t2 ∧
      (s.env.reference →
        rdB = (List.range n).map (fun j => s.env.chip.fl.read ((s.port p).addr.toNat + j))) := by
    have hchip1 : s.env.kind = .ref → t1.env.chip =
        { s.env.chip with
          frame := op :: addrBytes (flashAddr (s.port p).addr 0)
          reads := if s.cfg.useFastRead then 1 else 0 } := by
      intro hk
      have := a2 hk
      rw [hopen] at this
      simp only [Option.some.injEq] at this
      rw [ht1, this]; rfl
    have hdata : s.env.kind = .ref → ∀ k < n,
        ({ t1.env.chip with reads := t1.env.chip.reads + k } : Chip).answer t1.cfg =
          .byte (s.env.chip.fl.read ((s.port p).addr.toNat + k)) := by
      intro hk k hkn
      rw [hchip1 hk, bey1.cfg, ← haddr]
      exact answer_data hd hop.symm rfl rfl (by rw [haddr]; omega)
    by_cases hr : s.env.reference
    · obtain ⟨t2, e1, e2⟩ := reads_ok (p := p) (total := (readEvents s.cfg (s.port p).addr n).length)
        (g := fun j => s.env.chip.fl.read ((s.port p).addr.toNat + j)) (m := n) (s := t1) len1 own1 (by omega)
        ⟨by rw [ht1]; exact hr.1, by rw [ht1]; simp [eventsLeave, hr.2]⟩ ph1
        (fun e => by
          rw [bey1.cfg] at e
          rw [ev1, hOlen, e]
          decide)
        (hdata hr.1)
      exact ⟨_, t2, e1, e2, fun _ => rfl⟩
    · obtain ⟨rdB, t2, e1, e2⟩ := runEvents_ok (p := p) (total := (readEvents s.cfg (s.port p).addr n).length)
        (es := List.replicate n .rb) (s := t1) len1 own1 (by rw [List.length_replicate]; omega)
        (answers_mono ans1 (by omega)) (fun hk => by
          have hk' : s.env.kind = .ref := by rw [← bey1.kind]; exact hk
          exact ⟨_, chipRun_reads (fun k hkn => by rw [hdata hk' k hkn]; simp)⟩)
      exact ⟨rdB, t2, e1, e2, fun e => absurd e hr⟩
  obtain ⟨rdB, t2, hBr, ranB, href⟩ := hB
  have inv2 : t2.Inv := by
    refine runEvents_inv (l := readEvents s.cfg (s.port p).addr n) inv1 (fun _ => ⟨list1, [.desel], ?_⟩) hBr
    rw [ev1, hre, List.drop_append_of_le_length (Nat.le_refl _), List.drop_length, List.nil_append]
  have port2 := ranB.port len1
  have bey2 := ranB.beyond
  obtain ⟨chip2, ix2, calls2, ht2, b1, b2, -⟩ := id ranB
  have own2 : t2.owner = some (.port p) := by rw [ht2]; exact own1
  have len2 : p < t2.ctx.length := by rw [bey2.ports]; exact len1
  have ph2 : (t2.port p).phase = .pRead := by rw [port2]; exact ph1
  have ev2 : (t2.port p).ev = O.length + n := by rw [port2]; simp only [ev1, List.length_replicate]
  have rd2 : (t2.port p).rdata = rdB := by rw [port2]; simp only [rd1, List.nil_append]
  have rdlen : rdB.length = n := by
    have := (reads_of_read inv2 ph2).2
    rw [rd2] at this
    have list2 : (t2.port p).holdList t2.cfg = readEvents s.cfg (s.port p).addr n := by
      rw [bey2.cfg, ← list1, port2]
      exact holdList_congr rfl rfl rfl rfl rfl rfl
    rw [list2, bey2.cfg, bey1.cfg] at this
    have e2 : (readEvents s.cfg (s.port p).addr n) =
        readFrame op s.cfg.useFastRead (flashAddr (s.port p).addr 0) n := by unfold readEvents; rw [hop]
    rw [e2, readFrame_reads_take (by rw [← e2, ev2]; omega), ev2, hOlen] at this
    rw [this]
    cases s.cfg.useFastRead <;> simp <;> omega
  -- the deselect
  have hfull := chipRun_readFrame hd (op := op) (dummy := s.cfg.useFastRead) (a := flashAddr (s.port p).addr 0) (n := n)
    s.env.chip hop.symm (by rw [haddr]; omega)
  rw [readFrame_split, hO, chipRun_append] at hfull
  have hchip2 : s.env.kind = .ref → (chipRun s.cfg (List.replicate n .rb) t1.env.chip) = some t2.env.chip := by
    intro hk
    have := b2 (by rw [bey1.kind]; exact hk)
    rw [bey1.cfg] at this
    rw [this, ht2]; rfl
  have hlast : s.env.kind = .ref → chipRun s.cfg [.desel] t2.env.chip = some
      { s.env.chip with
        frame := op :: addrBytes (flashAddr (s.port p).addr 0)
        reads := n + (if s.cfg.useFastRead then 1 else 0) } := by
    intro hk
    have e1 := a2 hk
    have e2 := hchip2 hk
    have e3 : t1.env.chip = chip1 := by rw [ht1]; rfl
    rw [e3] at e2
    rw [e1] at hfull
    simp only [Option.bind_some] at hfull
    rw [chipRun_append, e2] at hfull
    exact hfull
  obtain ⟨rdC, t3, ranC, hC, -, -, hrdC⟩ := eventStep_ok (p := p) (total := (readEvents s.cfg (s.port p).addr n).length)
    (e := .desel) (s := t2) len2 (answers_drop ans1 (by rw [ht2]; rfl) (by rw [ht2]; rfl)) (fun hk => by
      have hk' : s.env.kind = .ref := by rw [← bey1.kind, ← bey2.kind]; exact hk
      have := hlast hk'
      rw [bey2.cfg, bey1.cfg]
      simp only [chipRun] at this
      obtain ⟨x, hx, -⟩ := Option.bind_eq_some_iff.1 this
      exact ⟨x, hx⟩)
  have hrdC := hrdC (by simp)
  rw [if_pos (by omega)] at hC
  have port3 := ranC.port len2
  have bey3 := ranC.beyond
  obtain ⟨chip3, ix3, calls3, ht3, c1, c2, -⟩ := id ranC
  have len3 : p < t3.ctx.length := by rw [bey3.ports]; exact len2
  have ranAll := Ran.trans hp ranA (Ran.trans len1 ranB ranC)
  rw [← hre] at ranAll
  have hrun : runHold p s = .next (t3.endHold p) := by
    unfold runHold runFrame
    rw [hl, hre, runEvents_append, ← hre, hA]
    simp only [andThen_next]
    rw [runEvents_append, hBr]
    simp only [andThen_next, runEvents]
    rw [if_pos own2, hC]
    rfl
  have hidle := endHold_idle ranAll hp (by rw [hph]; rfl) (by rw [hsel0, ← hl]; exact hselEnd)
  obtain ⟨d1, d2, d3, -⟩ := endHold_beyond (s := t3) (p := p) len3 (by rw [port3, port2, port1]; simp [hph, holdState])
  have ph3 : (t3.port p).phase = .pRead := by rw [port3]; exact ph2
  obtain ⟨buf, f1, f2, f3⟩ := endHold_transfer (s := t3) (p := p) len3 (.inr ph3)
  have hbuf : (t3.port p).bufHeld = false := by
    rw [port3, port2, port1]
    have := (h.good p).1
    rw [hph] at this
    exact this
  have beyAll := ranAll.beyond
  refine ⟨t3.endHold p, rdB, hrun, hidle, ?_, rdlen, ?_, ?_, beyAll.trans d1, ?_, href⟩
  · have hopr : (s.port p).op = opRead := hw.op
    rw [f1, f2 hbuf, port3, port2, port1]
    have : (s.port p).rdata = [] := by
      rw [port1] at rd1
      exact (List.append_eq_nil_iff.1 rd1).1
    have rdA0 : rdA = [] := by
      rw [port1] at rd1
      exact (List.append_eq_nil_iff.1 rd1).2
    simp only [hrdC, this, rdA0, hopr, hev, List.nil_append, List.append_nil, ne_eq, not_true_eq_false, if_false,
      List.length_replicate, List.length_cons, List.length_nil, Nat.zero_add]
    rw [hlen, hOlen]
    simp only [Ctx.done, Ctx.mk.injEq, and_true, true_and]
    omega
  · rw [f3, beyAll.cfg, port3, port2, port1]
    have hx : t3.xferCount = s.xferCount := by rw [ht3, ht2, ht1]; rfl
    rw [hx]
    have := credited_of_part (cfg := s.cfg) (c := s.port p) hw.part (by rw [hn]; exact hl2) s.xferCount
    rw [hn] at this
    exact this
  · obtain ⟨cs, e1, e2⟩ := ranAll.performs
    exact ⟨cs, by rw [d2, e1], e2⟩
  · rw [d3]
    cases hk : s.env.kind with
    | any =>
      have e3 := c1 (by rw [bey2.kind, bey1.kind]; exact hk)
      have e2 := b1 (by rw [bey1.kind]; exact hk)
      have e1 := a1 hk
      rw [ht3]
      show chip3.fl = _
      rw [e3, ht2]
      show chip2.fl = _
      rw [e2, ht1]
      show chip1.fl = _
      rw [e1]
    | ref =>
      have e := c2 (by rw [bey2.kind, bey1.kind]; exact hk)
      rw [bey2.cfg, bey1.cfg, hlast hk] at e
      simp only [Option.some.injEq] at e
      rw [ht3]
      show chip3.fl = _
      rw [← e]

end Sys2Proof.Machine
end

