-- ==== Sys2Proof/Laws/Schedule.lean ====
section
/-! SUPPORT. No instruction touches the model's own schedule, and the number of holds that have begun never falls: said
once for every operation that `exec` is made of (logs 6, 21). -/

namespace Sys2Proof.Machine

/-- The turns to come are unchanged, and no hold has been taken back. -/
structure KeepsSchedule (s t : State) : Prop where
  sched : t.sched = s.sched
  later : t.later = s.later
  holdNo : s.holdNo ≤ t.holdNo

theorem KeepsSchedule.refl (s : State) : KeepsSchedule s s := ⟨rfl, rfl, Nat.le_refl _⟩

theorem KeepsSchedule.trans {s t u : State} (h : KeepsSchedule s t) (g : KeepsSchedule t u) : KeepsSchedule s u :=
  ⟨g.sched.trans h.sched, g.later.trans h.later, h.holdNo.trans g.holdNo⟩

theorem transport_keepsSchedule {a : Agent} {e : Event} {s t : State} {r : Answer} (h : transport a e s = .ok (r, t)) :
    KeepsSchedule s t := by
  obtain ⟨draws, chip, ix, rfl, -⟩ := transport_cases h
  exact ⟨rfl, rfl, Nat.le_refl _⟩

theorem deselIfSelected_keepsSchedule {a : Agent} {s t : State} (h : deselIfSelected a s = .ok t) :
    KeepsSchedule s t := by
  rcases deselIfSelected_cases h with ⟨-, rfl⟩ | ⟨-, h⟩
  · exact .refl _
  · exact transport_keepsSchedule h

theorem finish_keepsSchedule (s : State) (p : Nat) (code : ResultCode) (count : Word) :
    KeepsSchedule s (s.finish p code count) := ⟨by simp, by simp, by simp⟩

theorem endHold_keepsSchedule (s : State) (p : Nat) : KeepsSchedule s (s.endHold p) := by
  have hc : KeepsSchedule s (s.completeTransfer p) := by
    unfold State.completeTransfer
    rw [creditTransfer_eq]
    exact ⟨by simp, by simp, by simp [State.release]⟩
  unfold State.endHold
  cases (s.port p).phase <;> first | exact .refl _ | exact hc | exact ⟨rfl, rfl, Nat.le_refl _⟩

theorem eventStep_keepsSchedule {p total : Nat} {e : Event} {s t : State} (h : eventStep p total e s = .next t) :
    KeepsSchedule s t := by
  rcases eventStep_cases h with ⟨r, s1, htr, -, rfl⟩ | ⟨s1, htr, hf⟩
  · refine (transport_keepsSchedule htr).trans ?_
    rw [deliver_eq]
    unfold State.advanceEv
    split
    · rw [setPort_setPort]
      exact KeepsSchedule.trans (t := State.setPort s1 p _) ⟨rfl, rfl, Nat.le_refl _⟩ (endHold_keepsSchedule _ _)
    · exact ⟨rfl, rfl, Nat.le_refl _⟩
  · obtain ⟨s2, hd, rfl⟩ := failHold_cases hf
    refine (transport_keepsSchedule htr).trans ((deselIfSelected_keepsSchedule hd).trans ?_)
    exact KeepsSchedule.trans (t := s2.release) ⟨rfl, rfl, Nat.le_refl _⟩ (finish_keepsSchedule ..)

theorem runEvents_keepsSchedule {p total : Nat} : ∀ {es : List Event} {s t : State},
    runEvents p total es s = .next t → KeepsSchedule s t := by
  intro es
  induction es with
  | nil => intro s t h; cases h; exact .refl _
  | cons e es ih =>
    intro s t h
    rw [runEvents] at h
    split at h
    · obtain ⟨x, h1, h2⟩ := andThen_eq_next.1 h
      exact (eventStep_keepsSchedule h1).trans (ih h2)
    · cases h; exact .refl _

/-- Acquiring keeps the schedule and begins a hold. -/
theorem acquire_keepsSchedule (s : State) (p : Nat) : KeepsSchedule s (s.acquire p) := by
  rcases acquire_cases s p with e | ⟨_, _, -, -, e⟩ <;> rw [e]
  · exact .refl _
  · exact ⟨rfl, rfl, Nat.le_succ _⟩

theorem runHolds_keepsSchedule {p : Nat} : ∀ {n : Nat} {s t : State}, runHolds p n s = .next t → KeepsSchedule s t := by
  intro n
  induction n with
  | zero => intro s t h; cases h; exact .refl _
  | succ n ih =>
    intro s t h
    rw [runHolds] at h
    split at h
    · obtain ⟨x, h1, h2⟩ := andThen_eq_next.1 h
      exact (acquire_keepsSchedule s p).trans ((runEvents_keepsSchedule h1).trans (ih h2))
    · cases h; exact .refl _

theorem initStep_keepsSchedule {e : Event} {s t : State} (h : initStep e s = .next t) : KeepsSchedule s t := by
  rcases initStep_cases h with ⟨r, s1, htr, -, rfl⟩ | ⟨s1, htr, hf⟩
  · refine (transport_keepsSchedule htr).trans ?_
    obtain ⟨acc, ha⟩ := initDeliver_eq s1 r
    rw [ha]; unfold initAdvance; split <;> exact ⟨rfl, rfl, Nat.le_refl _⟩
  · unfold initFail at hf
    split at hf
    · cases hf
    · rename_i hd; cases hf
      exact (transport_keepsSchedule htr).trans ((deselIfSelected_keepsSchedule hd).trans ⟨rfl, rfl, Nat.le_refl _⟩)

theorem runInit_keepsSchedule : ∀ {es : List Event} {s t : State}, runInit es s = .next t → KeepsSchedule s t := by
  intro es
  induction es with
  | nil => intro s t h; cases h; exact .refl _
  | cons e es ih =>
    intro s t h
    rw [runInit] at h
    split at h
    · obtain ⟨x, h1, h2⟩ := andThen_eq_next.1 h
      exact (initStep_keepsSchedule h1).trans (ih h2)
    · cases h; exact .refl _

theorem decodeRead_keepsSchedule (p : Nat) (addr len : Word) (s : State) :
    KeepsSchedule s (decodeRead p addr len s) := by
  unfold decodeRead
  split <;> first | exact finish_keepsSchedule .. | exact ⟨rfl, rfl, Nat.le_refl _⟩

theorem decodeWrite_keepsSchedule {p : Nat} {addr len : Word} {payload : List Byte} {s t : State}
    (h : decodeWrite p addr len payload s = .next t) : KeepsSchedule s t := by
  by_cases hv : validateWrite s.cfg addr len = .ok
  · have hx : KeepsSchedule s s.drawAlloc.2 := by
      obtain ⟨_, _, e⟩ := drawAlloc_cases s
      rw [e]; exact ⟨rfl, rfl, Nat.le_refl _⟩
    rw [decodeWrite_ok hv] at h
    split at h
    · cases h; exact hx.trans (finish_keepsSchedule ..)
    · split at h
      · cases h
      · cases h; exact hx.trans ⟨rfl, rfl, Nat.le_refl _⟩
  · rw [decodeWrite_rejected hv] at h; cases h; exact finish_keepsSchedule ..

/-- No instruction touches the schedule. -/
theorem exec_keepsSchedule {i : Instr} {s t : State} (h : exec i s = .next t) : KeepsSchedule s t := by
  have at_ : ∀ {i : Instr} {m : Nat → Result}, (∀ p, m p = .next t → KeepsSchedule s t) → whenAt i s m = .next t →
      KeepsSchedule s t := by
    intro i m hm h
    rcases whenAt_cases (i := i) (s := s) (m := m) with ⟨p, -, -, e⟩ | e
    · exact hm p (e.symm.trans h)
    · cases e.symm.trans h; exact .refl _
  cases i with
  | read addr len => exact at_ (fun p h => (decodeRead_keepsSchedule ..).trans (runHolds_keepsSchedule h)) h
  | write addr len payload =>
    refine at_ (fun p h => ?_) h
    obtain ⟨x, h1, h2⟩ := andThen_eq_next.1 h
    exact (decodeWrite_keepsSchedule h1).trans (runHolds_keepsSchedule h2)
  | status => exact at_ (fun p h => by cases h; exact finish_keepsSchedule ..) h
  | resetStatus =>
    exact at_ (fun p h => by
      cases h
      exact KeepsSchedule.trans (t := { s with xferCount := 0 }) ⟨rfl, rfl, Nat.le_refl _⟩ (finish_keepsSchedule ..)) h
  | ident =>
    rw [exec, execIdent] at h
    split at h
    · exact runInit_keepsSchedule h
    · cases h; exact .refl _
  | erase gran addr => exact at_ (fun p h => runEvents_keepsSchedule h) h
  | program addr data => exact at_ (fun p h => runEvents_keepsSchedule h) h
  | fastRead addr => exact at_ (fun p h => runEvents_keepsSchedule h) h
  | readSlow addr => exact at_ (fun p h => runEvents_keepsSchedule h) h

/-- A READ that passes validation and finds the token Ready takes it: one hold more has begun. -/
theorem execRead_begins_hold {s t : State} {p : Nat} {addr len : Word} (ha : s.active = .port p)
    (hf : s.fetch = some (.read addr len)) (hp : p < s.ctx.length) (hv : validateRead s.cfg addr len = .ok)
    (hr : s.fstate = .ready) (h : exec (.read addr len) s = .next t) : s.holdNo + 1 ≤ t.holdNo := by
  have h := (whenAt_at ha hf).symm.trans h
  rw [decodeRead_ok hv, runHolds] at h
  have hph := congrArg Ctx.phase (port_setPort_self hp
    (fun c => { c with part := owner s.cfg addr.toNat, rdata := [], phase := .pWaitRead }))
  have hr1 := (setPort_fstate s p (fun c =>
    { c with part := owner s.cfg addr.toNat, rdata := [], phase := .pWaitRead })).trans hr
  have hn := setPort_holdNo s p (fun c =>
    { c with part := owner s.cfg addr.toNat, rdata := [], phase := .pWaitRead })
  generalize s.setPort p _ = w at h hph hr1 hn
  rw [if_pos (by simp [State.canAcquire, hph, acquireTarget, hr1])] at h
  obtain ⟨x, h1, h2⟩ := andThen_eq_next.1 h
  rw [acquire_ready (busy := .reading) (phase := .pRead) hr1 (by rw [hph]; rfl)] at h1
  exact hn ▸ (runEvents_keepsSchedule h1).holdNo.trans (runHolds_keepsSchedule h2).holdNo

end Sys2Proof.Machine
end

