-- ==== Sys2Proof/Laws/Step.lean ====
section
/-! SUPPORT. One step by its schedule: which turn it takes, in which state. -/

namespace Sys2Proof.Machine

/-- A step takes the first turn of the schedule. -/
theorem step_scheduled {s : State} {u : Turn} {rest : List Turn} (hc : s.cfg.wf) (hs : s.sched = u :: rest) :
    step s = doTurn u { s with sched := rest } := by
  unfold step
  rw [if_pos hc]
  simp only [State.nextTurn, hs]

/-- With no turn left and a list that comes again, a step begins the list anew. -/
theorem step_again {s : State} {u : Turn} {rest : List Turn} (hc : s.cfg.wf) (hs : s.sched = [])
    (hl : s.later = .again (u :: rest)) : step s = doTurn u { s with sched := rest } := by
  unfold step
  rw [if_pos hc]
  cases s
  cases hs
  cases hl
  rfl

/-- With no turn left and nothing known of the schedule, a step is a turn that is a free value. -/
theorem step_any {s : State} (hc : s.cfg.wf) (hs : s.sched = []) (hl : s.later = .any) :
    step s = doTurn (Config.freeTurn s.freeIx) { s with freeIx := s.freeIx + 1 } := by
  unfold step
  rw [if_pos hc]
  cases s
  cases hs
  cases hl
  rfl

/-- A turn that is no `run` turn is one small step. -/
theorem doTurn_small {u : Turn} (h : ∀ a, u ≠ .run a) (s : State) : doTurn u s = takeTurn u s := by
  cases u with
  | run a => exact absurd rfl (h a)
  | submit p w0 w1 w2 payload => rfl
  | collect p => rfl
  | initEvent => rfl
  | decode p => rfl
  | acquire p => rfl
  | event p => rfl

theorem step_small {s : State} {u : Turn} {rest : List Turn} (hc : s.cfg.wf) (hs : s.sched = u :: rest)
    (h : ∀ a, u ≠ .run a) : step s = takeTurn u { s with sched := rest } :=
  (step_scheduled hc hs).trans (doTurn_small h _)

/-- What a step may be: nothing, or a turn in a state that differs in the model's own schedule and counter alone. -/
theorem step_cases {s t : State} (h : step s = .next t) :
    s.cfg.wf ∧ ∃ sched ix, t = { s with sched := sched, freeIx := ix } ∨
      ∃ u, doTurn u { s with sched := sched, freeIx := ix } = .next t := by
  unfold step at h
  split at h
  · rename_i hw
    obtain ⟨sched, ix, hn⟩ := nextTurn_cases s
    refine ⟨hw, sched, ix, ?_⟩
    split at h
    · rename_i u s1 heq
      rw [heq] at hn
      simp only at hn
      exact .inr ⟨u, hn ▸ h⟩
    · rename_i s1 heq
      rw [heq] at hn
      simp only at hn
      cases h
      exact .inl hn
  · cases h

/-- No `run` turn is among the enabled steps. -/
theorem enabledTurns_small {s : State} {u : Turn} (h : u ∈ s.enabledTurns) : ∀ a, u ≠ .run a := by
  rintro a rfl
  unfold State.enabledTurns at h
  rcases List.mem_append.1 h with h | h
  · split at h <;> simp at h
  · obtain ⟨p, -, h⟩ := List.mem_flatMap.1 h
    unfold State.portTurns at h
    rcases List.mem_append.1 h with h | h
    · rcases List.mem_append.1 h with h | h <;> split at h <;> simp at h
    · split at h <;> simp at h

/-- Changes to the model's own schedule change nothing the spec gives the machine. -/
theorem sameOutside_sched (s : State) (p : Nat) (sched : List Turn) (active : Agent) :
    sameOutside p s { s with sched := sched, active := active } :=
  ⟨rfl, rfl, rfl, rfl, rfl, rfl, rfl, rfl, rfl, rfl, fun _ _ => rfl, rfl, rfl, rfl, rfl⟩

end Sys2Proof.Machine
end

