-- ==== Sys2Proof/Tests/Slice0.lean ====
section
/-! SUPPORT. The model's own tests: ill-formed terms that the check refuses, words written out from the encodings of the
spec, single steps against spec/95_test_vectors.md, and for every statement with hypotheses a concrete state that meets
them. -/

open Sys2Proof Sys2Proof.Machine

namespace Sys2Proof.Tests

/-! ## States the tests start from -/

/-- Small steps taken one after another. -/
def after (us : List Turn) (s : State) : State :=
  match takeTurns us s with
  | .next t => t
  | .fault _ => s
  | .refused _ => s

/-- Reset under a configuration with some flash contents. -/
def start (c : Config) (fl : Mem) : State :=
  { State.resetWith c with env := { Env.reset with chip := { Chip.reset with fl := fl } } }

/-- The same with other answers laid down, and an agent active. -/
def answering (s : State) (draws : List Draw) (a : Agent) : State :=
  { s with env := { s.env with draws := draws }, active := a }

/-- Two flash bytes in the first erase unit of Config, one in Boot. -/
def flash1 : Mem := [(0xFC0000, 0x11), (0xFC0001, 0x22), (0xFE0000, 0x42)]

/-- Identification has ended. -/
def ready (c : Config) : State := after (List.replicate 6 .initEvent) (start c flash1)

/-- Port 0 has a submitted descriptor and is the active agent. -/
def submitted (c : Config) (w0 w1 w2 : Word) (payload : List Byte) : State :=
  answering (after [.submit 0 w0 w1 w2 payload] (ready c)) [] (.port 0)

/-- Port 0 is at the start of the erase hold of `write(0xFC0000, [0xAB, 0xCD], 2)`. -/
def erasing : State :=
  answering (after [.submit 0 2 0xFC0000 2 [0xAB, 0xCD], .decode 0, .acquire 0] (ready Config.cfgS1)) [] (.port 0)

/-- The same command at the start of its program hold. -/
def programming : State :=
  answering (after (List.replicate 7 (.event 0) ++ [.acquire 0]) erasing) [] (.port 0)

/-- The same command at its last program cycle. -/
def lastCycle : State := answering (after (List.replicate 8 (.event 0)) programming) [] (.port 0)

/-- Port 0 is at the start of the read hold of `read(0xFC0000, 2)`. -/
def reading (c : Config) : State :=
  answering (after [.submit 0 1 0xFC0000 2 [], .decode 0, .acquire 0] (ready c)) [] (.port 0)

/-- What the statements assume of a state. -/
abbrev Good (s : State) : Prop := s.Inv ∧ s.ChipInv

theorem start_port (c : Config) (fl : Mem) (p : Nat) : (start c fl).port p = Ctx.reset := by
  simp only [start, State.port, State.resetWith, List.getElem?_replicate]
  split <;> rfl

theorem start_good {c : Config} {fl : Mem} (hc : c.wf) (hf : fl.wf) : Good (start c fl) := by
  refine ⟨⟨hc, by simp [start, State.resetWith], by simp [start, State.resetWith], by simp [start, State.resetWith],
    fun e => by simp [start, State.resetWith] at e, fun _ => ⟨by simp [start, State.resetWith], rfl⟩,
    fun p e => by simp [start, State.resetWith] at e, fun p e => ?_, fun p => ?_⟩,
    ⟨hf, fun _ p e => by simp [start, State.resetWith] at e, fun _ _ e => absurd rfl e⟩⟩
  · rw [start_port] at e; cases e
  · rw [start_port]; exact ⟨rfl, trivial⟩

/-- Only who runs, and which answers come, is different. -/
theorem answering_good {s : State} (h : Good s) (draws : List Draw) (a : Agent) : Good (answering s draws a) :=
  ⟨⟨h.1.cfgWf, h.1.ports, h.1.unknownInit, h.1.readyNone, h.1.readySel, h.1.initPos, h.1.hold, h.1.inHold, h.1.good⟩,
    ⟨h.2.flash, h.2.portFrame, h.2.initFrame⟩⟩

theorem scheduled_good {s : State} (h : Good s) (us : List Turn) : Good { s with sched := us } :=
  ⟨⟨h.1.cfgWf, h.1.ports, h.1.unknownInit, h.1.readyNone, h.1.readySel, h.1.initPos, h.1.hold, h.1.inHold, h.1.good⟩,
    ⟨h.2.flash, h.2.portFrame, h.2.initFrame⟩⟩

/-- A turn that runs no whole instruction. -/
def small : Turn → Bool
  | .run _ => false
  | .submit _ _ _ _ _ => true
  | .collect _ => true
  | .initEvent => true
  | .decode _ => true
  | .acquire _ => true
  | .event _ => true

theorem after_good {us : List Turn} (hu : us.all small = true) {s : State} (h : Good s) : Good (after us s) := by
  have key : ∀ (us : List Turn) (s t : State), us.all small = true → Good s → takeTurns us s = .next t → Good t := by
    intro us
    induction us with
    | nil => intro s t _ h ht; cases ht; exact h
    | cons u us ih =>
      intro s t hu h ht
      simp only [List.all_cons, Bool.and_eq_true] at hu
      rw [takeTurns] at ht
      cases hx : takeTurn u s with
      | next s1 =>
        rw [hx] at ht
        exact ih s1 t hu.2
          ⟨takeTurn_inv h.1 hx, takeTurn_chipInv s s1 u h.1 h.2 (fun a e => by subst e; exact Bool.noConfusion hu.1) hx⟩ ht
      | fault f => rw [hx] at ht; cases ht
      | refused r => rw [hx] at ht; cases ht
  unfold after
  split
  · rename_i t ht; exact key us s t hu h ht
  · exact h
  · exact h

theorem ready_good {c : Config} (hc : c.wf) : Good (ready c) := after_good rfl (start_good hc (by decide))
theorem submitted_good {c : Config} (hc : c.wf) (w0 w1 w2 : Word) (payload : List Byte) :
    Good (submitted c w0 w1 w2 payload) := answering_good (after_good rfl (ready_good hc)) _ _
theorem erasing_good : Good erasing := answering_good (after_good rfl (ready_good (by decide))) _ _
theorem programming_good : Good programming := answering_good (after_good rfl erasing_good) _ _
theorem lastCycle_good : Good lastCycle := answering_good (after_good rfl programming_good) _ _
theorem reading_good {c : Config} (hc : c.wf) : Good (reading c) := answering_good (after_good rfl (ready_good hc)) _ _

/-- Port 0 has a submitted descriptor before identification has ended. -/
def early (w0 w1 w2 : Word) (payload : List Byte) : State :=
  answering (after [.submit 0 w0 w1 w2 payload] (start Config.cfgS1 flash1)) [] (.port 0)

/-- Nothing is known of the environment but the answers laid down. -/
def unconstrained (s : State) (draws : List Draw) : State :=
  { s with env := { s.env with kind := .any, draws := draws } }

theorem unconstrained_good {s : State} (h : Good s) (draws : List Draw) : Good (unconstrained s draws) :=
  ⟨⟨h.1.cfgWf, h.1.ports, h.1.unknownInit, h.1.readyNone, h.1.readySel, h.1.initPos, h.1.hold, h.1.inHold, h.1.good⟩,
    ⟨h.2.flash, (fun e => nomatch e), (fun e => nomatch e)⟩⟩

/-- What one step leaves in a field, where it answers a next state. -/
def seen {α : Type} (r : Result) (f : State → α) : Option α :=
  match r with
  | .next t => some (f t)
  | .fault _ => none
  | .refused _ => none

/-- Result code and count of port 0. -/
def record (t : State) : BitVec 3 × Word := ((t.port 0).result.code, (t.port 0).count)

/-! ## Ill-formed terms are refused -/

/-- R37, 93 U11: a WRITE that would pass validation with a payload shorter than `LEN`. -/
theorem test_wf_payload :
    (Instr.write 0xFC0000 2 [0xAB]).wf Config.cfgS1 = false ∧ (Instr.write 0xFC0000 2 [0xAB, 0xCD]).wf Config.cfgS1 = true ∧
      (Instr.write 0xFC0001 2 []).wf Config.cfgS1 = true := by decide

/-- R161, R166: an ERASE of no granularity of the table, off its unit, of another partition's granularity, of granularity
that the owner has not. -/
theorem test_wf_erase :
    (Instr.erase 0x8000 0xFC0000).wf Config.cfgS1 = false ∧ (Instr.erase 0x10000 0xFC0001).wf Config.cfgS1 = false ∧
      (Instr.erase 0x1000 0x010000).wf Config.cfgS2 = false ∧ (Instr.erase 0x1000 0xFC2000).wf Config.cfgS2 = true ∧
      (Instr.erase 0x10000 0xFC0000).wf Config.cfgS1 = true := by decide

/-- R176: a PROGRAM cycle of two bytes, of none, and a full cycle that is off a multiple of 256. -/
theorem test_wf_program :
    (Instr.program 0xFD0100 [0xAB, 0xCD]).wf Config.cfgS1 = false ∧ (Instr.program 0xFD0100 []).wf Config.cfgS1 = false ∧
      (Instr.program 0xFD0001 (List.replicate 256 0)).wf Config.cfgS1 = false ∧
      (Instr.program 0xFD0100 (List.replicate 256 0)).wf Config.cfgS1 = true ∧
      (Instr.program 0xFD0101 [0xAB]).wf Config.cfgS1 = true := by decide +kernel

/-- R97: the read frame the configuration has not chosen. -/
theorem test_wf_read_frames :
    (Instr.readSlow 0x123456).wf Config.cfgS1 = false ∧ (Instr.fastRead 0x123456).wf Config.cfgS2 = false ∧
      (Instr.fastRead 0x123456).wf Config.cfgS1 = true ∧ (Instr.readSlow 0x123456).wf Config.cfgS2 = true := by decide

/-- A table that does not cover an address: no frame there is well formed (R54 does not ask that the table starts at 0). -/
def cfgGap : Config :=
  { Config.cfgS1 with
    pt := { Config.cfgS1.pt with p0 := { role := .kernelFs, start := 0x10000, stop := 0xFC0000, gran := 0x10000 } } }

theorem test_wf_outside :
    cfgGap.wf ∧ (Instr.erase 0x10000 0).wf cfgGap = false ∧ (Instr.program 0xFFFF [0]).wf cfgGap = false ∧
      (Instr.fastRead 0xFFFF).wf cfgGap = false ∧
      (Instr.readSlow 0xFFFF).wf { cfgGap with useFastRead := false } = false := by decide

/-- The example configuration with another second partition. -/
def withConfigPart (p : Partition) : Config :=
  { Config.cfgS1 with pt := { Config.cfgS1.pt with p1 := p } }

/-- R54 (a) to (g), one clause broken at a time: an empty range, ranges that leave a hole, a granularity that is no
multiple of 256, a misaligned end, a role twice, no length at all, no port. -/
theorem test_wf_config :
    [Config.cfgS1, Config.cfgS2, withConfigPart ⟨.config, 0xFC0000, 0xFC0000, 0x10000⟩,
      withConfigPart ⟨.config, 0xFC0000, 0xFD0000, 0x10000⟩, withConfigPart ⟨.config, 0xFC0000, 0xFE0000, 0x80⟩,
      withConfigPart ⟨.config, 0xFC0000, 0xFE0000, 0x30000⟩, withConfigPart ⟨.boot, 0xFC0000, 0xFE0000, 0x10000⟩,
      { Config.cfgS1 with maxLen := 0 }, { Config.cfgS1 with nport := 0 }].map (fun c => decide c.wf) =
      [true, true, false, false, false, false, false, false, false] := by decide

/-! ## Words written out from the encodings -/

/-- R83: READ is `W0` = 1, `W1` the address, `W2` the length. -/
theorem test_decode_read :
    decode Config.cfgS1 (.descriptor 0b1 0b00000000111111000000000000000000 0b1000000000000 []) =
      .ok (.read 0xFC0000 4096) := by decide
/-- R83: WRITE is `W0` = 2. 95 V1, V2. -/
theorem test_decode_write :
    decode Config.cfgS1 (.descriptor 0b10 0b00000000111111000000000000000001 0b1010 [0xAB]) =
      .ok (.write 0xFC0001 10 [0xAB]) := by decide
/-- R83, R85: STATUS is `W0` = 3, the other words are ignored. 95 part 2. -/
theorem test_decode_status :
    decode Config.cfgS1 (.descriptor 0b11 0xDEADBEEF 0xFFFFFFFF []) = .ok .status := by decide
/-- R83, R85: RESET_STATUS is `W0` = 4. -/
theorem test_decode_resetStatus :
    decode Config.cfgS1 (.descriptor 0b100 0xDEADBEEF 0xFFFFFFFF []) = .ok .resetStatus := by decide
/-- R95: reserved descriptors of 95 part 2. -/
theorem test_decode_reserved :
    ∀ w ∈ [(0x00000000 : Word), 0x00000005, 0x00000102, 0xFFFFFFFF],
      decode Config.cfgS1 (.descriptor w 0xFC0000 16 []) = .error (.reservedOp w) := by
  simp [decode, decodeDescriptor]
/-- R90: IDENT is its opcode alone. -/
theorem test_decode_ident : decode Config.cfgS1 (.frame [0b10011111]) = .ok .ident := by decide
/-- R90, R91: ERASE, address most significant byte first. 95 E1, E3. -/
theorem test_decode_erase :
    decode Config.cfgS1 (.frame [0b11011000, 0b11111100, 0b00000000, 0b00000000]) = .ok (.erase 0x10000 0xFC0000) ∧
      decode Config.cfgS2 (.frame [0b00100000, 0b11111100, 0b00100000, 0b00000000]) = .ok (.erase 0x1000 0xFC2000) := by
  decide
/-- R90, R91: PROGRAM. 95 part 6, the tail cycle. -/
theorem test_decode_program :
    decode Config.cfgS1 (.frame [0b00000010, 0b11111101, 0b00000001, 0b00000000, 0b10101011]) =
      .ok (.program 0xFD0100 [0xAB]) := by decide
/-- R90, R91: FAST_READ. -/
theorem test_decode_fastRead :
    decode Config.cfgS1 (.frame [0b00001011, 0b00010010, 0b00110100, 0b01010110]) = .ok (.fastRead 0x123456) := by decide
/-- R90, R91: READ_SLOW. -/
theorem test_decode_readSlow :
    decode Config.cfgS2 (.frame [0b00000011, 0b00010010, 0b00110100, 0b01010110]) = .ok (.readSlow 0x123456) := by decide
/-- R90: frames that are no instruction. -/
theorem test_decode_frame_errors :
    decode Config.cfgS1 (.frame []) = .error .emptyFrame ∧ decode Config.cfgS1 (.frame [0x00]) = .error (.unknownOpcode 0) ∧
      decode Config.cfgS1 (.frame [0x9F, 0x00]) = .error (.frameLength 2) ∧
      decode Config.cfgS1 (.frame [0x9F, 0, 0, 0]) = .error (.unknownOpcode 0x9F) ∧
      decode Config.cfgS1 (.frame [0x02, 0, 0, 0, 1, 2]) = .error (.frameLength 6) := by decide
/-- R91: the address bytes of 95 part 5. -/
theorem test_address_bytes :
    addrBytes 0xFC0000 = [0xFC, 0x00, 0x00] ∧ addrBytes 0xFD0100 = [0xFD, 0x01, 0x00] ∧
      addrBytes 0x123456 = [0x12, 0x34, 0x56] ∧ addrBytes 0x000001 = [0x00, 0x00, 0x01] := by decide
/-- R98: the pseudo-commands; an offset into either neighbour ("judged against that neighbour"); an address that does not
fit a word. -/
theorem test_partition_calls :
    partRead Config.cfgS1.pt.p1 0x10 4 = some (.descriptor 1 0xFC0010 4 []) ∧
      partWrite Config.cfgS1.pt.p1 0x10000 [1, 2] = some (.descriptor 2 0xFD0000 2 [1, 2]) ∧
      partRead Config.cfgS1.pt.p1 0x20000 4 = some (.descriptor 1 0xFE0000 4 []) ∧
      partRead Config.cfgS1.pt.p1 (-1) 1 = some (.descriptor 1 0xFBFFFF 1 []) ∧
      partRead Config.cfgS1.pt.p1 0xFFFFFFFF 4 = none ∧ partRead Config.cfgS1.pt.p1 (-0xFC0001) 4 = none := by decide
/-- The table's words (log 20): the first byte of a frame is bits 7..0, and a step of reset with the word laid down runs
the instruction. -/
theorem test_table_words :
    decodeTableWord 32 1 = some (.read 0 0) ∧ decodeTableWord 8 0x9F = some .ident ∧
      decodeTableWord 32 0x5634120B = some (.fastRead 0x123456) ∧
      decodeTableWord 40 0xAB0001FD02 = some (.program 0xFD0100 [0xAB]) ∧
      seen (step (State.reset.withFetchWord 32 3)) record = some (0, 0) ∧
      seen (step (State.reset.withFetchWord 8 0x9F)) (fun t => t.identity) = some 0x123456 := by decide

/-! ## Validation vectors (95 part 2, T-VAL) -/

/-- Rows WR1 to WR25 under `CFG_S1`. -/
theorem test_validate_write :
    ([(0x00FC0000, 0x00001000), (0x00FC0001, 0xA), (0x00FE0000, 0xA), (0x00FC0000, 0), (0x00FC0000, 0xFFFFFFFF),
      (0x00FE0000, 0), (0x00FE0001, 1), (0x00FFFFFF, 1), (0x01000000, 1), (0xFFFFFFFF, 1), (0x00FD0000, 0x10000),
      (0x00FD0000, 0x10001), (0x00FC0000, 0x10001), (0x00FC0000, 0x10000), (0x00FDFFFF, 2), (0x00FDFFFF, 1), (0, 1),
      (0x00FB0000, 0x10000), (0x00FB0000, 0x10001), (0x00FC0000, 0x7FFFFFFF), (0x00FC0000, 0x80000000),
      (0x00FE0000, 0x7FFFFFFF), (0x00008000, 0x10), (0x00FC1000, 0x10), (0x00FC0100, 0x10)] : List (Word × Word)).map
        (fun x => (validateWrite Config.cfgS1 x.1 x.2).code) =
      [0, 2, 3, 1, 1, 1, 3, 3, 1, 1, 0, 3, 1, 0, 3, 2, 0, 0, 3, 3, 1, 3, 2, 2, 2] := by decide
/-- Rows WR24 and WR25 under `CFG_S2`. -/
theorem test_validate_write_small :
    validateWrite Config.cfgS2 0x00FC1000 0x10 = .ok ∧ validateWrite Config.cfgS2 0x00FC0100 0x10 = .alignmentError := by
  decide
/-- Rows RD1 to RD13. -/
theorem test_validate_read :
    ([(0x00FC0000, 0x1000), (0x00FC0001, 0xA), (0x00FE0000, 0x10), (0x00FDFFFF, 1), (0x00FDFFFF, 2), (0x00FC0000, 0),
      (0x00FC0000, 0xFFFFFFFB), (0x01000000, 1), (0x00FC0000, 0x10001), (0x00FD0000, 0x10001), (0x00FFFFFF, 1),
      (0x00FFFFFF, 2), (0x00FF0000, 0x10000)] : List (Word × Word)).map (fun x => (validateRead Config.cfgS1 x.1 x.2).code) =
      [0, 0, 0, 0, 3, 1, 1, 1, 1, 3, 0, 3, 0] := by decide

/-! ## Single steps -/

/-- 95 I1, I2: the trace's answers, the identity and `DIAG`, expected or not. -/
theorem test_ident :
    seen (exec .ident State.reset) (fun t => (t.trace.length, t.observe)) = some (6, ⟨1, 0x123456, 0b001⟩) ∧
      seen (exec .ident (State.resetWith { Config.cfgS1 with expectedIds := [0xABCDEF] })) (fun t => t.observe) =
        some ⟨1, 0x123456, 0b011⟩ := by decide
/-- 95 I6: the second `T.rb()` times out. -/
theorem test_ident_timeout :
    seen (exec .ident (answering State.reset [.normal, .normal, .timeout] .init))
        (fun t => (t.trace.map Call.event, t.diag, t.fstate, t.owner, t.sel)) =
      some ([.sel, .wb 0x9F, .rb, .rb, .desel], 0b100, .ready, none, false) := by decide
/-- 95 K3, K11 (the counter 8192 is returned and stays). -/
theorem test_status :
    seen (exec .status { submitted Config.cfgS1 3 0 0 [] with xferCount := 8192 }) (fun t => (record t, t.xferCount)) =
      some ((0, 8192), 8192) := by decide
/-- 95 K4. -/
theorem test_resetStatus :
    seen (exec .resetStatus { submitted Config.cfgS1 4 0 0 [] with xferCount := 8192 })
        (fun t => (record t, t.xferCount)) = some ((0, 0), 0) := by decide
/-- 95 RF1: the dummy byte 0x5A appears nowhere. -/
theorem test_read :
    seen (exec (.read 0xFC0000 2) (answering (submitted Config.cfgS1 1 0xFC0000 2 [])
        [.normal, .normal, .normal, .normal, .byte 0x5A] (.port 0)))
      (fun t => (record t, (t.port 0).rdata, t.trace.length - 6)) = some ((0, 2), [0x11, 0x22], 9) := by decide
/-- 95 RD5, K11: no call for a rejected READ; the counter wraps. -/
theorem test_read_reject_and_wrap :
    seen (exec (.read 0xFDFFFF 2) (submitted Config.cfgS1 1 0xFDFFFF 2 [])) (fun t => (record t, t.trace.length)) =
        some ((3, 0), 6) ∧
      seen (exec (.read 0xFC0000 1) { submitted Config.cfgS1 1 0xFC0000 1 [] with xferCount := 0xFFFFFFFF })
        (fun t => (record t, t.xferCount)) = some ((0, 1), 0) := by decide
/-- 95 K12, S1, CT: two tail cycles; the payload stands, the rest of the unit is erased, Boot is as it was. -/
theorem test_write :
    seen (exec (.write 0xFC0000 2 [0xAB, 0xCD]) { submitted Config.cfgS1 2 0xFC0000 2 [0xAB, 0xCD] with xferCount := 0xFFFFFFFF })
        (fun t => (record t, t.xferCount, t.trace.length - 6, t.env.chip.fl)) =
      some ((0, 2), 1, 23, [(0xFC0000, 0xAB), (0xFC0001, 0xCD), (0xFE0000, 0x42)]) := by decide +kernel
/-- 95 X3: the erase's `Wi(busy)` times out, and the unit has been erased at `Desel`. -/
theorem test_write_timeout :
    seen (exec (.write 0xFC0000 2 [0xAB, 0xCD]) (answering (submitted Config.cfgS1 2 0xFC0000 2 [0xAB, 0xCD])
        [.normal, .normal, .normal, .normal, .timeout] (.port 0)))
        (fun t => (record t, t.trace.length - 6, (t.port 0).bufHeld, t.env.chip.fl)) =
      some ((4, 0), 7, false, [(0xFE0000, 0x42)]) := by decide +kernel
/-- 95 E1, F7. -/
theorem test_erase :
    seen (exec (.erase 0x10000 0xFC0000) erasing)
        (fun t => ((t.trace.drop 6).map Call.event, t.fstate, (t.port 0).phase, t.env.chip.fl)) =
      some ([.sel, .wb 0xD8, .wb 0xFC, .wb 0x00, .wb 0x00, .desel, .wi .busy], .ready, .pWaitProg, [(0xFE0000, 0x42)]) := by
  decide +kernel
/-- 95 X2: the last address byte times out, nothing is erased. -/
theorem test_erase_timeout :
    seen (exec (.erase 0x10000 0xFC0000) (answering erasing [.normal, .normal, .normal, .timeout] (.port 0)))
        (fun t => (record t, t.trace.length - 6, t.env.chip.fl)) = some ((4, 0), 6, flash1) := by decide +kernel
/-- R176, R70: the tail cycle's eight events, and a byte of `FL` ANDed in. -/
theorem test_program :
    seen (exec (.program 0xFC0001 [0xCD]) (answering { lastCycle with
          env := { lastCycle.env with chip := { lastCycle.env.chip with fl := [(0xFC0001, 0x0F)] } } } [] (.port 0)))
        (fun t => ((t.trace.drop 21).map Call.event, record t, t.env.chip.fl)) =
      some ([.sel, .wb 0x02, .wb 0xFC, .wb 0x00, .wb 0x01, .wb 0xCD, .desel, .wi .busy], (0, 2), [(0xFC0001, 0x0D)]) := by
  decide +kernel
/-- R176: the events of a full cycle: its length, and the sixteen places of `Wi(fifo)` (95 part 6). -/
theorem test_full_cycle :
    (progCycle Config.cfgS1 0xFC0000 (List.replicate 256 0)).length = 279 ∧
      (List.range 279).filter
          (fun j => decide ((progCycle Config.cfgS1 0xFC0000 (List.replicate 256 0))[j]? = some (.wi .fifo))) =
        [21, 38, 55, 72, 89, 106, 123, 140, 157, 174, 191, 208, 225, 242, 259, 276] := by decide +kernel
/-- 95 RF1, F5. -/
theorem test_fastRead :
    seen (exec (.fastRead 0xFC0000) (reading Config.cfgS1))
        (fun t => ((t.trace.drop 6).map Call.event, (t.port 0).rdata, t.fstate)) =
      some ([.sel, .wb 0x0B, .wb 0xFC, .wb 0x00, .wb 0x00, .rb, .rb, .rb, .desel], [0x11, 0x22], .ready) := by
  decide +kernel
/-- 95 RF2. -/
theorem test_readSlow :
    seen (exec (.readSlow 0xFC0000) (reading Config.cfgS2))
        (fun t => ((t.trace.drop 6).map Call.event, (t.port 0).rdata, t.fstate)) =
      some ([.sel, .wb 0x03, .wb 0xFC, .wb 0x00, .wb 0x00, .rb, .rb, .desel], [0x11, 0x22], .ready) := by
  decide +kernel

/-! ## Every statement's hypotheses are met -/

/-- `ResetMeetsInvariants`, `OwnerIsUnique`. -/
theorem witness_config : ∃ c : Config, c.wf ∧ c.opcodesDistinct := ⟨Config.cfgS1, by decide, by decide⟩

theorem reset_good : Good State.reset := start_good (fl := []) (by decide) (by decide)

/-- A state with one turn to come: the last program cycle of a WRITE. -/
def runLast : State := { lastCycle with sched := [.run (.port 0)] }

theorem runLast_good : Good runLast := scheduled_good lastCycle_good _

theorem witness_StepKeepsInvariant : ∃ s t : State, s.Inv ∧ step s = .next t := ⟨runLast, _, runLast_good.1, rfl⟩

theorem witness_StepKeepsChipInvariant : ∃ s t : State, s.Inv ∧ s.ChipInv ∧ step s = .next t :=
  ⟨runLast, _, runLast_good.1, runLast_good.2, rfl⟩

theorem witness_StepKeepsCallsSerial : ∃ s t : State, s.Inv ∧ s.TraceInv ∧ s.trace ≠ [] ∧ step s = .next t := by
  refine ⟨{ erasing with sched := [.event 0] }, _, (scheduled_good erasing_good _).1,
    ⟨show List.Pairwise _ _ by decide, by decide, fun a ha => ?_⟩, by decide, rfl⟩
  have key : ∀ c ∈ erasing.trace, c.hold ≠ erasing.holdNo := by decide
  exact fun c hc e => absurd e (key c hc)

theorem witness_CallsAreTheOwners : ∃ (s t : State) (u : Turn), s.Inv ∧ takeTurn u s = .next t :=
  ⟨erasing, _, .event 0, erasing_good.1, rfl⟩

theorem witness_NoStepFaults : ∃ s : State, s.Inv ∧ s.ChipInv ∧ s.cfg.opcodesDistinct :=
  ⟨runLast, runLast_good.1, runLast_good.2, by decide⟩

/-- At the first and the last byte of Boot. -/
theorem witness_BootPartitionNeverChanges :
    ∃ s t : State, s.Inv ∧ s.ChipInv ∧ s.cfg.opcodesDistinct ∧ step s = .next t ∧ (s.cfg.pt.get 2).role = .boot ∧
      contains (s.cfg.pt.get 2) 0xFE0000 = true ∧ contains (s.cfg.pt.get 2) 0xFFFFFF = true :=
  ⟨runLast, _, runLast_good.1, runLast_good.2, by decide, rfl, by decide, by decide, by decide⟩

theorem witness_ConfigurationConstant : ∃ s t : State, step s = .next t := ⟨State.reset, _, rfl⟩

/-- One instruction of every kind, its operands at the ends of their ranges. -/
theorem witness_EncodeThenDecode :
    Config.cfgS1.opcodesDistinct ∧ Config.cfgS2.opcodesDistinct ∧
      ∀ i ∈ [Instr.read 0xFFFFFFFF 0x80000000, .write 0xFFFFFFFF 0xFFFFFFFF [], .write 0xFC0000 1 [0], .status, .resetStatus,
        .ident, .erase 0x10000 0xFF0000, .erase 0x10000 0, .program 0xFFFFFF [0xFF], .fastRead 0, .fastRead 0xFFFFFF],
        i.wf Config.cfgS1 = true := by decide
theorem witness_EncodeThenDecode_full_cycle :
    (Instr.program 0xFFFF00 (List.replicate 256 0xFF)).wf Config.cfgS1 = true ∧
      (Instr.readSlow 0xFFFFFF).wf Config.cfgS2 = true := by decide +kernel

theorem witness_DecodeThenEncode :
    decode Config.cfgS1 (.frame [0xD8, 0xFC, 0, 0]) = .ok (.erase 0x10000 0xFC0000) ∧
      decode Config.cfgS1 (.descriptor 2 0xFC0000 1 [7]) = .ok (.write 0xFC0000 1 [7]) ∧
      decode Config.cfgS1 (.descriptor 1 0xFC0000 1 []) = .ok (.read 0xFC0000 1) := by decide

theorem witness_StepRunsTheFetchedInstruction :
    (((submitted Config.cfgS1 1 0xFC0000 2 []).port 0).phase = .pSubmitted ∧
      decode Config.cfgS1 (.descriptor 1 0xFC0000 2 []) = .ok (.read 0xFC0000 2)) ∧
      (runLast.cfg.wf ∧ runLast.sched = [.run (.port 0)] ∧
        ({ runLast with sched := [], active := .port 0 } : State).fetch = some (.program 0xFC0001 [0xCD])) ∧
      ∃ (s : State) (u : Turn) (rest : List Turn), s.cfg.wf ∧ s.sched = u :: rest ∧ ∀ a, u ≠ .run a :=
  ⟨by decide, by decide, { erasing with sched := [.event 0] }, .event 0, [], by decide, rfl, fun _ e => nomatch e⟩

/-- At the first frame of each hold, and at a later program cycle. -/
theorem witness_FetchedFrameIsDecoded :
    ∀ x ∈ [(erasing, Instr.erase 0x10000 0xFC0000), (programming, .program 0xFC0000 [0xAB]),
        (lastCycle, .program 0xFC0001 [0xCD]), (reading Config.cfgS1, .fastRead 0xFC0000),
        (reading Config.cfgS2, .readSlow 0xFC0000)],
      x.1.Inv ∧ x.1.cfg.opcodesDistinct ∧ x.1.fetchPort 0 = some x.2 ∧ (x.1.port 0).phase ≠ .pSubmitted := by
  intro x hx
  simp only [List.mem_cons, List.not_mem_nil, or_false] at hx
  rcases hx with rfl | rfl | rfl | rfl | rfl
  · exact ⟨erasing_good.1, by decide +kernel⟩
  · exact ⟨programming_good.1, by decide +kernel⟩
  · exact ⟨lastCycle_good.1, by decide +kernel⟩
  · exact ⟨(reading_good (by decide)).1, by decide +kernel⟩
  · exact ⟨(reading_good (by decide)).1, by decide +kernel⟩

theorem witness_ProgramListShape : 0 < ([0xAB] : List Byte).length := by decide

/-- For each clause, addresses and lengths at the ends of its range. -/
theorem witness_WriteChecksInOrder :
    (∀ len ∈ [(0 : Word), 0xFFFFFFFF, 0x80000000], len.toInt ≤ 0) ∧
      (∀ a ∈ [(0x01000000 : Word), 0xFFFFFFFF], 0 < (1 : Word).toInt ∧ owner Config.cfgS1 a.toNat = none) ∧
      (∀ a ∈ [(0xFE0000 : Word), 0xFFFFFF], owner Config.cfgS1 a.toNat = some 2 ∧ (Config.cfgS1.pt.get 2).role = .boot) ∧
      (Config.cfgS1.pt.get 1).role ≠ .boot ∧
      (∀ x ∈ [((0xFD0000 : Word), (0x10001 : Word)), (0xFDFFFF, 2), (0xFC0000, 0x7FFFFFFF)],
        owner Config.cfgS1 x.1.toNat = some 1 ∧ ((Config.cfgS1.pt.get 1).stop : Int) < x.1.toNat + x.2.toInt) ∧
      (∀ x ∈ [((0xFDFFFF : Word), (1 : Word)), (0xFC0001, 10)],
        owner Config.cfgS1 x.1.toNat = some 1 ∧ x.1.toNat + x.2.toInt ≤ (Config.cfgS1.pt.get 1).stop ∧
          x.1.toNat % (Config.cfgS1.pt.get 1).gran ≠ 0) ∧
      (owner Config.cfgS1 0xFC0000 = some 1 ∧ (0xFC0000 : Int) + (0x10001 : Word).toInt ≤ (Config.cfgS1.pt.get 1).stop ∧
        0xFC0000 % (Config.cfgS1.pt.get 1).gran = 0 ∧ (Config.cfgS1.maxLen : Int) < (0x10001 : Word).toInt) ∧
      ∀ x ∈ [((0xFD0000 : Word), (0x10000 : Word)), (0xFC0000, 1)],
        owner Config.cfgS1 x.1.toNat = some 1 ∧ x.1.toNat + x.2.toInt ≤ (Config.cfgS1.pt.get 1).stop ∧
          x.1.toNat % (Config.cfgS1.pt.get 1).gran = 0 ∧ x.2.toInt ≤ Config.cfgS1.maxLen := by
  simp only [List.forall_mem_cons, List.not_mem_nil, false_imp_iff, implies_true, and_true]
  refine ⟨?_, ?_, ?_, ?_, ?_, ?_, ?_, ?_⟩ <;> decide

theorem witness_ReadChecksInOrder :
    (∀ len ∈ [(0 : Word), 0xFFFFFFFF, 0x80000000], len.toInt ≤ 0) ∧
      (∀ a ∈ [(0x01000000 : Word), 0xFFFFFFFF], 0 < (1 : Word).toInt ∧ owner Config.cfgS1 a.toNat = none) ∧
      (∀ x ∈ [((0xFFFFFF : Word), (2 : Word)), (0xFE0000, 0x7FFFFFFF)],
        owner Config.cfgS1 x.1.toNat = some 2 ∧ ((Config.cfgS1.pt.get 2).stop : Int) < x.1.toNat + x.2.toInt) ∧
      (owner Config.cfgS1 0xFE0000 = some 2 ∧ (0xFE0000 : Int) + (0x10001 : Word).toInt ≤ (Config.cfgS1.pt.get 2).stop ∧
        (Config.cfgS1.maxLen : Int) < (0x10001 : Word).toInt) ∧
      ∀ x ∈ [((0xFF0000 : Word), (0x10000 : Word)), (0xFFFFFF, 1)],
        owner Config.cfgS1 x.1.toNat = some 2 ∧ x.1.toNat + x.2.toInt ≤ (Config.cfgS1.pt.get 2).stop ∧
          x.2.toInt ≤ Config.cfgS1.maxLen := by
  simp only [List.forall_mem_cons, List.not_mem_nil, false_imp_iff, implies_true, and_true]
  refine ⟨?_, ?_, ?_, ?_, ?_⟩ <;> decide

/-- The shortest and the longest WRITE. -/
theorem witness_ValidatedWriteStaysInside :
    Config.cfgS1.wf ∧
      (validateWrite Config.cfgS1 0xFC0000 1 = .ok ∧ ([0xAB] : List Byte).length = (1 : Word).toInt.toNat) ∧
      validateWrite Config.cfgS1 0xFD0000 0x10000 = .ok ∧
        (List.replicate 65536 (0xAB : Byte)).length = (0x10000 : Word).toInt.toNat := by
  refine ⟨by decide, by decide, by decide, ?_⟩
  rw [List.length_replicate]; rfl

/-- The first and the last byte of Boot; a range that overruns Config; a misaligned one at its last byte. -/
theorem witness_BootAndMisalignedWritesRejected :
    ∀ x ∈ [((0xFE0000 : Word), (10 : Word), (2 : Fin 3)), (0xFFFFFF, 1, 2), (0xFDFFFF, 2, 1), (0xFDFFFF, 1, 1)],
      (submitted Config.cfgS1 2 x.1 x.2.1 [0xAB]).cfg.wf ∧ (submitted Config.cfgS1 2 x.1 x.2.1 [0xAB]).active = .port 0 ∧
        (submitted Config.cfgS1 2 x.1 x.2.1 [0xAB]).fetch = some (.write x.1 x.2.1 [0xAB]) ∧ 0 < x.2.1.toInt ∧
        contains (Config.cfgS1.pt.get x.2.2) x.1.toNat = true := by
  simp only [List.forall_mem_cons, List.not_mem_nil, false_imp_iff, implies_true, and_true]
  refine ⟨?_, ?_, ?_, ?_⟩ <;> decide
theorem witness_BootAndMisalignedWritesRejected_clauses :
    (Config.cfgS1.pt.get 2).role = .boot ∧ (Config.cfgS1.pt.get 1).role ≠ .boot ∧
      ((Config.cfgS1.pt.get 1).stop : Int) < 0xFDFFFF + 2 ∧ (0xFDFFFF : Int) + 1 ≤ (Config.cfgS1.pt.get 1).stop ∧
      0xFDFFFF % (Config.cfgS1.pt.get 1).gran ≠ 0 := by decide

theorem witness_StatusReturnsCounter : ∃ s : State, s.active = .port 0 ∧ s.fetch = some .status :=
  ⟨submitted Config.cfgS1 3 0xDEADBEEF 0xFFFFFFFF [], by decide, by decide⟩

theorem witness_ResetStatusClearsCounter : ∃ s : State, s.active = .port 0 ∧ s.fetch = some .resetStatus :=
  ⟨early 4 0xDEADBEEF 0xFFFFFFFF [], by decide, by decide⟩

/-- The numbers next to the four commands, and the greatest. -/
theorem witness_ReservedDescriptorRejected :
    ∀ w ∈ [(0 : Word), 5, 0xFFFFFFFF], ∀ u ∈ [Turn.decode 0, .run (.port 0)],
      (({ submitted Config.cfgS1 w 0 0 [] with sched := [u] } : State).cfg.wf ∧
        (({ submitted Config.cfgS1 w 0 0 [] with sched := [u] } : State).port 0).phase = .pSubmitted) ∧
        w ≠ 1 ∧ w ≠ 2 ∧ w ≠ 3 ∧ w ≠ 4 := by
  simp only [List.forall_mem_cons, List.not_mem_nil, false_imp_iff, implies_true, and_true]
  refine ⟨⟨?_, ?_⟩, ⟨?_, ?_⟩, ?_, ?_⟩ <;> decide
theorem witness_ReservedDescriptorRejected_op (w : Word) :
    ((submitted Config.cfgS1 w 0 0 []).port 0).op = w := rfl

theorem witness_RejectedReadFinishes :
    ∃ s : State, s.active = .port 0 ∧ s.fetch = some (.read 0xFDFFFF 2) ∧ validateRead s.cfg 0xFDFFFF 2 ≠ .ok :=
  ⟨submitted Config.cfgS1 1 0xFDFFFF 2 [], by decide, by decide, by decide⟩

theorem witness_RejectedWriteFinishes :
    ∃ s : State, s.active = .port 0 ∧ s.fetch = some (.write 0xFC0000 0 []) ∧ validateWrite s.cfg 0xFC0000 0 ≠ .ok :=
  ⟨submitted Config.cfgS1 2 0xFC0000 0 [], by decide, by decide, by decide⟩

/-- A submitted WRITE whose allocation will fail. -/
def unallocated : State :=
  let s := submitted Config.cfgS1 2 0xFC0000 1 [0xAB]
  { s with env := { s.env with allocs := [false] } }

theorem witness_UnallocatedWriteFinishes :
    ∃ s : State, s.active = .port 0 ∧ s.fetch = some (.write 0xFC0000 1 [0xAB]) ∧ validateWrite s.cfg 0xFC0000 1 = .ok ∧
      s.drawAlloc.1 = false := ⟨unallocated, by decide, by decide, by decide, by decide⟩

/-- With the token Ready, and before identification has ended. -/
theorem witness_ValidWriteCopiesInAndWaits :
    ∀ s ∈ [submitted Config.cfgS1 2 0xFC0000 1 [0xAB], early 2 0xFC0000 1 [0xAB]],
      s.active = .port 0 ∧ s.fetch = some (.write 0xFC0000 1 [0xAB]) ∧ validateWrite s.cfg 0xFC0000 1 = .ok ∧
        s.drawAlloc.1 = true ∧ (1 : Word).toInt ≤ ([0xAB] : List Byte).length := by decide +kernel
theorem witness_ValidReadWaits :
    ∀ s ∈ [submitted Config.cfgS1 1 0xFFFFFF 1 [], early 1 0xFFFFFF 1 []],
      s.active = .port 0 ∧ s.fetch = some (.read 0xFFFFFF 1) ∧ validateRead s.cfg 0xFFFFFF 1 = .ok := by decide +kernel
theorem witness_waiting_before_identification :
    (early 2 0xFC0000 1 [0xAB]).fstate ≠ .ready ∧ (early 1 0xFFFFFF 1 []).fstate ≠ .ready := by decide

/-- Port 0 is at a valid WRITE with half its payload, and its `run` turn comes next. -/
def short : State := { submitted Config.cfgS1 2 0xFC0000 2 [0xAB] with sched := [.run (.port 0)] }

theorem witness_RefusalsAreTheTwoDeclared :
    ¬ (State.resetWith { Config.cfgS1 with nport := 0 }).cfg.wf ∧
      (short.active = .port 0 ∧ short.fetch = some (.write 0xFC0000 2 [0xAB]) ∧ short.drawAlloc.1 = true) ∧
      shortWrite short.cfg 0xFC0000 2 [0xAB] ∧ short.cfg.wf ∧ step short = .refused .payloadShort ∧
      exec (.write 0xFC0000 2 [0xAB]) short = .refused .payloadShort ∧
      (Instr.write 0xFC0000 1 [0xAB]).wf Config.cfgS1 = true :=
  ⟨by decide, by decide, ⟨by decide, by decide⟩, by decide, rfl, rfl, by decide⟩

/-- At an idle port and at one that is not. -/
theorem witness_SubmitLatchesDescriptor :
    ∀ s ∈ [ready Config.cfgS1, reading Config.cfgS1], s.cfg.wf ∧ 0 < s.ctx.length := by decide +kernel
theorem witness_SubmitLatchesDescriptor_clauses :
    ((ready Config.cfgS1).port 0).phase = .pIdle ∧ ((reading Config.cfgS1).port 0).phase ≠ .pIdle := by decide

/-- Port 0 has finished a STATUS, and its record is to be collected. -/
def finished : State :=
  { after [.decode 0] (submitted Config.cfgS1 3 0 0 []) with sched := [.collect 0] }

theorem witness_CollectReturnsRecord :
    ∃ s : State, s.cfg.wf ∧ s.sched = [.collect 0] ∧ (s.port 0).phase = .pDone :=
  ⟨finished, by decide, rfl, by decide⟩

theorem witness_QuiescentStateStays :
    ∃ s : State, s.cfg.wf ∧ s.quiescent ∧ s.sched = [] ∧ s.later = .enabled := by
  refine ⟨ready Config.cfgS1, by decide, ⟨by decide, by decide, by decide, fun p => ?_⟩, by decide, by decide⟩
  rcases Nat.lt_or_ge p 2 with h | h
  · have key : ∀ p < 2, ((ready Config.cfgS1).port p).phase = .pIdle ∧ ((ready Config.cfgS1).port p).bufHeld = false := by
      decide
    exact key p h
  · rw [port_absent (show (ready Config.cfgS1).ctx.length ≤ p from h)]; exact ⟨rfl, rfl⟩

/-- Nothing enabled, one step enabled, two enabled. -/
theorem witness_UnscheduledStepIsEnabled :
    ∀ x ∈ [(ready Config.cfgS1, ([] : List Turn)), (State.reset, [.initEvent]), (early 3 0 0 [], [.initEvent, .decode 0])],
      x.1.cfg.wf ∧ x.1.sched = [] ∧ x.1.later = .enabled ∧ x.1.enabledTurns = x.2 := by decide +kernel
/-- `init_event` and `event` enabled, in states that meet the invariant. -/
theorem witness_UnscheduledStepIsEnabled_members :
    (State.reset.Inv ∧ State.reset.enabledTurns = [.initEvent]) ∧ erasing.Inv ∧ erasing.enabledTurns = [.event 0] :=
  ⟨⟨reset_good.1, by decide⟩, erasing_good.1, by decide +kernel⟩

/-- Port 0 waits to erase, and port 1 will read for ever. -/
def starving : State :=
  { answering (after [.submit 0 2 0xFC0000 1 [0xAB], .decode 0] (ready Config.cfgS1)) [] .init with
    later := .again [.submit 1 1 0xFDFFFF 1 [], .run (.port 1), .collect 1] }

theorem later_good {s : State} (h : Good s) (l : Later) : Good { s with later := l } :=
  ⟨⟨h.1.cfgWf, h.1.ports, h.1.unknownInit, h.1.readyNone, h.1.readySel, h.1.initPos, h.1.hold, h.1.inHold, h.1.good⟩,
    ⟨h.2.flash, h.2.portFrame, h.2.initFrame⟩⟩

theorem witness_WaitingPortMayStarve :
    ∃ s : State, s.Inv ∧ s.ChipInv ∧ s.cfg.opcodesDistinct ∧ s.env.reference ∧ s.fstate = .ready ∧ 1 < s.ctx.length ∧
      (s.port 0).phase = .pWaitErase ∧ (s.port 1).phase = .pIdle ∧ validateRead s.cfg 0xFDFFFF 1 = .ok ∧ s.sched = [] ∧
      s.later = .again [.submit 1 1 0xFDFFFF 1 [], .run (.port 1), .collect 1] :=
  have h : Good starving := later_good (answering_good (after_good rfl (ready_good (by decide))) _ _) _
  ⟨starving, h.1, h.2, by decide +kernel, ⟨by decide +kernel, rfl⟩, by decide +kernel, by decide +kernel,
    by decide +kernel, by decide +kernel, by decide +kernel, by decide +kernel, rfl⟩

/-- R257: a schedule that never gives `INIT` a step leaves the token Unknown. -/
theorem test_no_progress : step { State.reset with later := .again [] } = .next { State.reset with later := .again [] } := rfl

/-- A port that waits in each of the three ways. -/
def waitErase : State := { after [.submit 0 2 0xFC0000 1 [0xAB], .decode 0] (ready Config.cfgS1) with sched := [.acquire 0] }
def waitProg : State := { after (List.replicate 7 (.event 0)) erasing with sched := [.acquire 0] }
def waitRead : State := { after [.submit 0 1 0xFC0000 1 [], .decode 0] (ready Config.cfgS1) with sched := [.acquire 0] }

theorem witness_AcquireTakesToken :
    ∀ x ∈ [(waitErase, Phase.pWaitErase), (waitProg, .pWaitProg), (waitRead, .pWaitRead)],
      x.1.cfg.wf ∧ x.1.sched = [.acquire 0] ∧ x.1.fstate = .ready ∧ (x.1.port 0).phase = x.2 := by decide +kernel

/-- Port 1 waits while port 0 erases (95 F9). -/
theorem witness_WaitingPortStays :
    ∃ s : State, s.cfg.wf ∧ s.sched = [.acquire 1] ∧ (s.port 1).phase = .pWaitErase ∧ s.fstate ≠ .ready :=
  ⟨{ after [.submit 1 2 0 1 [0xAB], .decode 1] erasing with sched := [.acquire 1] }, by decide +kernel, by decide +kernel,
    by decide +kernel, by decide +kernel⟩

/-- A state and a turn for each kind of transition (95 F1 to F8). -/
theorem witness_TokenTransitions :
    ∃ s1 s2 s3 s4 t1 t2 t3 t4 : State,
      (s1.Inv ∧ takeTurn .initEvent s1 = .next t1 ∧ s1.fstate = .unknown ∧ t1.fstate = .ready) ∧
        (s2.Inv ∧ takeTurn (.acquire 0) s2 = .next t2 ∧ s2.fstate = .ready ∧ t2.fstate = .reading) ∧
        (s3.Inv ∧ takeTurn (.event 0) s3 = .next t3 ∧ s3.fstate = .erasing ∧ t3.fstate = .ready) ∧
        s4.Inv ∧ takeTurn (.event 0) s4 = .next t4 ∧ s4.fstate = t4.fstate :=
  ⟨after (List.replicate 5 .initEvent) State.reset, waitRead, after (List.replicate 6 (.event 0)) erasing, erasing, _, _, _, _,
    ⟨(after_good rfl reset_good).1, rfl, by decide +kernel, by decide +kernel⟩,
    ⟨(scheduled_good (after_good rfl (ready_good (by decide))) _).1, rfl, by decide +kernel, by decide +kernel⟩,
    ⟨(after_good rfl erasing_good).1, rfl, by decide +kernel, by decide +kernel⟩, erasing_good.1, rfl, by decide +kernel⟩

theorem witness_HoldEndsInReady :
    ∃ s : State, s.Inv ∧ s.ChipInv ∧ s.cfg.opcodesDistinct ∧ s.owner = some (.port 0) :=
  ⟨lastCycle, lastCycle_good.1, lastCycle_good.2, by decide +kernel, by decide +kernel⟩

/-- The reference chip, and answers laid down under `ENV_ANY`. -/
theorem witness_IdentificationCompletes :
    ∃ s u : State, (s.active = .init ∧ s.fetch = some .ident ∧ s.env.answers 4 ∧ s.env.reference) ∧
      u.active = .init ∧ u.fetch = some .ident ∧ u.env.answers 4 ∧ u.env.kind = .any :=
  ⟨State.reset, unconstrained State.reset [.normal, .byte 1, .byte 2, .byte 3],
    ⟨rfl, by decide, ⟨by decide, .inl rfl⟩, ⟨rfl, rfl⟩⟩, rfl, by decide, ⟨by decide, .inr (by decide)⟩, rfl⟩

/-- At the first and at the last event that can time out. -/
theorem witness_IdentificationTimeout :
    ∃ s1 s2 : State,
      (s1.Inv ∧ s1.ChipInv ∧ s1.owner = some .init ∧ (identFrame s1.cfg)[s1.initEv]? = some (.wb 0x9F) ∧
        s1.draw.1 = .timeout) ∧
        s2.Inv ∧ s2.ChipInv ∧ s2.owner = some .init ∧ (identFrame s2.cfg)[s2.initEv]? = some .rb ∧ s2.initEv = 4 ∧
          s2.draw.1 = .timeout :=
  ⟨answering (after [.initEvent] State.reset) [.timeout] .init,
    answering (after (List.replicate 4 .initEvent) State.reset) [.timeout] .init,
    ⟨(answering_good (after_good rfl reset_good) _ _).1, (answering_good (after_good rfl reset_good) _ _).2, by decide,
      by decide, by decide⟩,
    (answering_good (after_good rfl reset_good) _ _).1, (answering_good (after_good rfl reset_good) _ _).2, by decide,
    by decide, by decide, by decide⟩

theorem witness_CommandsIgnoreIdentity :
    Instr.status ≠ .ident ∧ Turn.event 0 ≠ .initEvent ∧ Turn.event 0 ≠ .run .init := by decide

/-- With the chip selected, at the opcode, and not selected, at `Wi(busy)`. -/
theorem witness_HoldTimeoutFails :
    ∃ s1 s2 : State,
      (s1.Inv ∧ s1.ChipInv ∧ s1.cfg.opcodesDistinct ∧ s1.nextEvent 0 = some (.wb 0xD8) ∧ s1.draw.1 = .timeout ∧
        s1.sel = true) ∧
        s2.Inv ∧ s2.ChipInv ∧ s2.cfg.opcodesDistinct ∧ s2.nextEvent 0 = some (.wi .busy) ∧ s2.draw.1 = .timeout ∧
          s2.sel = false :=
  ⟨answering (after [.event 0] erasing) [.timeout] (.port 0),
    answering (after (List.replicate 6 (.event 0)) erasing) [.timeout] (.port 0),
    ⟨(answering_good (after_good rfl erasing_good) _ _).1, (answering_good (after_good rfl erasing_good) _ _).2,
      by decide +kernel⟩,
    (answering_good (after_good rfl erasing_good) _ _).1, (answering_good (after_good rfl erasing_good) _ _).2,
    by decide +kernel⟩

/-- The reference environment, and answers laid down under `ENV_ANY`. -/
theorem witness_EraseFrameCompletes :
    ∀ s ∈ [erasing, unconstrained erasing (List.replicate 5 .normal)],
      s.Inv ∧ s.ChipInv ∧ s.cfg.opcodesDistinct ∧ s.active = .port 0 ∧ s.fetch = some (.erase 0x10000 0xFC0000) ∧
        s.env.answers 5 := by
  intro s hs
  simp only [List.mem_cons, List.not_mem_nil, or_false] at hs
  rcases hs with rfl | rfl
  · exact ⟨erasing_good.1, erasing_good.2, by decide +kernel, rfl, by decide +kernel, by decide +kernel, .inl rfl⟩
  · exact ⟨(unconstrained_good erasing_good _).1, (unconstrained_good erasing_good _).2, by decide +kernel, rfl,
      by decide +kernel, by decide +kernel, .inr (by decide)⟩

/-- At a cycle that is not the last, and at the last. -/
theorem witness_ProgramFrameCompletes :
    (programming.Inv ∧ programming.ChipInv ∧ programming.cfg.opcodesDistinct ∧ programming.active = .port 0 ∧
      programming.fetch = some (.program 0xFC0000 [0xAB]) ∧
      programming.env.answers (asked (progCycle programming.cfg 0xFC0000 [0xAB]))) ∧
      lastCycle.Inv ∧ lastCycle.ChipInv ∧ lastCycle.cfg.opcodesDistinct ∧ lastCycle.active = .port 0 ∧
      lastCycle.fetch = some (.program 0xFC0001 [0xCD]) ∧
      lastCycle.env.answers (asked (progCycle lastCycle.cfg 0xFC0001 [0xCD])) :=
  ⟨⟨programming_good.1, programming_good.2, by decide +kernel, rfl, by decide +kernel, by decide +kernel, .inl rfl⟩,
    lastCycle_good.1, lastCycle_good.2, by decide +kernel, rfl, by decide +kernel, by decide +kernel, .inl rfl⟩
theorem witness_ProgramFrameCompletes_clauses :
    (programming.port 0).ev + 8 ≠ ((programming.port 0).holdList programming.cfg).length ∧
      (lastCycle.port 0).ev + 8 = ((lastCycle.port 0).holdList lastCycle.cfg).length := by decide +kernel

theorem reading_answers (c : Config) (n : Nat) (h : (reading c).env.kind = .ref) : (reading c).env.answers n :=
  ⟨(fun d hd => by cases List.mem_of_mem_take hd), .inl h⟩

/-- Both kinds of read frame. -/
theorem witness_ReadFrameCompletes :
    ∃ s u : State,
      (s.Inv ∧ s.ChipInv ∧ s.cfg.opcodesDistinct ∧ s.active = .port 0 ∧ s.fetch = some (.fastRead 0xFC0000) ∧
        s.env.answers (asked (frameOf s.cfg (s.port 0).lenNat (.fastRead 0xFC0000))) ∧ s.env.reference) ∧
      u.Inv ∧ u.ChipInv ∧ u.cfg.opcodesDistinct ∧ u.active = .port 0 ∧ u.fetch = some (.readSlow 0xFC0000) ∧
        u.env.answers (asked (frameOf u.cfg (u.port 0).lenNat (.readSlow 0xFC0000))) ∧ u.env.reference :=
  ⟨reading Config.cfgS1, reading Config.cfgS2,
    ⟨(reading_good (by decide)).1, (reading_good (by decide)).2, by decide +kernel, rfl, by decide +kernel,
      reading_answers _ _ (by decide +kernel), by decide +kernel, rfl⟩,
    (reading_good (by decide)).1, (reading_good (by decide)).2, by decide +kernel, rfl, by decide +kernel,
    reading_answers _ _ (by decide +kernel), by decide +kernel, rfl⟩

theorem submitted_answers (c : Config) (w0 w1 w2 : Word) (pl : List Byte) (n : Nat)
    (h : (submitted c w0 w1 w2 pl).env.kind = .ref) : (submitted c w0 w1 w2 pl).env.answers n :=
  ⟨(fun d hd => by cases List.mem_of_mem_take hd), .inl h⟩

/-- The last byte of Config. -/
theorem witness_ReadCompletes :
    ∃ s : State, s.Inv ∧ s.ChipInv ∧ s.cfg.opcodesDistinct ∧ s.active = .port 0 ∧ s.fetch = some (.read 0xFDFFFF 1) ∧
      validateRead s.cfg 0xFDFFFF 1 = .ok ∧ s.fstate = .ready ∧
      s.env.answers (asked (readEvents s.cfg 0xFDFFFF (1 : Word).toInt.toNat)) ∧ s.env.reference :=
  ⟨submitted Config.cfgS1 1 0xFDFFFF 1 [], (submitted_good (by decide) ..).1, (submitted_good (by decide) ..).2,
    by decide +kernel, rfl, by decide +kernel, by decide +kernel, by decide +kernel,
    submitted_answers _ _ _ _ _ _ (by decide +kernel), by decide +kernel, rfl⟩

/-- `WriteCompletes` and `WriteThenReadReturnsPayload`. -/
theorem witness_WriteCompletes :
    ∃ s : State, s.Inv ∧ s.ChipInv ∧ s.cfg.opcodesDistinct ∧ s.env.reference ∧ s.active = .port 0 ∧
      s.fetch = some (.write 0xFC0000 2 [0xAB, 0xCD]) ∧ validateWrite s.cfg 0xFC0000 2 = .ok ∧ s.drawAlloc.1 = true ∧
      (2 : Word).toInt ≤ ([0xAB, 0xCD] : List Byte).length ∧ s.fstate = .ready ∧
      s.env.answers (asked (writeEvents s.cfg 0xFC0000 2 [0xAB, 0xCD])) :=
  ⟨submitted Config.cfgS1 2 0xFC0000 2 [0xAB, 0xCD], (submitted_good (by decide) ..).1,
    (submitted_good (by decide) ..).2, by decide +kernel, ⟨by decide +kernel, rfl⟩, rfl, by decide +kernel,
    by decide +kernel, by decide +kernel, by decide, by decide +kernel,
    submitted_answers _ _ _ _ _ _ (by decide +kernel)⟩
theorem witness_WriteThenReadReturnsPayload :
    (match exec (.write 0xFC0000 2 [0xAB, 0xCD]) (submitted Config.cfgS1 2 0xFC0000 2 [0xAB, 0xCD]) with
      | .next t => decide (1 < t.ctx.length ∧ (t.port 0).phase = .pDone ∧ (t.port 1).phase = .pIdle)
      | .fault _ => false
      | .refused _ => false) = true := by decide +kernel

/-- One instruction of each kind a port runs, each with a next state. -/
theorem witness_InstructionFrame :
    ∀ x ∈ [(submitted Config.cfgS1 1 0xFC0000 2 [], Instr.read 0xFC0000 2), (submitted Config.cfgS1 2 0xFC0000 1 [7], .write 0xFC0000 1 [7]),
        (submitted Config.cfgS1 3 0 0 [], .status), (submitted Config.cfgS1 4 0 0 [], .resetStatus),
        (erasing, .erase 0x10000 0xFC0000), (lastCycle, .program 0xFC0001 [0xCD]), (reading Config.cfgS1, .fastRead 0xFC0000),
        (reading Config.cfgS2, .readSlow 0xFC0000)],
      x.1.cfg.opcodesDistinct ∧ x.1.active = .port 0 ∧ x.1.fetch = some x.2 ∧ (seen (exec x.2 x.1) record).isSome := by
  decide +kernel

theorem witness_IdentificationFrame : ∃ s t : State, exec .ident s = .next t := ⟨State.reset, _, rfl⟩

theorem witness_FusedFrameIsItsEvents :
    ∃ s u : State, (s.Inv ∧ s.active = .port 0 ∧ s.fetch = some (.program 0xFC0000 [0xAB]) ∧
        (s.port 0).phase ≠ .pSubmitted) ∧ u.Inv ∧ u.active = .init ∧ u.fetch = some .ident :=
  ⟨programming, State.reset, ⟨programming_good.1, rfl, by decide +kernel, by decide +kernel⟩, reset_good.1, rfl, by decide⟩

theorem witness_FusedCommandIsSmallSteps :
    ∃ s : State, s.Inv ∧ s.active = .port 0 ∧ s.fetch = some (.write 0xFC0000 1 [7]) ∧ (s.port 0).phase = .pSubmitted :=
  ⟨submitted Config.cfgS1 2 0xFC0000 1 [7], (submitted_good (by decide) ..).1, rfl, by decide +kernel, by decide +kernel⟩

end Sys2Proof.Tests
end

section
/-! PROOF. Every step of the machine is small steps of 10_state R36 taken one after another (R40), and what a relation
between states must hold across to hold across every step. -/

namespace Sys2Proof.Machine

/-! ## What `exec` runs, by where the agent stands -/

/-- The agent that stands at an instruction: `INIT` at the start of the IDENT frame, or a port. -/
theorem fetch_cases {s : State} {i : Instr} (h : s.fetch = some i) :
    (s.active = .init ∧ s.initEv = 0 ∧ i = .ident) ∨ ∃ p, s.active = .port p ∧ s.fetchPort p = some i := by
  unfold State.fetch at h
  split at h
  · split at h
    · rename_i ha hc
      simp only [Bool.and_eq_true, beq_iff_eq] at hc
      cases h
      exact .inl ⟨ha, hc.2, rfl⟩
    · cases h
  · exact .inr ⟨_, ‹_›, h⟩

/-- IDENT at its start is the whole frame (R126). -/
theorem exec_ident {s : State} (h : s.fetch = some .ident) : exec .ident s = runInit (identFrame s.cfg) s :=
  if_pos h

/-- A command is its decode step, then holds of its port (R156, R191, R215, R216). -/
theorem exec_command {s : State} {p : Nat} {i : Instr} (ha : s.active = .port p) (hf : s.fetch = some i)
    (hph : (s.port p).phase = .pSubmitted) :
    ∃ n : State → Nat, exec i s = andThen (decodeStep p s) (fun t => runHolds p (n t) t) := by
  have hd : decodeDescriptor (s.port p).op (s.port p).addr (s.port p).len (s.port p).payload = .ok i := by
    rcases fetchPort_cases (fetch_port ha ▸ hf) with ⟨-, hd⟩ | ⟨-, ⟨e, -⟩ | ⟨e, -⟩ | ⟨e, -⟩⟩
    · exact hd
    all_goals rw [hph] at e; cases e
  unfold decodeStep
  rw [if_pos hph]
  rcases decodeDescriptor_cases (s.port p).op (s.port p).addr (s.port p).len (s.port p).payload with
    ⟨-, e⟩ | ⟨-, e⟩ | ⟨-, e⟩ | ⟨-, e⟩ | ⟨-, e⟩ <;> rw [e] at hd <;> cases hd <;> rw [e]
  · exact ⟨fun _ => 1, whenAt_at ha hf⟩
  · exact ⟨fun t => (t.port p).eraseUnits t.cfg + 1, whenAt_at ha hf⟩
  · exact ⟨fun _ => 0, whenAt_at ha hf⟩
  · exact ⟨fun _ => 0, whenAt_at ha hf⟩

/-- A frame at which a port stands is that frame's events (R161, R176, R192). -/
theorem exec_frame {s : State} {p : Nat} {i : Instr} (ha : s.active = .port p) (hf : s.fetch = some i)
    (hph : (s.port p).phase ≠ .pSubmitted) : exec i s = runFrame p (frameOf s.cfg (s.port p).lenNat i) s := by
  obtain ⟨-, ⟨-, -, rfl⟩ | ⟨-, o, rfl, -⟩ | ⟨-, -, ⟨-, rfl⟩ | ⟨-, rfl⟩⟩⟩ := fetched_in_hold ha hf hph
  all_goals exact whenAt_at ha hf

/-- The one step of an agent is a small step of R36, or nothing. -/
theorem agentStep_cases (a : Agent) (s : State) :
    agentStep a s = .next s ∨ ∃ u : Turn, (∀ b, u ≠ .run b) ∧ agentStep a s = takeTurn u s := by
  cases a with
  | init => exact .inr ⟨.initEvent, by simp, rfl⟩
  | port p =>
    dsimp only [agentStep]
    cases hph : (s.port p).phase with
    | pIdle => exact .inl rfl
    | pDone => exact .inl rfl
    | pSubmitted => exact .inr ⟨.decode p, by simp, rfl⟩
    | pWaitErase => exact .inr ⟨.acquire p, by simp, rfl⟩
    | pWaitProg => exact .inr ⟨.acquire p, by simp, rfl⟩
    | pWaitRead => exact .inr ⟨.acquire p, by simp, rfl⟩
    | pErase => exact .inr ⟨.event p, by simp, rfl⟩
    | pProg => exact .inr ⟨.event p, by simp, rfl⟩
    | pRead => exact .inr ⟨.event p, by simp, rfl⟩

/-! ## Relations that every step keeps -/

/-- A relation between states that is reflexive and transitive, and holds across each operation a step is made of,
whether or not a run reaches the state: then it holds across every step (`StepRel.of_step`). `model` is the taking of a
turn, which writes the model's own schedule alone (logs 4, 6, 13). -/
structure StepRel (R : State → State → Prop) : Prop where
  refl : ∀ s, R s s
  trans : ∀ {s t u}, R s t → R t u → R s u
  model : ∀ (s : State) (sched : List Turn) (ix : Nat) (active : Agent),
    R s { s with sched := sched, freeIx := ix, active := active }
  submit : ∀ (s : State) (p : Nat) (w0 w1 w2 : Word) (payload : List Byte), R s (s.submit p w0 w1 w2 payload)
  collect : ∀ (s : State) (p : Nat), R s (s.collect p)
  acquire : ∀ (s : State) (p : Nat), R s (s.acquire p)
  decode : ∀ {s t : State} {p : Nat}, decodeStep p s = .next t → R s t
  event : ∀ {s t : State} {p total : Nat} {e : Event}, eventStep p total e s = .next t → R s t
  identify : ∀ {s t : State} {e : Event}, initStep e s = .next t → R s t

namespace StepRel

variable {R : State → State → Prop} (hR : StepRel R)
include hR

theorem of_runEvents {p total : Nat} {es : List Event} : ∀ {s t : State}, runEvents p total es s = .next t → R s t := by
  induction es with
  | nil => intro s t h; cases h; exact hR.refl s
  | cons e es ih =>
    intro s t h
    rw [runEvents] at h
    split at h
    · obtain ⟨x, h1, h2⟩ := andThen_eq_next.1 h
      exact hR.trans (hR.event h1) (ih h2)
    · cases h; exact hR.refl s

theorem of_runHolds {p n : Nat} : ∀ {s t : State}, runHolds p n s = .next t → R s t := by
  induction n with
  | zero => intro s t h; cases h; exact hR.refl s
  | succ n ih =>
    intro s t h
    rw [runHolds] at h
    split at h
    · obtain ⟨x, h1, h2⟩ := andThen_eq_next.1 h
      exact hR.trans (hR.acquire s p) (hR.trans (hR.of_runEvents h1) (ih h2))
    · cases h; exact hR.refl s

theorem of_runInit {es : List Event} : ∀ {s t : State}, runInit es s = .next t → R s t := by
  induction es with
  | nil => intro s t h; cases h; exact hR.refl s
  | cons e es ih =>
    intro s t h
    rw [runInit] at h
    split at h
    · obtain ⟨x, h1, h2⟩ := andThen_eq_next.1 h
      exact hR.trans (hR.identify h1) (ih h2)
    · cases h; exact hR.refl s

/-- An instruction at which the active agent stands. -/
theorem of_exec {s t : State} {i : Instr} (hf : s.fetch = some i) (h : exec i s = .next t) : R s t := by
  rcases fetch_cases hf with ⟨-, -, rfl⟩ | ⟨p, ha, -⟩
  · exact hR.of_runInit (exec_ident hf ▸ h)
  · by_cases hph : (s.port p).phase = .pSubmitted
    · obtain ⟨n, e⟩ := exec_command ha hf hph
      obtain ⟨x, h1, h2⟩ := andThen_eq_next.1 (e ▸ h)
      exact hR.trans (hR.decode h1) (hR.of_runHolds h2)
    · exact hR.of_runEvents (exec_frame ha hf hph ▸ h)

/-- A small step. -/
theorem of_takeTurn {s t : State} {u : Turn} (hu : ∀ a, u ≠ .run a) (h : takeTurn u s = .next t) : R s t := by
  cases u with
  | run a => exact absurd rfl (hu a)
  | submit p w0 w1 w2 payload => cases h; exact hR.submit ..
  | collect p => cases h; exact hR.collect ..
  | acquire p => cases h; exact hR.acquire ..
  | decode p => exact hR.decode h
  | initEvent =>
    rcases initEvent_cases h with rfl | ⟨-, -, e, -, h1⟩
    · exact hR.refl _
    · exact hR.identify h1
  | event p =>
    rcases portEvent_cases h with rfl | ⟨e, -, h1⟩
    · exact hR.refl _
    · exact hR.event h1

theorem of_doTurn {s t : State} {u : Turn} (h : doTurn u s = .next t) : R s t := by
  by_cases hu : ∀ a, u ≠ .run a
  · exact hR.of_takeTurn hu (doTurn_small hu s ▸ h)
  · obtain ⟨a, rfl⟩ : ∃ a, u = .run a := by simpa using hu
    refine hR.trans (hR.model s s.sched s.freeIx a) ?_
    rw [doTurn, runTurn] at h
    split at h
    · exact hR.of_exec ‹_› h
    · rcases agentStep_cases a { s with active := a } with e | ⟨v, hv, e⟩
      · cases e.symm.trans h; exact hR.refl _
      · exact hR.of_takeTurn hv (e ▸ h)

theorem of_step {s t : State} (h : step s = .next t) : R s t := by
  obtain ⟨-, sched, ix, rfl | ⟨u, hu⟩⟩ := step_cases h
  · exact hR.model s sched ix s.active
  · exact hR.trans (hR.model s sched ix s.active) (hR.of_doTurn hu)

end StepRel

/-! ## The configuration (R7), the kind of environment and the chip's identity (R70) -/

/-- The configuration, the kind of the environment and the chip's identity are unchanged. -/
structure SameSetup (s t : State) : Prop where
  cfg : t.cfg = s.cfg
  kind : t.env.kind = s.env.kind
  chipId : t.env.chip.chipId = s.env.chip.chipId

theorem SameSetup.trans {s t u : State} (h : SameSetup s t) (g : SameSetup t u) : SameSetup s u :=
  ⟨g.cfg.trans h.cfg, g.kind.trans h.kind, g.chipId.trans h.chipId⟩

/-- What writes neither the configuration nor the environment. -/
theorem SameSetup.of_env {s t : State} (hc : t.cfg = s.cfg) (he : t.env = s.env) : SameSetup s t :=
  ⟨hc, by rw [he], by rw [he]⟩

theorem setPort_sameSetup (s : State) (p : Nat) (f : Ctx → Ctx) : SameSetup s (s.setPort p f) := .of_env rfl rfl

theorem sameOutside.sameSetup {p : Nat} {s t : State} (h : sameOutside p s t) : SameSetup s t :=
  ⟨h.cfg, h.kind, by rw [h.chip]⟩

theorem transport_sameSetup {a : Agent} {e : Event} {s t : State} {r : Answer} (h : transport a e s = .ok (r, t)) :
    SameSetup s t := by
  obtain ⟨draws, chip, ix, rfl, hc⟩ := transport_cases h
  exact ⟨rfl, rfl, chipAfter_id hc⟩

theorem deselIfSelected_sameSetup {a : Agent} {s t : State} (h : deselIfSelected a s = .ok t) : SameSetup s t := by
  rcases deselIfSelected_cases h with ⟨-, rfl⟩ | ⟨-, h⟩
  · exact .of_env rfl rfl
  · exact transport_sameSetup h

theorem endHold_sameSetup (s : State) (p : Nat) : SameSetup s (s.endHold p) := by
  have hc : SameSetup s (s.completeTransfer p) := by
    unfold State.completeTransfer
    rw [creditTransfer_eq]
    exact .of_env (by simp) (by simp)
  unfold State.endHold
  cases (s.port p).phase with
  | pProg => exact hc
  | pRead => exact hc
  | _ => exact .of_env rfl rfl

theorem advanceEv_sameSetup (s : State) (p total : Nat) : SameSetup s (s.advanceEv p total) := by
  unfold State.advanceEv
  split
  · exact (setPort_sameSetup s p _).trans (endHold_sameSetup _ p)
  · exact setPort_sameSetup s p _

/-- An event keeps the setup, whether it is answered or times out. -/
theorem eventStep_sameSetup {p total : Nat} {e : Event} {s t : State} (h : eventStep p total e s = .next t) :
    SameSetup s t := by
  rcases eventStep_cases h with ⟨r, s1, htr, -, rfl⟩ | ⟨s1, htr, hf⟩
  · refine (transport_sameSetup htr).trans ?_
    rw [deliver_eq]
    exact (setPort_sameSetup s1 p _).trans (advanceEv_sameSetup _ p total)
  · obtain ⟨s2, hd, rfl⟩ := failHold_cases hf
    exact (transport_sameSetup htr).trans ((deselIfSelected_sameSetup hd).trans (.of_env (by simp) (by simp)))

theorem initStep_sameSetup {e : Event} {s t : State} (h : initStep e s = .next t) : SameSetup s t := by
  obtain ⟨hcfg, -, -, hkind, hid, -⟩ := (initStep_summary h).beyond0
  exact ⟨hcfg, hkind, hid⟩

theorem decodeStep_sameSetup {s t : State} {p : Nat} (h : decodeStep p s = .next t) : SameSetup s t := by
  rcases decodeStep_cases h with rfl | ⟨-, x, ho, -⟩
  · exact .of_env rfl rfl
  · exact SameSetup.trans (t := { s with xferCount := x }) (.of_env rfl rfl) ho.sameSetup

theorem submit_sameSetup (s : State) (p : Nat) (w0 w1 w2 : Word) (payload : List Byte) :
    SameSetup s (s.submit p w0 w1 w2 payload) := by
  rcases submit_cases s p w0 w1 w2 payload with e | ⟨-, ho, -⟩
  · exact .of_env (by rw [e]) (by rw [e])
  · exact ho.sameSetup

theorem collect_sameSetup (s : State) (p : Nat) : SameSetup s (s.collect p) := by
  unfold State.collect
  split <;> exact .of_env rfl rfl

theorem acquire_sameSetup (s : State) (p : Nat) : SameSetup s (s.acquire p) := by
  rcases acquire_cases s p with e | ⟨_, _, -, -, e⟩ <;> rw [e] <;> exact .of_env rfl rfl

/-- No operation of a step touches the setup. -/
theorem stepRel_sameSetup : StepRel SameSetup where
  refl _ := .of_env rfl rfl
  trans := .trans
  model _ _ _ _ := .of_env rfl rfl
  submit := submit_sameSetup
  collect := collect_sameSetup
  acquire := acquire_sameSetup
  decode := decodeStep_sameSetup
  event := eventStep_sameSetup
  identify := initStep_sameSetup

/-- Settles O9: the setup is kept by every operation a step is made of. -/
theorem configurationConstant : Obligations.ConfigurationConstant := by
  intro s t h
  obtain ⟨hcfg, hkind, hid⟩ := stepRel_sameSetup.of_step h
  exact ⟨hcfg, hkind, hid⟩

end Sys2Proof.Machine
end

section
/-! PROOF. No step faults (00_scope R16 (2), 43 R160): a step is small steps one after another (10_state R40), and no
small step makes the reference chip touch a byte that does not exist. -/

namespace Sys2Proof.Machine

/-! ## A turn as small steps -/

/-- The events of a frame at which a port stands, one after another (R40). -/
theorem exec_frame_repeat {s : State} {p : Nat} {i : Instr} (h : s.Inv) (ha : s.active = .port p)
    (hf : s.fetch = some i) (hph : (s.port p).phase ≠ .pSubmitted) :
    exec i s = repeatStep (portEvent p) (frameOf s.cfg (s.port p).lenNat i).length s :=
  (exec_frame ha hf hph).trans (runEvents_repeat h fun _ => ⟨rfl, fetched_frame (fetch_port ha ▸ hf) hph⟩)

/-- The events of identification, one after another (R40). -/
theorem exec_ident_repeat {s : State} (h : s.Inv) (hf : s.fetch = some .ident) (hev : s.initEv = 0) :
    exec .ident s = repeatStep initEvent (identFrame s.cfg).length s :=
  (exec_ident hf).trans (runInit_repeat h fun _ => ⟨[], by rw [hev, List.drop_zero, List.append_nil]⟩)

/-- A command at which a port stands is small steps of that port (R156, R191, R36). -/
theorem exec_command_turns {s : State} {p : Nat} {i : Instr} (h : s.Inv) (ha : s.active = .port p)
    (hf : s.fetch = some i) (hph : (s.port p).phase = .pSubmitted) :
    ∃ us : List Turn, (∀ u ∈ us, u.smallOf p = true) ∧ exec i s = takeTurns us s := by
  obtain ⟨n, e⟩ := exec_command ha hf hph
  have decodeFirst : ∀ us, takeTurns (.decode p :: us) s = andThen (decodeStep p s) (takeTurns us) := fun _ => rfl
  cases hd : decodeStep p s with
  | next t =>
    obtain ⟨us, hu, hr⟩ := runHolds_turns (p := p) (n := n t) (decodeStep_inv h hd)
    exact ⟨.decode p :: us, by simpa [Turn.smallOf] using hu, by rw [e, decodeFirst, hd]; exact hr⟩
  | fault f => exact ⟨[.decode p], by simp [Turn.smallOf], by rw [e, decodeFirst, hd]; rfl⟩
  | refused r => exact ⟨[.decode p], by simp [Turn.smallOf], by rw [e, decodeFirst, hd]; rfl⟩

/-- A small step of a port is no `run` turn. -/
theorem Turn.smallOf_ne_run {p : Nat} {u : Turn} (h : u.smallOf p = true) (a : Agent) : u ≠ .run a := by
  rintro rfl
  cases h

theorem takeTurns_replicate (u : Turn) (n : Nat) (s : State) :
    takeTurns (List.replicate n u) s = repeatStep (takeTurn u) n s := by
  induction n generalizing s with
  | zero => rfl
  | succ n ih => simp only [List.replicate_succ, takeTurns, repeatStep]; congr 1; funext t; exact ih t

/-- An instruction at which the active agent stands is small steps (R40). -/
theorem exec_turns {s : State} {i : Instr} (h : s.Inv) (hf : s.fetch = some i) :
    ∃ us : List Turn, (∀ u ∈ us, ∀ a, u ≠ .run a) ∧ exec i s = takeTurns us s := by
  rcases fetch_cases hf with ⟨-, hev, rfl⟩ | ⟨p, ha, -⟩
  · exact ⟨.replicate _ .initEvent, by simp,
      (exec_ident_repeat h hf hev).trans (takeTurns_replicate .initEvent _ s).symm⟩
  · by_cases hph : (s.port p).phase = .pSubmitted
    · obtain ⟨us, hu, e⟩ := exec_command_turns h ha hf hph
      exact ⟨us, fun u hm => Turn.smallOf_ne_run (hu u hm), e⟩
    · exact ⟨.replicate _ (.event p), by simp, (exec_frame_repeat h ha hf hph).trans (takeTurns_events ..).symm⟩

/-- A turn of the schedule is small steps, taken with the turn's agent active. -/
theorem doTurn_turns {s : State} (h : s.Inv) (u : Turn) :
    ∃ (active : Agent) (us : List Turn), (∀ v ∈ us, ∀ a, v ≠ .run a) ∧
      doTurn u s = takeTurns us { s with active := active } := by
  by_cases hu : ∀ a, u ≠ .run a
  · exact ⟨s.active, [u], by simpa using hu, by rw [doTurn_small hu, takeTurns]; cases takeTurn u s <;> rfl⟩
  · obtain ⟨a, rfl⟩ : ∃ a, u = .run a := by simpa using hu
    refine ⟨a, ?_⟩
    rw [doTurn, runTurn]
    split
    · exact exec_turns (Inv.of_model h s.sched a s.freeIx) ‹_›
    · rcases agentStep_cases a { s with active := a } with e | ⟨v, hv, e⟩
      · exact ⟨[], by simp, e⟩
      · exact ⟨[v], by simpa using hv, by rw [e, takeTurns]; cases takeTurn v _ <;> rfl⟩

/-- A step is small steps, taken in a state that differs in the model's own schedule alone. -/
theorem step_turns {s : State} (h : s.Inv) :
    ∃ (sched : List Turn) (ix : Nat) (active : Agent) (us : List Turn), (∀ u ∈ us, ∀ a, u ≠ .run a) ∧
      step s = takeTurns us { s with sched := sched, freeIx := ix, active := active } := by
  obtain ⟨sched, ix, hn⟩ := nextTurn_cases s
  refine ⟨sched, ix, ?_⟩
  unfold step
  rw [if_pos h.cfgWf]
  rcases hx : s.nextTurn with ⟨u, s1⟩
  rw [hx] at hn
  cases hn
  cases u with
  | none => exact ⟨s.active, [], by simp, rfl⟩
  | some u => exact doTurn_turns (Inv.of_model h sched s.active ix) u

/-! ## Where a small step could fault -/

/-- The chip would touch a byte that does not exist at this event or at the deselect that is owed after its timeout. -/
def State.outOfFlash (s : State) (e : Event) : Prop :=
  s.env.kind = .ref ∧ e ≠ .sel ∧
    (s.env.chip.desel s.cfg = none ∨ (e = .rb ∧ s.env.chip.answer s.cfg = .absent))

theorem transport_outOfFlash {a : Agent} {e : Event} {s : State} {f : Fault} (h : transport a e s = .error f) :
    s.outOfFlash e := by
  obtain ⟨hk, ⟨rfl, hd⟩ | ⟨rfl, hb⟩⟩ := transport_fault h
  · exact ⟨hk, by simp, .inl hd⟩
  · exact ⟨hk, by simp, .inr ⟨rfl, hb⟩⟩

/-- The failure path's deselect is of the frame as it stood before the call that timed out (R117, R232). -/
theorem owedDesel_outOfFlash {a : Agent} {e : Event} {s s1 : State} {f : Fault}
    (ht : transport a e s = .ok (.timeout, s1)) (hd : deselIfSelected a s1 = .error f) : s.outOfFlash e := by
  have hcall : transport a .desel s1 = .error f := by
    unfold deselIfSelected at hd
    split at hd
    · rw [transport, hd]; rfl
    · cases hd
  obtain ⟨hchip, hkind, hcfg, -⟩ := transport_timeout_chip ht
  obtain ⟨hk, -, hx⟩ := transport_outOfFlash hcall
  rw [hchip, hcfg] at hx
  exact ⟨hkind ▸ hk, transport_timeout_event ht, hx.imp_right fun hb => nomatch hb.1⟩

theorem eventStep_fault {p total : Nat} {e : Event} {s : State} {f : Fault} (h : eventStep p total e s = .fault f) :
    s.outOfFlash e := by
  unfold eventStep at h
  split at h
  · exact transport_outOfFlash ‹_›
  · unfold failHold at h
    split at h
    · exact owedDesel_outOfFlash ‹_› ‹_›
    · cases h
  · cases h

theorem initStep_fault {e : Event} {s : State} {f : Fault} (h : initStep e s = .fault f) : s.outOfFlash e := by
  unfold initStep at h
  split at h
  · exact transport_outOfFlash ‹_›
  · unfold initFail at h
    split at h
    · exact owedDesel_outOfFlash ‹_› ‹_›
    · cases h
  · cases h

/-! ## No small step faults -/

/-- An event of a hold stays inside the flash: its frame is one the hold's list has opened (R16, R160, R178). -/
theorem holdEvent_insideFlash {s : State} {p : Nat} {e : Event} (h : s.Inv) (hch : s.ChipInv)
    (hd : s.cfg.opcodesDistinct) (hn : s.nextEvent p = some e) : ¬ s.outOfFlash e := by
  rintro ⟨hk, hne, hx⟩
  obtain ⟨ho, -, hh, he⟩ := nextEvent_some hn
  have hev : (s.port p).ev ≠ 0 := fun h0 => hne (sel_first h.cfgWf (h.good p) hh (h0 ▸ he))
  obtain ⟨hframe, hreads⟩ := hch.portFrame hk p ho hev
  rcases hx with hx | ⟨rfl, hx⟩
  · obtain ⟨d, hs, -⟩ := desel_hold h.cfgWf hd (h.good p) hh hframe
    rw [hs] at hx; cases hx
  · exact answer_hold h.cfgWf hd (h.good p) hh hframe hreads he hx

/-- Identification has no address: its frame has one byte, which reaches no byte of the flash (R126, R70). -/
theorem initEvent_insideFlash {s : State} {e : Event} (hch : s.ChipInv) (ho : s.owner = some .init)
    (he : (identFrame s.cfg)[s.initEv]? = some e) : ¬ s.outOfFlash e := by
  rintro ⟨hk, hne, hx⟩
  have hev : s.initEv ≠ 0 := fun h0 => hne (by rw [h0] at he; cases he; rfl)
  have hlen : s.env.chip.frame.length ≤ 1 := by
    rw [(hch.initFrame hk ho hev).1]
    exact identFrame_frame s.cfg s.initEv
  rcases hx with hx | ⟨-, hx⟩
  · rw [desel_none (fun _ => by omega) (fun _ => by omega)] at hx; cases hx
  · have := chipStep_rb_ident s.cfg s.env.chip hlen
    simp [chipStep, hx] at this

theorem decodeWrite_ne_fault (p : Nat) (addr len : Word) (payload : List Byte) (s : State) (f : Fault) :
    decodeWrite p addr len payload s ≠ .fault f := by
  by_cases hv : validateWrite s.cfg addr len = .ok
  · rw [decodeWrite_ok hv]
    split
    · nofun
    · split <;> nofun
  · rw [decodeWrite_rejected hv]; nofun

/-- A decode step makes no call (R157, R191, R215, R216). -/
theorem decodeStep_ne_fault (p : Nat) (s : State) (f : Fault) : decodeStep p s ≠ .fault f := by
  unfold decodeStep
  split
  · rcases decodeDescriptor_cases (s.port p).op (s.port p).addr (s.port p).len (s.port p).payload with
      ⟨-, e⟩ | ⟨-, e⟩ | ⟨-, e⟩ | ⟨-, e⟩ | ⟨-, e⟩ <;> rw [e]
    · nofun
    · exact decodeWrite_ne_fault p _ _ _ s f
    · nofun
    · nofun
    · nofun
  · nofun

theorem portEvent_ne_fault {s : State} {p : Nat} (h : s.Inv) (hch : s.ChipInv) (hd : s.cfg.opcodesDistinct)
    (f : Fault) : portEvent p s ≠ .fault f := by
  intro hf
  unfold portEvent at hf
  split at hf
  · exact holdEvent_insideFlash h hch hd ‹_› (eventStep_fault hf)
  · cases hf

theorem initEvent_ne_fault {s : State} (hch : s.ChipInv) (f : Fault) : initEvent s ≠ .fault f := by
  intro hf
  unfold initEvent at hf
  split at hf
  · rename_i hi
    simp only [State.initEnabled, decide_eq_true_eq] at hi
    split at hf
    · exact initEvent_insideFlash hch hi.2 ‹_› (initStep_fault hf)
    · cases hf
  · cases hf

theorem takeTurn_ne_fault {s : State} {u : Turn} (h : s.Inv) (hch : s.ChipInv) (hd : s.cfg.opcodesDistinct)
    (hu : ∀ a, u ≠ .run a) (f : Fault) : takeTurn u s ≠ .fault f := by
  cases u with
  | run a => exact absurd rfl (hu a)
  | submit p w0 w1 w2 payload => nofun
  | collect p => nofun
  | acquire p => nofun
  | decode p => exact decodeStep_ne_fault p s f
  | initEvent => exact initEvent_ne_fault hch f
  | event p => exact portEvent_ne_fault h hch hd f

/-- Small steps one after another: each leaves the invariants that the next one needs. -/
theorem takeTurns_ne_fault {us : List Turn} (hu : ∀ u ∈ us, ∀ a, u ≠ .run a) (f : Fault) :
    ∀ {s : State}, s.Inv → s.ChipInv → s.cfg.opcodesDistinct → takeTurns us s ≠ .fault f := by
  induction us with
  | nil => nofun
  | cons u us ih =>
    intro s h hch hd
    obtain ⟨hu1, hus⟩ := List.forall_mem_cons.1 hu
    rw [takeTurns]
    cases hx : takeTurn u s with
    | next t =>
      have hcfg := (stepRel_sameSetup.of_takeTurn hu1 hx).cfg
      exact ih hus (takeTurn_inv h hx) (takeTurn_chipInv s t u h hch hu1 hx) (hcfg.symm ▸ hd)
    | fault g => exact absurd hx (takeTurn_ne_fault h hch hd hu1 g)
    | refused r => nofun

/-- The chip's invariant does not speak of the model's own schedule. -/
theorem ChipInv.of_model {s : State} (h : s.ChipInv) (sched : List Turn) (active : Agent) (ix : Nat) :
    ({ s with sched := sched, active := active, freeIx := ix } : State).ChipInv :=
  ⟨h.flash, h.portFrame, h.initFrame⟩

/-- Settles O7: a step is small steps, and each of them stays inside the flash. -/
theorem noStepFaults : Obligations.NoStepFaults := by
  intro s h hch hd f
  obtain ⟨sched, ix, active, us, hu, e⟩ := step_turns h
  rw [e]
  exact takeTurns_ne_fault hu f (Inv.of_model h sched active ix) (ChipInv.of_model hch sched active ix) hd

end Sys2Proof.Machine
end

section
/-! PROOF. The state after reset (10_state R42), the host's steps (R37), and the instruction that a step runs (R36,
R40). -/

namespace Sys2Proof.Machine

/-! ## Reset -/

/-- At reset every port, and every port number that does not exist, reads as a port at reset. -/
@[simp] theorem resetWith_port (c : Config) (p : Nat) : (State.resetWith c).port p = Ctx.reset := by
  simp only [State.port, State.resetWith, List.getElem?_replicate]
  split <;> rfl

/-- A port at reset is idle and holds no buffer (R39 e). -/
theorem reset_good (c : Config) : Ctx.reset.Good c := ⟨rfl, trivial⟩

/-- Identification is about to begin, and no port has started anything (R42). -/
theorem resetWith_inv {c : Config} (hc : c.wf) : (State.resetWith c).Inv where
  cfgWf := hc
  ports := List.length_replicate
  unknownInit := ⟨fun _ => rfl, fun _ => rfl⟩
  readyNone := ⟨nofun, nofun⟩
  readySel := nofun
  initPos _ := ⟨Nat.zero_lt_succ 5, rfl⟩
  hold := nofun
  inHold p hh := by rw [resetWith_port] at hh; cases hh
  good p := by rw [resetWith_port]; exact reset_good c

/-- The flash array lists nothing, and no frame is open (R42, R70). -/
theorem resetWith_chipInv (c : Config) : (State.resetWith c).ChipInv where
  flash := ⟨.nil, nofun⟩
  portFrame _ := nofun
  initFrame _ _ hev := absurd rfl hev

/-- No call has been made. -/
theorem resetWith_traceInv (c : Config) : (State.resetWith c).TraceInv where
  serial := .nil
  begun := nofun
  owned _ _ := nofun

/-- Settles O1. -/
theorem resetState : Obligations.ResetState := fun c =>
  ⟨rfl, rfl, rfl, rfl, rfl, rfl, rfl, rfl, List.length_replicate, fun p => by simp [Ctx.reset]⟩

/-- Settles O2. -/
theorem resetMeetsInvariants : Obligations.ResetMeetsInvariants :=
  ⟨by decide, rfl, fun c hc => ⟨resetWith_inv hc, resetWith_chipInv c, resetWith_traceInv c⟩⟩

/-! ## Submit and collect -/

/-- `submit` in a port that is not idle is not enabled (R36; log 7). -/
theorem submit_of_ne_idle {s : State} {p : Nat} (h : (s.port p).phase ≠ .pIdle) (w0 w1 w2 : Word)
    (payload : List Byte) : s.submit p w0 w1 w2 payload = s :=
  if_neg h

/-- `submit` in an idle port latches the descriptor and clears the position and the data of the last command (R37). -/
theorem submit_port_of_idle {s : State} {p : Nat} (hp : p < s.ctx.length) (h : (s.port p).phase = .pIdle)
    (w0 w1 w2 : Word) (payload : List Byte) :
    (s.submit p w0 w1 w2 payload).port p =
      { s.port p with
        op := w0
        addr := w1
        len := w2
        payload := payload
        part := none
        k := 0
        ev := 0
        rdata := []
        phase := .pSubmitted } := by
  rw [State.submit, if_pos h, port_setPort_self hp]

/-- `submit` changes nothing outside its port. -/
theorem sameOutside_submit (s : State) (p : Nat) (w0 w1 w2 : Word) (payload : List Byte) :
    sameOutside p s (s.submit p w0 w1 w2 payload) := by
  rcases submit_cases s p w0 w1 w2 payload with e | ⟨-, ho, -⟩
  · rw [e]; exact .refl p s
  · exact ho

/-- `collect` from a finished port (R37, R88). -/
theorem collect_of_done {s : State} {p : Nat} (h : (s.port p).phase = .pDone) :
    s.collect p =
      { s.setPort p (fun c => { c with phase := .pIdle }) with
        host := s.host ++ [⟨p, (s.port p).result, (s.port p).count, (s.port p).rdata⟩] } :=
  if_pos h

/-- Settles O30: the step is `submit` in the state with the turn taken off the schedule. -/
theorem submitLatchesDescriptor : Obligations.SubmitLatchesDescriptor := by
  intro s p w0 w1 w2 payload rest hc hs hp
  have hstep : step s = .next (({ s with sched := rest } : State).submit p w0 w1 w2 payload) :=
    step_small hc hs nofun
  have hsched : sameOutside p s { s with sched := rest } := sameOutside_sched s p rest s.active
  refine ⟨_, hstep, hsched.trans (sameOutside_submit _ p w0 w1 w2 payload), fun hidle => ?_, fun hbusy => ?_⟩
  · exact submit_port_of_idle (s := { s with sched := rest }) hp hidle w0 w1 w2 payload
  · rw [submit_of_ne_idle (s := { s with sched := rest }) hbusy]; rfl

/-- Settles O31: the step is `collect` in the state with the turn taken off the schedule. -/
theorem collectReturnsRecord : Obligations.CollectReturnsRecord := by
  intro s p rest hc hs hdone
  have hp : p < s.ctx.length := lt_of_phase_ne_idle (by rw [hdone]; nofun)
  have hstep : step s = .next (({ s with sched := rest } : State).collect p) := step_small hc hs nofun
  rw [collect_of_done (s := { s with sched := rest }) hdone] at hstep
  refine ⟨_, hstep, rfl, port_setPort_self (s := { s with sched := rest }) hp _, ?_⟩
  exact ⟨rfl, rfl, rfl, rfl, rfl, rfl, rfl, rfl, rfl, length_setPort ..,
    fun _ hq => port_setPort_of_ne (s := { s with sched := rest }) hq _, rfl, rfl, rfl, rfl⟩

/-! ## The instruction a step runs -/

/-- A submitted port stands at what its descriptor decodes to (R36). -/
theorem fetchPort_of_submitted {s : State} {p : Nat} (h : (s.port p).phase = .pSubmitted) :
    s.fetchPort p =
      (decodeDescriptor (s.port p).op (s.port p).addr (s.port p).len (s.port p).payload).toOption := by
  simp only [State.fetchPort, h]

/-- A `run` turn of an agent that stands at an instruction executes it (R40; log 13). -/
theorem doTurn_run {s : State} {a : Agent} {i : Instr} (h : ({ s with active := a } : State).fetch = some i) :
    doTurn (.run a) s = exec i { s with active := a } := by
  simp only [doTurn, runTurn, h]

/-- Settles O13: what is fetched, then the two kinds of turn. -/
theorem stepRunsTheFetchedInstruction : Obligations.StepRunsTheFetchedInstruction := by
  refine ⟨fun s p i hph hd => ?_, fun s a rest i hc hs hf => ?_, fun s u rest hc hs hu => ?_⟩
  · rw [decode] at hd
    rw [fetchPort_of_submitted hph, hd]; rfl
  · rw [step_scheduled hc hs]
    exact doTurn_run (s := { s with sched := rest }) hf
  · exact step_small hc hs hu

end Sys2Proof.Machine
end

section
/-! PROOF. What every step keeps (10_state R39), who makes the transport calls (R39 f), and which steps are enabled
(R36). -/

namespace Sys2Proof.Machine

/-! ## The invariant and the calls -/

/-- Settles O3: a step is small steps one after another, and each of them keeps the invariant. -/
theorem stepKeepsInvariant : Obligations.StepKeepsInvariant := by
  intro s t h ht
  obtain ⟨sched, ix, active, us, hu, e⟩ := step_turns h
  have h1 := Inv.of_model h sched active ix
  exact takeTurns_inv (J := State.Inv) (fun _ _ _ hx _ _ hy => takeTurn_inv hx hy) us hu _ t h1 h1 (e ▸ ht)

/-- Settles O6: a `run` turn taken as a small step is a small step of R36, or nothing. -/
theorem callsAreTheOwners : Obligations.CallsAreTheOwners := by
  intro s t u _ ht
  have small : ∀ v : Turn, (∀ a, v ≠ .run a) → takeTurn v s = .next t →
      ∃ calls, t.trace = s.trace ++ calls ∧ ∀ c ∈ calls, s.owner = some c.agent := by
    intro v hv hx
    obtain ⟨calls, htr, howner, -⟩ := takeTurn_calls hv hx
    exact ⟨calls, htr, fun c hc => (howner c hc).1⟩
  by_cases hu : ∀ a, u ≠ .run a
  · exact small u hu ht
  · obtain ⟨a, rfl⟩ : ∃ a, u = .run a := by simpa using hu
    rcases agentStep_cases a s with e | ⟨v, hv, e⟩
    · cases e.symm.trans ht
      exact ⟨[], (List.append_nil _).symm, nofun⟩
    · exact small v hv (e ▸ ht)

/-! ## The enabled steps -/

@[simp] theorem smallOf_decode (p : Nat) : (Turn.decode p).smallOf p = true := decide_eq_true rfl
@[simp] theorem smallOf_acquire (p : Nat) : (Turn.acquire p).smallOf p = true := decide_eq_true rfl
@[simp] theorem smallOf_event (p : Nat) : (Turn.event p).smallOf p = true := decide_eq_true rfl

/-- A turn of `portTurns`: `decode`, `acquire` or `event` of that port, each under its condition (R36). -/
theorem mem_portTurns {s : State} {p : Nat} {u : Turn} :
    u ∈ s.portTurns p ↔
      ((s.port p).phase = .pSubmitted ∧ u = .decode p) ∨ (s.canAcquire p = true ∧ u = .acquire p) ∨
        ((s.nextEvent p).isSome ∧ u = .event p) := by
  simp only [State.portTurns, List.mem_append, List.mem_ite_nil_right, List.mem_singleton, or_assoc]

theorem smallOf_of_mem_portTurns {s : State} {p : Nat} {u : Turn} (h : u ∈ s.portTurns p) : u.smallOf p = true := by
  rcases mem_portTurns.1 h with ⟨-, rfl⟩ | ⟨-, rfl⟩ | ⟨-, rfl⟩ <;> simp

/-- A small step belongs to one port. -/
theorem Turn.smallOf_unique {p q : Nat} {u : Turn} (hp : u.smallOf p = true) (hq : u.smallOf q = true) : p = q := by
  cases u <;> simp_all [Turn.smallOf]

/-- A port that has an enabled step exists. -/
theorem lt_of_mem_portTurns {s : State} {p : Nat} {u : Turn} (h : u ∈ s.portTurns p) : p < s.ctx.length := by
  rcases mem_portTurns.1 h with ⟨hph, -⟩ | ⟨hca, -⟩ | ⟨hn, -⟩
  · exact lt_of_phase_ne_idle (by rw [hph]; nofun)
  · refine lt_of_phase_ne_idle fun hph => ?_
    simp [State.canAcquire, hph, acquireTarget] at hca
  · obtain ⟨e, he⟩ := Option.isSome_iff_exists.1 hn
    exact (nextEvent_some he).2.1

/-- An enabled step is that of `INIT`, or one of a port. -/
theorem mem_enabledTurns {s : State} {u : Turn} :
    u ∈ s.enabledTurns ↔ (s.initEnabled = true ∧ u = .initEvent) ∨ ∃ p, u ∈ s.portTurns p := by
  simp only [State.enabledTurns, List.mem_append, List.mem_ite_nil_right, List.mem_singleton, List.mem_flatMap,
    List.mem_range]
  exact or_congr_right (exists_congr fun _ => and_iff_right_of_imp lt_of_mem_portTurns)

/-- A small step of a port is enabled where that port has it. -/
theorem mem_enabledTurns_of_smallOf {s : State} {p : Nat} {u : Turn} (hu : u.smallOf p = true) :
    u ∈ s.enabledTurns ↔ u ∈ s.portTurns p := by
  rw [mem_enabledTurns]
  refine ⟨?_, fun h => .inr ⟨p, h⟩⟩
  rintro (⟨-, rfl⟩ | ⟨q, hq⟩)
  · cases hu
  · exact Turn.smallOf_unique hu (smallOf_of_mem_portTurns hq) ▸ hq

theorem decode_mem_enabledTurns (s : State) (p : Nat) :
    .decode p ∈ s.enabledTurns ↔ (s.port p).phase = .pSubmitted := by
  rw [mem_enabledTurns_of_smallOf (smallOf_decode p), mem_portTurns]
  simp

/-- The phases in which a port waits for the token (R138). -/
theorem acquireTarget_isSome (ph : Phase) :
    (acquireTarget ph).isSome = true ↔ ph = .pWaitErase ∨ ph = .pWaitProg ∨ ph = .pWaitRead := by
  cases ph <;> simp [acquireTarget]

theorem acquire_mem_enabledTurns (s : State) (p : Nat) :
    .acquire p ∈ s.enabledTurns ↔
      ((s.port p).phase = .pWaitErase ∨ (s.port p).phase = .pWaitProg ∨ (s.port p).phase = .pWaitRead) ∧
        s.fstate = .ready := by
  rw [mem_enabledTurns_of_smallOf (smallOf_acquire p), mem_portTurns]
  simp [State.canAcquire, acquireTarget_isSome]

/-- The phases of a hold. -/
theorem holdState_isSome (ph : Phase) :
    (holdState ph).isSome = true ↔ ph = .pErase ∨ ph = .pProg ∨ ph = .pRead := by
  cases ph <;> simp [holdState]

/-- The owner in its hold has an event to perform, and no other port has (R36, R39). -/
theorem nextEvent_isSome {s : State} (h : s.Inv) (p : Nat) :
    (s.nextEvent p).isSome = true ↔ (holdState (s.port p).phase).isSome = true ∧ s.owner = some (.port p) := by
  constructor
  · intro hn
    obtain ⟨e, he⟩ := Option.isSome_iff_exists.1 hn
    obtain ⟨ho, -, hh, -⟩ := nextEvent_some he
    exact ⟨hh, ho⟩
  · rintro ⟨-, ho⟩
    obtain ⟨-, -, hev, -⟩ := h.hold p ho
    simp [State.nextEvent, holds_of_owner h ho, hev]

theorem event_mem_enabledTurns {s : State} (h : s.Inv) (p : Nat) :
    .event p ∈ s.enabledTurns ↔
      ((s.port p).phase = .pErase ∨ (s.port p).phase = .pProg ∨ (s.port p).phase = .pRead) ∧
        s.owner = some (.port p) := by
  rw [mem_enabledTurns_of_smallOf (smallOf_event p), mem_portTurns]
  simp [nextEvent_isSome h, holdState_isSome]

/-- `INIT` has a step exactly while the token is Unknown (R36, R39 b). -/
theorem initEvent_mem_enabledTurns {s : State} (h : s.Inv) : .initEvent ∈ s.enabledTurns ↔ s.fstate = .unknown := by
  have noPort : ∀ p, .initEvent ∉ s.portTurns p := fun p hp => nomatch smallOf_of_mem_portTurns hp
  rw [mem_enabledTurns]
  simp [noPort, State.initEnabled, ← h.unknownInit]

/-- With nothing enabled there is no turn; otherwise it is one of the enabled steps (R142; log 6). -/
theorem enabledTurn_cases (s : State) :
    (s.enabledTurns = [] ∧ s.enabledTurn = (none, s)) ∨
      ∃ u ∈ s.enabledTurns, ∃ ix, s.enabledTurn = (some u, { s with freeIx := ix }) := by
  unfold State.enabledTurn
  split
  case h_1 e => exact .inl ⟨e, rfl⟩
  case h_2 t e => exact .inr ⟨t, by rw [e]; exact List.mem_singleton_self t, s.freeIx, rfl⟩
  case h_3 t ts _ e =>
    have hlt := Nat.mod_lt (Config.freeChoice s.freeIx) (Nat.zero_lt_succ ts.length)
    refine .inr ⟨(t :: ts)[_]'hlt, by rw [e]; exact List.getElem_mem hlt, s.freeIx + 1, ?_⟩
    rw [← List.getElem?_eq_getElem hlt]; rfl

/-- Settles O33: the four kinds of step one by one, then the unscheduled turn. -/
theorem unscheduledStepIsEnabled : Obligations.UnscheduledStepIsEnabled := by
  refine ⟨fun s p => ⟨decode_mem_enabledTurns s p, acquire_mem_enabledTurns s p⟩,
    fun s h => ⟨initEvent_mem_enabledTurns h, event_mem_enabledTurns h⟩, fun s u hu => ?_, fun s hc hs hl => ?_⟩
  · exact (mem_enabledTurns.1 hu).imp And.right fun ⟨p, hp⟩ => ⟨p, smallOf_of_mem_portTurns hp⟩
  · have hnext : s.nextTurn = s.enabledTurn := by simp only [State.nextTurn, hs, hl]
    unfold step
    rw [if_pos hc, hnext]
    rcases enabledTurn_cases s with ⟨hnil, e⟩ | ⟨u, hu, ix, e⟩ <;> rw [e]
    · exact .inl ⟨hnil, rfl⟩
    · exact .inr ⟨u, hu, ix, doTurn_small (enabledTurns_small hu) _⟩

end Sys2Proof.Machine
end

section
/-! PROOF. A whole frame or command run at once is small steps of its agent (10_state R40), and what an instruction of a
port leaves unchanged (R37, R38, 43 R160, R161, 44 R176). -/

namespace Sys2Proof.Machine

/-! ## Fused and small steps -/

/-- Settles O50. -/
theorem fusedFrameIsItsEvents : Obligations.FusedFrameIsItsEvents := by
  refine ⟨fun s p i h ha hf hph => exec_frame_repeat h ha hf hph, fun s h ha hf => ?_⟩
  rcases fetch_cases hf with ⟨-, hev, -⟩ | ⟨p, hp, -⟩
  · exact exec_ident_repeat h hf hev
  · rw [ha] at hp; cases hp

/-- Settles O51. -/
theorem fusedCommandIsSmallSteps : Obligations.FusedCommandIsSmallSteps :=
  fun _ _ _ h ha hf hph => exec_command_turns h ha hf hph

/-- An instruction at which a port stands, command or frame, is small steps of that port. -/
theorem exec_port_turns {s : State} {p : Nat} {i : Instr} (h : s.Inv) (ha : s.active = .port p)
    (hf : s.fetch = some i) : ∃ us : List Turn, (∀ u ∈ us, u.smallOf p = true) ∧ exec i s = takeTurns us s := by
  by_cases hph : (s.port p).phase = .pSubmitted
  · exact exec_command_turns h ha hf hph
  · exact ⟨.replicate _ (.event p), fun u hu => List.eq_of_mem_replicate hu ▸ smallOf_event p,
      (exec_frame_repeat h ha hf hph).trans (takeTurns_events ..).symm⟩

/-! ## The instruction at which a port stands, by its latched operation -/

/-- The instruction at which a port with a latched request stands: a command by its operation (R83), a frame of a
WRITE's erase or program hold, or the frame of a READ's hold. -/
inductive StandsAt (s : State) (p : Nat) : Instr → Prop
  | read : (s.port p).op = 1 → (s.port p).phase = .pSubmitted →
      StandsAt s p (.read (s.port p).addr (s.port p).len)
  | write : (s.port p).op = 2 → (s.port p).phase = .pSubmitted →
      StandsAt s p (.write (s.port p).addr (s.port p).len (s.port p).payload)
  | status : (s.port p).op = 3 → (s.port p).phase = .pSubmitted → StandsAt s p .status
  | resetStatus : (s.port p).op = 4 → (s.port p).phase = .pSubmitted → StandsAt s p .resetStatus
  | erase : (s.port p).op = 2 → (s.port p).phase = .pErase →
      StandsAt s p (.erase ((s.port p).gran s.cfg) ((s.port p).eraseAddr s.cfg))
  | program (o : Addr24 × List Byte) : (s.port p).op = 2 → (s.port p).phase = .pProg →
      o ∈ progOperands (s.port p).addr (s.port p).buf (s.port p).lenNat → StandsAt s p (.program o.1 o.2)
  | fastRead : (s.port p).op = 1 → (s.port p).phase = .pRead →
      StandsAt s p (.fastRead (flashAddr (s.port p).addr 0))
  | readSlow : (s.port p).op = 1 → (s.port p).phase = .pRead →
      StandsAt s p (.readSlow (flashAddr (s.port p).addr 0))

theorem standsAt_of_fetch {s : State} {p : Nat} {i : Instr} (h : s.Inv) (ha : s.active = .port p)
    (hf : s.fetch = some i) : StandsAt s p i := by
  rcases fetchPort_cases (fetch_port ha ▸ hf) with ⟨hph, hd⟩ | ⟨-, hc⟩
  · rcases decodeDescriptor_cases (s.port p).op (s.port p).addr (s.port p).len (s.port p).payload with
      ⟨ho, e⟩ | ⟨ho, e⟩ | ⟨ho, e⟩ | ⟨ho, e⟩ | ⟨-, e⟩ <;> rw [e] at hd <;> cases hd
    · exact .read ho hph
    · exact .write ho hph
    · exact .status ho hph
    · exact .resetStatus ho hph
  · rcases hc with ⟨hph, -, rfl⟩ | ⟨hph, o, rfl, hcy⟩ | ⟨hph, -, ⟨-, rfl⟩ | ⟨-, rfl⟩⟩
    · exact .erase (writes_of_erase h hph).1.op hph
    · exact .program o (writes_of_prog h hph).1.op hph (cycleAt_drop (c := s.cfg) hcy).1
    · exact .fastRead (reads_of_read h hph).1.op hph
    · exact .readSlow (reads_of_read h hph).1.op hph

/-! ## The flash bytes an instruction may change -/

/-- A port that runs no WRITE changes no byte (R191, R215, R216). -/
theorem exec_flash_of_op_ne_write {s t : State} {p : Nat} {i : Instr} (h : s.Inv) (hch : s.ChipInv)
    (hd : s.cfg.opcodesDistinct) (ha : s.active = .port p) (hf : s.fetch = some i) (hop : (s.port p).op ≠ 2)
    (ht : exec i s = .next t) : sameFlashOutside 0 0 s t := by
  obtain ⟨us, hu, e⟩ := exec_port_turns h ha hf
  exact takeTurns_flash_outside s t hu h hch hd
    (fun c hg hr => .inl (empty_region hg (hr.op.symm ▸ hop))) (e ▸ ht)

/-- A WRITE changes bytes of its erased region alone (R160, R178). -/
theorem exec_write_flash {s t : State} {p : Nat} {i : Instr} (h : s.Inv) (hch : s.ChipInv)
    (hd : s.cfg.opcodesDistinct) (ha : s.active = .port p) (hf : s.fetch = some i) (ht : exec i s = .next t) :
    sameFlashOutside (s.port p).addr.toNat (eraseEnd s.cfg (s.port p).addr (s.port p).len) s t := by
  obtain ⟨us, hu, e⟩ := exec_port_turns h ha hf
  refine takeTurns_flash_outside s t hu h hch hd (fun c hg hr => ?_) (e ▸ ht)
  refine (region_inside h.cfgWf hg).imp_right fun ⟨_, _, _, _, _, _, hlo, hhi, _⟩ => ?_
  rw [hr.addr] at hlo
  rw [hr.addr, hr.len] at hhi
  exact ⟨hlo, hhi⟩

/-- The opening select of a cycle empties the chip's frame and changes no byte (R70, R111). -/
theorem sel_opens_frame {s x : State} {p total : Nat} (hp : p < s.ctx.length)
    (hh : (holdState (s.port p).phase).isSome) (hx : eventStep p total .sel s = .next x) :
    x.env.chip.fl = s.env.chip.fl ∧ (x.env.kind = .ref → x.env.chip.frame = []) := by
  have es := eventStep_summary hp hh hx
  cases hk : s.env.kind with
  | any =>
    rw [es.chipAny hk]
    exact ⟨rfl, fun hr => by rw [es.beyond.kind, hk] at hr; cases hr⟩
  | ref =>
    obtain ⟨r, c1, hc, ⟨e, -⟩ | ⟨-, ⟨-, hne⟩, -⟩⟩ := es.chipRef hk
    · rw [e, show c1 = s.env.chip.sel from hc]
      exact ⟨rfl, fun _ => rfl⟩
    · exact absurd rfl hne

/-- A PROGRAM frame changes its data bytes alone, at the start of a program hold or in the middle of one (R176). -/
theorem exec_program_flash {s t : State} {p : Nat} {o : Addr24 × List Byte} (h : s.Inv) (hch : s.ChipInv)
    (hd : s.cfg.opcodesDistinct) (ha : s.active = .port p) (hf : s.fetch = some (.program o.1 o.2))
    (hph : (s.port p).phase = .pProg) (ho : o ∈ progOperands (s.port p).addr (s.port p).buf (s.port p).lenNat)
    (ht : exec (.program o.1 o.2) s = .next t) : sameFlashOutside o.1.toNat (o.1.toNat + o.2.length) s t := by
  have hw := (writes_of_prog h hph).1
  obtain ⟨-, -, hend⟩ := prog_facts h.cfgWf hw ho
  obtain ⟨_, -, -, -, -, -, -, -, hstop, -, -, hpwf⟩ := hw.facts h.cfgWf
  have hsize : o.1.toNat + o.2.length ≤ flashSize := hend.trans (hstop.trans hpwf.2.1)
  obtain ⟨hown, -⟩ := fetched_in_hold ha hf (by rw [hph]; nofun)
  have hp := (h.hold p hown).1
  have hh : (holdState (s.port p).phase).isSome := by rw [hph]; rfl
  rw [exec_frame ha hf (by rw [hph]; nofun), frameOf, runFrame, progCycle_eq_tail, runEvents, if_pos hown] at ht
  obtain ⟨x, hx, hrest⟩ := andThen_eq_next.1 ht
  obtain ⟨hfl, hframe⟩ := sel_opens_frame hp hh hx
  have es := eventStep_summary hp hh hx
  have hxh : x.owner = some (.port p) → (holdState (x.port p).phase).isSome := fun hxo => by
    rcases es.phase with e | ⟨-, e⟩ | ⟨-, e, -⟩
    · rw [e]; exact hh
    all_goals rw [e] at hxo; cases hxo
  have key := progCycle_flash hd hsize _ x t es.beyond.cfg (es.beyond.ports.symm ▸ hp) hxh
    (cycleTail_no_sel s.cfg o.1 o.2) (hfl.symm ▸ hch.flash)
    (fun _ hk => by rw [hframe hk, bytesWritten_cycleTail]; rfl) hrest
  exact fun a hout => (key a hout).trans (by rw [hfl])

/-- An ERASE frame changes bytes of its unit alone (R161). -/
theorem exec_erase_flash {s t : State} {p gran : Nat} {addr : Addr24} (h : s.Inv) (hch : s.ChipInv)
    (hd : s.cfg.opcodesDistinct) (ha : s.active = .port p) (hf : s.fetch = some (.erase gran addr))
    (hph : (s.port p).phase = .pErase) (ht : exec (.erase gran addr) s = .next t) :
    sameFlashOutside ((s.port p).eraseAddr s.cfg).toNat
      (((s.port p).eraseAddr s.cfg).toNat + (s.port p).gran s.cfg) s t :=
  eraseHold_flash _ s t h hch hd hph (exec_frame_repeat h ha hf (by rw [hph]; nofun) ▸ ht)

/-- Outside the bytes it stores to, an instruction of a port leaves the flash as it was (R160, R161, R176). -/
theorem exec_flash {s t : State} {p : Nat} {i : Instr} (h : s.Inv) (hch : s.ChipInv) (hd : s.cfg.opcodesDistinct)
    (ha : s.active = .port p) (hf : s.fetch = some i) (ht : exec i s = .next t) :
    sameFlashOutside (storedRange s.cfg i).1 (storedRange s.cfg i).2 s t := by
  have noWrite : (s.port p).op ≠ 2 → sameFlashOutside 0 0 s t :=
    fun hop => exec_flash_of_op_ne_write h hch hd ha hf hop ht
  cases standsAt_of_fetch h ha hf with
  | read hop _ => exact noWrite (by rw [hop]; decide)
  | write _ _ => exact exec_write_flash h hch hd ha hf ht
  | status hop _ => exact noWrite (by rw [hop]; decide)
  | resetStatus hop _ => exact noWrite (by rw [hop]; decide)
  | erase _ hph => exact exec_erase_flash h hch hd ha hf hph ht
  | program o _ hph ho => exact exec_program_flash h hch hd ha hf hph ho ht
  | fastRead hop _ => exact noWrite (by rw [hop]; decide)
  | readSlow hop _ => exact noWrite (by rw [hop]; decide)

/-! ## The frame -/

/-- Only READ and WRITE latch the partition: no other command does, and no frame. -/
theorem StandsAt.keeps_part {s : State} {p : Nat} {i : Instr} (h : StandsAt s p i)
    (hr : ∀ addr len, i ≠ .read addr len) (hw : ∀ addr len payload, i ≠ .write addr len payload) :
    (s.port p).phase ≠ .pSubmitted ∨ ((s.port p).op ≠ 1 ∧ (s.port p).op ≠ 2) := by
  cases h with
  | read _ _ => exact absurd rfl (hr _ _)
  | write _ _ => exact absurd rfl (hw _ _ _)
  | status hop _ => rw [hop]; exact .inr (by decide)
  | resetStatus hop _ => rw [hop]; exact .inr (by decide)
  | erase _ hph => rw [hph]; exact .inl nofun
  | program o _ hph _ => rw [hph]; exact .inl nofun
  | fastRead _ hph => rw [hph]; exact .inl nofun
  | readSlow _ hph => rw [hph]; exact .inl nofun

/-- Only ERASE and WRITE move the unit number on (R162): a program hold keeps it, and no other command has one. -/
theorem StandsAt.keeps_k {s : State} {p : Nat} {i : Instr} (h : StandsAt s p i)
    (he : ∀ gran addr, i ≠ .erase gran addr) (hw : ∀ addr len payload, i ≠ .write addr len payload) :
    (s.port p).op ≠ 2 ∨ (s.port p).phase = .pProg := by
  cases h with
  | read hop _ => rw [hop]; exact .inl (by decide)
  | write _ _ => exact absurd rfl (hw _ _ _)
  | status hop _ => rw [hop]; exact .inl (by decide)
  | resetStatus hop _ => rw [hop]; exact .inl (by decide)
  | erase _ _ => exact absurd rfl (he _ _)
  | program o _ hph _ => exact .inr hph
  | fastRead hop _ => rw [hop]; exact .inl (by decide)
  | readSlow hop _ => rw [hop]; exact .inl (by decide)

/-- Only RESET_STATUS has operation 4 (R83). -/
theorem StandsAt.op_ne_resetStatus {s : State} {p : Nat} {i : Instr} (h : StandsAt s p i) (hi : i ≠ .resetStatus) :
    (s.port p).op ≠ 4 := by
  cases h with
  | resetStatus _ _ => exact absurd rfl hi
  | read hop _ => rw [hop]; decide
  | write hop _ => rw [hop]; decide
  | status hop _ => rw [hop]; decide
  | erase hop _ => rw [hop]; decide
  | program o hop _ _ => rw [hop]; decide
  | fastRead hop _ => rw [hop]; decide
  | readSlow hop _ => rw [hop]; decide

/-- Settles O48: an instruction of a port is small steps of that port, and `PortTurns` says what those keep. -/
theorem instructionFrame : Obligations.InstructionFrame := by
  intro s t p i h hch hd ha hf ht
  obtain ⟨us, hu, e⟩ := exec_port_turns h ha hf
  have keeps : PortTurns p s t := takeTurns_portTurns hu h (e ▸ ht)
  have stands := standsAt_of_fetch h ha hf
  exact ⟨keeps.beyond, keeps.request, exec_flash h hch hd ha hf ht,
    fun hr hw => keeps.part (stands.keeps_part hr hw),
    fun he hw => keeps.k (stands.keeps_k he hw), keeps.record,
    fun hi => keeps.xfer (stands.op_ne_resetStatus hi)⟩

end Sys2Proof.Machine
end

section
/-! PROOF. What every step keeps of the chip, of the order of the transport calls and of the Boot partition (20_memory
R55, R59, R62, R70), and the partition lookup (R52). -/

namespace Sys2Proof.Machine

/-! ## The chip -/

/-- Settles O4: a step is small steps one after another, and each of them keeps the chip's invariant. -/
theorem stepKeepsChipInvariant : Obligations.StepKeepsChipInvariant := by
  intro s t h hch ht
  obtain ⟨sched, ix, active, us, hu, e⟩ := step_turns h
  exact takeTurns_inv takeTurn_chipInv us hu _ t (Inv.of_model h sched active ix)
    (ChipInv.of_model hch sched active ix) (e ▸ ht)

/-! ## The order of the transport calls -/

/-- Calls of the owner in the current hold, put at the end of a serial trace, leave it serial (R62). -/
theorem serial_append {s : State} (h : s.TraceInv) {calls : List Call}
    (hc : ∀ c ∈ calls, s.owner = some c.agent ∧ c.hold = s.holdNo) : serial (s.trace ++ calls) := by
  refine List.pairwise_append.2 ⟨h.serial, List.pairwise_of_forall_mem_list fun x hx y hy => ?_, fun x hx y hy => ?_⟩
  · obtain ⟨hox, hnx⟩ := hc x hx
    obtain ⟨hoy, hny⟩ := hc y hy
    exact ⟨(hnx.trans hny.symm).le, fun _ => Option.some.inj (hox.symm.trans hoy)⟩
  · obtain ⟨hoy, hny⟩ := hc y hy
    rw [hny]
    exact ⟨h.begun x hx, h.owned y.agent hoy x hx⟩

/-- A small step keeps the order of the calls: what it adds is its owner's, and a new hold begins with no call made. -/
theorem takeTurn_traceInv {s t : State} {u : Turn} (h : s.TraceInv) (hu : ∀ a, u ≠ .run a)
    (ht : takeTurn u s = .next t) : t.TraceInv := by
  obtain ⟨calls, htr, hc, hold⟩ := takeTurn_calls hu ht
  refine ⟨htr ▸ serial_append h hc, ?_, ?_⟩
  · have hmono : s.holdNo ≤ t.holdNo := by
      rcases hold with ⟨e, -⟩ | ⟨e, -⟩ <;> omega
    intro c hm
    rw [htr, List.mem_append] at hm
    rcases hm with hm | hm
    · exact (h.begun c hm).trans hmono
    · exact (hc c hm).2.trans_le hmono
  · intro a ho c hm hn
    rw [htr, List.mem_append] at hm
    rcases hold with ⟨e, hown | hown⟩ | ⟨e, rfl⟩
    · rw [hown] at ho; cases ho
    · rw [hown] at ho
      rw [e] at hn
      rcases hm with hm | hm
      · exact h.owned a ho c hm hn
      · exact Option.some.inj ((hc c hm).1.symm.trans ho)
    · have := h.begun c (hm.resolve_right List.not_mem_nil)
      omega

/-- The order of the calls does not speak of the model's own schedule. -/
theorem TraceInv.of_model {s : State} (h : s.TraceInv) (sched : List Turn) (active : Agent) (ix : Nat) :
    ({ s with sched := sched, active := active, freeIx := ix } : State).TraceInv :=
  ⟨h.serial, h.begun, h.owned⟩

/-- Settles O5: a step is small steps one after another, and each of them keeps the order of the calls. -/
theorem stepKeepsCallsSerial : Obligations.StepKeepsCallsSerial := by
  intro s t h htr ht
  obtain ⟨sched, ix, active, us, hu, e⟩ := step_turns h
  exact takeTurns_inv (J := State.TraceInv) (fun _ _ _ _ hx hv hy => takeTurn_traceInv hx hv hy) us hu _ t
    (Inv.of_model h sched active ix) (TraceInv.of_model htr sched active ix) (e ▸ ht)

/-! ## The Boot partition -/

/-- Every byte of a partition with role Boot reads in `t` as it does in `s`. -/
def sameBoot (s t : State) : Prop :=
  ∀ (i : Fin 3) (a : Nat), (s.cfg.pt.get i).role = .boot → contains (s.cfg.pt.get i) a = true →
    t.env.chip.fl.read a = s.env.chip.fl.read a

theorem sameBoot.trans {s t u : State} (hcfg : t.cfg = s.cfg) (h : sameBoot s t) (g : sameBoot t u) : sameBoot s u :=
  fun i a hr hc => (g i a (hcfg.symm ▸ hr) (hcfg.symm ▸ hc)).trans (h i a hr hc)

/-- The region of a hold lies in one partition, which is not Boot (R55, R203, R160). -/
theorem boot_outside_region {cfg : Config} (hw : cfg.wf) {c : Ctx} (hg : c.Good cfg) {i : Fin 3} {a : Nat}
    (hr : (cfg.pt.get i).role = .boot) (hc : contains (cfg.pt.get i) a = true) :
    a < (Ctx.region cfg c).1 ∨ (Ctx.region cfg c).2 ≤ a := by
  by_contra hin
  rcases region_inside hw hg with hempty | ⟨-, j, -, -, hrole, hstart, hlo, hhi, hstop⟩
  · omega
  · have hij : i = j := owner_unique hw ((contains_iff _ _).1 hc) ⟨by omega, by omega⟩
    exact hrole (hij ▸ hr)

/-- A small step leaves the Boot partition as it was: only an event of a hold changes the flash, in its region. -/
theorem takeTurn_sameBoot {s t : State} {u : Turn} (h : s.Inv) (hch : s.ChipInv) (hd : s.cfg.opcodesDistinct)
    (hu : ∀ a, u ≠ .run a) (ht : takeTurn u s = .next t) : sameBoot s t := by
  intro i a hr hc
  rcases takeTurn_flash h hch hd hu ht with hall | ⟨p, -, -, -, hout⟩
  · exact hall a
  · exact hout a (boot_outside_region h.cfgWf (h.good p) hr hc)

/-- Small steps one after another leave the Boot partition as it was. -/
theorem takeTurns_sameBoot {s t : State} {us : List Turn} (hu : ∀ u ∈ us, ∀ a, u ≠ .run a) (h : s.Inv)
    (hch : s.ChipInv) (hd : s.cfg.opcodesDistinct) (ht : takeTurns us s = .next t) : sameBoot s t := by
  have keeps : ∀ x y u, x.Inv → (x.ChipInv ∧ x.cfg = s.cfg ∧ sameBoot s x) → (∀ a, u ≠ .run a) →
      takeTurn u x = .next y → y.ChipInv ∧ y.cfg = s.cfg ∧ sameBoot s y := by
    intro x y u hx ⟨hxch, hcfg, hboot⟩ hv hy
    exact ⟨takeTurn_chipInv x y u hx hxch hv hy, (stepRel_sameSetup.of_takeTurn hv hy).cfg.trans hcfg,
      hboot.trans hcfg (takeTurn_sameBoot hx hxch (hcfg.symm ▸ hd) hv hy)⟩
  obtain ⟨-, -, hboot⟩ := takeTurns_inv keeps us hu s t h ⟨hch, rfl, fun _ _ _ _ => rfl⟩ ht
  exact hboot

/-- Settles O8: a step is small steps one after another, and none of them reaches the Boot partition. -/
theorem bootPartitionNeverChanges : Obligations.BootPartitionNeverChanges := by
  intro s t h hch hd ht
  obtain ⟨sched, ix, active, us, hu, e⟩ := step_turns h
  exact takeTurns_sameBoot (s := { s with sched := sched, freeIx := ix, active := active }) hu
    (Inv.of_model h sched active ix) (ChipInv.of_model hch sched active ix) hd (e ▸ ht)

/-! ## The partition lookup -/

/-- `owner(addr)` is the partition that contains the address (R52). -/
theorem owner_eq_some_iff {c : Config} (h : c.wf) {a : Nat} {i : Fin 3} :
    owner c a = some i ↔ (c.pt.get i).start ≤ a ∧ a < (c.pt.get i).stop := by
  refine ⟨owner_contains, fun hi => ?_⟩
  obtain ⟨j, hj⟩ := owner_isSome hi
  rw [hj, owner_unique h (owner_contains hj) hi]

/-- `owner(addr)` is none where no partition contains the address (R52). -/
theorem owner_eq_none_iff {c : Config} (h : c.wf) {a : Nat} :
    owner c a = none ↔ ∀ i : Fin 3, ¬ ((c.pt.get i).start ≤ a ∧ a < (c.pt.get i).stop) := by
  simp only [Option.eq_none_iff_forall_ne_some, ne_eq, owner_eq_some_iff h]

/-- Settles O16: no partition reaches beyond the flash (R54). -/
theorem ownerIsUnique : Obligations.OwnerIsUnique := by
  intro c h a
  refine ⟨fun i => owner_eq_some_iff h, owner_eq_none_iff h, fun ha => (owner_eq_none_iff h).2 fun i hi => ?_⟩
  obtain ⟨-, hstop, -⟩ := Config.wf_get h i
  omega

end Sys2Proof.Machine
end

section
/-! PROOF. The two refusals of the model and no other (93 U6, U11; logs 14, 15): the copy-in of a payload shorter than
`LEN`, and a configuration that breaks R54. -/

namespace Sys2Proof.Machine

/-! ## Holds and identification refuse nothing -/

theorem andThen_eq_refused {x : Result} {f : State → Result} {r : Refusal} :
    andThen x f = .refused r ↔ x = .refused r ∨ ∃ s, x = .next s ∧ f s = .refused r := by
  cases x <;> simp [andThen]

/-- What runs on after a step that refuses nothing refuses nothing, where its rest does not. -/
theorem andThen_ne_refused {x : Result} {f : State → Result} {r : Refusal} (hx : x ≠ .refused r)
    (hf : ∀ s, f s ≠ .refused r) : andThen x f ≠ .refused r := fun h =>
  (andThen_eq_refused.1 h).elim hx fun ⟨s, _, hs⟩ => hf s hs

theorem eventStep_ne_refused (p total : Nat) (e : Event) (s : State) (r : Refusal) :
    eventStep p total e s ≠ .refused r := by
  unfold eventStep
  split
  · nofun
  · unfold failHold
    split <;> nofun
  · nofun

theorem runEvents_ne_refused (p total : Nat) (es : List Event) (s : State) (r : Refusal) :
    runEvents p total es s ≠ .refused r := by
  induction es generalizing s with
  | nil => nofun
  | cons e es ih =>
    rw [runEvents]
    split
    · exact andThen_ne_refused (eventStep_ne_refused p total e s r) ih
    · nofun

theorem runHolds_ne_refused (p n : Nat) (s : State) (r : Refusal) : runHolds p n s ≠ .refused r := by
  induction n generalizing s with
  | zero => nofun
  | succ n ih =>
    rw [runHolds]
    split
    · exact andThen_ne_refused (runEvents_ne_refused p _ _ _ r) ih
    · nofun

theorem initStep_ne_refused (e : Event) (s : State) (r : Refusal) : initStep e s ≠ .refused r := by
  unfold initStep
  split
  · nofun
  · unfold initFail
    split <;> nofun
  · nofun

theorem runInit_ne_refused (es : List Event) (s : State) (r : Refusal) : runInit es s ≠ .refused r := by
  induction es generalizing s with
  | nil => nofun
  | cons e es ih =>
    rw [runInit]
    split
    · exact andThen_ne_refused (initStep_ne_refused e s r) ih
    · nofun

theorem initEvent_ne_refused (s : State) (r : Refusal) : initEvent s ≠ .refused r := by
  unfold initEvent
  split
  · split
    · exact initStep_ne_refused _ s r
    · nofun
  · nofun

theorem portEvent_ne_refused (p : Nat) (s : State) (r : Refusal) : portEvent p s ≠ .refused r := by
  unfold portEvent
  split
  · exact eventStep_ne_refused p _ _ s r
  · nofun

/-! ## The decode step of a WRITE -/

/-- The decode step of a WRITE is refused exactly where it is valid, allocated and short (93 U11; log 14). -/
theorem decodeWrite_eq_refused {p : Nat} {addr len : Word} {payload : List Byte} {s : State} {r : Refusal} :
    decodeWrite p addr len payload s = .refused r ↔
      r = .payloadShort ∧ s.drawAlloc.1 = true ∧ shortWrite s.cfg addr len payload := by
  by_cases hv : validateWrite s.cfg addr len = .ok
  · rw [decodeWrite_ok hv]
    cases hd : s.drawAlloc.1 with
    | false => simp
    | true => by_cases hs : (payload.length : Int) < len.toInt <;> simp [shortWrite, hv, hs, eq_comm]
  · simp [decodeWrite_rejected hv, shortWrite, hv]

/-- The port has submitted a WRITE that is valid and short. -/
def State.submitsShort (s : State) (p : Nat) : Prop :=
  (s.port p).phase = .pSubmitted ∧ (s.port p).op = 2 ∧
    shortWrite s.cfg (s.port p).addr (s.port p).len (s.port p).payload

theorem decodeStep_refused {p : Nat} {s : State} {r : Refusal} (h : decodeStep p s = .refused r) :
    r = .payloadShort ∧ s.submitsShort p := by
  unfold decodeStep at h
  split at h
  case isFalse => cases h
  case isTrue hph =>
    rcases decodeDescriptor_cases (s.port p).op (s.port p).addr (s.port p).len (s.port p).payload with
      ⟨-, e⟩ | ⟨hop, e⟩ | ⟨-, e⟩ | ⟨-, e⟩ | ⟨-, e⟩ <;> rw [e] at h
    · cases h
    · obtain ⟨hr, -, hshort⟩ := decodeWrite_eq_refused.1 h
      exact ⟨hr, hph, hop, hshort⟩
    all_goals cases h

/-! ## Instructions -/

theorem whenAt_refused {i : Instr} {s : State} {m : Nat → Result} {r : Refusal} (h : whenAt i s m = .refused r) :
    ∃ p, m p = .refused r := by
  rcases whenAt_cases (i := i) (s := s) (m := m) with ⟨p, -, -, e⟩ | e
  · exact ⟨p, e ▸ h⟩
  · rw [e] at h; cases h

/-- A frame is events of a hold, which refuse nothing. -/
theorem whenAt_frame_ne_refused {i : Instr} {s : State} {frame : Nat → List Event} {r : Refusal} :
    whenAt i s (fun p => runFrame p (frame p) s) ≠ .refused r := fun h =>
  let ⟨_, hp⟩ := whenAt_refused h
  runEvents_ne_refused _ _ _ _ _ hp

/-- An instruction that is refused is a WRITE that is valid, allocated and short. -/
theorem exec_refused {i : Instr} {s : State} {r : Refusal} (h : exec i s = .refused r) :
    r = .payloadShort ∧ s.drawAlloc.1 = true ∧
      ∃ addr len payload, i = .write addr len payload ∧ shortWrite s.cfg addr len payload := by
  cases i with
  | read addr len =>
    obtain ⟨p, hp⟩ := whenAt_refused h
    exact absurd hp (runHolds_ne_refused p 1 _ r)
  | write addr len payload =>
    obtain ⟨p, hp⟩ := whenAt_refused h
    rcases andThen_eq_refused.1 hp with hd | ⟨t, -, ht⟩
    · obtain ⟨hr, ha, hshort⟩ := decodeWrite_eq_refused.1 hd
      exact ⟨hr, ha, addr, len, payload, rfl, hshort⟩
    · exact absurd ht (runHolds_ne_refused p _ t r)
  | status =>
    obtain ⟨p, hp⟩ := whenAt_refused h
    cases hp
  | resetStatus =>
    obtain ⟨p, hp⟩ := whenAt_refused h
    cases hp
  | ident =>
    rw [exec, execIdent] at h
    split at h
    · exact absurd h (runInit_ne_refused _ s r)
    · cases h
  | erase gran addr => exact absurd h whenAt_frame_ne_refused
  | program addr data => exact absurd h whenAt_frame_ne_refused
  | fastRead addr => exact absurd h whenAt_frame_ne_refused
  | readSlow addr => exact absurd h whenAt_frame_ne_refused

/-- A valid and short WRITE that is allocated is refused (93 U11). -/
theorem exec_write_short {s : State} {p : Nat} {addr len : Word} {payload : List Byte} (ha : s.active = .port p)
    (hf : s.fetch = some (.write addr len payload)) (hs : shortWrite s.cfg addr len payload)
    (hd : s.drawAlloc.1 = true) : exec (.write addr len payload) s = .refused .payloadShort := by
  have hrefused : decodeWrite p addr len payload s = .refused .payloadShort :=
    decodeWrite_eq_refused.2 ⟨rfl, hd, hs⟩
  calc exec (.write addr len payload) s
      = andThen (decodeWrite p addr len payload s) _ := whenAt_at ha hf
    _ = .refused .payloadShort := by rw [hrefused]; rfl

/-! ## Steps -/

theorem takeTurn_refused {u : Turn} {s : State} {r : Refusal} (hu : ∀ a, u ≠ .run a) (h : takeTurn u s = .refused r) :
    r = .payloadShort ∧ ∃ p, s.submitsShort p := by
  cases u with
  | run a => exact absurd rfl (hu a)
  | submit p w0 w1 w2 payload => cases h
  | collect p => cases h
  | acquire p => cases h
  | initEvent => exact absurd h (initEvent_ne_refused s r)
  | event p => exact absurd h (portEvent_ne_refused p s r)
  | decode p => exact (decodeStep_refused h).imp_right fun hp => ⟨p, hp⟩

theorem doTurn_refused {u : Turn} {s : State} {r : Refusal} (h : doTurn u s = .refused r) :
    r = .payloadShort ∧ ∃ p, s.submitsShort p := by
  by_cases hu : ∀ a, u ≠ .run a
  · exact takeTurn_refused hu (doTurn_small hu s ▸ h)
  · obtain ⟨a, rfl⟩ : ∃ a, u = .run a := by simpa using hu
    rw [doTurn, runTurn] at h
    split at h
    · obtain ⟨hr, -, addr, len, payload, rfl, hshort⟩ := exec_refused h
      rcases fetch_cases ‹_› with ⟨-, -, hi⟩ | ⟨p, ha, -⟩
      · cases hi
      · obtain ⟨hph, hop, rfl, rfl, rfl⟩ := fetch_write ha ‹_›
        exact ⟨hr, p, hph, hop, hshort⟩
    · rcases agentStep_cases a { s with active := a } with e | ⟨v, hv, e⟩
      · rw [e] at h; cases h
      · exact takeTurn_refused (s := { s with active := a }) hv (e ▸ h)

theorem step_refused {s : State} {r : Refusal} (hc : s.cfg.wf) (h : step s = .refused r) :
    r = .payloadShort ∧ ∃ p, s.submitsShort p := by
  obtain ⟨sched, ix, hn⟩ := nextTurn_cases s
  unfold step at h
  rw [if_pos hc] at h
  rcases hx : s.nextTurn with ⟨u, s1⟩
  rw [hx] at hn h
  cases hn
  cases u with
  | none => cases h
  | some u => exact doTurn_refused (s := { s with sched := sched, freeIx := ix }) h

/-- Settles O29: the two refusals, then that there is no other. -/
theorem refusalsAreTheTwoDeclared : Obligations.RefusalsAreTheTwoDeclared := by
  refine ⟨fun s hc => if_neg hc, fun s p addr len payload ha hf hs hd => exec_write_short ha hf hs hd,
    fun s r hc h => step_refused hc h, fun s i r h => exec_refused h, fun s i hi r h => ?_⟩
  obtain ⟨-, -, addr, len, payload, rfl, hv, hshort⟩ := exec_refused h
  have hlen : len.toInt ≤ payload.length := (of_decide_eq_true hi : Instr.payloadWf s.cfg addr len payload) hv
  omega

end Sys2Proof.Machine
end

section
/-! PROOF. A WRITE and a READ from their first step to their last, where no answer is a timeout, and that a READ after a
WRITE returns its payload (20_memory R70, R72, 43 R156, 45 R191). -/

namespace Sys2Proof.Machine

/-! ## Answers -/

/-- The pure reference environment never times out (R70). -/
theorem reference_answers {e : Env} (h : e.reference) (n : Nat) : e.answers n := ⟨by simp [h.2], .inl h.1⟩

/-- Whether answers come speaks of the kind of the environment and of the answers laid down alone. -/
theorem answers_of_draws {e f : Env} {n : Nat} (h : e.answers n) (hk : f.kind = e.kind) (hd : f.draws = e.draws) :
    f.answers n := by
  unfold Env.answers
  rw [hk, hd]
  exact h

/-- A WRITE asks for five answers in each erase unit, and for those of its program cycles (R117). -/
theorem asked_writeEvents (c : Config) (addr len : Word) (payload : List Byte) :
    asked (writeEvents c addr len payload) =
      5 * ceilDiv len.toInt.toNat (granAt c addr) +
        asked (progList c addr (payload.take len.toInt.toNat) len.toInt.toNat) := by
  rw [writeEvents, asked_append, asked_erases, List.length_range]

/-- The last hold of a command, where it can be taken. -/
theorem runHolds_one {s t : State} {p : Nat} (hca : s.canAcquire p = true) (h : runHold p (s.acquire p) = .next t) :
    runHolds p 1 s = .next t := by
  rw [runHolds, if_pos hca, h]; rfl

/-! ## READ -/

/-- A valid READ that finds the token Ready, where no answer is a timeout (R191, R193). -/
theorem execRead_ok {s : State} {p : Nat} {addr len : Word} (h : s.Inv) (hd : s.cfg.opcodesDistinct)
    (ha : s.active = .port p) (hf : s.fetch = some (.read addr len)) (hv : validateRead s.cfg addr len = .ok)
    (hr : s.fstate = .ready) (hans : s.env.answers (asked (readEvents s.cfg addr len.toInt.toNat))) :
    ∃ t rdata, exec (.read addr len) s = .next t ∧ t.idleToken ∧
      t.port p =
        { s.port p with
          part := owner s.cfg addr.toNat
          ev := (readEvents s.cfg addr len.toInt.toNat).length }.done .ok len rdata (s.port p).buf ∧
      rdata.length = len.toInt.toNat ∧ credited s.cfg addr len.toInt.toNat s.xferCount t.xferCount ∧
      performs s t (.port p) (readEvents s.cfg addr len.toInt.toNat) ∧ sameBeyondHold p s t ∧
      t.env.chip.fl = s.env.chip.fl ∧
      (s.env.reference →
        rdata = (List.range len.toInt.toNat).map (fun j => s.env.chip.fl.read (addr.toNat + j))) := by
  obtain ⟨hph, hop, rfl, rfl⟩ := fetch_read ha hf
  have hp : p < s.ctx.length := lt_of_phase_ne_idle (by rw [hph]; nofun)
  have hwi := decodeRead_inv h hph hop rfl rfl
  have hdec := decodeRead_ok hv p
  have hout := sameOutside_setPort s p (fun c =>
    { c with part := owner s.cfg (s.port p).addr.toNat, rdata := [], phase := .pWaitRead })
  have hport := port_setPort_self hp (fun c =>
    { c with part := owner s.cfg (s.port p).addr.toNat, rdata := [], phase := .pWaitRead })
  have henv : (decodeRead p (s.port p).addr (s.port p).len s).env = s.env := by rw [hdec]; rfl
  rw [← hdec] at hout hport
  have hexec : exec (.read (s.port p).addr (s.port p).len) s =
    runHolds p 1 (decodeRead p (s.port p).addr (s.port p).len s) := whenAt_at ha hf
  generalize decodeRead p (s.port p).addr (s.port p).len s = w at *
  obtain ⟨hxi, hxport, hxown, hxenv, hxtr, hxcount, hxcfg, hxbey, hca⟩ :=
    acquire_summary (p := p) hwi (hout.fstate.trans hr) (by rw [hport]; rfl)
  rw [hport] at hxport
  have hcfg := hxcfg.trans hout.cfg
  have hev := hxenv.trans henv
  obtain ⟨t, rdata, ht, hidle, htport, hlen, hcr, hperf, hbey, hfl, href⟩ :=
    readHold_ok hxi (by rw [hcfg]; exact hd) hxown (by rw [hxport]) (by rw [hxport])
      (by rw [hxport, hcfg, hev]; exact hans)
  simp only [hxport, hcfg, hev, hxcount, hout.xferCount] at htport hlen hcr hperf hfl href
  exact ⟨t, rdata, hexec.trans (runHolds_one hca ht), hidle, htport, hlen, hcr,
    performs_of_trace (hxtr.trans hout.trace) hperf, hout.beyond.trans (hxbey.trans hbey), hfl, href⟩

/-! ## WRITE -/

/-- The decode step of a valid WRITE that is allocated: the payload is copied in and the port waits to erase (R157). -/
theorem decodeWrite_waits {s : State} {p : Nat} {addr len : Word} {payload : List Byte} (h : s.Inv)
    (ha : s.active = .port p) (hf : s.fetch = some (.write addr len payload))
    (hv : validateWrite s.cfg addr len = .ok) (hd : s.drawAlloc.1 = true) (hl : len.toInt ≤ payload.length) :
    ∃ w, decodeWrite p addr len payload s = .next w ∧ w.Inv ∧ sameOutside p s w ∧
      w.env.draws = s.env.draws ∧
      w.port p =
        { s.port p with
          buf := payload.take len.toInt.toNat
          bufHeld := true
          part := owner s.cfg addr.toNat
          k := 0
          phase := .pWaitErase } := by
  obtain ⟨hph, hop, haddr, hlen, -⟩ := fetch_write ha hf
  have hp : p < s.ctx.length := lt_of_phase_ne_idle (by rw [hph]; nofun)
  have hdec : decodeWrite p addr len payload s = .next (copyIn p addr len payload s.drawAlloc.2) := by
    rw [decodeWrite_ok hv, if_neg (by rw [hd]; nofun), if_neg (by omega)]
  have hout := sameOutside_drawAlloc s p
  refine ⟨_, hdec, decodeWrite_inv h hph hop haddr hlen hdec, hout.trans (sameOutside_setPort ..), ?_, ?_⟩
  · obtain ⟨allocs, ix, e⟩ := drawAlloc_cases s
    rw [e]; rfl
  · rw [copyIn, port_setPort_self (hout.ports.symm ▸ hp), drawAlloc_port, hout.cfg]

/-- A port that waits to erase is in a WRITE with units left (R160). -/
theorem writes_of_waitErase {s : State} {p : Nat} (h : s.Inv) (hph : (s.port p).phase = .pWaitErase) :
    (s.port p).Writes s.cfg ∧ (s.port p).k < (s.port p).eraseUnits s.cfg := by
  have hg := (h.good p).2
  rw [hph] at hg
  exact hg

/-- A program hold takes as many answers as its cycles ask for (R117). -/
theorem progHold_draws {s t : State} {p : Nat} (h : s.Inv) (ho : s.owner = some (.port p))
    (hph : (s.port p).phase = .pProg) (hev : (s.port p).ev = 0)
    (ha : s.env.answers (asked (progList s.cfg (s.port p).addr (s.port p).buf (s.port p).lenNat)))
    (ht : runHold p s = .next t) :
    t.env.draws =
      s.env.draws.drop (asked (progList s.cfg (s.port p).addr (s.port p).buf (s.port p).lenNat)) := by
  have hw := (writes_of_prog h hph).1
  obtain ⟨i, hpart, -⟩ := hw.facts h.cfgWf
  obtain ⟨hp, hh, -, -⟩ := h.hold p ho
  obtain ⟨chip, hrun, -⟩ := chipRun_progList h.cfgWf hw s.env.chip
  have hl := holdList_prog (cfg := s.cfg) hpart hph
  rw [← hl] at ha hrun ⊢
  obtain ⟨rd, x, hx, hran⟩ := runHold_last h ho hev ha (fun _ => ⟨chip, hrun⟩)
  cases hx.symm.trans ht
  have hxh : (holdState (x.port p).phase).isSome := by rw [hran.port hp]; rw [hh]; rfl
  obtain ⟨-, -, henv, -⟩ := endHold_beyond (hran.beyond.ports.symm ▸ hp) hxh
  obtain ⟨_, _, _, rfl, -⟩ := hran
  rw [henv]; rfl

/-- The program phase of a WRITE, from a port that waits for it (R177, R180). -/
theorem progPhase_ok {s : State} {p : Nat} (h : s.Inv) (hr : s.fstate = .ready)
    (hph : (s.port p).phase = .pWaitProg)
    (ha : s.env.answers (asked (progList s.cfg (s.port p).addr (s.port p).buf (s.port p).lenNat))) :
    ∃ t buf, runHolds p 1 s = .next t ∧ t.idleToken ∧
      credited s.cfg (s.port p).addr (s.port p).lenNat s.xferCount t.xferCount ∧
      t.port p =
        { s.port p with
          ev := (progList s.cfg (s.port p).addr (s.port p).buf (s.port p).lenNat).length }.done
            .ok (s.port p).len [] buf ∧
      performs s t (.port p) (progList s.cfg (s.port p).addr (s.port p).buf (s.port p).lenNat) ∧
      sameBeyondHold p s t ∧
      t.env.draws =
        s.env.draws.drop (asked (progList s.cfg (s.port p).addr (s.port p).buf (s.port p).lenNat)) ∧
      (s.env.kind = .ref → t.env.chip.fl = s.env.chip.fl.program (s.port p).addr.toNat (s.port p).buf) ∧
      (s.env.kind = .any → t.env.chip = s.env.chip) := by
  obtain ⟨hxi, hxport, hxown, hxenv, hxtr, hxcount, hxcfg, hxbey, hca⟩ :=
    acquire_summary (p := p) (busy := .writing) (phase := .pProg) h hr (by rw [hph]; rfl)
  have hxph : ((s.acquire p).port p).phase = .pProg := by rw [hxport]
  have hxev : ((s.acquire p).port p).ev = 0 := by rw [hxport]
  have hans : (s.acquire p).env.answers (asked (progList (s.acquire p).cfg ((s.acquire p).port p).addr
      ((s.acquire p).port p).buf ((s.acquire p).port p).lenNat)) := by rw [hxport, hxcfg, hxenv]; exact ha
  obtain ⟨t, buf, ht, hidle, hcr, htport, hperf, hbey, href, hany⟩ := progHold_ok hxi hxown hxph hxev hans
  have hdraws := progHold_draws hxi hxown hxph hxev hans ht
  simp only [hxport, hxcfg, hxenv, hxcount] at hcr htport hperf hdraws href hany
  exact ⟨t, buf, runHolds_one hca ht, hidle, hcr, htport, performs_of_trace hxtr hperf, hxbey.trans hbey, hdraws,
    href, hany⟩

/-- Programming erased bytes leaves the data there, and the rest of the erased range erased (R70). -/
theorem read_program_erased {m n : Mem} {base hi : Nat} {d : List Byte} (hn : n.wf) (hs : base + d.length ≤ flashSize)
    (hd : base + d.length ≤ hi)
    (her : ∀ a, n.read a = if base ≤ a ∧ a < hi then erasedByte else m.read a) (a : Nat) :
    (n.program base d).read a = if base ≤ a ∧ a < hi then d[a - base]?.getD erasedByte else m.read a := by
  rw [Mem.read_program hn hs, her a]
  by_cases hin : base ≤ a ∧ a < base + d.length
  · rw [if_pos hin, if_pos ⟨hin.1, by omega⟩, if_pos ⟨hin.1, by omega⟩, erased_and]
  · rw [if_neg hin]
    by_cases her : base ≤ a ∧ a < hi
    · rw [if_pos her, if_pos her, List.getElem?_eq_none (by omega)]; rfl
    · rw [if_neg her, if_neg her]

/-- The range of a valid WRITE lies in the flash, and in the region that its sweep erases (R160, R203). -/
theorem validWrite_range {c : Config} {addr len : Word} (hc : c.wf) (hv : validateWrite c addr len = .ok) :
    addr.toNat + len.toInt.toNat ≤ flashSize ∧ addr.toNat + len.toInt.toNat ≤ eraseEnd c addr len := by
  obtain ⟨hpos, i, hi, -, hend, -⟩ := validateWrite_ok hv
  obtain ⟨-, hstop, hg, -⟩ := Config.wf_get hc i
  have hgran : granAt c addr = (c.pt.get i).gran := by rw [granAt, hi]; rfl
  exact ⟨by omega, Nat.add_le_add_left (le_ceilDiv_mul (hgran ▸ hg)) _⟩

/-- The first part of a WRITE, where no answer is a timeout: its decode step and its erase sweep leave the program phase
to be done (R156, R160). -/
theorem execWrite_sweeps {s : State} {p : Nat} {addr len : Word} {payload : List Byte} {n : Nat} (h : s.Inv)
    (hch : s.ChipInv) (hd : s.cfg.opcodesDistinct) (ha : s.active = .port p)
    (hf : s.fetch = some (.write addr len payload)) (hv : validateWrite s.cfg addr len = .ok)
    (hal : s.drawAlloc.1 = true) (hl : len.toInt ≤ payload.length) (hr : s.fstate = .ready)
    (hans : s.env.answers (5 * ceilDiv len.toInt.toNat (granAt s.cfg addr) + n)) :
    ∃ x, exec (.write addr len payload) s = runHolds p 1 x ∧ x.Inv ∧ x.idleToken ∧ x.xferCount = s.xferCount ∧
      x.port p =
        { s.port p with
          buf := payload.take len.toInt.toNat
          bufHeld := true
          part := owner s.cfg addr.toNat
          k := ceilDiv len.toInt.toNat (granAt s.cfg addr)
          ev := 7
          phase := .pWaitProg } ∧
      performs s x (.port p) ((List.range (ceilDiv len.toInt.toNat (granAt s.cfg addr))).flatMap
        (fun k => eraseFrame s.cfg (granAt s.cfg addr) (flashAddr addr (k * granAt s.cfg addr)))) ∧
      sameBeyondHold p s x ∧
      x.env.draws = s.env.draws.drop (5 * ceilDiv len.toInt.toNat (granAt s.cfg addr)) ∧ x.env.chip.fl.wf ∧
      (s.env.kind = .ref → ∀ a, x.env.chip.fl.read a =
        if addr.toNat ≤ a ∧ a < eraseEnd s.cfg addr len then erasedByte else s.env.chip.fl.read a) ∧
      (s.env.kind = .any → x.env.chip = s.env.chip) := by
  obtain ⟨-, -, haddr, hlen, -⟩ := fetch_write ha hf
  obtain ⟨w, hdec, hwi, hout, hwdraws, hwport⟩ := decodeWrite_waits h ha hf hv hal hl
  have hwph : (w.port p).phase = .pWaitErase := by rw [hwport]
  have hwk : (w.port p).k = 0 := by rw [hwport]
  have hwaddr : (w.port p).addr = addr := by rw [hwport]; exact haddr
  have hwlen : (w.port p).len = len := by rw [hwport]; exact hlen
  obtain ⟨hw, hk⟩ := writes_of_waitErase hwi hwph
  have hgran : (w.port p).gran w.cfg = granAt s.cfg addr := by rw [gran_of_part hw.part, hout.cfg, hwaddr]
  have hunits : (w.port p).eraseUnits w.cfg = ceilDiv len.toInt.toNat (granAt s.cfg addr) := by
    rw [Ctx.eraseUnits, Ctx.lenNat, hgran, hwlen]
  obtain ⟨m, hm⟩ : ∃ m, (w.port p).eraseUnits w.cfg = m + 1 := Nat.exists_eq_add_one.2 (by omega)
  obtain ⟨x, hrun, hxi, hidle, hcount, hport, hperf, hbey, hdraws, hwf, href, hany⟩ :=
    eraseSweep_ok (p := p) (m := m) 1 hwi (hout.cfg.symm ▸ hd) (hout.fstate.trans hr) hwph (by omega)
      ⟨n, by rw [← hm, hunits]; exact answers_of_draws hans hout.kind hwdraws⟩
  rw [← hm] at hrun hperf hdraws
  simp only [hwk, hgran, hunits, hwaddr, Nat.zero_mul, Nat.add_zero] at hport hperf hdraws href
  simp only [hout.cfg, hout.chip, hout.kind, hwdraws] at hperf hdraws hwf href hany
  have hexec : exec (.write addr len payload) s = runHolds p 1 x :=
    calc exec (.write addr len payload) s
        = andThen (decodeWrite p addr len payload s) (fun w => runHolds p ((w.port p).eraseUnits w.cfg + 1) w) :=
          whenAt_at ha hf
      _ = runHolds p 1 x := by rw [hdec]; exact hrun
  refine ⟨x, hexec, hxi, hidle, hcount.trans hout.xferCount, ?_, ?_, hout.beyond.trans hbey, hdraws, hwf hch.flash,
    href, hany⟩
  · rw [hport, hwport, ← haddr]
  · rw [List.range_eq_range']
    exact performs_of_trace hout.trace hperf

/-- A valid WRITE that is allocated and finds the token Ready, where no answer is a timeout and no other agent comes in
between (R156): its decode step and erase sweep, then its program phase. -/
theorem execWrite_ok {s : State} {p : Nat} {addr len : Word} {payload : List Byte} (h : s.Inv) (hch : s.ChipInv)
    (hd : s.cfg.opcodesDistinct) (ha : s.active = .port p) (hf : s.fetch = some (.write addr len payload))
    (hv : validateWrite s.cfg addr len = .ok) (hal : s.drawAlloc.1 = true) (hl : len.toInt ≤ payload.length)
    (hr : s.fstate = .ready) (hans : s.env.answers (asked (writeEvents s.cfg addr len payload))) :
    ∃ t buf, exec (.write addr len payload) s = .next t ∧ t.idleToken ∧
      t.port p =
        { s.port p with
          part := owner s.cfg addr.toNat
          k := ceilDiv len.toInt.toNat (granAt s.cfg addr)
          ev := (progList s.cfg addr (payload.take len.toInt.toNat) len.toInt.toNat).length }.done .ok len [] buf ∧
      credited s.cfg addr len.toInt.toNat s.xferCount t.xferCount ∧
      performs s t (.port p) (writeEvents s.cfg addr len payload) ∧ sameBeyondHold p s t ∧
      t.env.draws = s.env.draws.drop (asked (writeEvents s.cfg addr len payload)) ∧
      ∀ a, t.env.chip.fl.read a =
        if s.env.kind = .ref ∧ addr.toNat ≤ a ∧ a < eraseEnd s.cfg addr len then
          ((payload.take len.toInt.toNat)[a - addr.toNat]?).getD erasedByte
        else s.env.chip.fl.read a := by
  obtain ⟨-, -, haddr, hlen, -⟩ := fetch_write ha hf
  rw [asked_writeEvents] at hans ⊢
  obtain ⟨x, hexec, hxi, hxidle, hxcount, hxport, hxperf, hxbey, hxdraws, hxwf, hxref, hxany⟩ :=
    execWrite_sweeps h hch hd ha hf hv hal hl hr hans
  have hxaddr : (x.port p).addr = addr := by rw [hxport]; exact haddr
  have hxlen : (x.port p).len = len := by rw [hxport]; exact hlen
  have hxbuf : (x.port p).buf = payload.take len.toInt.toNat := by rw [hxport]
  have hxlenNat : (x.port p).lenNat = len.toInt.toNat := by rw [Ctx.lenNat, hxlen]
  obtain ⟨t, buf, ht, hidle, hcr, hport, hperf, hbey, hdraws, href, hany⟩ :=
    progPhase_ok (p := p) hxi hxidle.fstate (by rw [hxport])
      (by rw [hxbey.cfg, hxaddr, hxbuf, hxlenNat]; exact answers_drop hans hxbey.kind hxdraws)
  simp only [hxbey.cfg, hxaddr, hxlen, hxbuf, hxlenNat, hxcount, hxbey.kind] at hcr hport hperf hdraws href hany
  refine ⟨t, buf, hexec.trans ht, hidle, ?_, hcr, hxperf.trans hperf, hxbey.trans hbey, ?_, fun a => ?_⟩
  · rw [hport, hxport]
    subst haddr hlen
    rfl
  · rw [hdraws, hxdraws, List.drop_drop]
  · cases hkind : s.env.kind with
    | any => simp [hany hkind, hxany hkind]
    | ref =>
      obtain ⟨hsize, hcover⟩ := validWrite_range h.cfgWf hv
      have hbuf : (payload.take len.toInt.toNat).length = len.toInt.toNat := List.length_take_of_le (by omega)
      rw [← hbuf] at hsize hcover
      rw [href hkind, read_program_erased hxwf hsize hcover (hxref hkind)]
      simp only [true_and]

/-! ## A READ after a WRITE -/

/-- A range that may be written may be read (R203, R210). -/
theorem validateRead_of_validateWrite {c : Config} {addr len : Word} (h : validateWrite c addr len = .ok) :
    validateRead c addr len = .ok := by
  obtain ⟨hpos, i, hi, -, hend, -, hmax⟩ := validateWrite_ok h
  simp only [validateRead, hi]
  rw [if_neg (by omega), if_neg (by omega), if_neg (by omega)]

/-- `collect` writes its port and the host's records, and nothing else (R37). -/
theorem collect_cases (s : State) (p : Nat) :
    ∃ ctx host, s.collect p = { s with ctx := ctx, host := host } ∧ ctx.length = s.ctx.length := by
  unfold State.collect
  split
  · exact ⟨_, _, rfl, length_setPort s p _⟩
  · exact ⟨s.ctx, s.host, rfl, rfl⟩

/-- `submit` writes its port, and nothing else (R37). -/
theorem submit_eq (s : State) (p : Nat) (w0 w1 w2 : Word) (payload : List Byte) :
    ∃ ctx, s.submit p w0 w1 w2 payload = { s with ctx := ctx } := by
  unfold State.submit
  split <;> exact ⟨_, rfl⟩

/-- After `collect`, a port that was idle or finished is idle (R37). -/
theorem collect_idle {s : State} {p : Nat} (hp : p < s.ctx.length)
    (h : (s.port p).phase = .pIdle ∨ (s.port p).phase = .pDone) : ((s.collect p).port p).phase = .pIdle := by
  rcases h with h | h
  · rw [State.collect, if_neg (by rw [h]; nofun), h]
  · rw [collect_of_done h]
    exact congrArg Ctx.phase (port_setPort_self hp _)

/-- A READ submitted in a port that was idle or finished: the port stands at it, and the rest is as it was but for the
host's records (R36, R37). -/
theorem submit_read_after_collect {s : State} {p : Nat} (addr len : Word) (payload : List Byte)
    (hp : p < s.ctx.length) (h : (s.port p).phase = .pIdle ∨ (s.port p).phase = .pDone) (hi : s.Inv) :
    let v : State := { (s.collect p).submit p 1 addr len payload with active := .port p }
    v.Inv ∧ v.fetch = some (.read addr len) ∧ v.cfg = s.cfg ∧ v.fstate = s.fstate ∧ v.env = s.env := by
  intro v
  obtain ⟨ctx, host, hcol, hlen⟩ := collect_cases s p
  obtain ⟨ctx', hsub⟩ := submit_eq (s.collect p) p 1 addr len payload
  have hport := submit_port_of_idle (by rw [hcol]; exact hlen.symm ▸ hp) (collect_idle hp h) 1 addr len payload
  refine ⟨Inv.of_model (submit_inv (collect_inv hi)) v.sched (.port p) v.freeIx, ?_, ?_, ?_, ?_⟩
  · have hv : v.port p = ((s.collect p).submit p 1 addr len payload).port p := rfl
    rw [fetch_port rfl, fetchPort_of_submitted (by rw [hv, hport]), hv, hport]
    rfl
  all_goals
    rw [hcol] at hsub
    simp only [v, hcol, hsub]

/-- Settles O47: the WRITE leaves the payload in the flash and the token Ready, and the READ delivers what the flash
holds. -/
theorem writeThenReadReturnsPayload : Obligations.WriteThenReadReturnsPayload := by
  intro s p addr len payload ignored h hch hd hs ha hf hv hal hl hr
  obtain ⟨t, buf, hexec, hidle, -, -, -, hbey, hdraws, hflash⟩ :=
    execWrite_ok h hch hd ha hf hv hal hl hr (reference_answers hs _)
  have ht : t.env.reference := ⟨hbey.kind.trans hs.1, by rw [hdraws, hs.2, List.drop_nil]⟩
  refine ⟨t, hexec, fun q hq hph => ?_⟩
  obtain ⟨hvi, hvf, hvcfg, hvready, hvenv⟩ :=
    submit_read_after_collect addr len ignored (hbey.ports.symm ▸ hq) hph (exec_inv h hexec)
  have hcfg := hvcfg.trans hbey.cfg
  obtain ⟨u, rdata, hread, -, hport, -, -, -, -, -, href⟩ :=
    execRead_ok hvi (hcfg.symm ▸ hd) rfl hvf (by rw [hcfg]; exact validateRead_of_validateWrite hv)
      (hvready.trans hidle.fstate) (reference_answers (hvenv.symm ▸ ht) _)
  have hdata : rdata = payload.take len.toInt.toNat := by
    have hcover := (validWrite_range h.cfgWf hv).2
    rw [href (hvenv.symm ▸ ht), hvenv]
    refine List.ext_getElem (by simp; omega) fun j hj hj' => ?_
    have hjlen : j < len.toInt.toNat := by simpa using hj
    rw [List.getElem_map, List.getElem_range, hflash, if_pos ⟨hs.1, by omega, by omega⟩, Nat.add_sub_cancel_left,
      List.getElem?_eq_getElem hj', Option.getD_some]
  refine ⟨u, hread, ?_⟩
  rw [hport]
  exact ⟨rfl, rfl, rfl, hdata⟩

end Sys2Proof.Machine
end

section
/-! PROOF. The encodings (30_encoding R83, R84, R90, R91): the decoder and the encoder invert each other. -/

namespace Sys2Proof

/-! ## What the decoder reads from the bytes the encoder writes -/

/-- Four bytes are an opcode and an address (R90, R91). -/
theorem decodeFrame_addressed (c : Config) (op : Byte) (a : Addr24) :
    decodeFrame c (op :: addrBytes a) = decodeAddressed c op a :=
  congrArg (decodeAddressed c op) (addrOfBytes_extract a)

/-- The bytes of a program cycle: an opcode, an address, and 1 or 256 data bytes (R90). -/
theorem decodeFrame_program (c : Config) (a : Addr24) {data : List Byte}
    (hlen : data.length = 1 ∨ data.length = 256) :
    decodeFrame c (c.opcProgram :: (addrBytes a ++ data)) = .ok (.program a data) := by
  cases data with
  | nil => simp at hlen
  | cons d ds =>
    simp only [addrBytes, List.cons_append, List.nil_append, decodeFrame, if_pos hlen, if_true, addrOfBytes_extract]

theorem decodeAddressed_fastRead (c : Config) (a : Addr24) :
    decodeAddressed c c.opcFastRead a = .ok (.fastRead a) := if_pos rfl

theorem decodeAddressed_readSlow {c : Config} (hc : c.opcodesDistinct) (a : Addr24) :
    decodeAddressed c c.opcReadSlow a = .ok (.readSlow a) := by
  rw [decodeAddressed, if_neg (opcodesDistinct_read hc), if_pos rfl]

theorem decodeAddressed_erase {c : Config} (hc : c.opcodesDistinct) {g : Nat} (hg : g ∈ c.grans) (a : Addr24) :
    decodeAddressed c (c.opcEraseOf g) a = .ok (.erase g a) := by
  obtain ⟨-, -, hfast, hslow⟩ := opcodesDistinct_erase hc hg
  rw [decodeAddressed, if_neg hfast, if_neg hslow, eraseGran_opcErase hc hg]

/-- Settles O11, by the form of the instruction: the opcode of its frame is told apart from the others, and its address
is put together again. -/
theorem encodeThenDecode : Obligations.EncodeThenDecode := by
  intro c i hc hi
  cases i with
  | read addr len => rfl
  | write addr len payload => rfl
  | status => rfl
  | resetStatus => rfl
  | ident => exact if_pos rfl
  | erase gran addr =>
    obtain ⟨hg, -, -⟩ : Instr.eraseWf c gran addr := of_decide_eq_true hi
    exact (decodeFrame_addressed ..).trans (decodeAddressed_erase hc hg addr)
  | program addr data =>
    obtain ⟨hlen, -⟩ : Instr.programWf c addr data := of_decide_eq_true hi
    exact decodeFrame_program c addr (hlen.imp_right And.left)
  | fastRead addr => exact (decodeFrame_addressed ..).trans (decodeAddressed_fastRead c addr)
  | readSlow addr => exact (decodeFrame_addressed ..).trans (decodeAddressed_readSlow hc addr)

/-! ## What the bytes were that decode -/

/-- An opcode and an address that decode are written again by the encoder (R90, R91). -/
theorem encode_of_decodeAddressed {c : Config} {op : Byte} {a : Addr24} {i : Instr}
    (h : decodeAddressed c op a = .ok i) : encode c i = .frame (op :: addrBytes a) := by
  unfold decodeAddressed at h
  split at h
  · rename_i hop; cases h; rw [hop, encode]
  · split at h
    · rename_i hop; cases h; rw [hop, encode]
    · split at h
      · rename_i g hg; cases h; rw [encode, (eraseGran_some hg).2]
      · cases h

/-- The bytes that decode are the frame of what they decode to, by the number of bytes (R90). -/
theorem encode_of_decodeFrame {c : Config} {bytes : List Byte} {i : Instr} (h : decodeFrame c bytes = .ok i) :
    encode c i = .frame bytes := by
  unfold decodeFrame at h
  split at h
  · cases h
  · split at h
    · rename_i hop; cases h; rw [hop, encode]
    · cases h
  · rw [encode_of_decodeAddressed h, addrBytes_addrOfBytes]
  · split at h
    · split at h
      · rename_i hop; cases h; rw [hop, encode, addrBytes_addrOfBytes]; rfl
      · cases h
    · cases h
  · cases h

/-- Settles O12. -/
theorem decodeThenEncode : Obligations.DecodeThenEncode := by
  refine fun c i => ⟨fun bytes h => encode_of_decodeFrame h, fun w1 w2 payload h => ?_, fun w1 w2 h => ?_⟩
  · have hi : Instr.write w1 w2 payload = i := Except.ok.inj h
    rw [← hi, encode]
  · have hi : Instr.read w1 w2 = i := Except.ok.inj h
    rw [← hi, encode]

/-- Settles O10: each clause is a closed run of the decoder. -/
theorem wordsDecode : Obligations.WordsDecode := by
  unfold Obligations.WordsDecode
  decide

end Sys2Proof
end

section
/-! PROOF. The decode step of a reserved descriptor (30_encoding R95). -/

namespace Sys2Proof.Machine

/-- A descriptor whose W0 is none of the four commands is reserved (R95). -/
theorem decodeDescriptor_reserved {w0 : Word} (h1 : w0 ≠ 1) (h2 : w0 ≠ 2) (h3 : w0 ≠ 3) (h4 : w0 ≠ 4) (w1 w2 : Word)
    (payload : List Byte) : decodeDescriptor w0 w1 w2 payload = .error (.reservedOp w0) := by
  rw [decodeDescriptor, if_neg h1, if_neg h2, if_neg h3, if_neg h4]

/-- The decode step of a port whose descriptor decodes to nothing (R95). -/
theorem decodeStep_of_error {s : State} {p : Nat} {e : DecodeError} (hph : (s.port p).phase = .pSubmitted)
    (he : decodeDescriptor (s.port p).op (s.port p).addr (s.port p).len (s.port p).payload = .error e) :
    decodeStep p s = .next (s.finish p .invalidArgument 0) := by
  rw [decodeStep, if_pos hph, he]

/-- A `run` turn of a port whose descriptor decodes to nothing is its decode step: it stands at no instruction
(log 13). -/
theorem runTurn_of_error {s : State} {p : Nat} {e : DecodeError} (hph : (s.port p).phase = .pSubmitted)
    (he : decodeDescriptor (s.port p).op (s.port p).addr (s.port p).len (s.port p).payload = .error e) :
    runTurn (.port p) s = decodeStep p { s with active := .port p } := by
  have hport : ({ s with active := .port p } : State).port p = s.port p := rfl
  have hfetch : ({ s with active := .port p } : State).fetch = none := by
    rw [fetch_port rfl, fetchPort_of_submitted (hport ▸ hph), hport, he]; rfl
  simp only [runTurn, hfetch, agentStep, hport, hph]

/-- Settles O23: either turn is the decode step in a state that differs in the model's own schedule alone, and that step
is `finish`. -/
theorem reservedDescriptorRejected : Obligations.ReservedDescriptorRejected := by
  intro s p u rest hc hs hu hph h1 h2 h3 h4
  have he := decodeDescriptor_reserved h1 h2 h3 h4 (s.port p).addr (s.port p).len (s.port p).payload
  have hp : p < s.ctx.length := lt_of_phase_ne_idle (by rw [hph]; nofun)
  obtain ⟨a, hstep⟩ : ∃ a, step s = decodeStep p { s with sched := rest, active := a } := by
    rcases hu with rfl | rfl
    · exact ⟨s.active, step_small hc hs nofun⟩
    · exact ⟨.port p, (step_scheduled hc hs).trans (runTurn_of_error (s := { s with sched := rest }) hph he)⟩
  obtain ⟨buf, hport⟩ :=
    finish_port_done (s := { s with sched := rest, active := a }) (p := p) hp .invalidArgument 0
  refine ⟨_, buf, hstep.trans (decodeStep_of_error hph he), ?_,
    (sameOutside_sched s p rest a).trans (sameOutside_finish _ p .invalidArgument 0)⟩
  rw [hport, if_pos (.inl (by decide))]; rfl

end Sys2Proof.Machine
end

section
/-! PROOF. The frame at which a port stands (40 R118, 43 R161, 44 R177, 45 R192): its operands are well formed, and the
bytes it writes are those of its encoding (30_encoding R90). -/

namespace Sys2Proof.Machine

/-! ## The operands of a hold's frames -/

/-- The frame of an erase hold names a granularity of the table and an erase unit of its partition (R160, R161). -/
theorem eraseWf_of_writes {cfg : Config} (hw : cfg.wf) {c : Ctx} (h : c.Writes cfg) (hk : c.k < c.eraseUnits cfg) :
    Instr.eraseWf cfg (c.gran cfg) (c.eraseAddr cfg) := by
  obtain ⟨i, -, -, hgran, hmem, hpos, -, -, hmod, hlo, hstop, hend, -⟩ := erase_facts hw h hk
  have hown : owner cfg (c.eraseAddr cfg).toNat = some i := (owner_eq_some_iff hw).2 ⟨hlo, by omega⟩
  exact ⟨hmem, hmod, by rw [hown, hgran, Option.map_some]⟩

/-- A cycle of a program hold has 1 or 256 data bytes and begins in the owning partition (R176, R178). -/
theorem programWf_of_writes {cfg : Config} (hw : cfg.wf) {c : Ctx} (h : c.Writes cfg) {o : Addr24 × List Byte}
    (ho : o ∈ progOperands c.addr c.buf c.lenNat) : Instr.programWf cfg o.1 o.2 := by
  obtain ⟨hlen, hlo, hend⟩ := prog_facts hw h ho
  obtain ⟨i, -, -, -, -, -, -, hstart, hstop, -, -, -⟩ := h.facts hw
  have hown : owner cfg o.1.toNat = some i := (owner_eq_some_iff hw).2 ⟨by omega, by omega⟩
  exact ⟨hlen, by rw [hown]; exact Option.some_ne_none i⟩

/-- A read hold begins at `ADDR`, which its partition owns (R192). -/
theorem owner_of_reads {cfg : Config} (hw : cfg.wf) {c : Ctx} (h : c.Reads cfg) :
    owner cfg (flashAddr c.addr 0).toNat ≠ none := by
  obtain ⟨_, -, hown, -⟩ := h.facts hw
  rw [(read_facts hw h).1, hown]
  exact Option.some_ne_none _

/-! ## The frame at which a port stands -/

/-- The frame at which a port stands is well formed. -/
theorem fetched_frame_wf {s : State} {p : Nat} {i : Instr} (h : s.Inv) (hf : s.fetchPort p = some i)
    (hp : (s.port p).phase ≠ .pSubmitted) : i.wf s.cfg = true := by
  rcases fetchPort_cases hf with ⟨hs, -⟩ | ⟨-, ⟨hph, -, rfl⟩ | ⟨hph, o, rfl, hcy⟩ | ⟨hph, -, hread⟩⟩
  · exact absurd hs hp
  · obtain ⟨hw, hk⟩ := writes_of_erase h hph
    exact decide_eq_true (eraseWf_of_writes h.cfgWf hw hk)
  · obtain ⟨hw, -⟩ := writes_of_prog h hph
    exact decide_eq_true (programWf_of_writes h.cfgWf hw (cycleAt_drop (c := s.cfg) hcy).1)
  · have hown := owner_of_reads h.cfgWf (reads_of_read h hph).1
    rcases hread with ⟨hfast, rfl⟩ | ⟨hslow, rfl⟩
    · exact decide_eq_true ⟨hfast, hown⟩
    · exact decide_eq_true ⟨hslow, hown⟩

/-- An instruction with a frame on the wire is encoded as the bytes its frame writes (R90). -/
theorem encode_of_frameOf_ne_nil {c : Config} {n : Nat} {i : Instr} (h : frameOf c n i ≠ []) :
    encode c i = .frame (bytesWritten (frameOf c n i)) := by
  cases i with
  | read addr len => exact absurd rfl h
  | write addr len payload => exact absurd rfl h
  | status => exact absurd rfl h
  | resetStatus => exact absurd rfl h
  | ident => rfl
  | erase gran addr => rfl
  | program addr data => exact congrArg Encoded.frame (Laws.WrittenBytes.program addr data c n).symm
  | fastRead addr => exact congrArg Encoded.frame (Laws.WrittenBytes.fastRead addr c n).symm
  | readSlow addr => exact congrArg Encoded.frame (Laws.WrittenBytes.readSlow addr c n).symm

/-- The instruction at which a port in a hold stands has a frame on the wire. -/
theorem frameOf_fetched_ne_nil {s : State} {p : Nat} {i : Instr} (n : Nat) (hf : s.fetchPort p = some i)
    (hp : (s.port p).phase ≠ .pSubmitted) : frameOf s.cfg n i ≠ [] := by
  rcases fetchPort_cases hf with ⟨hs, -⟩ | ⟨-, ⟨-, -, rfl⟩ | ⟨-, o, rfl, -⟩ | ⟨-, -, ⟨-, rfl⟩ | ⟨-, rfl⟩⟩⟩
  · exact absurd hs hp
  all_goals exact List.cons_ne_nil _ _

/-- Settles O14: the frame is well formed, and its bytes are its encoding, which decodes to it. -/
theorem fetchedFrameIsDecoded : Obligations.FetchedFrameIsDecoded := by
  intro s p i h hd hf hp
  have hwf := fetched_frame_wf h hf hp
  refine ⟨hwf, ?_, fetched_frame hf hp⟩
  rw [← encode_of_frameOf_ne_nil (frameOf_fetched_ne_nil _ hf hp)]
  exact encodeThenDecode s.cfg i hd hwf

end Sys2Proof.Machine
end

section
/-! PROOF. What identification leaves unchanged, and a timeout at any of its events (41_identification R126, R129). -/

namespace Sys2Proof.Machine

/-! ## What identification leaves unchanged -/

@[simp] theorem initDeliver_env (s : State) (r : Answer) : (initDeliver s r).env = s.env := by
  cases r <;> rfl

@[simp] theorem initAdvance_env (s : State) : (initAdvance s).env = s.env := by
  unfold initAdvance; split <;> rfl

/-- The end of identification after a timeout: the deselect that is owed, then the token's release (R129). -/
theorem initFail_cases {s t : State} (h : initFail s = .next t) :
    ∃ s1, deselIfSelected .init s = .ok s1 ∧
      t = { s1 with
            identity := Config.freeIdentity s1.freeIx
            freeIx := s1.freeIx + 1
            diag := diagTimedOut
            fstate := .ready
            owner := none } := by
  unfold initFail at h
  split at h
  · cases h
  · exact ⟨_, ‹_›, by cases h; rfl⟩

/-- A frame of at most three bytes is neither an ERASE nor a PROGRAM frame (R70). -/
theorem desel_short {cfg : Config} {c : Chip} (h : c.frame.length ≤ 3) : c.desel cfg = some c :=
  desel_none (fun _ => by omega) (fun _ => by omega)

/-- A call on a frame of at most three bytes changes no flash byte, and the frame grows by the byte written at most. -/
theorem chipAfter_short {cfg : Config} {kind : EnvKind} {e : Event} {r : Answer} {c d : Chip} {n : Nat}
    (h : chipAfter cfg kind e r c d) (hn : n ≤ 3) (hc : kind = .ref → e ≠ .sel → c.frame.length ≤ n) :
    d.fl = c.fl ∧ (kind = .ref → d.frame.length ≤ n + (bytesWritten [e]).length) := by
  cases kind with
  | any => exact ⟨congrArg Chip.fl h, nofun⟩
  | ref =>
    cases e with
    | sel => cases h; exact ⟨rfl, fun _ => Nat.zero_le _⟩
    | desel =>
      have hl : c.frame.length ≤ n := hc rfl nofun
      cases (desel_short (hl.trans hn)).symm.trans h
      exact ⟨rfl, fun _ => hl⟩
    | wb b =>
      rw [chipAfter] at h
      subst h
      split
      · exact ⟨rfl, fun _ => Nat.le_succ_of_le (hc rfl nofun)⟩
      · exact ⟨rfl, fun _ => by simpa [Chip.accept, bytesWritten] using hc rfl nofun⟩
    | rb =>
      rw [chipAfter] at h
      subst h
      split <;> exact ⟨rfl, fun _ => hc rfl nofun⟩
    | wi k => cases h; exact ⟨rfl, fun _ => hc rfl nofun⟩

/-- The deselect that is owed, on a frame of at most three bytes. -/
theorem deselIfSelected_short {a : Agent} {s t : State} {n : Nat} (h : deselIfSelected a s = .ok t) (hn : n ≤ 3)
    (hs : s.env.kind = .ref → s.env.chip.frame.length ≤ n) :
    t.env.chip.fl = s.env.chip.fl ∧ (t.env.kind = .ref → t.env.chip.frame.length ≤ n) := by
  rcases deselIfSelected_cases h with ⟨-, rfl⟩ | ⟨-, htr⟩
  · exact ⟨rfl, hs⟩
  · obtain ⟨_, chip, _, rfl, hc⟩ := transport_cases htr
    exact chipAfter_short hc hn fun hk _ => hs hk

/-- An event of identification on a frame of at most three bytes, whatever is answered. -/
theorem initStep_short {e : Event} {s t : State} {n : Nat} (h : initStep e s = .next t) (hn : n ≤ 3)
    (hs : s.env.kind = .ref → e ≠ .sel → s.env.chip.frame.length ≤ n) :
    t.env.chip.fl = s.env.chip.fl ∧
      (t.env.kind = .ref → t.env.chip.frame.length ≤ n + (bytesWritten [e]).length) := by
  rcases initStep_cases h with ⟨r, s1, htr, -, rfl⟩ | ⟨s1, htr, hf⟩
  · rw [initAdvance_env, initDeliver_env]
    obtain ⟨_, chip, _, rfl, hc⟩ := transport_cases htr
    exact chipAfter_short hc hn hs
  · obtain ⟨s2, hd, rfl⟩ := initFail_cases hf
    obtain ⟨hchip, hkind, -, -⟩ := transport_timeout_chip htr
    obtain ⟨hfl, hframe⟩ := deselIfSelected_short hd hn fun hk => by
      rw [hchip]; exact hs (hkind ▸ hk) (transport_timeout_event htr)
    exact ⟨hfl.trans (congrArg Chip.fl hchip), fun hk => Nat.le_add_right_of_le (hframe hk)⟩

theorem sameBeyondIdent.refl (s : State) : sameBeyondIdent s s := ⟨rfl, rfl, rfl, rfl, rfl, fun _ => rfl, rfl⟩

theorem sameBeyondIdent.trans {s t u : State} (h : sameBeyondIdent s t) (g : sameBeyondIdent t u) :
    sameBeyondIdent s u :=
  ⟨g.cfg.trans h.cfg, g.xferCount.trans h.xferCount, g.ctx.trans h.ctx, g.kind.trans h.kind,
    g.chipId.trans h.chipId, fun a => (g.flash a).trans (h.flash a), g.host.trans h.host⟩

/-- An event of identification that changes no flash byte touches nothing outside identification. -/
theorem initStep_beyond {e : Event} {s t : State} (h : initStep e s = .next t)
    (hfl : t.env.chip.fl = s.env.chip.fl) : sameBeyondIdent s t := by
  obtain ⟨hcfg, hxfer, hctx, hkind, hid, hhost⟩ := (initStep_summary h).beyond0
  exact ⟨hcfg, hxfer, hctx, hkind, hid, fun _ => by rw [hfl], hhost⟩

/-- Events of identification that write at most three bytes in all, after a select or on a frame of `n` bytes. -/
theorem runInit_beyond {es : List Event} : ∀ {s t : State} {n : Nat}, runInit es s = .next t →
    n + (bytesWritten es).length ≤ 3 →
    (s.env.kind = .ref → es.head? ≠ some .sel → s.env.chip.frame.length ≤ n) → sameBeyondIdent s t := by
  induction es with
  | nil => intro s t n h _ _; cases h; exact .refl s
  | cons e es ih =>
    intro s t n h hn hs
    rw [← List.singleton_append, bytesWritten_append, List.length_append] at hn
    rw [runInit] at h
    split at h
    · obtain ⟨x, h1, h2⟩ := andThen_eq_next.1 h
      obtain ⟨hfl, hframe⟩ := initStep_short (n := n) h1 (by omega) fun hk he => hs hk (by simpa using he)
      exact (initStep_beyond h1 hfl).trans (ih h2 (by omega) fun hk _ => hframe hk)
    · cases h; exact .refl s

/-- Settles O49: the frame's select empties what the chip has seen, and the one byte written after it reaches no byte of
the flash. -/
theorem identificationFrame : Obligations.IdentificationFrame := by
  intro s t h
  rw [exec, execIdent] at h
  split at h
  · exact runInit_beyond (n := 0) h (by decide : 0 + 1 ≤ 3) fun _ hsel => absurd rfl hsel
  · cases h; exact .refl s

/-! ## `DIAG` -/

@[simp] theorem diagOf_valid (valid mismatch timeout : Bool) :
    (diagOf valid mismatch timeout).getLsbD 0 = valid := by
  cases valid <;> cases mismatch <;> cases timeout <;> rfl

@[simp] theorem diagOf_mismatch (valid mismatch timeout : Bool) :
    (diagOf valid mismatch timeout).getLsbD 1 = mismatch := by
  cases valid <;> cases mismatch <;> cases timeout <;> rfl

@[simp] theorem diagOf_timeout (valid mismatch timeout : Bool) :
    (diagOf valid mismatch timeout).getLsbD 2 = timeout := by
  cases valid <;> cases mismatch <;> cases timeout <;> rfl

/-! ## A timeout in identification (R129) -/

/-- The deselect that is owed is the one call, and leaves the chip not selected. -/
theorem deselIfSelected_leaves {a : Agent} {s t : State} (h : deselIfSelected a s = .ok t) :
    t.sel = false ∧ t.trace = s.trace ++ if s.sel then [⟨a, s.holdNo, .desel, .ok⟩] else [] := by
  rcases deselIfSelected_cases h with ⟨hs, rfl⟩ | ⟨hs, htr⟩
  · exact ⟨hs, by simp [hs]⟩
  · obtain ⟨_, _, _, rfl, -⟩ := transport_cases htr
    exact ⟨rfl, by simp [hs]⟩

/-- What a timeout in identification leaves (R129). -/
theorem initFail_leaves {s t : State} (h : initFail s = .next t) :
    t.idleToken ∧ t.diag = diagTimedOut ∧
      t.trace = s.trace ++ if s.sel then [⟨.init, s.holdNo, .desel, .ok⟩] else [] := by
  obtain ⟨s1, hd, rfl⟩ := initFail_cases h
  obtain ⟨hsel, htrace⟩ := deselIfSelected_leaves hd
  exact ⟨⟨rfl, rfl, hsel⟩, rfl, htrace⟩

/-- An event of identification that times out is the failure path after the call (R129). -/
theorem initStep_timeout {e : Event} {s : State} (h1 : e ≠ .sel) (h2 : e ≠ .desel) (hd : s.draw.1 = .timeout) :
    initStep e s = initFail (s.draw.2.logCall .init e .timeout) := by
  rw [initStep, transport_timeout h1 h2 hd]

/-- Settles O39: no event of identification faults (R126), so the one that times out ends in R129's failure path. -/
theorem identificationTimeout : Obligations.IdentificationTimeout := by
  intro s e h hch ho he h1 h2 hd
  obtain ⟨t, ht⟩ : ∃ t, initEvent s = .next t := by
    cases hx : initEvent s with
    | next t => exact ⟨t, rfl⟩
    | fault f => exact absurd hx (initEvent_ne_fault hch f)
    | refused r => exact absurd hx (initEvent_ne_refused s r)
  have hstep : initStep e s = .next t := initEvent_hold h ho he ▸ ht
  obtain ⟨hidle, hdiag, htrace⟩ := initFail_leaves (initStep_timeout h1 h2 hd ▸ hstep)
  obtain ⟨hdraw, hsel, -, -, hhold, -⟩ := draw_unchanged s
  rw [logCall_trace, logCall_sel, logCall_holdNo, hdraw, hsel, hhold, List.append_assoc,
    List.singleton_append] at htrace
  refine ⟨t, ht, htrace, ?_, ?_, ?_, hidle, initStep_beyond hstep (initStep_flash_inv h hch ho he hstep)⟩
  · rw [State.idValid, hdiag, diagTimedOut, diagOf_valid]
  · rw [State.idMismatch, hdiag, diagTimedOut, diagOf_mismatch]
  · rw [State.idTimeout, hdiag, diagTimedOut, diagOf_timeout]

end Sys2Proof.Machine
end

section
/-! PROOF. The whole IDENT frame, every call answered: three bytes, most significant first, become the identity
(41_identification R126 to R128, 30_encoding R92). -/

namespace Sys2Proof.Machine

/-! ## Events that are answered -/

/-- An answered call of identification that is no `T.rb()`. -/
theorem initStep_call_ok {e : Event} {s : State} (ha : s.env.answers (asked [e]))
    (hc : s.env.kind = .ref → ∃ c, chipStep s.cfg e s.env.chip = some c) (he : e ≠ .rb) :
    ∃ t, initStep e s = .next (if s.initEv + 1 = 6 then initEnd t else t) ∧ InitRan e .ok s t := by
  obtain ⟨r, t, hstep, hran, hr, ⟨rfl, -⟩ | ⟨-, hb⟩, -⟩ := initStep_ok ha hc
  · exact absurd rfl he
  · cases r with
    | ok => exact ⟨t, hstep, hran⟩
    | byte b => exact absurd rfl (hb b)
    | timeout => exact absurd rfl hr

/-- An answered `T.rb()` of identification returns a byte, the chip's under the pure reference environment. -/
theorem initStep_rb_ok {s : State} (ha : s.env.answers 1)
    (hc : s.env.kind = .ref → ∃ c, chipStep s.cfg .rb s.env.chip = some c) :
    ∃ b t, initStep .rb s = .next (if s.initEv + 1 = 6 then initEnd t else t) ∧ InitRan .rb (.byte b) s t ∧
      (s.env.reference → ∀ b', s.env.chip.answer s.cfg = .byte b' → b = b') := by
  obtain ⟨r, t, hstep, hran, hr, ⟨-, hok⟩ | ⟨hne, -⟩, href⟩ := initStep_ok (e := .rb) ha hc
  · cases r with
    | ok => exact absurd rfl hok
    | byte b => exact ⟨b, t, hstep, hran, fun h b' hb => by cases href h b' rfl hb; rfl⟩
    | timeout => exact absurd rfl hr
  · exact absurd rfl hne

/-- Where `INIT` stands at an instruction it holds the token, at the start of its frame (R127). -/
theorem fetch_init {s : State} {i : Instr} (ha : s.active = .init) (hf : s.fetch = some i) :
    s.owner = some .init ∧ s.initEv = 0 := by
  have hc : (s.initEnabled && s.initEv == 0) = true := by
    by_contra hc
    simp [State.fetch, ha, hc] at hf
  simp only [State.initEnabled, Bool.and_eq_true, decide_eq_true_eq, beq_iff_eq] at hc
  obtain ⟨⟨-, ho⟩, hev⟩ := hc
  exact ⟨ho, hev⟩

theorem runInit_cons {e : Event} {es : List Event} {s t : State} (ho : s.owner = some .init)
    (h : initStep e s = .next t) : runInit (e :: es) s = runInit es t := by
  rw [runInit, if_pos ho, h, andThen_next]

/-- What the chip answers inside an IDENT frame (R70, R92). -/
theorem answer_ident {cfg : Config} {c : Chip} {b : Byte} (hf : c.frame = [cfg.opcIdent])
    (hb : (addrBytes c.chipId)[c.reads]? = some b) : c.answer cfg = .byte b := by
  simp only [Chip.answer, hf, if_true, hb]

/-! ## The frame, part by part -/

/-- Identification, begun in `s`, has written its opcode and read the bytes `bs`. -/
structure Identifying (bs : List Byte) (s t : State) : Prop where
  owner : t.owner = some .init
  cfg : t.cfg = s.cfg
  holdNo : t.holdNo = s.holdNo
  ev : t.initEv = bs.length + 2
  acc : t.initAcc = bs.foldl accumulate s.initAcc
  trace : t.trace = s.trace ++ ⟨.init, s.holdNo, .sel, .ok⟩ :: ⟨.init, s.holdNo, .wb s.cfg.opcIdent, .ok⟩ ::
    bs.map (fun b => ⟨.init, s.holdNo, .rb, .byte b⟩)
  kind : t.env.kind = s.env.kind
  draws : t.env.draws = s.env.draws.drop (1 + bs.length)
  chip : s.env.kind = .ref →
    t.env.chip = { s.env.chip with frame := [s.cfg.opcIdent], reads := bs.length }
  reference : s.env.reference → bs = (addrBytes s.env.chip.chipId).take bs.length

/-- The select and the opcode (R126). -/
theorem identifying_opens {s : State} (ho : s.owner = some .init) (hev : s.initEv = 0) (ha : s.env.answers 1)
    (es : List Event) :
    ∃ t, runInit (.sel :: .wb s.cfg.opcIdent :: es) s = runInit es t ∧ Identifying [] s t := by
  obtain ⟨t, ht, hran⟩ := initStep_call_ok (e := .sel) (answers_mono ha (Nat.zero_le 1)) (fun _ => ⟨_, rfl⟩) nofun
  rw [if_neg (by omega)] at ht
  obtain ⟨u, hu, hran'⟩ := initStep_call_ok (e := .wb s.cfg.opcIdent)
    (answers_drop (m := 0) ha hran.kind hran.draws) (fun _ => ⟨_, rfl⟩) nofun
  rw [if_neg (by rw [hran.ev]; omega)] at hu
  refine ⟨u, (runInit_cons ho ht).trans (runInit_cons (hran.owner.trans ho) hu), ?_⟩
  exact {
    owner := hran'.owner.trans (hran.owner.trans ho)
    cfg := hran'.cfg.trans hran.cfg
    holdNo := hran'.holdNo.trans hran.holdNo
    ev := by rw [hran'.ev, hran.ev, hev]; rfl
    acc := hran'.acc.trans hran.acc
    trace := by rw [hran'.trace, hran.trace, hran.holdNo, List.append_assoc]; rfl
    kind := hran'.kind.trans hran.kind
    draws := by rw [hran'.draws, hran.draws]; rfl
    chip := fun hk => by
      have hsel : s.env.chip.sel = t.env.chip := Option.some.inj (hran.chipRef hk)
      have hwb : t.env.chip.accept s.cfg.opcIdent = u.env.chip := Option.some.inj (hran'.chipRef (hran.kind.trans hk))
      rw [← hwb, ← hsel]; rfl
    reference := fun _ => rfl }

/-- One more byte (R127). -/
theorem identifying_reads {s t : State} {bs : List Byte} (h : Identifying bs s t) (hbs : bs.length < 3)
    (ha : s.env.answers (1 + bs.length + 1)) (es : List Event) :
    ∃ b u, runInit (.rb :: es) t = runInit es u ∧ Identifying (bs ++ [b]) s u := by
  have hstep : t.env.kind = .ref → chipStep t.cfg .rb t.env.chip = some t.env.chip.countRead := fun hk =>
    chipStep_rb_ident _ _ (by rw [h.chip (h.kind ▸ hk)]; exact Nat.le_refl 1)
  obtain ⟨b, u, hu, hran, href⟩ := initStep_rb_ok (answers_drop ha h.kind h.draws) fun hk => ⟨_, hstep hk⟩
  rw [if_neg (by rw [h.ev]; omega)] at hu
  refine ⟨b, u, runInit_cons h.owner hu, ?_⟩
  exact {
    owner := hran.owner.trans h.owner
    cfg := hran.cfg.trans h.cfg
    holdNo := hran.holdNo.trans h.holdNo
    ev := by rw [hran.ev, h.ev, List.length_append, List.length_singleton, Nat.add_right_comm]
    acc := by rw [hran.acc, h.acc, List.foldl_append]; rfl
    trace := by rw [hran.trace, h.trace, h.holdNo]; simp
    kind := hran.kind.trans h.kind
    draws := by rw [hran.draws, h.draws, List.drop_drop, List.length_append]; rfl
    chip := fun hk => by
      have hk' : t.env.kind = .ref := h.kind.trans hk
      have hrb : t.env.chip.countRead = u.env.chip := Option.some.inj ((hstep hk').symm.trans (hran.chipRef hk'))
      rw [← hrb, h.chip hk, List.length_append]; rfl
    reference := fun hr => by
      have hchip := h.chip hr.1
      have hget : (addrBytes s.env.chip.chipId)[bs.length]? = some (addrBytes s.env.chip.chipId)[bs.length] :=
        List.getElem?_eq_getElem hbs
      have hans : t.env.chip.answer t.cfg = .byte (addrBytes s.env.chip.chipId)[bs.length] :=
        answer_ident (by rw [hchip, h.cfg]) (by rw [hchip]; exact hget)
      have hb := href ⟨h.kind.trans hr.1, by rw [h.draws, hr.2, List.drop_nil]⟩ _ hans
      rw [List.length_append, List.length_singleton, List.take_add_one, hget, ← h.reference hr, hb]; rfl }

/-- The deselect, and the end of identification (R128). -/
theorem identifying_ends {s t : State} {bs : List Byte} (h : Identifying bs s t) (hbs : bs.length = 3) :
    ∃ u, runInit [.desel] t = .next (initEnd u) ∧ InitRan .desel .ok t u := by
  obtain ⟨u, hu, hran⟩ := initStep_call_ok (e := .desel) (s := t) ⟨by simp [asked], .inr (Nat.zero_le _)⟩
    (fun hk => ⟨_, desel_short (by rw [h.chip (h.kind ▸ hk)]; exact Nat.le_add_left 1 2)⟩) nofun
  rw [if_pos (by rw [h.ev, hbs])] at hu
  exact ⟨u, runInit_cons h.owner hu, hran⟩

/-- Settles O38: the select and the opcode, three reads, the deselect; the accumulator then holds the three bytes. -/
theorem identificationCompletes : Obligations.IdentificationCompletes := by
  intro s hact hf ha
  obtain ⟨ho, hev⟩ := fetch_init hact hf
  obtain ⟨s0, e0, h0⟩ := identifying_opens ho hev (answers_mono ha (by omega)) [.rb, .rb, .rb, .desel]
  obtain ⟨b0, s1, e1, h1⟩ := identifying_reads h0 (by simp) (answers_mono ha (by simp)) [.rb, .rb, .desel]
  obtain ⟨b1, s2, e2, h2⟩ := identifying_reads h1 (by simp) (answers_mono ha (by simp)) [.rb, .desel]
  obtain ⟨b2, s3, e3, h3⟩ := identifying_reads h2 (by simp) (answers_mono ha (by simp)) [.desel]
  obtain ⟨u, e4, hran⟩ := identifying_ends h3 rfl
  have hexec : exec .ident s = .next (initEnd u) := by
    rw [exec_ident hf, identFrame, e0, e1, e2, e3, e4]
  have hacc : u.initAcc = b0 ++ b1 ++ b2 := (hran.acc.trans h3.acc).trans (accumulate_three _ b0 b1 b2)
  refine ⟨initEnd u, b0, b1, b2, hexec, ?_, hacc, diagOf_valid .., ?_, diagOf_timeout .., ⟨rfl, rfl, hran.sel⟩,
    identificationFrame s _ hexec, fun hr => ?_⟩
  · change u.trace = _
    rw [hran.trace, h3.trace, h3.holdNo]; simp
  · change (diagOf _ _ _).getLsbD 1 = true ↔ u.initAcc ∉ s.cfg.expectedIds
    rw [diagOf_mismatch, hran.cfg, h3.cfg]; simp
  · have hbytes : [b0, b1, b2] = addrBytes s.env.chip.chipId := h3.reference hr
    cases hbytes
    exact hacc.trans (addrOfBytes_extract _)

end Sys2Proof.Machine
end

section
/-! PROOF. No command and no step of a port reads `csr.IDENTITY` or `csr.DIAG` (41_identification R130): each operation
gives the same with other values there, carrying them along. -/

namespace Sys2Proof.Machine

/-- An outcome with the identification outputs of its next state replaced by others. -/
def resultWithIdentity (identity : Addr24) (diag : BitVec 3) (r : Result) : Result :=
  andThen r (fun t => .next (t.withIdentity identity diag))

/-- A step that reads neither `IDENTITY` nor `DIAG`, and carries them along (R130). -/
def IgnoresIdentity (f : State → Result) : Prop :=
  ∀ (s : State) (identity : Addr24) (diag : BitVec 3),
    f (s.withIdentity identity diag) = resultWithIdentity identity diag (f s)

/-- What goes on after a result, where it ignores the identification outputs. -/
theorem IgnoresIdentity.after {g : State → Result} (hg : IgnoresIdentity g) (r : Result) (identity : Addr24)
    (diag : BitVec 3) :
    andThen (resultWithIdentity identity diag r) g = resultWithIdentity identity diag (andThen r g) := by
  cases r with
  | next t => exact hg t identity diag
  | fault e => rfl
  | refused r => rfl

section
variable (s : State) (identity : Addr24) (diag : BitVec 3)

/-! ## The registers of a port, the end of a command, the host steps, the token -/

theorem withIdentity_port (p : Nat) : (s.withIdentity identity diag).port p = s.port p := rfl

theorem withIdentity_active : (s.withIdentity identity diag).active = s.active := rfl

theorem withIdentity_fetch : (s.withIdentity identity diag).fetch = s.fetch := rfl

theorem withIdentity_nextEvent (p : Nat) : (s.withIdentity identity diag).nextEvent p = s.nextEvent p := rfl

theorem ite_withIdentity (c : Prop) [Decidable c] (t : State) :
    (if c then s else t).withIdentity identity diag =
      if c then s.withIdentity identity diag else t.withIdentity identity diag :=
  apply_ite (State.withIdentity · identity diag) c s t

theorem releaseBuffer_withIdentity (p : Nat) :
    (s.withIdentity identity diag).releaseBuffer p = (s.releaseBuffer p).withIdentity identity diag := by
  unfold State.releaseBuffer
  rw [ite_withIdentity]; rfl

theorem finish_withIdentity (p : Nat) (code : ResultCode) (count : Word) :
    (s.withIdentity identity diag).finish p code count = (s.finish p code count).withIdentity identity diag := by
  rw [State.finish, releaseBuffer_withIdentity]; rfl

theorem submit_withIdentity (p : Nat) (w0 w1 w2 : Word) (payload : List Byte) :
    (s.withIdentity identity diag).submit p w0 w1 w2 payload =
      (s.submit p w0 w1 w2 payload).withIdentity identity diag := by
  unfold State.submit
  rw [ite_withIdentity]; rfl

theorem collect_withIdentity (p : Nat) :
    (s.withIdentity identity diag).collect p = (s.collect p).withIdentity identity diag := by
  unfold State.collect
  rw [ite_withIdentity]; rfl

theorem acquire_withIdentity (p : Nat) :
    (s.withIdentity identity diag).acquire p = (s.acquire p).withIdentity identity diag := by
  unfold State.acquire
  rw [ite_withIdentity, withIdentity_port]
  cases acquireTarget (s.port p).phase <;> rfl

/-! ## The draws and the transport -/

theorem draw_withIdentity :
    (s.withIdentity identity diag).draw = s.draw.map id (State.withIdentity · identity diag) := by
  unfold State.draw
  simp only [State.withIdentity]
  split
  · rfl
  · split <;> rfl

theorem drawAlloc_withIdentity :
    (s.withIdentity identity diag).drawAlloc = s.drawAlloc.map id (State.withIdentity · identity diag) := by
  unfold State.drawAlloc
  simp only [State.withIdentity]
  split
  · rfl
  · split <;> rfl

theorem readByte_withIdentity :
    (s.withIdentity identity diag).readByte = s.readByte.map (Prod.map id (State.withIdentity · identity diag)) := by
  unfold State.readByte
  simp only [State.withIdentity]
  split
  · split <;> rfl
  · rfl

theorem wbCall_withIdentity (a : Agent) (b : Byte) :
    wbCall a b (s.withIdentity identity diag) = (wbCall a b s).map id (State.withIdentity · identity diag) := by
  unfold wbCall
  rw [draw_withIdentity]
  rcases s.draw with ⟨d, s1⟩
  cases d <;> rfl

theorem wiCall_withIdentity (a : Agent) (k : WaitKind) :
    wiCall a k (s.withIdentity identity diag) = (wiCall a k s).map id (State.withIdentity · identity diag) := by
  unfold wiCall
  rw [draw_withIdentity]
  rcases s.draw with ⟨d, s1⟩
  cases d <;> rfl

theorem rbCall_withIdentity (a : Agent) :
    rbCall a (s.withIdentity identity diag) =
      (rbCall a s).map (Prod.map id (State.withIdentity · identity diag)) := by
  unfold rbCall
  rw [draw_withIdentity]
  rcases s.draw with ⟨d, s1⟩
  cases d with
  | timeout => rfl
  | byte b => rfl
  | normal =>
    simp only [Prod.map, id]
    rw [readByte_withIdentity]
    cases s1.readByte <;> rfl

theorem deselCall_withIdentity (a : Agent) :
    deselCall a (s.withIdentity identity diag) = (deselCall a s).map (State.withIdentity · identity diag) := by
  unfold deselCall
  simp only [State.withIdentity]
  split <;> rfl

/-- A transport call reads neither output (R111 to R117). -/
theorem transport_withIdentity (a : Agent) (e : Event) :
    transport a e (s.withIdentity identity diag) =
      (transport a e s).map (Prod.map id (State.withIdentity · identity diag)) := by
  cases e with
  | sel => rfl
  | desel =>
    rw [transport, deselCall_withIdentity, transport]
    cases deselCall a s <;> rfl
  | wb b => exact congrArg Except.ok (wbCall_withIdentity s identity diag a b)
  | rb => exact rbCall_withIdentity s identity diag a
  | wi k => exact congrArg Except.ok (wiCall_withIdentity s identity diag a k)

theorem deselIfSelected_withIdentity (a : Agent) :
    deselIfSelected a (s.withIdentity identity diag) =
      (deselIfSelected a s).map (State.withIdentity · identity diag) := by
  rw [deselIfSelected, deselIfSelected, deselCall_withIdentity, apply_ite (Except.map _)]; rfl

/-! ## Holds -/

theorem failHold_withIdentity (p : Nat) :
    failHold p (s.withIdentity identity diag) = resultWithIdentity identity diag (failHold p s) := by
  unfold failHold
  rw [deselIfSelected_withIdentity]
  cases deselIfSelected (.port p) s with
  | error f => rfl
  | ok s1 => exact congrArg Host.Outcome.next (finish_withIdentity s1.release identity diag p _ _)

theorem creditTransfer_withIdentity (p : Nat) :
    (s.withIdentity identity diag).creditTransfer p = (s.creditTransfer p).withIdentity identity diag := by
  unfold State.creditTransfer
  rw [ite_withIdentity]; rfl

theorem completeTransfer_withIdentity (p : Nat) :
    (s.withIdentity identity diag).completeTransfer p = (s.completeTransfer p).withIdentity identity diag := by
  change ((s.release.withIdentity identity diag).creditTransfer p).finish p .ok (s.port p).len = _
  rw [creditTransfer_withIdentity, finish_withIdentity]; rfl

theorem endHold_withIdentity (p : Nat) :
    (s.withIdentity identity diag).endHold p = (s.endHold p).withIdentity identity diag := by
  unfold State.endHold
  rw [withIdentity_port]
  cases (s.port p).phase with
  | pProg => exact completeTransfer_withIdentity s identity diag p
  | pRead => exact completeTransfer_withIdentity s identity diag p
  | _ => rfl

theorem deliver_withIdentity (p : Nat) (r : Answer) :
    (s.withIdentity identity diag).deliver p r = (s.deliver p r).withIdentity identity diag := by
  rw [deliver_eq, deliver_eq]
  cases r <;> rfl

theorem advanceEv_withIdentity (p total : Nat) :
    (s.withIdentity identity diag).advanceEv p total = (s.advanceEv p total).withIdentity identity diag := by
  unfold State.advanceEv
  rw [ite_withIdentity, ← endHold_withIdentity]; rfl

end

/-- An event of a hold, answered or timed out (R118, R232). -/
theorem eventStep_ignoresIdentity (p total : Nat) (e : Event) : IgnoresIdentity (eventStep p total e) := by
  intro s identity diag
  unfold eventStep
  rw [transport_withIdentity]
  rcases transport (.port p) e s with f | ⟨r, s1⟩
  · rfl
  · have hgoesOn : ∀ r : Answer, ((s1.withIdentity identity diag).deliver p r).advanceEv p total =
        ((s1.deliver p r).advanceEv p total).withIdentity identity diag := fun r => by
      rw [deliver_withIdentity, advanceEv_withIdentity]
    cases r with
    | timeout => exact failHold_withIdentity s1 identity diag p
    | ok => exact congrArg Host.Outcome.next (hgoesOn .ok)
    | byte b => exact congrArg Host.Outcome.next (hgoesOn (.byte b))

theorem runEvents_ignoresIdentity (p total : Nat) (es : List Event) : IgnoresIdentity (runEvents p total es) := by
  induction es with
  | nil => exact fun _ _ _ => rfl
  | cons e es ih =>
    intro s identity diag
    rw [runEvents, runEvents, eventStep_ignoresIdentity, ih.after, apply_ite (resultWithIdentity identity diag)]; rfl

/-- A frame's events are of the configuration and the port alone. -/
theorem runFrame_ignoresIdentity (p : Nat) (frame : State → List Event)
    (hframe : ∀ s identity diag, frame (s.withIdentity identity diag) = frame s) :
    IgnoresIdentity (fun s => runFrame p (frame s) s) := by
  intro s identity diag
  dsimp only
  rw [hframe]
  exact runEvents_ignoresIdentity p _ _ s identity diag

theorem runHold_ignoresIdentity (p : Nat) : IgnoresIdentity (runHold p) :=
  runFrame_ignoresIdentity p (fun s => (s.port p).holdList s.cfg) fun _ _ _ => rfl

theorem runHolds_ignoresIdentity (p n : Nat) : IgnoresIdentity (runHolds p n) := by
  induction n with
  | zero => exact fun _ _ _ => rfl
  | succ n ih =>
    intro s identity diag
    rw [runHolds, runHolds, acquire_withIdentity, runHold_ignoresIdentity, ih.after,
      apply_ite (resultWithIdentity identity diag)]; rfl

/-! ## Commands -/

/-- The decode step of a READ (R191). -/
theorem decodeRead_withIdentity (s : State) (identity : Addr24) (diag : BitVec 3) (p : Nat) (addr len : Word) :
    decodeRead p addr len (s.withIdentity identity diag) = (decodeRead p addr len s).withIdentity identity diag := by
  by_cases hv : validateRead s.cfg addr len = .ok
  · rw [decodeRead_ok hv, decodeRead_ok (s := s.withIdentity identity diag) hv]; rfl
  · rw [decodeRead_rejected hv, decodeRead_rejected (s := s.withIdentity identity diag) hv]
    exact finish_withIdentity s identity diag p _ _

/-- The decode step of a WRITE (R157, R158). -/
theorem decodeWrite_ignoresIdentity (p : Nat) (addr len : Word) (payload : List Byte) :
    IgnoresIdentity (decodeWrite p addr len payload) := by
  intro s identity diag
  by_cases hv : validateWrite s.cfg addr len = .ok
  · rw [decodeWrite_ok hv, decodeWrite_ok (s := s.withIdentity identity diag) hv, drawAlloc_withIdentity,
      apply_ite (resultWithIdentity identity diag), apply_ite (resultWithIdentity identity diag)]
    simp only [Prod.map_fst, Prod.map_snd, id, finish_withIdentity]
    rfl
  · rw [decodeWrite_rejected hv, decodeWrite_rejected (s := s.withIdentity identity diag) hv]
    exact congrArg Host.Outcome.next (finish_withIdentity s identity diag p _ _)

/-- A meaning that ignores the identification outputs, where the active port stands at its instruction. -/
theorem whenAt_ignoresIdentity (i : Instr) {m : State → Nat → Result} (hm : ∀ p, IgnoresIdentity (fun s => m s p)) :
    IgnoresIdentity (fun s => whenAt i s (m s)) := by
  intro s identity diag
  dsimp only [whenAt]
  rw [withIdentity_active, withIdentity_fetch]
  cases s.active with
  | init => rfl
  | port p =>
    dsimp only
    rw [apply_ite (resultWithIdentity identity diag), ← hm p s identity diag]; rfl

theorem readCounter_withIdentity (s : State) (identity : Addr24) (diag : BitVec 3) (p : Nat) :
    readCounter p (s.withIdentity identity diag) = (readCounter p s).withIdentity identity diag :=
  finish_withIdentity s identity diag p _ _

theorem clearCounter_withIdentity (s : State) (identity : Addr24) (diag : BitVec 3) (p : Nat) :
    clearCounter p (s.withIdentity identity diag) = (clearCounter p s).withIdentity identity diag :=
  finish_withIdentity { s with xferCount := 0 } identity diag p _ _

/-- Every instruction but IDENT (R130). -/
theorem exec_ignoresIdentity {i : Instr} (hi : i ≠ .ident) : IgnoresIdentity (exec i) := by
  cases i with
  | ident => exact absurd rfl hi
  | read addr len =>
    refine whenAt_ignoresIdentity (.read addr len) (m := fun s p => runHolds p 1 (decodeRead p addr len s)) ?_
    intro p s identity diag
    dsimp only
    rw [decodeRead_withIdentity]
    exact runHolds_ignoresIdentity p 1 _ identity diag
  | write addr len payload =>
    refine whenAt_ignoresIdentity (.write addr len payload) (m := fun s p => andThen (decodeWrite p addr len payload s)
      (fun t => runHolds p ((t.port p).eraseUnits t.cfg + 1) t)) ?_
    intro p s identity diag
    dsimp only
    rw [decodeWrite_ignoresIdentity]
    exact IgnoresIdentity.after (g := fun t => runHolds p ((t.port p).eraseUnits t.cfg + 1) t)
      (fun t => runHolds_ignoresIdentity p ((t.port p).eraseUnits t.cfg + 1) t) _ identity diag
  | status =>
    exact whenAt_ignoresIdentity .status fun p s identity diag =>
      congrArg Host.Outcome.next (readCounter_withIdentity s identity diag p)
  | resetStatus =>
    exact whenAt_ignoresIdentity .resetStatus fun p s identity diag =>
      congrArg Host.Outcome.next (clearCounter_withIdentity s identity diag p)
  | erase gran addr =>
    exact whenAt_ignoresIdentity (.erase gran addr) fun p =>
      runFrame_ignoresIdentity p (fun s => eraseFrame s.cfg gran addr) fun _ _ _ => rfl
  | program addr data =>
    exact whenAt_ignoresIdentity (.program addr data) fun p =>
      runFrame_ignoresIdentity p (fun s => progCycle s.cfg addr data) fun _ _ _ => rfl
  | fastRead addr =>
    exact whenAt_ignoresIdentity (.fastRead addr) fun p =>
      runFrame_ignoresIdentity p (fun s => readFrame s.cfg.opcFastRead true addr (s.port p).lenNat) fun _ _ _ => rfl
  | readSlow addr =>
    exact whenAt_ignoresIdentity (.readSlow addr) fun p =>
      runFrame_ignoresIdentity p (fun s => readFrame s.cfg.opcReadSlow false addr (s.port p).lenNat) fun _ _ _ => rfl

/-! ## Small steps -/

theorem decodeStep_ignoresIdentity (p : Nat) : IgnoresIdentity (decodeStep p) := by
  intro s identity diag
  rw [decodeStep, decodeStep, apply_ite (resultWithIdentity identity diag), withIdentity_port]
  congr 1
  rcases decodeDescriptor_cases (s.port p).op (s.port p).addr (s.port p).len (s.port p).payload with
    ⟨-, e⟩ | ⟨-, e⟩ | ⟨-, e⟩ | ⟨-, e⟩ | ⟨-, e⟩ <;> rw [e]
  · exact congrArg Host.Outcome.next (decodeRead_withIdentity s identity diag p _ _)
  · exact decodeWrite_ignoresIdentity p _ _ _ s identity diag
  · exact congrArg Host.Outcome.next (readCounter_withIdentity s identity diag p)
  · exact congrArg Host.Outcome.next (clearCounter_withIdentity s identity diag p)
  · exact congrArg Host.Outcome.next (finish_withIdentity s identity diag p _ _)

theorem portEvent_ignoresIdentity (p : Nat) : IgnoresIdentity (portEvent p) := by
  intro s identity diag
  unfold portEvent
  rw [withIdentity_nextEvent]
  cases s.nextEvent p with
  | none => rfl
  | some e => exact eventStep_ignoresIdentity p _ e s identity diag

/-- A small step that is no step of `INIT` (R36). -/
theorem takeTurn_ignoresIdentity {u : Turn} (hi : u ≠ .initEvent) (hr : ∀ a, u ≠ .run a) :
    IgnoresIdentity (takeTurn u) := by
  intro s identity diag
  cases u with
  | initEvent => exact absurd rfl hi
  | run a => exact absurd rfl (hr a)
  | submit p w0 w1 w2 payload =>
    exact congrArg Host.Outcome.next (submit_withIdentity s identity diag p w0 w1 w2 payload)
  | collect p => exact congrArg Host.Outcome.next (collect_withIdentity s identity diag p)
  | acquire p => exact congrArg Host.Outcome.next (acquire_withIdentity s identity diag p)
  | decode p => exact decodeStep_ignoresIdentity p s identity diag
  | event p => exact portEvent_ignoresIdentity p s identity diag

/-- The one step of a port is one of its small steps, chosen by its phase (R31). -/
theorem agentStep_ignoresIdentity (p : Nat) : IgnoresIdentity (agentStep (.port p)) := by
  intro s identity diag
  unfold agentStep
  dsimp only
  rw [withIdentity_port]
  cases (s.port p).phase with
  | pIdle => rfl
  | pDone => rfl
  | pSubmitted => exact decodeStep_ignoresIdentity p s identity diag
  | pWaitErase => exact congrArg Host.Outcome.next (acquire_withIdentity s identity diag p)
  | pWaitProg => exact congrArg Host.Outcome.next (acquire_withIdentity s identity diag p)
  | pWaitRead => exact congrArg Host.Outcome.next (acquire_withIdentity s identity diag p)
  | pErase => exact portEvent_ignoresIdentity p s identity diag
  | pProg => exact portEvent_ignoresIdentity p s identity diag
  | pRead => exact portEvent_ignoresIdentity p s identity diag

/-- Settles O40: each operation an instruction or a small step is made of carries the outputs along. -/
theorem commandsIgnoreIdentity : Obligations.CommandsIgnoreIdentity := by
  intro s identity diag
  refine ⟨fun i hi => exec_ignoresIdentity hi s identity diag, fun u hi hr => ?_⟩
  cases u with
  | run a =>
    cases a with
    | init => exact absurd rfl hr
    | port p => exact agentStep_ignoresIdentity p s identity diag
  | _ => exact takeTurn_ignoresIdentity hi nofun s identity diag

end Sys2Proof.Machine
end

section
/-! PROOF. The token (42_flash_state_machine): what `acquire` does and when it does nothing (R138, R139), and the table
of the transitions of `csr.FSTATE` (R136). -/

namespace Sys2Proof.Machine

/-! ## Acquiring -/

/-- What each waiting phase acquires (R139, R140). -/
theorem acquireTarget_eq_some {ph phase : Phase} {busy : FlashState} :
    acquireTarget ph = some (busy, phase) ↔
      (ph = .pWaitErase ∧ busy = .erasing ∧ phase = .pErase) ∨
        (ph = .pWaitProg ∧ busy = .writing ∧ phase = .pProg) ∨
        (ph = .pWaitRead ∧ busy = .reading ∧ phase = .pRead) := by
  cases ph <;> simp [acquireTarget, eq_comm]

/-- `acquire` with the token not Ready is the cooperative wait (R138). -/
theorem acquire_of_ne_ready {s : State} (h : s.fstate ≠ .ready) (p : Nat) : s.acquire p = s := if_neg h

/-- Settles O34: the step is an `acquire` that is enabled, in the state with the turn taken off the schedule. -/
theorem acquireTakesToken : Obligations.AcquireTakesToken := by
  intro s p busy phase rest hc hs hr hwait
  have htarget : acquireTarget (s.port p).phase = some (busy, phase) := acquireTarget_eq_some.2 hwait
  have hp : p < s.ctx.length := lt_of_phase_ne_idle fun hidle => by rw [hidle] at htarget; cases htarget
  have hstep : step s = .next (({ s with sched := rest } : State).acquire p) := step_small hc hs nofun
  rw [acquire_ready (s := { s with sched := rest }) hr htarget] at hstep
  refine ⟨_, hstep, rfl, rfl, port_setPort_self (s := { s with sched := rest }) hp _, ?_⟩
  exact ⟨rfl, rfl, rfl, rfl, rfl, rfl, rfl, rfl, rfl, length_setPort ..,
    fun _ hq => port_setPort_of_ne (s := { s with sched := rest }) hq _, rfl, rfl, rfl, rfl⟩

/-- Settles O35: the step is the cooperative wait. -/
theorem waitingPortStays : Obligations.WaitingPortStays := by
  intro s p rest hc hs hr
  rw [step_small hc hs nofun]
  exact congrArg Host.Outcome.next (acquire_of_ne_ready (s := { s with sched := rest }) hr p)

/-! ## The transition table -/

/-- The state of a hold is a busy one (R39 d). -/
theorem busy_of_holdState {ph : Phase} {f : FlashState} (h : holdState ph = some f) : f.busy = true := by
  cases ph <;> cases h <;> rfl

/-- Settles O36: a host step and a decode step leave the token alone; `acquire`, an event and an event of identification
each have one line of the table. -/
theorem tokenTransitions : Obligations.TokenTransitions := by
  intro s t u h hu ht
  cases u with
  | run a => exact absurd rfl (hu a)
  | submit p w0 w1 w2 payload =>
    cases ht
    have hout := sameOutside_submit s p w0 w1 w2 payload
    exact .inl ⟨hout.fstate, hout.owner⟩
  | collect p =>
    cases ht
    obtain ⟨ctx, host, e, -⟩ := collect_cases s p
    rw [e]
    exact .inl ⟨rfl, rfl⟩
  | decode p =>
    rcases decodeStep_cases ht with rfl | ⟨-, x, hout, -⟩
    · exact .inl ⟨rfl, rfl⟩
    · exact .inl ⟨hout.fstate, hout.owner⟩
  | initEvent =>
    rcases initEvent_cases ht with rfl | ⟨-, hunknown, e, -, he⟩
    · exact .inl ⟨rfl, rfl⟩
    rcases (initStep_summary he).token with hsame | ⟨hready, hnone⟩
    · exact .inl hsame
    · exact .inr (.inl ⟨hunknown, hready, hnone, rfl⟩)
  | acquire p =>
    cases ht
    rcases acquire_cases s p with e | ⟨busy, phase, hr, htarget, e⟩ <;> rw [e]
    · exact .inl ⟨rfl, rfl⟩
    refine .inr (.inr (.inl ⟨hr, p, rfl, rfl, ?_⟩))
    rcases acquireTarget_eq_some.1 htarget with ⟨hph, hb, -⟩ | ⟨hph, hb, -⟩ | ⟨hph, hb, -⟩
    · exact .inl ⟨hph, hb⟩
    · exact .inr (.inl ⟨hph, hb⟩)
    · exact .inr (.inr ⟨hph, hb⟩)
  | event p =>
    rcases portEvent_cases ht with rfl | ⟨e, hn, he⟩
    · exact .inl ⟨rfl, rfl⟩
    obtain ⟨howner, hp, hhold, -⟩ := nextEvent_some hn
    rcases (eventStep_summary hp hhold he).token with hsame | ⟨hready, hnone⟩
    · exact .inl hsame
    · obtain ⟨-, hbusy, -⟩ := h.hold p howner
      exact .inr (.inr (.inr ⟨busy_of_holdState hbusy, hready, hnone, p, rfl, howner⟩))

end Sys2Proof.Machine
end

section
/-! PROOF. The answers laid down are only ever taken, so the pure reference environment stays what it is (20_memory R70,
log 8). -/

namespace Sys2Proof.Machine

/-- Of the answers laid down some may have been taken, the first ones; none has been added. -/
def TakesDraws (s t : State) : Prop := t.env.draws <:+ s.env.draws

theorem TakesDraws.trans {s t u : State} (h : TakesDraws s t) (g : TakesDraws t u) : TakesDraws s u :=
  List.IsSuffix.trans g h

/-- What does not write the answers laid down. -/
theorem TakesDraws.of_eq {s t : State} (h : t.env.draws = s.env.draws) : TakesDraws s t := by
  rw [TakesDraws, h]

@[simp] theorem onChip_draws (e : Env) (f : Chip → Chip) : (e.onChip f).draws = e.draws := by
  unfold Env.onChip
  split <;> rfl

theorem desel_draws {cfg : Config} {e f : Env} (h : e.desel cfg = some f) : f.draws = e.draws := by
  unfold Env.desel at h
  split at h
  · obtain ⟨c, -, rfl⟩ := Option.map_eq_some_iff.1 h; rfl
  · cases h; rfl

theorem draw_takesDraws (s : State) : TakesDraws s s.draw.2 := by
  unfold State.draw
  split
  · rename_i d ds hd
    exact ⟨[d], hd.symm⟩
  · split <;> exact .of_eq rfl

/-- A call takes one answer laid down at most (R41, R117). -/
theorem transport_takesDraws {a : Agent} {e : Event} {s t : State} {r : Answer} (h : transport a e s = .ok (r, t)) :
    TakesDraws s t := by
  have hd := draw_takesDraws s
  cases e with
  | sel =>
    cases h
    exact .of_eq (onChip_draws s.env Chip.sel)
  | desel =>
    simp only [transport, deselCall] at h
    split at h
    · cases h; exact .of_eq (desel_draws ‹_›)
    · cases h
  | wb b =>
    simp only [transport, wbCall] at h
    split at h <;> rename_i hdraw <;> rw [hdraw] at hd <;> cases h
    · exact hd
    · exact hd.trans (.of_eq (onChip_draws ..))
  | wi k =>
    simp only [transport, wiCall] at h
    split at h <;> rename_i hdraw <;> rw [hdraw] at hd <;> cases h <;> exact hd
  | rb =>
    simp only [transport, rbCall] at h
    split at h <;> rename_i hdraw <;> rw [hdraw] at hd
    · cases h; exact hd
    · cases h; exact hd.trans (.of_eq (onChip_draws ..))
    · split at h
      · rename_i hread
        obtain ⟨ix, rfl⟩ := readByte_cases hread
        cases h
        exact hd.trans (.of_eq (onChip_draws ..))
      · cases h

theorem deselIfSelected_takesDraws {a : Agent} {s t : State} (h : deselIfSelected a s = .ok t) : TakesDraws s t := by
  rcases deselIfSelected_cases h with ⟨-, rfl⟩ | ⟨-, h⟩
  · exact .of_eq rfl
  · exact transport_takesDraws h

@[simp] theorem endHold_env (s : State) (p : Nat) : (s.endHold p).env = s.env := by
  have htransfer : (s.completeTransfer p).env = s.env := by
    unfold State.completeTransfer
    rw [creditTransfer_eq]
    simp
  unfold State.endHold
  cases (s.port p).phase with
  | pProg => exact htransfer
  | pRead => exact htransfer
  | _ => rfl

@[simp] theorem advanceEv_env (s : State) (p total : Nat) : (s.advanceEv p total).env = s.env := by
  unfold State.advanceEv
  split
  · exact endHold_env ..
  · rfl

theorem eventStep_takesDraws {p total : Nat} {e : Event} {s t : State} (h : eventStep p total e s = .next t) :
    TakesDraws s t := by
  rcases eventStep_cases h with ⟨r, s1, htr, -, rfl⟩ | ⟨s1, htr, hf⟩
  · refine (transport_takesDraws htr).trans (.of_eq ?_)
    rw [advanceEv_env, deliver_eq, setPort_env]
  · obtain ⟨s2, hd, rfl⟩ := failHold_cases hf
    exact (transport_takesDraws htr).trans ((deselIfSelected_takesDraws hd).trans (.of_eq (by simp)))

theorem initStep_takesDraws {e : Event} {s t : State} (h : initStep e s = .next t) : TakesDraws s t := by
  rcases initStep_cases h with ⟨r, s1, htr, -, rfl⟩ | ⟨s1, htr, hf⟩
  · exact (transport_takesDraws htr).trans (.of_eq (by simp))
  · obtain ⟨s2, hd, rfl⟩ := initFail_cases hf
    exact (transport_takesDraws htr).trans ((deselIfSelected_takesDraws hd).trans (.of_eq rfl))

/-- The draw of an allocation takes no answer (log 9). -/
@[simp] theorem drawAlloc_draws (s : State) : s.drawAlloc.2.env.draws = s.env.draws := by
  obtain ⟨allocs, ix, e⟩ := drawAlloc_cases s
  rw [e]

theorem decodeRead_env (p : Nat) (addr len : Word) (s : State) : (decodeRead p addr len s).env = s.env := by
  by_cases hv : validateRead s.cfg addr len = .ok
  · rw [decodeRead_ok hv]; rfl
  · rw [decodeRead_rejected hv, finish_env]

theorem decodeWrite_draws {p : Nat} {addr len : Word} {payload : List Byte} {s t : State}
    (h : decodeWrite p addr len payload s = .next t) : t.env.draws = s.env.draws := by
  by_cases hv : validateWrite s.cfg addr len = .ok
  · rw [decodeWrite_ok hv] at h
    split at h
    · cases h; simp
    · split at h
      · cases h
      · cases h; exact drawAlloc_draws s
  · rw [decodeWrite_rejected hv] at h
    cases h
    rw [finish_env]

/-- A decode step makes no transport call, so it takes no answer (R36). -/
theorem decodeStep_draws {p : Nat} {s t : State} (h : decodeStep p s = .next t) : t.env.draws = s.env.draws := by
  unfold decodeStep at h
  split at h
  · rcases decodeDescriptor_cases (s.port p).op (s.port p).addr (s.port p).len (s.port p).payload with
      ⟨-, e⟩ | ⟨-, e⟩ | ⟨-, e⟩ | ⟨-, e⟩ | ⟨-, e⟩ <;> rw [e] at h
    · cases h; rw [decodeRead_env]
    · exact decodeWrite_draws h
    · cases h; exact congrArg Env.draws (finish_env ..)
    · cases h; exact congrArg Env.draws (finish_env ..)
    · cases h; rw [finish_env]
  · cases h; rfl

theorem submit_env (s : State) (p : Nat) (w0 w1 w2 : Word) (payload : List Byte) :
    (s.submit p w0 w1 w2 payload).env = s.env := by
  obtain ⟨ctx, e⟩ := submit_eq s p w0 w1 w2 payload
  rw [e]

theorem collect_env (s : State) (p : Nat) : (s.collect p).env = s.env := by
  obtain ⟨ctx, host, e, -⟩ := collect_cases s p
  rw [e]

theorem acquire_env (s : State) (p : Nat) : (s.acquire p).env = s.env := by
  rcases acquire_cases s p with e | ⟨_, _, -, -, e⟩ <;> rw [e]
  rfl

/-- No operation of a step lays down an answer. -/
theorem stepRel_takesDraws : StepRel TakesDraws where
  refl _ := .of_eq rfl
  trans := .trans
  model _ _ _ _ := .of_eq rfl
  submit s p w0 w1 w2 payload := .of_eq (by rw [submit_env])
  collect s p := .of_eq (by rw [collect_env])
  acquire s p := .of_eq (by rw [acquire_env])
  decode h := .of_eq (decodeStep_draws h)
  event := eventStep_takesDraws
  identify := initStep_takesDraws

/-- The pure reference environment stays the pure reference environment (R70). -/
theorem step_reference {s t : State} (h : step s = .next t) (hr : s.env.reference) : t.env.reference := by
  have hd := stepRel_takesDraws.of_step h
  rw [TakesDraws, hr.2, List.suffix_nil] at hd
  exact ⟨(stepRel_sameSetup.of_step h).kind.trans hr.1, hd⟩

end Sys2Proof.Machine
end

section
/-! PROOF. No fairness (42_flash_state_machine R142): one port that reads again and again takes the token in every round,
and a port that waits is passed over for ever. -/

namespace Sys2Proof.Machine

/-- One round of the schedule: the port submits a READ, runs it and has its record collected. -/
def readRound (q : Nat) (addr len : Word) : List Turn := [.submit q 1 addr len [], .run (.port q), .collect q]

/-- What every state of the schedule has: the token is Ready, and the READ of port `q` will be served. -/
structure ReadsForEver (q : Nat) (addr len : Word) (s : State) : Prop where
  inv : s.Inv
  distinct : s.cfg.opcodesDistinct
  reference : s.env.reference
  ready : s.fstate = .ready
  present : q < s.ctx.length
  valid : validateRead s.cfg addr len = .ok
  later : s.later = .again (readRound q addr len)

/-- What the other ports see of some steps: port `p` is where it was, and at least `n` holds more have begun. -/
structure PassedOver (p n : Nat) (s t : State) : Prop where
  port : t.port p = s.port p
  holds : s.holdNo + n ≤ t.holdNo

theorem PassedOver.refl (p : Nat) (s : State) : PassedOver p 0 s s := ⟨rfl, Nat.le_refl _⟩

theorem PassedOver.trans {p m n : Nat} {s t u : State} (h : PassedOver p m s t) (g : PassedOver p n t u) :
    PassedOver p (m + n) s u :=
  ⟨g.port.trans h.port, by have := h.holds; have := g.holds; omega⟩

section

variable {p q : Nat} {addr len : Word} {s : State}

/-- A step of the schedule that leaves the token Ready keeps what every state of it has. -/
theorem ReadsForEver.of_step {t : State} (h : ReadsForEver q addr len s) (ht : step s = .next t)
    (hready : t.fstate = .ready) (hports : t.ctx.length = s.ctx.length) (hlater : t.later = s.later) :
    ReadsForEver q addr len t where
  inv := stepKeepsInvariant s t h.inv ht
  distinct := (stepRel_sameSetup.of_step ht).cfg ▸ h.distinct
  reference := step_reference ht h.reference
  ready := hready
  present := hports ▸ h.present
  valid := (stepRel_sameSetup.of_step ht).cfg ▸ h.valid
  later := hlater.trans h.later

/-- The first step of a round: the READ is submitted (R37). -/
theorem ReadsForEver.submit_step (h : ReadsForEver q addr len s) (hne : p ≠ q) (hs : s.sched = [])
    (hidle : (s.port q).phase = .pIdle) :
    ∃ t, step s = .next t ∧ ReadsForEver q addr len t ∧ t.sched = [.run (.port q), .collect q] ∧
      t.fetchPort q = some (.read addr len) ∧ PassedOver p 0 s t := by
  let v : State := { s with sched := [.run (.port q), .collect q] }
  have hport := submit_port_of_idle (s := v) h.present hidle 1 addr len []
  have hout := sameOutside_submit v q 1 addr len []
  have hstep : step s = .next (v.submit q 1 addr len []) := step_again h.inv.cfgWf hs h.later
  obtain ⟨ctx, e⟩ := submit_eq v q 1 addr len []
  refine ⟨_, hstep, h.of_step hstep (hout.fstate.trans h.ready) hout.ports (by rw [e]), by rw [e], ?_,
    hout.others p hne, by rw [e]; exact Nat.le_refl _⟩
  rw [fetchPort_of_submitted (by rw [hport]), hport]
  rfl

/-- The second step of a round: the READ takes the token, is served and gives the token back (R191, R193). -/
theorem ReadsForEver.run_step (h : ReadsForEver q addr len s) (hne : p ≠ q)
    (hs : s.sched = [.run (.port q), .collect q]) (hf : s.fetchPort q = some (.read addr len)) :
    ∃ t, step s = .next t ∧ ReadsForEver q addr len t ∧ t.sched = [.collect q] ∧ (t.port q).phase = .pDone ∧
      PassedOver p 1 s t := by
  let v : State := { s with sched := [.collect q], active := .port q }
  have hstep : step s = exec (.read addr len) v :=
    (step_scheduled h.inv.cfgWf hs).trans (doTurn_run (s := { s with sched := [.collect q] }) hf)
  obtain ⟨t, rdata, hexec, hidle, hport, -, -, -, hbey, -⟩ :=
    execRead_ok (s := v) (Inv.of_model h.inv [.collect q] (.port q) s.freeIx) h.distinct rfl hf h.valid h.ready
      (reference_answers h.reference _)
  have hkeeps := exec_keepsSchedule hexec
  have hhold := execRead_begins_hold (s := v) rfl hf h.present h.valid h.ready hexec
  have ht := hstep.trans hexec
  exact ⟨t, ht, h.of_step ht hidle.fstate hbey.ports hkeeps.later, hkeeps.sched, by rw [hport]; rfl,
    hbey.others p hne, hhold⟩

/-- The third step of a round: the record is collected, and the port is idle again (R37). -/
theorem ReadsForEver.collect_step (h : ReadsForEver q addr len s) (hne : p ≠ q) (hs : s.sched = [.collect q])
    (hdone : (s.port q).phase = .pDone) :
    ∃ t, step s = .next t ∧ ReadsForEver q addr len t ∧ t.sched = [] ∧ (t.port q).phase = .pIdle ∧
      PassedOver p 0 s t := by
  let v : State := { s with sched := [] }
  have hstep : step s = .next (v.collect q) := step_small h.inv.cfgWf hs nofun
  have hidle : ((v.collect q).port q).phase = .pIdle := collect_idle h.present (.inr hdone)
  rw [collect_of_done (s := v) hdone] at hstep hidle
  exact ⟨_, hstep, h.of_step hstep h.ready (length_setPort ..) rfl, rfl, hidle,
    port_setPort_of_ne (s := v) hne _, Nat.le_refl _⟩

/-- However many steps are taken from the start of a round, each answers a next state, and every third has let a hold
begin. -/
theorem ReadsForEver.passes_over (hne : p ≠ q) : ∀ (n : Nat) {s : State}, ReadsForEver q addr len s → s.sched = [] →
    (s.port q).phase = .pIdle → ∃ t, repeatStep step n s = .next t ∧ PassedOver p (n / 3) s t
  | 0, s, _, _, _ => ⟨s, rfl, .refl p s⟩
  | 1, s, h, hs, hidle => by
    obtain ⟨a, ha, -, -, -, hpa⟩ := h.submit_step hne hs hidle
    exact ⟨a, by simp only [repeatStep, ha, andThen_next], hpa⟩
  | 2, s, h, hs, hidle => by
    obtain ⟨a, ha, hra, hsa, hfa, hpa⟩ := h.submit_step hne hs hidle
    obtain ⟨b, hb, -, -, -, hpb⟩ := hra.run_step hne hsa hfa
    have hp := hpa.trans hpb
    exact ⟨b, by simp only [repeatStep, ha, hb, andThen_next], hp.port, Nat.le_of_succ_le hp.holds⟩
  | n + 3, s, h, hs, hidle => by
    obtain ⟨a, ha, hra, hsa, hfa, hpa⟩ := h.submit_step hne hs hidle
    obtain ⟨b, hb, hrb, hsb, hdb, hpb⟩ := hra.run_step hne hsa hfa
    obtain ⟨c, hc, hrc, hsc, hic, hpc⟩ := hrb.collect_step hne hsb hdb
    obtain ⟨t, ht, hpt⟩ := passes_over hne n hrc hsc hic
    have hp := ((hpa.trans hpb).trans hpc).trans hpt
    exact ⟨t, by simp only [repeatStep, ha, hb, hc, andThen_next, ht], hp.port, by have := hp.holds; omega⟩

end

/-- Settles O52: round after round port `q` finds the token Ready and takes it, and port `p` is never given a turn. -/
theorem waitingPortMayStarve : Obligations.WaitingPortMayStarve := by
  intro s p q addr len h _ hd henv hr hq hne hidle hv hs hl n
  obtain ⟨t, ht, hp⟩ := ReadsForEver.passes_over hne.symm n ⟨h, hd, henv, hr, hq, hv, hl⟩ hs hidle
  exact ⟨t, ht, hp.port, hp.holds⟩

end Sys2Proof.Machine
end

section
/-! PROOF. The ERASE frame and the WRITE command (43_write_and_sector_erase_sequencer): the frame of an erase hold (R161,
R162), the decode step of a valid WRITE (R157, R158), and the whole command (R156). -/

namespace Sys2Proof.Machine

/-! ## The ERASE frame -/

/-- A port stands at an ERASE at the first event of an erase hold of its own, and the operands are its unit (R160). -/
theorem fetch_erase {s : State} {p gran : Nat} {addr : Addr24} (ha : s.active = .port p)
    (hf : s.fetch = some (.erase gran addr)) :
    s.owner = some (.port p) ∧ (s.port p).phase = .pErase ∧ (s.port p).ev = 0 ∧
      gran = (s.port p).gran s.cfg ∧ addr = (s.port p).eraseAddr s.cfg := by
  have hph : (s.port p).phase ≠ .pSubmitted := fun hph => by
    rw [fetch_port ha, fetchPort_of_submitted hph] at hf
    rcases decodeDescriptor_cases (s.port p).op (s.port p).addr (s.port p).len (s.port p).payload with
      ⟨-, e⟩ | ⟨-, e⟩ | ⟨-, e⟩ | ⟨-, e⟩ | ⟨-, e⟩ <;> rw [e] at hf <;> cases hf
  obtain ⟨ho, ⟨hph, hev, hi⟩ | ⟨-, _, hi, -⟩ | ⟨-, -, ⟨-, hi⟩ | ⟨-, hi⟩⟩⟩ := fetched_in_hold ha hf hph <;> cases hi
  exact ⟨ho, hph, hev, rfl, rfl⟩

/-- ERASE is the whole of the erase hold at which its port stands (R161). -/
theorem exec_erase_eq_runHold {s : State} {p gran : Nat} {addr : Addr24} (h : s.Inv) (ha : s.active = .port p)
    (hf : s.fetch = some (.erase gran addr)) : exec (.erase gran addr) s = runHold p s := by
  obtain ⟨-, hph, -, hgran, haddr⟩ := fetch_erase ha hf
  obtain ⟨i, hpart, -⟩ := (writes_of_erase h hph).1.facts h.cfgWf
  rw [exec_frame ha hf (by rw [hph]; nofun), runHold, holdList_erase hpart hph, frameOf, hgran, haddr]

/-- Settles O42: the frame is the whole hold, whose end action counts the unit, and the chip erases that unit. -/
theorem eraseFrameCompletes : Obligations.EraseFrameCompletes := by
  intro s p gran addr h _ hd ha hf hans
  obtain ⟨ho, hph, hev, hgran, haddr⟩ := fetch_erase ha hf
  obtain ⟨t, ht, hidle, hcount, hport, hperf, hbey, -, -, href, hany⟩ := eraseHold_ok h hd ho hph hev hans
  rw [← hgran, ← haddr] at hperf href
  refine ⟨t, (exec_erase_eq_runHold h ha hf).trans ht, hidle, hcount, hport, hperf, hbey, fun a => ?_⟩
  cases hkind : s.env.kind with
  | any => simp [hany hkind]
  | ref => rw [href hkind, Mem.read_erase]; simp only [true_and]

/-! ## The decode step of a valid WRITE -/

section

variable {s : State} {p : Nat} {addr len : Word} {payload : List Byte}

/-- The decode step of a port at a WRITE is the WRITE's own (R36, R157). -/
theorem decodeStep_of_fetch_write (ha : s.active = .port p) (hf : s.fetch = some (.write addr len payload)) :
    decodeStep p s = decodeWrite p addr len payload s := by
  obtain ⟨hph, hdec⟩ := fetchPort_command (fetch_port ha ▸ hf) (.inr (.inl ⟨_, _, _, rfl⟩))
  rw [decodeStep, if_pos hph, hdec]

/-- A WRITE whose decode step leaves a port that cannot acquire is that step alone (R138, R156). -/
theorem execWrite_of_not_canAcquire {t : State} (ha : s.active = .port p)
    (hf : s.fetch = some (.write addr len payload)) (hdec : decodeWrite p addr len payload s = .next t)
    (hca : t.canAcquire p = false) : exec (.write addr len payload) s = .next t :=
  calc exec (.write addr len payload) s
      = andThen (decodeWrite p addr len payload s) (fun w => runHolds p ((w.port p).eraseUnits w.cfg + 1) w) :=
        whenAt_at ha hf
    _ = .next t := by rw [hdec]; exact runHolds_none hca _

end

/-- Settles O26: the draw is taken and the command finishes, and a port that has finished takes no hold. -/
theorem unallocatedWriteFinishes : Obligations.UnallocatedWriteFinishes := by
  intro s p addr len payload ha hf hv hal
  obtain ⟨hph, -⟩ := fetch_write ha hf
  have hp : p < s.ctx.length := lt_of_phase_ne_idle (by rw [hph]; nofun)
  have hdec : decodeWrite p addr len payload s = .next (s.drawAlloc.2.finish p .allocationFailure 0) := by
    rw [decodeWrite_ok hv, if_pos hal]
  have hout := sameOutside_drawAlloc s p
  obtain ⟨buf, hport⟩ := finish_port_done (hout.ports.symm ▸ hp) .allocationFailure 0
  refine ⟨_, buf, execWrite_of_not_canAcquire ha hf hdec (canAcquire_finish ..), ?_,
    hout.trans (sameOutside_finish ..)⟩
  rw [hport, if_pos (.inl (by decide)), drawAlloc_port]

/-- Settles O27: the draw is taken and the payload copied in, and where the token is not Ready the port waits there. -/
theorem validWriteCopiesInAndWaits : Obligations.ValidWriteCopiesInAndWaits := by
  intro s p addr len payload ha hf hv hal hl
  obtain ⟨hph, -⟩ := fetch_write ha hf
  have hp : p < s.ctx.length := lt_of_phase_ne_idle (by rw [hph]; nofun)
  have hdec : decodeWrite p addr len payload s = .next (copyIn p addr len payload s.drawAlloc.2) := by
    rw [decodeWrite_ok hv, if_neg (by rw [hal]; nofun), if_neg (by omega)]
  have hdraw := sameOutside_drawAlloc s p
  have hout : sameOutside p s (copyIn p addr len payload s.drawAlloc.2) := hdraw.trans (sameOutside_setPort ..)
  refine ⟨_, (decodeStep_of_fetch_write ha hf).trans hdec, ?_, hout, fun hbusy =>
    execWrite_of_not_canAcquire ha hf hdec (canAcquire_of_fstate (by rw [hout.fstate]; exact hbusy))⟩
  rw [copyIn, port_setPort_self (hdraw.ports.symm ▸ hp), drawAlloc_port, hdraw.cfg]

/-! ## The whole WRITE -/

/-- Settles O46: the erase sweep, then the program phase. -/
theorem writeCompletes : Obligations.WriteCompletes := by
  intro s p addr len payload h hch hd ha hf hv hal hl hr hans
  obtain ⟨t, buf, hexec, hidle, hport, hcredited, hperf, hbey, -, hflash⟩ :=
    execWrite_ok h hch hd ha hf hv hal hl hr hans
  exact ⟨t, buf, hexec, hidle, hport, hcredited, hperf, hbey, hflash⟩

end Sys2Proof.Machine
end

section
/-! PROOF. The program phase (44_chunked_program_engine): the shape of its event list (R176, R177), and what one of its
cycles leaves (R176, R180). -/

namespace Sys2Proof.Machine

/-! ## The event list -/

/-- Chunks of `n`, cut from a list one after another, are together the list's beginning. -/
theorem flatMap_range_chunks {α : Type} (n q : Nat) (l : List α) :
    (List.range q).flatMap (fun k => (l.drop (n * k)).take n) = l.take (n * q) := by
  induction q with
  | zero => simp
  | succ q ih => rw [List.range_succ, List.flatMap_append, ih, List.flatMap_singleton, Nat.mul_succ, List.take_add]

/-- The cycles of a program hold carry the payload's bytes in order, whatever the address (R177). -/
theorem cycleData_progOperands (addr : Word) (buf : List Byte) :
    cycleData (progOperands addr buf buf.length) = buf := by
  have hfull := flatMap_range_chunks 256 (buf.length / 256) buf
  have htail := flatMap_range_chunks 1 (buf.length % 256) (buf.drop (256 * (buf.length / 256)))
  simp only [Nat.one_mul, List.drop_drop] at htail
  rw [progOperands, cycleData, List.flatMap_append, List.flatMap_map, List.flatMap_map, hfull, htail,
    List.take_of_length_le (l := buf.drop _) (by rw [List.length_drop]; omega), List.take_append_drop]

/-- The program list is its full cycles and then its one-byte cycles, each by its address and data (R177). -/
theorem progList_eq_cycles (c : Config) (addr : Word) (buf : List Byte) (len : Nat) :
    progList c addr buf len =
      (List.range (len / 256)).flatMap
          (fun k => progCycle c (flashAddr addr (256 * k)) ((buf.drop (256 * k)).take 256)) ++
        (List.range (len % 256)).flatMap
          (fun k => progCycle c (flashAddr addr (256 * (len / 256) + k))
            ((buf.drop (256 * (len / 256) + k)).take 1)) := by
  rw [progList, progOperands, List.flatMap_append, List.flatMap_map, List.flatMap_map]

theorem length_flatMap_range {α : Type} {n q : Nat} {f : Nat → List α} (h : ∀ k < q, (f k).length = n) :
    ((List.range q).flatMap f).length = n * q := by
  have hsum := List.sum_eq_card_nsmul ((List.range q).map (fun k => (f k).length)) n (by simpa using h)
  rw [List.length_flatMap, hsum, List.length_map, List.length_range, smul_eq_mul, Nat.mul_comm]

/-- 279 events for each full cycle and 8 for each trailing byte (R176, R177). -/
theorem length_progList (c : Config) (addr : Word) (buf : List Byte) :
    (progList c addr buf buf.length).length = 279 * (buf.length / 256) + 8 * (buf.length % 256) := by
  rw [progList_eq_cycles, List.length_append, length_flatMap_range (n := 279), length_flatMap_range (n := 8)]
  · exact fun k hk => length_progCycle_tail _ _ (by rw [List.length_take, List.length_drop]; omega)
  · exact fun k hk => length_progCycle_full _ _ (by rw [List.length_take, List.length_drop]; omega)

/-- Settles O15: the list by its cycles, its length by theirs, and the data they carry in order. -/
theorem programListShape : Obligations.ProgramListShape := fun c addr buf =>
  ⟨progList_eq_cycles c addr buf buf.length, length_progList c addr buf, progList_ne_nil,
    cycleData_progOperands addr buf⟩

/-! ## One cycle -/

/-- A port stands at a PROGRAM inside a program hold of its own, at a cycle of its list (R177). -/
theorem fetch_program {s : State} {p : Nat} {addr : Addr24} {data : List Byte} (h : s.Inv) (ha : s.active = .port p)
    (hf : s.fetch = some (.program addr data)) :
    s.owner = some (.port p) ∧ (s.port p).phase = .pProg ∧
      (addr, data) ∈ progOperands (s.port p).addr (s.port p).buf (s.port p).lenNat := by
  cases standsAt_of_fetch h ha hf with
  | program o _ hph hmem => exact ⟨h.inHold p (by rw [hph]; rfl), hph, hmem⟩

/-- A cycle of a WRITE has data, and ends inside the flash (R16, R176). -/
theorem cycle_in_flash {cfg : Config} (hw : cfg.wf) {c : Ctx} (h : c.Writes cfg) {o : Addr24 × List Byte}
    (ho : o ∈ progOperands c.addr c.buf c.lenNat) : o.2 ≠ [] ∧ o.1.toNat + o.2.length ≤ flashSize := by
  obtain ⟨hlen, -, hend⟩ := prog_facts hw h ho
  obtain ⟨_, -, -, -, -, -, -, -, hstop, -, -, hwf⟩ := h.facts hw
  refine ⟨fun e => ?_, hend.trans (hstop.trans hwf.2.1)⟩
  rw [e] at hlen
  simp at hlen

/-- A program cycle leaves the chip deselected (R176). -/
theorem progCycle_sel (c : Config) (a : Addr24) (d : List Byte) (b : Bool) :
    (progCycle c a d).foldl (fun b e => selAfter e b) b = false := by
  obtain ⟨l, hl⟩ := progCycle_close c a d
  rw [hl, List.foldl_append]
  rfl

/-- Answered events of a hold, up to its last or not: where they end the list, the end action follows (R118). -/
theorem runEvents_answered {p total : Nat} {es : List Event} {s : State} (hne : es ≠ []) (hp : p < s.ctx.length)
    (ho : s.owner = some (.port p)) (hl : (s.port p).ev + es.length ≤ total) (ha : s.env.answers (asked es))
    (hc : s.env.kind = .ref → ∃ c, chipRun s.cfg es s.env.chip = some c) :
    ∃ rd t, Ran p es rd s t ∧
      runEvents p total es s = .next (if (s.port p).ev + es.length = total then t.endHold p else t) := by
  by_cases hlast : (s.port p).ev + es.length = total
  · obtain ⟨rd, t, ht, hran⟩ := runEvents_last hne hp ho hlast ha hc
    exact ⟨rd, t, hran, by rw [ht, if_pos hlast]⟩
  · obtain ⟨rd, t, ht, hran⟩ := runEvents_ok (total := total) hp ho (by omega) ha hc
    exact ⟨rd, t, hran, by rw [ht, if_neg hlast]⟩

/-- The events of the PROGRAM at which a port stands, each answered; after the last cycle the end action (R176). -/
theorem exec_program_ran {s : State} {p : Nat} {addr : Addr24} {data : List Byte} (h : s.Inv) (ha : s.active = .port p)
    (hf : s.fetch = some (.program addr data)) (hans : s.env.answers (asked (progCycle s.cfg addr data))) :
    ∃ rd t, Ran p (progCycle s.cfg addr data) rd s t ∧
      exec (.program addr data) s =
        .next (if (s.port p).ev + (progCycle s.cfg addr data).length = ((s.port p).holdList s.cfg).length
          then t.endHold p else t) := by
  obtain ⟨ho, hph, hmem⟩ := fetch_program h ha hf
  have hsub : (s.port p).phase ≠ .pSubmitted := by rw [hph]; nofun
  obtain ⟨hne, hfits⟩ := cycle_in_flash h.cfgWf (writes_of_prog h hph).1 hmem
  obtain ⟨hp, -, hlt, -⟩ := h.hold p ho
  obtain ⟨rest, hrest⟩ := fetched_frame (fetch_port ha ▸ hf) hsub
  have hlen := congrArg List.length hrest
  rw [List.length_drop, List.length_append, frameOf] at hlen
  rw [exec_frame ha hf hsub]
  exact runEvents_answered (List.cons_ne_nil _ _) hp ho (by omega) hans
    fun _ => ⟨_, chipRun_progCycle s.env.chip hne hfits⟩

/-- A program cycle ANDs its data into the reference chip's flash and changes no other byte (R70). -/
theorem Ran.progCycle_flash {s t : State} {p : Nat} {addr : Addr24} {data rd : List Byte}
    (hran : Ran p (progCycle s.cfg addr data) rd s t) (hwf : s.env.chip.fl.wf) (hne : data ≠ [])
    (hfits : addr.toNat + data.length ≤ flashSize) (a : Nat) :
    t.env.chip.fl.read a =
      if s.env.kind = .ref ∧ addr.toNat ≤ a ∧ a < addr.toNat + data.length then
        s.env.chip.fl.read a &&& data[a - addr.toNat]?.getD erasedByte
      else s.env.chip.fl.read a := by
  obtain ⟨chip, _, _, rfl, hany, href, -⟩ := hran
  show chip.fl.read a = _
  cases hkind : s.env.kind with
  | any => simp [hany hkind]
  | ref =>
    have hchip := href hkind
    rw [chipRun_progCycle s.env.chip hne hfits, Option.some.injEq] at hchip
    rw [← hchip, Mem.read_program hwf hfits]
    simp only [true_and]

/-- The end action of a program hold, after events that left the chip deselected (R180). -/
theorem Ran.endHold_prog {s t : State} {p : Nat} {es : List Event} {rd : List Byte} (hran : Ran p es rd s t)
    (h : s.Inv) (ho : s.owner = some (.port p)) (hph : (s.port p).phase = .pProg)
    (hsel : es.foldl (fun b e => selAfter e b) s.sel = false) :
    (t.endHold p).idleToken ∧
      credited s.cfg (s.port p).addr (s.port p).lenNat s.xferCount (t.endHold p).xferCount ∧
      ∃ buf, (t.endHold p).port p =
        { s.port p with ev := (s.port p).ev + es.length }.done .ok (s.port p).len [] buf := by
  have hw := (writes_of_prog h hph).1
  obtain ⟨_, -, -, -, -, hlen, -⟩ := hw.facts h.cfgWf
  have hp := (h.hold p ho).1
  have hport := hran.port hp
  have hidle := endHold_idle hran hp (by rw [hph]; rfl) hsel
  obtain ⟨buf, hend, -, hcount⟩ := endHold_transfer (hran.beyond.ports.symm ▸ hp)
    (.inl (by rw [hport]; exact hph))
  have hop : (s.port p).op ≠ opRead := by rw [hw.op]; decide
  have hxfer : t.xferCount = s.xferCount := by
    obtain ⟨_, _, _, rfl, -⟩ := hran; rfl
  rw [hport] at hend hcount
  rw [hran.beyond.cfg, hxfer] at hcount
  refine ⟨hidle, hcount ▸ credited_of_part hw.part hlen s.xferCount, buf, ?_⟩
  rw [hend, if_pos hop]
  rfl

/-- Settles O43: the events of the cycle, and the end action exactly where they end the hold's list. -/
theorem programFrameCompletes : Obligations.ProgramFrameCompletes := by
  intro s p addr data h hch _ ha hf hans
  obtain ⟨ho, hph, hmem⟩ := fetch_program h ha hf
  have hp := (h.hold p ho).1
  obtain ⟨hne, hfits⟩ := cycle_in_flash h.cfgWf (writes_of_prog h hph).1 hmem
  obtain ⟨rd, t, hran, hexec⟩ := exec_program_ran h ha hf hans
  have hport := hran.port hp
  have hflash := hran.progCycle_flash hch.flash hne hfits
  have hsel := progCycle_sel s.cfg addr data s.sel
  by_cases hlast : (s.port p).ev + (progCycle s.cfg addr data).length = ((s.port p).holdList s.cfg).length
  · rw [if_pos hlast] at hexec
    have hth : (holdState (t.port p).phase).isSome := by rw [hport]; simp only [hph]; rfl
    obtain ⟨hbey, htrace, henv, -⟩ := endHold_beyond (hran.beyond.ports.symm ▸ hp) hth
    obtain ⟨hidle, hcredited, hdone⟩ := hran.endHold_prog h ho hph hsel
    refine ⟨_, hexec, ?_, hran.beyond.trans hbey, henv ▸ hflash, fun _ => ⟨hidle, hcredited, hlast ▸ hdone⟩,
      fun hmore => absurd hlast hmore⟩
    rw [performs, htrace]
    exact hran.performs
  · rw [if_neg hlast] at hexec
    refine ⟨t, hexec, hran.performs, hran.beyond, hflash, fun hend => absurd hend hlast, fun _ => ?_⟩
    obtain ⟨_, _, _, rfl, -, -, -, -, hrd⟩ := hran
    exact ⟨rfl, rfl, hsel, rfl, by rw [hport, hrd (by rw [hph]; nofun), List.append_nil]⟩

end Sys2Proof.Machine
end

section
/-! PROOF. READ and its frames (45_read_engine): the decode step of a valid READ (R191), the frame of a read hold (R192,
R193, R195), and the whole command (R191). -/

namespace Sys2Proof.Machine

/-! ## The decode step of a valid READ -/

section

variable {s : State} {p : Nat} {addr len : Word}

/-- The decode step of a port at a READ is the READ's own (R36, R191). -/
theorem decodeStep_of_fetch_read (ha : s.active = .port p) (hf : s.fetch = some (.read addr len)) :
    decodeStep p s = .next (decodeRead p addr len s) := by
  obtain ⟨hph, hdec⟩ := fetchPort_command (fetch_port ha ▸ hf) (.inl ⟨_, _, rfl⟩)
  rw [decodeStep, if_pos hph, hdec]

/-- A READ whose decode step leaves a port that cannot acquire is that step alone (R138, R191). -/
theorem execRead_of_not_canAcquire (ha : s.active = .port p) (hf : s.fetch = some (.read addr len))
    (hca : (decodeRead p addr len s).canAcquire p = false) :
    exec (.read addr len) s = .next (decodeRead p addr len s) :=
  calc exec (.read addr len) s
      = runHolds p 1 (decodeRead p addr len s) := whenAt_at ha hf
    _ = .next (decodeRead p addr len s) := runHolds_none hca 1

end

/-- Settles O28: the partition is latched, and where the token is not Ready the port waits there. -/
theorem validReadWaits : Obligations.ValidReadWaits := by
  intro s p addr len ha hf hv
  obtain ⟨hph, -⟩ := fetch_read ha hf
  have hp : p < s.ctx.length := lt_of_phase_ne_idle (by rw [hph]; nofun)
  have hdec := decodeRead_ok hv p
  have hout : sameOutside p s (decodeRead p addr len s) := hdec ▸ sameOutside_setPort ..
  refine ⟨_, decodeStep_of_fetch_read ha hf, ?_, hout, fun hbusy =>
    execRead_of_not_canAcquire ha hf (canAcquire_of_fstate (by rw [hout.fstate]; exact hbusy))⟩
  rw [hdec, port_setPort_self hp]

/-! ## The FAST_READ and the READ_SLOW frame -/

section

variable {s : State} {p : Nat} {addr : Addr24} {i : Instr}

/-- A port stands at a read frame at the first event of a read hold of its own, and the frame is the one that the
configuration chooses, at the address of the READ (R192, R195). -/
theorem fetch_readFrame (h : s.Inv) (ha : s.active = .port p) (hi : i = .fastRead addr ∨ i = .readSlow addr)
    (hf : s.fetch = some i) :
    s.owner = some (.port p) ∧ (s.port p).phase = .pRead ∧ (s.port p).ev = 0 ∧
      addr = flashAddr (s.port p).addr 0 ∧
      frameOf s.cfg (s.port p).lenNat i = readEvents s.cfg (s.port p).addr (s.port p).lenNat := by
  have hph : (s.port p).phase = .pRead := by
    rcases hi with rfl | rfl <;> cases standsAt_of_fetch h ha hf <;> assumption
  obtain ⟨ho, ⟨e, -⟩ | ⟨e, -⟩ | ⟨-, hev, hframe⟩⟩ := fetched_in_hold ha hf (by rw [hph]; nofun)
  · cases hph.symm.trans e
  · cases hph.symm.trans e
  · refine ⟨ho, hph, hev, ?_⟩
    rcases hframe with ⟨hfast, rfl⟩ | ⟨hslow, rfl⟩
    · obtain e | e := hi <;> cases e
      exact ⟨rfl, by rw [readEvents, hfast]; rfl⟩
    · obtain e | e := hi <;> cases e
      exact ⟨rfl, by rw [readEvents, hslow]; rfl⟩

/-- The event list of a read hold is the one read frame (R191). -/
theorem holdList_of_pRead (h : s.Inv) (hph : (s.port p).phase = .pRead) :
    (s.port p).holdList s.cfg = readEvents s.cfg (s.port p).addr (s.port p).lenNat := by
  obtain ⟨_, hpart, -⟩ := (reads_of_read h hph).1.facts h.cfgWf
  exact holdList_read hpart hph

/-- A read frame is the whole of the read hold at which its port stands (R191). -/
theorem exec_readFrame_eq_runHold (h : s.Inv) (ha : s.active = .port p)
    (hi : i = .fastRead addr ∨ i = .readSlow addr) (hf : s.fetch = some i) : exec i s = runHold p s := by
  obtain ⟨-, hph, -, -, hframe⟩ := fetch_readFrame h ha hi hf
  rw [exec_frame ha hf (by rw [hph]; nofun), runHold, hframe, holdList_of_pRead h hph]

end

/-- Settles O44: the frame is the whole hold, whose end action completes the READ. -/
theorem readFrameCompletes : Obligations.ReadFrameCompletes := by
  intro s p addr i h _ hd ha hi hf hans
  obtain ⟨ho, hph, hev, rfl, hframe⟩ := fetch_readFrame h ha hi hf
  rw [hframe] at hans
  obtain ⟨t, rdata, ht, hidle, hport, hlen, hcredited, hperf, hbey, hflash, href⟩ :=
    readHold_ok h hd ho hph hev hans
  obtain ⟨haddr, -⟩ := read_facts h.cfgWf (reads_of_read h hph).1
  rw [hframe, holdList_of_pRead h hph, haddr]
  exact ⟨t, rdata, (exec_readFrame_eq_runHold h ha hi hf).trans ht, hidle, hport, hlen, hcredited, hperf, hbey,
    fun a => by rw [hflash], href⟩

/-! ## The whole READ -/

/-- Settles O45: the decode step, then the one read hold. -/
theorem readCompletes : Obligations.ReadCompletes := by
  intro s p addr len h _ hd ha hf hv hr hans
  obtain ⟨t, rdata, hexec, hidle, hport, hlen, hcredited, hperf, hbey, hflash, href⟩ :=
    execRead_ok h hd ha hf hv hr hans
  exact ⟨t, rdata, hexec, hidle, hport, hlen, hcredited, hperf, hbey, fun a => by rw [hflash], href⟩

end Sys2Proof.Machine
end

section
/-! PROOF. `validate_write` and `validate_read` (46_address_partition_validator R203, R210): their checks in order, one
equation for each, and what an accepted WRITE may touch (R160, R178, R200). -/

namespace Sys2Proof.Machine

/-! ## The checks, one at a time -/

section

variable {c : Config} {addr len : Word} {i : Fin 3}

/-- Check 1 of `validate_write` (R203). -/
theorem validateWrite_of_len_nonpos (hl : len.toInt ≤ 0) : validateWrite c addr len = .invalidArgument := if_pos hl

/-- Check 2 of `validate_write` (R203). -/
theorem validateWrite_of_unowned (hl : 0 < len.toInt) (ho : owner c addr.toNat = none) :
    validateWrite c addr len = .invalidArgument := by
  rw [validateWrite, if_neg hl.not_ge, ho]

/-- Check 3 of `validate_write`: the Boot partition is never written (R203, R55). -/
theorem validateWrite_of_boot (hl : 0 < len.toInt) (ho : owner c addr.toNat = some i)
    (hr : (c.pt.get i).role = .boot) : validateWrite c addr len = .boundaryError := by
  simp only [validateWrite, if_neg hl.not_ge, ho, if_pos hr]

/-- Check 4 of `validate_write`: a range that overruns its partition, whichever partition it is (R203). -/
theorem validateWrite_of_overrun (hl : 0 < len.toInt) (ho : owner c addr.toNat = some i)
    (he : ((c.pt.get i).stop : Int) < addr.toNat + len.toInt) : validateWrite c addr len = .boundaryError := by
  by_cases hr : (c.pt.get i).role = .boot
  · exact validateWrite_of_boot hl ho hr
  · simp only [validateWrite, if_neg hl.not_ge, ho, if_neg hr, if_pos he]

/-- Checks 5 and 6 of `validate_write`, where those before them pass (R203). -/
theorem validateWrite_of_fits (hl : 0 < len.toInt) (ho : owner c addr.toNat = some i)
    (hr : (c.pt.get i).role ≠ .boot) (he : addr.toNat + len.toInt ≤ (c.pt.get i).stop) :
    validateWrite c addr len =
      if addr.toNat % (c.pt.get i).gran ≠ 0 then .alignmentError
      else if (c.maxLen : Int) < len.toInt then .invalidArgument else .ok := by
  simp only [validateWrite, if_neg hl.not_ge, ho, if_neg hr, if_neg he.not_gt]

/-- Check 1 of `validate_read` (R210). -/
theorem validateRead_of_len_nonpos (hl : len.toInt ≤ 0) : validateRead c addr len = .invalidArgument := if_pos hl

/-- Check 2 of `validate_read` (R210). -/
theorem validateRead_of_unowned (hl : 0 < len.toInt) (ho : owner c addr.toNat = none) :
    validateRead c addr len = .invalidArgument := by
  rw [validateRead, if_neg hl.not_ge, ho]

/-- Checks 3 and 4 of `validate_read`, where those before them pass: no check of role or alignment (R210). -/
theorem validateRead_of_owned (hl : 0 < len.toInt) (ho : owner c addr.toNat = some i) :
    validateRead c addr len =
      if ((c.pt.get i).stop : Int) < addr.toNat + len.toInt then .boundaryError
      else if (c.maxLen : Int) < len.toInt then .invalidArgument else .ok := by
  simp only [validateRead, if_neg hl.not_ge, ho]

end

/-- Settles O17: the rule's examples are evaluated, and each clause is the equation of its check. -/
theorem writeChecksInOrder : Obligations.WriteChecksInOrder := by
  refine ⟨by decide, by decide, by decide, fun c addr len =>
    ⟨validateWrite_of_len_nonpos, validateWrite_of_unowned, fun i hl ho =>
      ⟨validateWrite_of_boot hl ho, fun _ => validateWrite_of_overrun hl ho, ?_, ?_, ?_⟩⟩⟩
  · intro hr he ha
    rw [validateWrite_of_fits hl ho hr he, if_pos ha]
  · intro hr he ha hm
    rw [validateWrite_of_fits hl ho hr he, if_neg (not_not.2 ha), if_pos hm]
  · intro hr he ha hm
    rw [validateWrite_of_fits hl ho hr he, if_neg (not_not.2 ha), if_neg hm.not_gt]

/-- Settles O18: the rule's examples are evaluated, and each clause is the equation of its check. -/
theorem readChecksInOrder : Obligations.ReadChecksInOrder := by
  refine ⟨by decide, by decide, by decide, by decide, fun c addr len =>
    ⟨validateRead_of_len_nonpos, validateRead_of_unowned, fun i hl ho => ⟨?_, ?_, ?_⟩⟩⟩
  · intro he
    rw [validateRead_of_owned hl ho, if_pos he]
  · intro he hm
    rw [validateRead_of_owned hl ho, if_neg he.not_gt, if_pos hm]
  · intro he hm
    rw [validateRead_of_owned hl ho, if_neg he.not_gt, if_neg hm.not_gt]

/-! ## What an accepted WRITE may touch -/

/-- The context of an accepted WRITE once its partition is latched and its payload copied in (R157). -/
def writeRequest (c : Config) (addr len : Word) (buf : List Byte) : Ctx :=
  { Ctx.reset with op := 2, addr := addr, len := len, part := owner c addr.toNat, buf := buf }

/-- Such a context is a WRITE in progress. -/
theorem writeRequest_writes {c : Config} {addr len : Word} {buf : List Byte} (hv : validateWrite c addr len = .ok)
    (hb : buf.length = len.toInt.toNat) : (writeRequest c addr len buf).Writes c :=
  ⟨rfl, hv, rfl, hb⟩

/-- The erase sweep of an accepted WRITE ends inside the partition that owns its address: the partition's end is aligned
as the address is (R160, R54). -/
theorem eraseEnd_le_stop {c : Config} {addr len : Word} {i : Fin 3} (hc : c.wf)
    (hgran : granAt c addr = (c.pt.get i).gran) (hl : 0 < len.toInt)
    (he : addr.toNat + len.toInt ≤ (c.pt.get i).stop) (ha : addr.toNat % (c.pt.get i).gran = 0) :
    eraseEnd c addr len ≤ (c.pt.get i).stop := by
  obtain ⟨-, -, hg, -, -, hstop⟩ := Config.wf_get hc i
  rw [eraseEnd, hgran]
  exact ceilDiv_mul_le hg ha hstop (by omega)

/-- Settles O19: what validation established gives the sweep's two ends, and the partition owns all between them; the
program cycles are those of a WRITE in progress. -/
theorem validatedWriteStaysInside : Obligations.ValidatedWriteStaysInside := by
  intro c addr len buf hc hv hb
  obtain ⟨hl, i, ho, hr, he, ha, hm⟩ := validateWrite_ok hv
  have hgran : granAt c addr = (c.pt.get i).gran := by rw [granAt, ho]; rfl
  have hend := eraseEnd_le_stop hc hgran hl he ha
  obtain ⟨hstart, -⟩ := owner_contains ho
  obtain ⟨-, hcover⟩ := validWrite_range hc hv
  obtain ⟨-, hflash, -⟩ := Config.wf_get hc i
  exact ⟨i, ho, hr, hgran, ha, hl, hm, hstart, by omega, hend, hflash,
    fun a hlo hhi => (owner_eq_some_iff hc).2 ⟨hstart.trans hlo, hhi.trans_le hend⟩,
    fun _ hop => prog_facts hc (writeRequest_writes hv hb) hop⟩

end Sys2Proof.Machine
end

section
/-! PROOF. The commands of 46_address_partition_validator that finish in their decode step: a WRITE that validation
rejects (R204, R233), STATUS and RESET_STATUS (R215, R216). -/

namespace Sys2Proof.Machine

/-- A command that fails, or that is not a READ, finishes with no data (R38, R34). -/
theorem finish_port_done_noData {s : State} {p : Nat} {code : ResultCode} (hp : p < s.ctx.length)
    (h : code ≠ .ok ∨ (s.port p).op ≠ opRead) (count : Word) :
    ∃ buf, (s.finish p code count).port p = (s.port p).done code count [] buf := by
  obtain ⟨buf, hport⟩ := finish_port_done hp code count
  exact ⟨buf, by rw [hport, if_pos h]⟩

/-! ## Rejected WRITEs -/

/-- A WRITE that fails validation finishes with validation's answer, and nothing outside its port changes (R204, R233). -/
theorem exec_write_rejected {s : State} {p : Nat} {addr len : Word} {payload : List Byte} {code : ResultCode}
    (ha : s.active = .port p) (hf : s.fetch = some (.write addr len payload))
    (hv : validateWrite s.cfg addr len = code) (hcode : code ≠ .ok) :
    ∃ t buf, exec (.write addr len payload) s = .next t ∧ t.port p = (s.port p).done code 0 [] buf ∧
      sameOutside p s t := by
  subst hv
  obtain ⟨hph, -⟩ := fetch_write ha hf
  obtain ⟨buf, hport⟩ := finish_port_done_noData (lt_of_phase_ne_idle (by rw [hph]; nofun)) (.inl hcode) 0
  exact ⟨_, buf, execWrite_of_not_canAcquire ha hf (decodeWrite_rejected hcode p payload) (canAcquire_finish ..), hport,
    sameOutside_finish ..⟩

/-- Settles O20: each case is one check of `validate_write`, and what validation rejects changes nothing outside the
port. -/
theorem bootAndMisalignedWritesRejected : Obligations.BootAndMisalignedWritesRejected := by
  intro s p addr len payload i hc ha hf hl hi
  have ho : owner s.cfg addr.toNat = some i := (owner_eq_some_iff hc).2 ((contains_iff _ _).1 hi)
  refine ⟨fun hboot => ?_, fun hover => ?_, fun hr he hmis => ?_⟩
  · exact exec_write_rejected ha hf (validateWrite_of_boot hl ho hboot) nofun
  · exact exec_write_rejected ha hf (validateWrite_of_overrun hl ho hover) nofun
  · have hv : validateWrite s.cfg addr len = .alignmentError := by
      rw [validateWrite_of_fits hl ho hr he, if_pos hmis]
    exact exec_write_rejected ha hf hv nofun

/-! ## The counter -/

/-- Settles O21: STATUS is `finish` with the counter, and a STATUS is no READ. -/
theorem statusReturnsCounter : Obligations.StatusReturnsCounter := by
  intro s p ha hf
  obtain ⟨hph, hop⟩ := fetch_status ha hf
  obtain ⟨buf, hport⟩ := finish_port_done_noData (code := .ok) (lt_of_phase_ne_idle (by rw [hph]; nofun))
    (.inr (by rw [hop]; decide)) s.xferCount
  exact ⟨readCounter p s, buf, whenAt_at ha hf, hport, sameOutside_finish ..⟩

/-- Settles O22: RESET_STATUS is `finish` in the state with the counter cleared, whose ports are those of the state
before. -/
theorem resetStatusClearsCounter : Obligations.ResetStatusClearsCounter := by
  intro s p ha hf
  obtain ⟨hph, hop⟩ := fetch_resetStatus ha hf
  obtain ⟨buf, hport⟩ := finish_port_done_noData (s := { s with xferCount := 0 }) (code := .ok)
    (lt_of_phase_ne_idle (s := s) (by rw [hph]; nofun)) (.inr (show (s.port p).op ≠ opRead by rw [hop]; decide)) 0
  exact ⟨clearCounter p s, buf, whenAt_at ha hf, finish_xferCount .., hport, sameOutside_finish ..⟩

end Sys2Proof.Machine
end

section
/-! PROOF. Where a command fails (60_exceptions): in its decode step, where validation rejects it (R233),
and on the failure path of its hold where an answer is a timeout (R232). -/

namespace Sys2Proof.Machine

/-! ## Rejected commands (R233) -/

/-- Settles O24: the decode step is `finish` with validation's answer, and a port that has finished takes no hold. -/
theorem rejectedReadFinishes : Obligations.RejectedReadFinishes := by
  intro s p addr len ha hf hv
  obtain ⟨hph, -⟩ := fetch_read ha hf
  have hdec := decodeRead_rejected hv p
  obtain ⟨buf, hport⟩ := finish_port_done_noData (lt_of_phase_ne_idle (by rw [hph]; nofun)) (.inl hv) 0
  exact ⟨_, buf, (execRead_of_not_canAcquire ha hf (hdec ▸ canAcquire_finish ..)).trans (congrArg _ hdec), hport,
    sameOutside_finish ..⟩

/-- Settles O25: validation comes before the allocation draw. -/
theorem rejectedWriteFinishes : Obligations.RejectedWriteFinishes :=
  fun _ _ _ _ _ ha hf hv => exec_write_rejected ha hf rfl hv

/-! ## A timeout in a hold (R232) -/

/-- An event of a hold has a next state: it neither faults nor is refused (R16, R232). -/
theorem portEvent_next {s : State} (p : Nat) (h : s.Inv) (hch : s.ChipInv) (hd : s.cfg.opcodesDistinct) :
    ∃ t, portEvent p s = .next t := by
  cases hx : portEvent p s with
  | next t => exact ⟨t, rfl⟩
  | fault f => exact absurd hx (portEvent_ne_fault h hch hd f)
  | refused r => exact absurd hx (portEvent_ne_refused p s r)

/-- The event a port would perform is the one that it performs (R118). -/
theorem portEvent_of_nextEvent {s : State} {p : Nat} {e : Event} (h : s.nextEvent p = some e) :
    portEvent p s = eventStep p ((s.port p).holdList s.cfg).length e s := by
  rw [portEvent, h]

/-- The deselect that is owed touches no port. -/
theorem deselIfSelected_ctx {a : Agent} {s t : State} (h : deselIfSelected a s = .ok t) : t.ctx = s.ctx := by
  rcases deselIfSelected_cases h with ⟨-, rfl⟩ | ⟨-, htr⟩
  · rfl
  · obtain ⟨_, _, _, rfl, -⟩ := transport_cases htr
    rfl

/-- What the failure path of a hold leaves: the record, the free token, and the deselect that was owed as its one call
(R232). -/
theorem failHold_leaves {s t : State} {p : Nat} (hp : p < s.ctx.length) (h : failHold p s = .next t) :
    (∃ buf, t.port p = (s.port p).done .transportTimeout 0 [] buf) ∧ t.idleToken ∧
      t.trace = s.trace ++ if s.sel then [⟨.port p, s.holdNo, .desel, .ok⟩] else [] := by
  obtain ⟨s1, hd, rfl⟩ := failHold_cases h
  obtain ⟨hsel, htrace⟩ := deselIfSelected_leaves hd
  have hctx := deselIfSelected_ctx hd
  obtain ⟨buf, hport⟩ := finish_port_done_noData (s := s1.release) (p := p) (code := .transportTimeout)
    (by rw [release_ctx, hctx]; exact hp) (.inl nofun) 0
  rw [release_port, port_of_ctx hctx] at hport
  exact ⟨⟨buf, hport⟩, ⟨by simp, by simp, by simpa using hsel⟩, by simpa using htrace⟩

/-- An event of a hold that times out is the failure path after the call (R232). -/
theorem eventStep_timeout {p total : Nat} {e : Event} {s : State} (h1 : e ≠ .sel) (h2 : e ≠ .desel)
    (hd : s.draw.1 = .timeout) : eventStep p total e s = failHold p (s.draw.2.logCall (.port p) e .timeout) := by
  rw [eventStep, transport_timeout h1 h2 hd]

/-- Settles O41: no event of a hold faults, so the one that times out ends in R232's failure path; what that leaves
unchanged is what any event of a hold does. -/
theorem holdTimeoutFails : Obligations.HoldTimeoutFails := by
  intro s p e h hch hd hn h1 h2 hdraw
  obtain ⟨t, ht⟩ := portEvent_next p h hch hd
  obtain ⟨-, hp, hh, -⟩ := nextEvent_some hn
  have hstep := portEvent_of_nextEvent hn ▸ ht
  obtain ⟨htr, hsel, -, hctx, hhold, -⟩ := draw_unchanged s
  obtain ⟨⟨buf, hport⟩, hidle, htrace⟩ := failHold_leaves (by rw [logCall_ctx, hctx]; exact hp)
    (eventStep_timeout h1 h2 hdraw ▸ hstep)
  rw [logCall_port, port_of_ctx hctx] at hport
  rw [logCall_trace, logCall_sel, logCall_holdNo, htr, hsel, hhold, List.append_assoc, List.singleton_append] at htrace
  have hsum := eventStep_summary hp hh hstep
  exact ⟨t, buf, ht, hport, hidle, htrace, hsum.xfer (.inr (by rw [hport]; nofun)), hsum.beyond⟩

end Sys2Proof.Machine
end

section
/-! PROOF. The block comes to rest (70_reset_and_hazards): a hold always ends with the token Ready (R262), and in a
quiescent state no step of the block is enabled (R271). -/

namespace Sys2Proof.Machine

/-! ## A hold ends (R262) -/

/-- An event after which the port still holds the token is one further in the same list (R118). -/
theorem event_advances {s t : State} {p : Nat} {e : Event} (hn : s.nextEvent p = some e)
    (ht : eventStep p ((s.port p).holdList s.cfg).length e s = .next t) (ho : t.owner = some (.port p)) :
    (t.port p).holdList t.cfg = (s.port p).holdList s.cfg ∧ (t.port p).ev = (s.port p).ev + 1 := by
  obtain ⟨-, hp, hh, -⟩ := nextEvent_some hn
  obtain ⟨r, draws, chip, ix, rd, -, -, -, rfl⟩ := event_goes_on hp hh ht ho
  have hport := port_setPort_self hp fun c => { c with rdata := c.rdata ++ rd, ev := c.ev + 1 }
  exact ⟨(congrArg (Ctx.holdList s.cfg) hport).trans (holdList_congr rfl rfl rfl rfl rfl rfl), congrArg Ctx.ev hport⟩

/-- The owner of the token has an event to perform (R39 a). -/
theorem nextEvent_of_owner {s : State} {p : Nat} (h : s.Inv) (ho : s.owner = some (.port p)) :
    ∃ e, s.nextEvent p = some e := by
  obtain ⟨-, hh, -⟩ := h.hold p ho
  exact Option.isSome_iff_exists.1 ((nextEvent_isSome h p).2 ⟨by rw [hh]; rfl, ho⟩)

/-- As many events as a hold has left, or more, bring the token back to Ready: each event is one further in the list or
ends the hold, and once it has ended there is no event. -/
theorem repeatEvents_idle {p n : Nat} : ∀ {s : State}, s.Inv → s.ChipInv → s.cfg.opcodesDistinct →
    s.owner = some (.port p) → ((s.port p).holdList s.cfg).length ≤ (s.port p).ev + n →
    ∃ t, repeatStep (portEvent p) n s = .next t ∧ t.idleToken ∧ sameBeyondHold p s t := by
  induction n with
  | zero =>
    intro s h _ _ ho hle
    obtain ⟨-, -, hev, -⟩ := h.hold p ho
    omega
  | succ n ih =>
    intro s h hch hd ho hle
    obtain ⟨e, hn⟩ := nextEvent_of_owner h ho
    obtain ⟨-, hp, hh, -⟩ := nextEvent_some hn
    obtain ⟨s1, hs1⟩ := portEvent_next p h hch hd
    have hstep := portEvent_of_nextEvent hn ▸ hs1
    have hbeyond := (eventStep_summary hp hh hstep).beyond
    rw [repeatStep, hs1, andThen_next]
    by_cases ho1 : s1.owner = some (.port p)
    · obtain ⟨hlist, hev⟩ := event_advances hn hstep ho1
      obtain ⟨t, ht, hidle, hrest⟩ := ih (portEvent_inv h hs1)
        (takeTurn_chipInv s s1 (.event p) h hch nofun hs1) (hbeyond.cfg ▸ hd) ho1 (by rw [hlist, hev]; omega)
      exact ⟨t, ht, hidle, hbeyond.trans hrest⟩
    · exact ⟨s1, repeatStep_fixed (portEvent_free ho1) n, event_ends_idle h hn hstep ho1, hbeyond⟩

/-- Settles O37: the events left of the hold are the length of its list less those done. -/
theorem holdEndsInReady : Obligations.HoldEndsInReady :=
  fun _ _ h hch hd ho => repeatEvents_idle h hch hd ho (by omega)

/-! ## Quiescence (R271) -/

/-- In a quiescent state nothing is enabled: `INIT` and the ports' events need an owner, the ports' other steps a port
that is not idle (R36). -/
theorem quiescent_enabledTurns {s : State} (h : s.quiescent) : s.enabledTurns = [] := by
  refine List.eq_nil_iff_forall_not_mem.2 fun u hu => ?_
  rcases mem_enabledTurns.1 hu with ⟨hinit, -⟩ | ⟨p, hp⟩
  · simp [State.initEnabled, h.owner] at hinit
  · obtain ⟨hidle, -⟩ := h.idle p
    rcases mem_portTurns.1 hp with ⟨hsub, -⟩ | ⟨hacq, -⟩ | ⟨hev, -⟩
    · exact nomatch hidle.symm.trans hsub
    · rw [canAcquire_of_phase (by rw [hidle]; rfl)] at hacq
      cases hacq
    · obtain ⟨e, he⟩ := Option.isSome_iff_exists.1 hev
      exact nomatch h.owner.symm.trans (nextEvent_some he).1

/-- Settles O32: with nothing enabled an unscheduled step takes no turn. -/
theorem quiescentStateStays : Obligations.QuiescentStateStays := by
  intro s hc hq
  have hnil := quiescent_enabledTurns hq
  refine ⟨hnil, fun hs hl => ?_⟩
  obtain ⟨-, -, -, unscheduled⟩ := unscheduledStepIsEnabled
  rcases unscheduled s hc hs hl with ⟨-, hstep⟩ | ⟨u, hu, -⟩
  · exact hstep
  · rw [hnil] at hu
    cases hu

end Sys2Proof.Machine
end
